-- ==== Sys2Proof/Word.lean ====
section
/-! DEFINITION. The 16-bit word of the register window and of sample memory (00_scope.md, "Word"),
and the other fixed widths of the manual that are read as bits. -/

namespace Sys2Proof

/-- A 16-bit quantity, the unit of the register window and of sample memory. -/
abbrev Word := BitVec 16

/-- The 32-bit time counter value that stamps records and events (R46). -/
abbrev Time := BitVec 32

/-- One 24-bit frame of the front-end link (R191). -/
abbrev Frame := BitVec 24

end Sys2Proof
end

