-- ==== Sys2Proof/Machine/Bits.lean ====
section
/-! DEFINITION. The helpers the model's text is written over: replacing one member of a family, an index
taken from a register, saturating counts, the halves of a time, and the levels a frame puts on a data line. -/

namespace Sys2Proof.Machine

/-- `v` with member `i` replaced by `x`. -/
def put {α : Type} {n : Nat} (v : Vector α n) (i : Fin n) (x : α) : Vector α n :=
  v.set i.val x i.isLt

/-- `v` with member `i` changed by `f`. -/
def amend {α : Type} {n : Nat} (v : Vector α n) (i : Fin n) (f : α → α) : Vector α n :=
  put v i (f v[i])

/-- `v` with every member changed by `f`. -/
def mapAll {α β : Type} {n : Nat} (f : α → β) (v : Vector α n) : Vector β n :=
  ⟨⟨v.toList.map f⟩, by simp⟩

/-- The index a register holds, when it is in range (R177, check 3). -/
def index? (n : Nat) (w : Word) : Option (Fin n) :=
  if h : w.toNat < n then some ⟨w.toNat, h⟩ else none

/-- `w + n` on a count that stops at 65535. -/
def satAdd (w : Word) (n : Nat) : Word := BitVec.ofNat 16 (min (w.toNat + n) 65535)

/-- A number as a 16-bit word. -/
def wordOf (n : Nat) : Word := BitVec.ofNat 16 n

/-- One bit as a word of width 1, for packing. -/
def bit (b : Bool) : BitVec 1 := BitVec.ofBool b

/-- The low and the high half of a 32-bit time counter value. -/
def lowHalf (t : Time) : Word := t.extractLsb' 0 16

/-- See `lowHalf`. -/
def highHalf (t : Time) : Word := t.extractLsb' 16 16

/-- R191: an idle data line of the front-end link is held at 1. -/
def idleLevel : Bool := true

/-- R191: a frame on a data line, one level for each LCLK period: a start bit of 0, and then bits 23 down to 0. -/
def lineBits (f : Frame) : List Bool := false :: (List.range 24).map fun i => f.getLsbD (23 - i)

end Sys2Proof.Machine
end

