-- ==== Sys2Proof/Syntax.lean ====
section
/-! DEFINITION. The commands of the part: one constructor per row of spec/opcode_table.json.

A host command is a write of its code to CMD (R174). It takes its parameters from PARAM0–PARAM5 as they stand
when the code is written, so its constructor carries no operand: the parameters are state. The register
accesses carry the word that is written, the front-end frames carry their fields, and the events of
the part's own time carry the object they happen to. -/

namespace Sys2Proof

/-- One arrival at the part, taken whole (R172, R174, R69). -/
inductive Instr where
  /-- ENTRY_WRITE, command code 1 (R11). -/
  | entryWrite
  /-- ENTRY_READ, command code 2 (R14). -/
  | entryRead
  /-- SET_WRITE, command code 3 (R21). -/
  | setWrite
  /-- SET_READ, command code 4 (R22). -/
  | setRead
  /-- SET_ENABLE, command code 5 (R23). -/
  | setEnable
  /-- SET_DISABLE, command code 6 (R35–R37). -/
  | setDisable
  /-- SET_TRIGGER, command code 7 (R25). -/
  | setTrigger
  /-- SET_STOP, command code 8 (R35–R37). -/
  | setStop
  /-- SET_CLEAR, command code 9 (R40). -/
  | setClear
  /-- TIMER_WRITE, command code 10 (R49). -/
  | timerWrite
  /-- TIMER_START, command code 11 (R50). -/
  | timerStart
  /-- TIMER_STOP, command code 12 (R53). -/
  | timerStop
  /-- EXT_WRITE, command code 13 (R56). -/
  | extWrite
  /-- LINK_WRITE, command code 14 (R114). -/
  | linkWrite
  /-- LINK_RESET, command code 15 (R115). -/
  | linkReset
  /-- STREAM_WRITE, command code 16 (R137). -/
  | streamWrite
  /-- STREAM_READ, command code 17 (R138). -/
  | streamRead
  /-- STREAM_ENABLE, command code 18 (R139). -/
  | streamEnable
  /-- STREAM_DISABLE, command code 19 (R140). -/
  | streamDisable
  /-- STREAM_FLUSH, command code 20 (R150). -/
  | streamFlush
  /-- PAGE_OPEN, command code 21 (R152). -/
  | pageOpen
  /-- PAGE_RELEASE, command code 22 (R154). -/
  | pageRelease
  /-- EVENT_POP, command code 23 (R163). -/
  | eventPop
  /-- SOFT_RESET, command code 24 (R181). -/
  | softReset
  /-- A write to CMD of a code that names no command: 0 or 25–65535 (R174, R177). -/
  | unknownCommand (code : Word)
  /-- A write of `value` to PARAM`n` (R174). -/
  | paramWrite (n : Fin 6) (value : Word)
  /-- A write to INTENABLE (R169). -/
  | intenableWrite (value : Word)
  /-- A write to EVMASK (R160). -/
  | evmaskWrite (value : Word)
  /-- A write to INTCAUSE (R168). -/
  | intcauseWrite (value : Word)
  /-- A write to LINKSTAT (R111). -/
  | linkstatWrite (value : Word)
  /-- A read of TIMELO (R47). -/
  | timeloRead
  /-- A read of STRMDATA`stream` (R153). -/
  | strmdataRead (stream : Fin 4)
  /-- A write to a read-only or unassigned word offset of the window (R172). -/
  | ignoredRegisterWrite (offset : BitVec 6) (value : Word)
  /-- RESET is asserted (R183). -/
  | deviceReset
  /-- RESET is released; `ext0` and `ext1` are the levels the first samples find, `true` for high (R46, R55). -/
  | resetRelease (ext0 ext1 : Bool)
  /-- A sample of EXT`line` that finds the level `high` (R55). -/
  | extLevelChange (line : Fin 2) (high : Bool)
  /-- The unit phase of a timer has reached one whole unit and the timer does not expire by it (R51). -/
  | timerUnitComplete (timer : Fin 4)
  /-- The unit phase of a timer has reached one whole unit with remaining 1 (R52). -/
  | timerExpiry (timer : Fin 4)
  /-- The settle timer runs out (R83). -/
  | settleExpiry
  /-- The attempt timeout of the outstanding message expires (R108). -/
  | attemptTimeout
  /-- The flush timer of a stream's filling page expires (R149). -/
  | flushExpiry (stream : Fin 4)
  /-- A SELECT_ACK frame: tag, bits 17–16, payload (R102, R191). -/
  | selectAck (tag : BitVec 2) (flags : BitVec 2) (payload : Word)
  /-- A SAMPLE frame: tag, over-range flag, fault flag, value (R102, R191). -/
  | sample (tag : BitVec 2) (overRange fault : Bool) (value : Word)
  /-- A RESET_ACK frame: tag, bits 17–16, payload (R102, R191). -/
  | resetAck (tag : BitVec 2) (flags : BitVec 2) (payload : Word)
  /-- A frame whose type code is not 9h, Ah or Bh (R102, R191). -/
  | otherTypeFrame (typeCode : BitVec 4) (tag : BitVec 2) (flags : BitVec 2) (payload : Word)
  /-- The arbiter starts the head request (R67). -/
  | start
  /-- One microsecond of the time base (R46). -/
  | timeCounterAdvance
  deriving DecidableEq, Repr

end Sys2Proof
end

