-- ==== Sys2Proof/WellFormed.lean ====
section
/-! DEFINITION. Which terms of `Instr` are commands of the table. Three rows are told apart from others by
the value of an operand; every other operand is exact by its type. -/

namespace Sys2Proof

/-- R174: 1–24 name the commands; 0 and 25–65535 name no command. -/
def namesNoCommand (code : Word) : Bool := code == 0 || 24 < code.toNat

/-- R172: the offsets whose writes act: CMD (01h), PARAM0–PARAM5 (03h–08h), INTCAUSE (09h), INTENABLE (0Ah), LINKSTAT
(0Dh) and EVMASK (2Bh). A write to any other offset of the window, CMDSTAT (02h) among them, is ignored. -/
def writeActs (offset : BitVec 6) : Bool :=
  offset == 0x01 || (3 ≤ offset.toNat && offset.toNat ≤ 0x0A) || offset == 0x0D || offset == 0x2B

/-- R102: a type code other than those of SELECT_ACK (9h), SAMPLE (Ah) and RESET_ACK (Bh). -/
def otherType (typeCode : BitVec 4) : Bool := !(typeCode == 0x9 || typeCode == 0xA || typeCode == 0xB)

/-- The commands of the table. -/
def Instr.wellFormed : Instr → Bool
  | .unknownCommand code => namesNoCommand code
  | .ignoredRegisterWrite offset _ => !writeActs offset
  | .otherTypeFrame typeCode _ _ _ => otherType typeCode
  | .entryWrite | .entryRead | .setWrite | .setRead | .setEnable | .setDisable | .setTrigger | .setStop
  | .setClear | .timerWrite | .timerStart | .timerStop | .extWrite | .linkWrite | .linkReset
  | .streamWrite | .streamRead | .streamEnable | .streamDisable | .streamFlush | .pageOpen
  | .pageRelease | .eventPop | .softReset | .paramWrite _ _ | .intenableWrite _ | .evmaskWrite _
  | .intcauseWrite _ | .linkstatWrite _ | .timeloRead | .strmdataRead _ | .deviceReset
  | .resetRelease _ _ | .extLevelChange _ _ | .timerUnitComplete _ | .timerExpiry _ | .settleExpiry
  | .attemptTimeout | .flushExpiry _ | .selectAck _ _ _ | .sample _ _ _ _ | .resetAck _ _ _
  | .start | .timeCounterAdvance => true

end Sys2Proof
end

