-- ==== Sys2Proof/Decode.lean ====
section
/-! DEFINITION. Which command a word spells. The opcode table gives bits for no row, so `decodeTableWord`
answers none. The manual itself spells commands three ways, and each is a total function here: a host
write of a word to an offset (R172, R174, and the directory of section 10.4), a host read of an offset
that acts (R172), and a 24-bit frame on LIN, which the levels of the line spell bit by bit (R191). -/

namespace Sys2Proof

/-- The command that an opcode-table word spells. No row of the table has bits. -/
def decodeTableWord (_nbits _w : Nat) : Option Instr := none

/-- Section 10.4: the command a code written to CMD names; a code that names none is UNKNOWN_COMMAND. -/
def commandOfCode (code : Word) : Instr :=
  match code.toNat with
  | 1 => .entryWrite
  | 2 => .entryRead
  | 3 => .setWrite
  | 4 => .setRead
  | 5 => .setEnable
  | 6 => .setDisable
  | 7 => .setTrigger
  | 8 => .setStop
  | 9 => .setClear
  | 10 => .timerWrite
  | 11 => .timerStart
  | 12 => .timerStop
  | 13 => .extWrite
  | 14 => .linkWrite
  | 15 => .linkReset
  | 16 => .streamWrite
  | 17 => .streamRead
  | 18 => .streamEnable
  | 19 => .streamDisable
  | 20 => .streamFlush
  | 21 => .pageOpen
  | 22 => .pageRelease
  | 23 => .eventPop
  | 24 => .softReset
  | _ => .unknownCommand code

/-- Section 10.4: the code of a command of the directory. -/
def Instr.code? : Instr → Option (Fin 25)
  | .entryWrite => some 1
  | .entryRead => some 2
  | .setWrite => some 3
  | .setRead => some 4
  | .setEnable => some 5
  | .setDisable => some 6
  | .setTrigger => some 7
  | .setStop => some 8
  | .setClear => some 9
  | .timerWrite => some 10
  | .timerStart => some 11
  | .timerStop => some 12
  | .extWrite => some 13
  | .linkWrite => some 14
  | .linkReset => some 15
  | .streamWrite => some 16
  | .streamRead => some 17
  | .streamEnable => some 18
  | .streamDisable => some 19
  | .streamFlush => some 20
  | .pageOpen => some 21
  | .pageRelease => some 22
  | .eventPop => some 23
  | .softReset => some 24
  | .unknownCommand _ | .paramWrite _ _ | .intenableWrite _ | .evmaskWrite _ | .intcauseWrite _
  | .linkstatWrite _ | .timeloRead | .strmdataRead _ | .ignoredRegisterWrite _ _ | .deviceReset
  | .resetRelease _ _ | .extLevelChange _ _ | .timerUnitComplete _ | .timerExpiry _ | .settleExpiry
  | .attemptTimeout | .flushExpiry _ | .selectAck _ _ _ | .sample _ _ _ _ | .resetAck _ _ _
  | .otherTypeFrame _ _ _ _ | .start | .timeCounterAdvance => none

/-- R172: the command that a host write of `value` at a word offset is. -/
def commandOfWrite (offset : BitVec 6) (value : Word) : Instr :=
  match offset.toNat with
  | 0x01 => commandOfCode value
  | 0x03 => .paramWrite 0 value
  | 0x04 => .paramWrite 1 value
  | 0x05 => .paramWrite 2 value
  | 0x06 => .paramWrite 3 value
  | 0x07 => .paramWrite 4 value
  | 0x08 => .paramWrite 5 value
  | 0x09 => .intcauseWrite value
  | 0x0A => .intenableWrite value
  | 0x0D => .linkstatWrite value
  | 0x2B => .evmaskWrite value
  | _ => .ignoredRegisterWrite offset value

/-- R172: the command that a host read at a word offset is; none for the reads that change nothing. -/
def commandOfRead (offset : BitVec 6) : Option Instr :=
  match offset.toNat with
  | 0x0B => some .timeloRead
  | 0x1C => some (.strmdataRead 0)
  | 0x1D => some (.strmdataRead 1)
  | 0x1E => some (.strmdataRead 2)
  | 0x1F => some (.strmdataRead 3)
  | _ => none

/-- R191: the command that a frame taken from LIN is: type code in bits 23–20, tag in 19–18, over-range
flag in 17, fault flag in 16, payload in 15–0. -/
def commandOfFrame (f : Frame) : Instr :=
  let typeCode := f.extractLsb' 20 4
  let tag := f.extractLsb' 18 2
  let flags := f.extractLsb' 16 2
  let payload := f.extractLsb' 0 16
  match typeCode.toNat with
  | 0x9 => .selectAck tag flags payload
  | 0xA => .sample tag (flags.getLsbD 1) (flags.getLsbD 0) payload
  | 0xB => .resetAck tag flags payload
  | _ => .otherTypeFrame typeCode tag flags payload

/-- R191: the receiver of a data line: no frame on the line, or `left` bits of the present frame still to come. -/
inductive Receiver where
  | idle
  | taking (left : Nat) (bits : Frame)
  deriving DecidableEq, Repr

/-- R191: the level of one LCLK period: idle levels are passed over, a 0 starts a frame, each level after it is the
next bit down, and the frame is taken when its bit 0 has been received. -/
def Receiver.receive (r : Receiver) (level : Bool) : Receiver × Option Frame :=
  match r with
  | .idle => (if level = Machine.idleLevel then .idle else .taking 24 0, none)
  | .taking left bits =>
    if left ≤ 1 then (.idle, some (bits.shiftConcat level))
    else (.taking (left - 1) (bits.shiftConcat level), none)

/-- R191: the commands that the levels of LIN, one for each LCLK period, spell to a receiver. -/
def commandsOfLine : Receiver → List Bool → List Instr
  | _, [] => []
  | r, level :: rest =>
    ((r.receive level).2.map commandOfFrame).toList ++ commandsOfLine (r.receive level).1 rest

end Sys2Proof
end

