-- ==== Sys2Proof/Config.lean ====
section
/-! DEFINITION. The constants of the part. The spec gives one part and no implementation choice, so
nothing here is left open: the model has no free value. -/

namespace Sys2Proof.Config

/-- R173: IDENT reads 2416h at every read. -/
def ident : Word := 0x2416

/-- R134: sample memory is cut into pages of 64 words. -/
abbrev pageWords : Nat := 64

/-- R134: the pages are numbered 0–127. -/
abbrev pages : Nat := 128

/-- R161: the Event Queue never holds more than 32 records. -/
abbrev eventCapacity : Nat := 32

/-- What a word of sample memory that nothing has written holds. DESIGN CHOICE (log entry 3), unsafe: the
spec gives the words no meaning after reset (R156), and lets no reader see one (R134). -/
abbrev unwrittenWord : Word := 0

end Sys2Proof.Config
end

