-- ==== Sys2Proof/Machine/Types.lean ====
section
/-! DEFINITION. The pieces of state of the nine blocks and the host interface, as plain data, each under the
name the manual gives it. Values, reset values and behaviour are in the files after this one. -/

namespace Sys2Proof.Machine

/-! ### Conversion entries (01_conversion_entries.md) -/

/-- R5: how the samples of one execution become one value. -/
inductive Reduction where
  | mean | min | max | span
  deriving DecidableEq, Repr

/-- R7: what the Limit Monitor does when a result enters ABOVE or BELOW. -/
inductive LimitAction where
  | notify | trigger | stopOwn
  deriving DecidableEq, Repr

/-- R8: when a completed entry is recorded. -/
inductive OutputMode where
  | always | zoneChange | silent
  deriving DecidableEq, Repr

/-- R9: where an entry's last evaluated result lay against its window. -/
inductive Zone where
  | unknown | inside | above | below
  deriving DecidableEq, Repr

/-- R1: the twelve programmed fields of an entry. `oversample` is the code 0–6; `low` and `high` are signed
16-bit values in two's complement. -/
structure EntryFields where
  channel : BitVec 5
  gain : BitVec 2
  settle : BitVec 8
  oversample : Fin 7
  reduction : Reduction
  window : Bool
  low : Word
  high : Word
  hysteresis : BitVec 12
  action : LimitAction
  target : Fin 8
  output : OutputMode
  deriving DecidableEq, Repr

/-- R1, R9: one entry of the Entry Table, its programmed fields and its zone. -/
structure Entry where
  fields : EntryFields
  zone : Zone
  deriving DecidableEq, Repr

/-! ### Scan sets (02_scan_sets.md) -/

/-- R18: which timer expiry or line edge reaches a set. -/
inductive TriggerSource where
  | none
  | timer (t : Fin 4)
  | ext (line : Fin 2)
  deriving DecidableEq, Repr

/-- R58: where a trigger arrival comes from. -/
inductive Origin where
  | software
  | timer (t : Fin 4)
  | ext (line : Fin 2)
  | chain
  | limit
  deriving DecidableEq, Repr

/-- R18: what a trigger does at a busy set. -/
inductive OverrunPolicy where
  | drop | defer
  deriving DecidableEq, Repr

/-- R18: what a failed entry does to the scan. `carryOn` is the manual's CONTINUE. -/
inductive FaultPolicy where
  | carryOn | halt
  deriving DecidableEq, Repr

/-- R18: the ten descriptor fields. `passes` 0 is continuous. A chain target stored with presence 0 is kept. -/
structure Descriptor where
  first : Fin 128
  count : Nat
  source : TriggerSource
  priority : Fin 4
  passes : BitVec 8
  overrun : OverrunPolicy
  chainPresent : Bool
  chainTarget : Fin 8
  stream : Fin 4
  preemptible : Bool
  fault : FaultPolicy
  deriving DecidableEq, Repr

/-- R20: the seven set states. -/
inductive SetState where
  | disabled | armed | pending | running | preempted | stopping | halted
  deriving DecidableEq, Repr

/-- R18, R19: one scan set, its descriptor and its run context. While the set is PREEMPTED its cursor, pass
count and pass-start pending are the saved ones (R19). -/
structure ScanSet where
  desc : Descriptor
  state : SetState
  cursor : Nat
  passCount : BitVec 8
  deferred : Bool
  overruns : Word
  completed : Word
  passStart : Bool
  deriving DecidableEq, Repr

/-! ### Triggers and interval timers (03_triggers_and_interval_timers.md) -/

/-- R48: the length of one unit: 1 µs, 10 µs, 100 µs or 1 ms. -/
inductive TimerUnit where
  | us1 | us10 | us100 | ms1
  deriving DecidableEq, Repr

/-- R48: what expiry does to a timer. -/
inductive TimerMode where
  | periodic | oneShot
  deriving DecidableEq, Repr

/-- R48: which line, if any, must be high for the timer to count. -/
inductive Gate where
  | none
  | high (line : Fin 2)
  deriving DecidableEq, Repr

/-- R48: the three states of an interval timer. -/
inductive TimerState where
  | stopped | running | gated
  deriving DecidableEq, Repr

/-- R48: one interval timer. `phase` is the unit phase, 0 to one unit less 1 µs. `unitsDue` is the model's own: the
units completed whose own step, TIMER_UNIT_COMPLETE or TIMER_EXPIRY, has not been taken (log entry 7). -/
structure Timer where
  period : Word
  unit : TimerUnit
  mode : TimerMode
  gate : Gate
  state : TimerState
  remaining : Word
  phase : Nat
  unitsDue : Nat
  deriving DecidableEq, Repr

/-- R56: which changes of level of a line are triggers. -/
inductive EdgeConfig where
  | rising | falling | both
  deriving DecidableEq, Repr

/-- R55, R56: one external trigger line. -/
structure Line where
  edge : EdgeConfig
  high : Bool
  deriving DecidableEq, Repr

/-- The Trigger Unit: the time counter (R46), the TIMEHI latch (R47), the timers (R48) and the lines (R55). -/
structure TriggerUnit where
  time : Time
  timeHi : Word
  timers : Vector Timer 4
  lines : Vector Line 2
  deriving DecidableEq, Repr

/-! ### The Request Queue and the arbiter (04_the_request_queue_and_arbitration.md) -/

/-- R62: NEW, or RESUMED with its saved cursor, saved pass count and saved pass-start pending. -/
inductive RequestKind where
  | new
  | resumed (cursor : Nat) (passCount : BitVec 8) (passStart : Bool)
  deriving DecidableEq, Repr

/-- R62: a scan request. `stamp` is the place of its arrival stamp in the issue order since the last reset;
the 16-bit number the stamp carries is `stamp` modulo 65536 (R63, log entry 8). -/
structure Request where
  set : Fin 8
  priority : Fin 4
  stamp : Nat
  kind : RequestKind
  deriving DecidableEq, Repr

/-- R63, R64: the Request Queue, head first, and how many stamps have been issued since the last reset. The
16-bit arrival counter is `issued` modulo 65536. -/
structure Arbiter where
  queue : List Request
  issued : Nat
  deriving DecidableEq, Repr

/-! ### The Conversion Engine (05_the_conversion_engine.md) -/

/-- R93: a channel and gain the front end has acknowledged. -/
structure Selection where
  channel : BitVec 5
  gain : BitVec 2
  deriving DecidableEq, Repr

/-- R78, R85: the samples taken so far, folded. -/
structure Accumulator where
  sum : Int
  minimum : Option Int
  maximum : Option Int
  deriving DecidableEq, Repr

/-- R78: the drain cause held while DRAINING: HOST_STOP or HOST_DISABLE. -/
inductive DrainCause where
  | hostStop | hostDisable
  deriving DecidableEq, Repr

/-- R79: the engine states that hold a request. `settling` holds the microseconds of the settle timer still
to come, `draining` the drain cause. -/
inductive Phase where
  | selecting
  | settling (left : Nat)
  | converting
  | draining (cause : DrainCause)
  deriving DecidableEq, Repr

/-- R78: what the engine holds in every state but IDLE: the request, the entry in progress and its snapshot,
the samples taken, the accumulator and the clipped flag. Retries used is in the link's outstanding
message (R104), and the held set's cursor and pass count are in its run context (R19). -/
structure Execution where
  request : Request
  entry : Fin 128
  snapshot : EntryFields
  samples : Nat
  acc : Accumulator
  clipped : Bool
  phase : Phase
  deriving DecidableEq, Repr

/-- R78, R79: the engine is IDLE exactly when `held` is absent. The current selection outlives requests. -/
structure Engine where
  held : Option Execution
  selection : Option Selection
  deriving DecidableEq, Repr

/-- R87: how an entry ends. -/
inductive Status where
  | ok | clipped | noResponse | feFault
  deriving DecidableEq, Repr

/-! ### The Front-End Link (06_the_front_end_link.md) -/

/-- R105: the link state. -/
inductive LinkState where
  | down | resetting | up
  deriving DecidableEq, Repr

/-- R102: the three kinds of message the part sends. -/
inductive Message where
  | select (sel : Selection)
  | convert
  | resetFe
  deriving DecidableEq, Repr

/-- R104: the message awaiting its answer, its tag, the advances of the time counter still to come before
the attempt in flight times out, and its retries used. -/
structure Outstanding where
  message : Message
  tag : BitVec 2
  left : Nat
  retries : Nat
  deriving DecidableEq, Repr

/-- R104: the link record. `lout` is the model's own: the levels LOUT has carried for the frames sent since the last
device reset, oldest first, one for each LCLK period of a frame; the line is idle between frames and after the last
(R191, log entry 5). -/
structure Link where
  state : LinkState
  resetPending : Bool
  failures : Nat
  outstanding : Option Outstanding
  selectTimeout : Nat
  conversionTimeout : Nat
  retryLimit : Nat
  threshold : Nat
  tagCounter : BitVec 2
  straySeen : Bool
  protocolError : Bool
  lout : List Bool
  deriving DecidableEq, Repr

/-! ### Sample memory and streams (08_sample_memory_and_streams.md) -/

/-- R134: the 8192 words of sample memory, as the written cells (word address, word) in canonical form:
addresses strictly rising, no cell holding `Config.unwrittenWord`. -/
abbrev Memory := List (Nat × Word)

/-- R135: what a record does when no page can be had within the quota. -/
inductive OverflowPolicy where
  | dropNew | reclaimOldest
  deriving DecidableEq, Repr

/-- R135: the configuration STREAM_WRITE replaces. `flush` is in milliseconds, 0 for no expiry. -/
structure StreamConfig where
  quota : Nat
  policy : OverflowPolicy
  timestamps : Bool
  flush : Word
  threshold : Nat
  deriving DecidableEq, Repr

/-- R136: the filling page with its counts, its sequence and its open time. The flush timer runs from the
open time (R149). -/
structure FillingPage where
  page : Fin 128
  seq : Word
  words : Nat
  records : Nat
  openTime : Time
  deriving DecidableEq, Repr

/-- R136, R148: a closed page, in the full queue or as the host page. -/
structure ClosedPage where
  page : Fin 128
  seq : Word
  words : Nat
  records : Nat
  flushed : Bool
  deriving DecidableEq, Repr

/-- R135, R136: one stream. -/
structure Stream where
  config : StreamConfig
  enabled : Bool
  filling : Option FillingPage
  full : List ClosedPage
  host : Option ClosedPage
  readPointer : Nat
  nextSeq : Word
  loss : Word
  written : Word
  readPast : Bool
  deriving DecidableEq, Repr

/-- The Stream Manager: sample memory, the free pool, head first (R134), and the four streams. -/
structure StreamManager where
  memory : Memory
  pool : List (Fin 128)
  streams : Vector Stream 4
  deriving DecidableEq, Repr

/-- R190: the three kinds of record. -/
inductive RecordKind where
  | result | loss | stop
  deriving DecidableEq, Repr

/-- R141: a record, before the stream gives it a timestamp. `mark` is the pass-start mark. -/
structure Record where
  kind : RecordKind
  status : Status
  set : Fin 8
  entry : Fin 128
  mark : Bool
  value : Word
  deriving DecidableEq, Repr

/-- R34: why a scan ended early. -/
inductive StopCause where
  | hostStop | hostDisable | limit | halt
  deriving DecidableEq, Repr

/-! ### Events and interrupt (09_events_and_interrupt.md) -/

/-- R159: the fourteen event kinds, each with the fields it carries. -/
inductive EventBody where
  | limitAbove (set : Fin 8) (entry : Fin 128) (value : Word)
  | limitBelow (set : Fin 8) (entry : Fin 128) (value : Word)
  | limitInside (set : Fin 8) (entry : Fin 128) (value : Word)
  | scanDone (set : Fin 8) (completed : Word)
  | scanStopped (set : Fin 8)
  | setHalted (set : Fin 8) (entry : Fin 128) (status : Status)
  | entryFailed (set : Fin 8) (entry : Fin 128) (status : Status)
  | triggerOverrun (set : Fin 8) (origin : Origin)
  | linkDown (threshold : Nat)
  | linkUp
  | linkResetFailed
  | streamLoss (stream : Fin 4)
  | pageReclaimed (stream : Fin 4) (seq : Word)
  | eventsLost (count : Word)
  deriving DecidableEq, Repr

/-- R158: an event record, with the time counter when it was appended. -/
structure EventRecord where
  body : EventBody
  time : Time
  deriving DecidableEq, Repr

/-- R161: the Event Queue, head first, its lost-event count and EVMASK (R160). -/
structure EventQueue where
  records : List EventRecord
  lost : Word
  mask : Word
  deriving DecidableEq, Repr

/-! ### The host interface (10_register_window_commands_and_formats.md) -/

/-- R175: the command port's state. -/
inductive PortState where
  | idle | inProgress | done
  deriving DecidableEq, Repr

/-- R176: the ten result codes. -/
inductive Result where
  | ok | busy | unknownCommand | badIndex | badState | inUse | badConfig | noPage | noEvent | abandoned
  deriving DecidableEq, Repr

/-- R175: the command port: its state, the result and the code of the command the state belongs to. -/
structure Port where
  state : PortState
  result : Result
  command : Fin 25
  deriving DecidableEq, Repr

/-- The host interface: the command port, PARAM0–PARAM5 (R174), INTENABLE (R169), COMMAND_DONE (R168), and
the model's own `data`: the word the last modelled read left on D15–D0 (log entry 4). -/
structure HostInterface where
  port : Port
  params : Vector Word 6
  intenable : Word
  commandDone : Bool
  data : Word
  deriving DecidableEq, Repr

end Sys2Proof.Machine
end

