-- ==== Sys2Proof/Machine/Codes.lean ====
section
/-! DEFINITION. The numeric codes the manual gives its names, and, for the fields a host writes, the names
its codes give (`none` for a code out of range). -/

namespace Sys2Proof.Machine

/-! ### Entries (R1) -/

def Reduction.code : Reduction → BitVec 2
  | .mean => 0 | .min => 1 | .max => 2 | .span => 3

/-- R5. Every 2-bit code names a reduction. -/
def Reduction.ofCode (c : BitVec 2) : Reduction :=
  match c.toNat with
  | 0 => .mean | 1 => .min | 2 => .max | _ => .span

def LimitAction.code : LimitAction → BitVec 2
  | .notify => 0 | .trigger => 1 | .stopOwn => 2

/-- R7; code 3 is out of range (R11, R184). -/
def LimitAction.ofCode? (c : BitVec 2) : Option LimitAction :=
  match c.toNat with
  | 0 => some .notify | 1 => some .trigger | 2 => some .stopOwn | _ => none

def OutputMode.code : OutputMode → BitVec 2
  | .always => 0 | .zoneChange => 1 | .silent => 2

/-- R8; code 3 is out of range. -/
def OutputMode.ofCode? (c : BitVec 2) : Option OutputMode :=
  match c.toNat with
  | 0 => some .always | 1 => some .zoneChange | 2 => some .silent | _ => none

/-- R1. -/
def Zone.code : Zone → BitVec 2
  | .unknown => 0 | .inside => 1 | .above => 2 | .below => 3

/-- R4: the count is 2 raised to the code. -/
def EntryFields.conversions (f : EntryFields) : Nat := 2 ^ f.oversample.val

/-! ### Scan sets (R18, R20, R58) -/

def TriggerSource.code : TriggerSource → BitVec 3
  | .none => 0
  | .timer t => BitVec.ofNat 3 (1 + t.val)
  | .ext l => BitVec.ofNat 3 (5 + l.val)

/-- R18; code 7 is out of range. -/
def TriggerSource.ofCode? (c : BitVec 3) : Option TriggerSource :=
  match c.toNat with
  | 0 => some .none
  | 1 => some (.timer 0) | 2 => some (.timer 1) | 3 => some (.timer 2) | 4 => some (.timer 3)
  | 5 => some (.ext 0) | 6 => some (.ext 1)
  | _ => Option.none

/-- R58. -/
def Origin.code : Origin → Nat
  | .software => 0
  | .timer t => 1 + t.val
  | .ext l => 5 + l.val
  | .chain => 7
  | .limit => 8

def OverrunPolicy.bit : OverrunPolicy → Bool
  | .drop => false | .defer => true

def OverrunPolicy.ofBit (b : Bool) : OverrunPolicy := if b then .defer else .drop

def FaultPolicy.bit : FaultPolicy → Bool
  | .carryOn => false | .halt => true

def FaultPolicy.ofBit (b : Bool) : FaultPolicy := if b then .halt else .carryOn

/-- R20. -/
def SetState.code : SetState → BitVec 3
  | .disabled => 0 | .armed => 1 | .pending => 2 | .running => 3 | .preempted => 4 | .stopping => 5
  | .halted => 6

/-! ### Timers and lines (R48, R56) -/

/-- R48: the length of one unit in microseconds. -/
def TimerUnit.micros : TimerUnit → Nat
  | .us1 => 1 | .us10 => 10 | .us100 => 100 | .ms1 => 1000

/-- R48. Every 2-bit code names a unit. -/
def TimerUnit.ofCode (c : BitVec 2) : TimerUnit :=
  match c.toNat with
  | 0 => .us1 | 1 => .us10 | 2 => .us100 | _ => .ms1

/-- R48. -/
def TimerMode.ofBit (b : Bool) : TimerMode := if b then .oneShot else .periodic

/-- R48; code 3 is out of range. -/
def Gate.ofCode? (c : BitVec 2) : Option Gate :=
  match c.toNat with
  | 0 => some .none | 1 => some (.high 0) | 2 => some (.high 1) | _ => Option.none

/-- R48. -/
def TimerState.code : TimerState → BitVec 2
  | .stopped => 0 | .running => 1 | .gated => 2

def EdgeConfig.code : EdgeConfig → BitVec 2
  | .rising => 0 | .falling => 1 | .both => 2

/-- R56; a code above 2 is out of range. -/
def EdgeConfig.ofWord? (w : Word) : Option EdgeConfig :=
  match w.toNat with
  | 0 => some .rising | 1 => some .falling | 2 => some .both | _ => none

/-! ### Queue, engine and link (R62, R79, R105, R191) -/

/-- R187: head kind, 0 NEW, 1 RESUMED. -/
def RequestKind.bit : RequestKind → Bool
  | .new => false | .resumed _ _ _ => true

/-- R63: the 16-bit number an issued stamp carries. -/
def Request.stampNumber (r : Request) : Word := wordOf r.stamp

/-- R63: the 16-bit arrival counter, the number of the next stamp. -/
def Arbiter.counter (a : Arbiter) : Word := wordOf a.issued

/-- R79: the engine state code; 0 when IDLE. -/
def Engine.code (e : Engine) : BitVec 3 :=
  match e.held with
  | none => 0
  | some x =>
    match x.phase with
    | .selecting => 1 | .settling _ => 2 | .converting => 3 | .draining _ => 4

/-- R105. -/
def LinkState.code : LinkState → BitVec 2
  | .down => 0 | .resetting => 1 | .up => 2

/-- R191: the frame of a message: type code, tag, bits 17–16 zero, payload. -/
def Message.frame (m : Message) (tag : BitVec 2) : Frame :=
  match m with
  | .select sel => 0x1#4 ++ tag ++ 0#2 ++ (0#6 ++ sel.gain ++ 0#3 ++ sel.channel)
  | .convert => 0x2#4 ++ tag ++ 0#2 ++ 0#16
  | .resetFe => 0x3#4 ++ tag ++ 0#2 ++ 0#16

/-! ### Records (R34, R87, R190) -/

/-- R87. -/
def Status.code : Status → BitVec 2
  | .ok => 0 | .clipped => 1 | .noResponse => 2 | .feFault => 3

/-- R87: OK and CLIPPED are successful outcomes. -/
def Status.success : Status → Bool
  | .ok | .clipped => true
  | .noResponse | .feFault => false

/-- R190. -/
def RecordKind.code : RecordKind → BitVec 2
  | .result => 0 | .loss => 1 | .stop => 2

/-- R34. -/
def StopCause.code : StopCause → BitVec 8
  | .hostStop => 1 | .hostDisable => 2 | .limit => 3 | .halt => 4

/-- R95. -/
def DrainCause.stopCause : DrainCause → StopCause
  | .hostStop => .hostStop | .hostDisable => .hostDisable

/-- R190: the header word of a record in a stream whose timestamps setting is `ts`. -/
def Record.header (r : Record) (ts : Bool) : Word :=
  r.kind.code ++ bit ts ++ r.status.code ++ BitVec.ofFin (w := 3) r.set ++ bit r.mark ++
    BitVec.ofFin (w := 7) r.entry

/-- R141: the words of a record, with the timestamp halves when the stream has timestamps on. -/
def Record.words (r : Record) (ts : Bool) (now : Time) : List Word :=
  r.header ts :: r.value :: (if ts then [lowHalf now, highHalf now] else [])

/-- R141: every record of a stream has the length its timestamps setting gives. -/
def recordLength (ts : Bool) : Nat := if ts then 4 else 2

/-- R135, R186. -/
def OverflowPolicy.bit : OverflowPolicy → Bool
  | .dropNew => false | .reclaimOldest => true

def OverflowPolicy.ofBit (b : Bool) : OverflowPolicy := if b then .reclaimOldest else .dropNew

/-! ### Events (R159) -/

/-- R159: the kind code, 1–14. -/
def EventBody.kind : EventBody → Nat
  | .limitAbove _ _ _ => 1
  | .limitBelow _ _ _ => 2
  | .limitInside _ _ _ => 3
  | .scanDone _ _ => 4
  | .scanStopped _ => 5
  | .setHalted _ _ _ => 6
  | .entryFailed _ _ _ => 7
  | .triggerOverrun _ _ => 8
  | .linkDown _ => 9
  | .linkUp => 10
  | .linkResetFailed => 11
  | .streamLoss _ => 12
  | .pageReclaimed _ _ => 13
  | .eventsLost _ => 14

/-- R159: the set an event carries. -/
def EventBody.set? : EventBody → Option (Fin 8)
  | .limitAbove k _ _ | .limitBelow k _ _ | .limitInside k _ _ => some k
  | .scanDone k _ | .scanStopped k | .setHalted k _ _ | .entryFailed k _ _ | .triggerOverrun k _ => some k
  | .linkDown _ | .linkUp | .linkResetFailed | .streamLoss _ | .pageReclaimed _ _ | .eventsLost _ => none

/-- R159: the entry an event carries. -/
def EventBody.entry? : EventBody → Option (Fin 128)
  | .limitAbove _ e _ | .limitBelow _ e _ | .limitInside _ e _ => some e
  | .setHalted _ e _ | .entryFailed _ e _ => some e
  | .scanDone _ _ | .scanStopped _ | .triggerOverrun _ _ | .linkDown _ | .linkUp | .linkResetFailed
  | .streamLoss _ | .pageReclaimed _ _ | .eventsLost _ => none

/-- R159: the stream an event carries. -/
def EventBody.stream? : EventBody → Option (Fin 4)
  | .streamLoss k | .pageReclaimed k _ => some k
  | .limitAbove _ _ _ | .limitBelow _ _ _ | .limitInside _ _ _ | .scanDone _ _ | .scanStopped _
  | .setHalted _ _ _ | .entryFailed _ _ _ | .triggerOverrun _ _ | .linkDown _ | .linkUp
  | .linkResetFailed | .eventsLost _ => none

/-- R159: the detail; a kind without one carries 0. -/
def EventBody.detail : EventBody → Word
  | .limitAbove _ _ v | .limitBelow _ _ v | .limitInside _ _ v => v
  | .scanDone _ n => n
  | .scanStopped _ => 3
  | .setHalted _ _ st | .entryFailed _ _ st => st.code.setWidth 16
  | .triggerOverrun _ o => wordOf o.code
  | .linkDown t => wordOf t
  | .linkUp | .linkResetFailed | .streamLoss _ => 0
  | .pageReclaimed _ q => q
  | .eventsLost n => n

/-! ### The command port (R175, R176) -/

/-- R175. -/
def PortState.code : PortState → BitVec 2
  | .idle => 0 | .inProgress => 1 | .done => 2

/-- R176. -/
def Result.code : Result → BitVec 4
  | .ok => 0 | .busy => 1 | .unknownCommand => 2 | .badIndex => 3 | .badState => 4 | .inUse => 5
  | .badConfig => 6 | .noPage => 7 | .noEvent => 8 | .abandoned => 9

end Sys2Proof.Machine
end

