-- ==== Sys2Proof/Machine/Defaults.lean ====
section
/-! DEFINITION. The value of every piece of state after device reset, by the rule of each block. -/

namespace Sys2Proof.Machine

/-- R16. -/
def EntryFields.default : EntryFields :=
  { channel := 0, gain := 0, settle := 0, oversample := 0, reduction := .mean, window := false,
    low := 0, high := 0, hysteresis := 0, action := .notify, target := 0, output := .always }

/-- R16. -/
def Entry.default : Entry := { fields := .default, zone := .unknown }

/-- R44. -/
def Descriptor.default : Descriptor :=
  { first := 0, count := 1, source := .none, priority := 0, passes := 1, overrun := .drop,
    chainPresent := false, chainTarget := 0, stream := 0, preemptible := true, fault := .carryOn }

/-- R44, R45: a run context with every item at its reset value, over a descriptor. -/
def ScanSet.fresh (d : Descriptor) : ScanSet :=
  { desc := d, state := .disabled, cursor := 0, passCount := 0, deferred := false, overruns := 0,
    completed := 0, passStart := false }

/-- R60. No unit is due in the model's own count (log entry 7). -/
def Timer.default : Timer :=
  { period := 1, unit := .us1, mode := .periodic, gate := .none, state := .stopped, remaining := 1,
    phase := 0, unitsDue := 0 }

/-- R60: RISING. The held level is set by the first sample, at the release of RESET; while RESET is asserted the
model holds low (DESIGN CHOICE, log entry 2). -/
def Line.default : Line := { edge := .rising, high := false }

/-- R60. -/
def TriggerUnit.default : TriggerUnit :=
  { time := 0, timeHi := 0, timers := .replicate 4 .default, lines := .replicate 2 .default }

/-- R77. -/
def Arbiter.default : Arbiter := { queue := [], issued := 0 }

/-- R100. -/
def Engine.default : Engine := { held := none, selection := none }

/-- R119. -/
def Link.default : Link :=
  { state := .down, resetPending := false, failures := 0, outstanding := none, selectTimeout := 20,
    conversionTimeout := 50, retryLimit := 1, threshold := 4, tagCounter := 0, straySeen := false,
    protocolError := false, lout := [] }

/-- R156. -/
def StreamConfig.default : StreamConfig :=
  { quota := 32, policy := .dropNew, timestamps := false, flush := 0, threshold := 1 }

/-- R156, R157: a stream with no page and its counters 0, over its configuration and enabled flag. -/
def Stream.fresh (c : StreamConfig) (enabled : Bool) : Stream :=
  { config := c, enabled := enabled, filling := none, full := [], host := none, readPointer := 0,
    nextSeq := 0, loss := 0, written := 0, readPast := false }

/-- R134, R156: pages 0–127 ascending, page 0 at the head. -/
def fullPool : List (Fin 128) := List.finRange 128

/-- R156. The words of sample memory are given no meaning by the reset; no cell is listed. -/
def StreamManager.default : StreamManager :=
  { memory := [], pool := fullPool, streams := .replicate 4 (.fresh .default false) }

/-- R170, R188: all thirteen maskable kinds enabled, 3FFEh. -/
def EventQueue.default : EventQueue := { records := [], lost := 0, mask := 0x3FFE }

/-- R183, R170. `data` 0 is the model's own (log entry 4). -/
def HostInterface.default : HostInterface :=
  { port := { state := .idle, result := .ok, command := 0 }, params := .replicate 6 0, intenable := 0,
    commandDone := false, data := 0 }

end Sys2Proof.Machine
end

