-- ==== Sys2Proof/Machine/State.lean ====
section
/-! DEFINITION. The machine's state, its state after reset, and the reasons a step can stop. -/

namespace Sys2Proof.Machine

/-- Every piece of state the manual gives the part, block by block, and the queue of arrivals waiting to be
taken, first in, first out. -/
structure State where
  /-- The arrivals waiting, head first (the model's own, log entry 1). -/
  pending : List Instr
  /-- Whether RESET is asserted (R46, R172). -/
  resetAsserted : Bool
  /-- The Entry Table (R1). -/
  entries : Vector Entry 128
  /-- The eight scan sets (R18, R19). -/
  sets : Vector ScanSet 8
  /-- The time counter, timers and lines (R46, R48, R55). -/
  triggers : TriggerUnit
  /-- The Request Queue and the arrival counter (R63, R64). -/
  arbiter : Arbiter
  /-- The Conversion Engine (R78). -/
  engine : Engine
  /-- The Front-End Link (R104). -/
  link : Link
  /-- Sample memory, the free pool and the streams (R134–R136). -/
  streams : StreamManager
  /-- The Event Queue (R158, R161). -/
  events : EventQueue
  /-- The command port, the parameter registers and the interrupt registers (R168, R169, R174, R175). -/
  host : HostInterface
  deriving DecidableEq, Repr

/-- No rule of the manual stops the part, so the machine has no fault. -/
inductive Fault where
  deriving DecidableEq, Repr

/-- Why a term of `Instr` has no meaning. -/
inductive Refusal where
  /-- Raised by an arm of `exec` whose command has no meaning yet. Safe: nothing is claimed of it. -/
  | notModelled (mnemonic : String)
  /-- Raised by UNKNOWN_COMMAND, IGNORED_REGISTER_WRITE and OTHER_TYPE_FRAME on a term that `Instr.wellFormed`
  refuses: its operand spells another command of the table (R172, R174, R102). Safe: no command is refused. -/
  | namesAnotherCommand
  deriving DecidableEq, Repr

/-- What a step answers. -/
abbrev Answer := Host.Outcome State Fault Refusal

/-- The part just after device reset, RESET released with both lines low (log entry 2), and no arrival waiting:
R16, R44, R60, R77, R100, R119, R156, R170, R183. -/
def State.reset : State :=
  { pending := [], resetAsserted := false, entries := .replicate 128 .default,
    sets := .replicate 8 (.fresh .default), triggers := .default, arbiter := .default,
    engine := .default, link := .default, streams := .default, events := .default, host := .default }

end Sys2Proof.Machine
end

