-- ==== Sys2Proof/Machine/Memory.lean ====
section
/-! DEFINITION. Sample memory: 8192 words at word addresses 0–8191 (R134), kept as a list of written cells in
canonical form. -/

namespace Sys2Proof.Machine

/-- The word at an address. -/
def Memory.read (m : Memory) (a : Nat) : Word :=
  match m with
  | [] => Config.unwrittenWord
  | (b, w) :: rest => if a = b then w else Memory.read rest a

/-- The cell (a, w) put at the front, unless it holds what an unlisted address reads as. -/
def Memory.cell (a : Nat) (w : Word) (rest : Memory) : Memory :=
  if w = Config.unwrittenWord then rest else (a, w) :: rest

/-- One word written. The canonical form is kept: a word equal to what an unlisted address reads as is
removed. -/
def Memory.write (m : Memory) (a : Nat) (w : Word) : Memory :=
  match m with
  | [] => Memory.cell a w []
  | (b, v) :: rest =>
    if a < b then Memory.cell a w ((b, v) :: rest)
    else if a = b then Memory.cell a w rest
    else (b, v) :: Memory.write rest a w

/-- Words written one after another from an address. -/
def Memory.writeList (m : Memory) (a : Nat) : List Word → Memory
  | [] => m
  | w :: ws => Memory.writeList (Memory.write m a w) (a + 1) ws

/-- The canonical form from address `lo` on: addresses strictly rising, no cell holding the unlisted value. -/
def Memory.wfFrom (lo : Nat) : Memory → Bool
  | [] => true
  | (a, w) :: rest => decide (lo ≤ a) && (w != Config.unwrittenWord) && Memory.wfFrom (a + 1) rest

/-- The canonical form. -/
def Memory.wf (m : Memory) : Bool := Memory.wfFrom 0 m

/-- R134: page p holds words 64p to 64p + 63. -/
def pageBase (p : Fin 128) : Nat := Config.pageWords * p.val

end Sys2Proof.Machine
end

