-- ==== Sys2Proof/Machine/Flags.lean ====
section
/-! DEFINITION. The status flags and registers: what each register of the window reads as (sections 10.1 and
10.6), the interrupt causes and the INT line (R167, R169). Every one is a view of the state. -/

namespace Sys2Proof.Machine

/-! ### Interrupt causes and INT -/

/-- R151: a stream is page-ready while it is enabled and its full queue holds at least its threshold of pages. -/
def Stream.pageReady (x : Stream) : Bool := x.enabled && decide (x.config.threshold ≤ x.full.length)

/-- R167: EVENT_PENDING is present while the Event Queue holds at least one record. -/
def State.eventPending (s : State) : Bool := !s.events.records.isEmpty

/-- R167: PAGE_READY is present while at least one enabled stream is page-ready. -/
def State.pageReadyCause (s : State) : Bool := s.streams.streams.toList.any Stream.pageReady

/-- R167, R188: INTCAUSE: COMMAND_DONE 2, PAGE_READY 1, EVENT_PENDING 0. -/
def State.intcause (s : State) : Word :=
  0#13 ++ bit s.host.commandDone ++ bit s.pageReadyCause ++ bit s.eventPending

/-- R169: INT is asserted while at least one cause is both present and enabled. While RESET is asserted it is
deasserted. It has no latch of its own. -/
def State.int (s : State) : Bool := !s.resetAsserted && (s.intcause &&& s.host.intenable) != 0

/-! ### Status registers (R187, R188, R189) -/

/-- R175, R187: CMDSTAT. -/
def Port.status (p : Port) : Word :=
  BitVec.ofNat 8 p.command.val ++ p.result.code ++ 0#2 ++ p.state.code

/-- R118, R187: LINKSTAT. -/
def Link.status (l : Link) : Word :=
  0#6 ++ bit l.protocolError ++ bit l.straySeen ++ BitVec.ofNat 4 l.failures ++ 0#1 ++ bit l.resetPending ++
    l.state.code

/-- R99, R187: ENGSTAT; held set and cursor are 0 when IDLE. -/
def State.engstat (s : State) : Word :=
  match s.engine.held with
  | none => 0
  | some x =>
    0#3 ++ BitVec.ofNat 5 s.sets[x.request.set].cursor ++ 0#1 ++ BitVec.ofFin (w := 3) x.request.set ++
      0#1 ++ s.engine.code

/-- R76, R187: QUEUESTAT; head set, priority and kind are 0 when the queue is empty. -/
def Arbiter.status (a : Arbiter) : Word :=
  match a.queue with
  | [] => 0
  | r :: rest =>
    0#5 ++ bit r.kind.bit ++ BitVec.ofFin (w := 2) r.priority ++ 0#1 ++ BitVec.ofFin (w := 3) r.set ++
      BitVec.ofNat 4 (rest.length + 1)

/-- R43, R187: SETSTAT of a set. -/
def ScanSet.status (x : ScanSet) : Word := x.passCount ++ 0#4 ++ bit x.deferred ++ x.state.code

/-- R155, R187: STRMSTAT of a stream. -/
def Stream.status (x : Stream) : Word :=
  0#3 ++ bit (x.loss != 0) ++ bit x.readPast ++ bit x.host.isSome ++ bit x.filling.isSome ++
    BitVec.ofNat 8 x.full.length ++ bit x.enabled

/-- R59, R188: TIMSTATE: timers 3, 2, 1 and 0 in bits 7–6, 5–4, 3–2 and 1–0. -/
def TriggerUnit.timstate (u : TriggerUnit) : Word :=
  0#8 ++ u.timers[3].state.code ++ u.timers[2].state.code ++ u.timers[1].state.code ++
    u.timers[0].state.code

/-- R59, R188: EXTSTAT. -/
def TriggerUnit.extstat (u : TriggerUnit) : Word :=
  0#8 ++ u.lines[1].edge.code ++ u.lines[0].edge.code ++ 0#2 ++ bit u.lines[1].high ++ bit u.lines[0].high

/-- R166, R188: EVSTAT: the lost-event count in 15–6, 1023 for 1023 or more; the record count in 5–0. -/
def EventQueue.status (e : EventQueue) : Word :=
  BitVec.ofNat 10 (min e.lost.toNat 1023) ++ BitVec.ofNat 6 e.records.length

/-- R165, R189: EVHEAD0: stream 15–14, entry 13–7, set 6–4, kind 3–0. -/
def EventQueue.head0 (e : EventQueue) : Word :=
  match e.records with
  | [] => 0
  | r :: _ =>
    BitVec.ofFin (w := 2) (r.body.stream?.getD 0) ++ BitVec.ofFin (w := 7) (r.body.entry?.getD 0) ++
      BitVec.ofFin (w := 3) (r.body.set?.getD 0) ++ BitVec.ofNat 4 r.body.kind

/-- R165, R189: EVHEAD1, the detail. -/
def EventQueue.head1 (e : EventQueue) : Word :=
  match e.records with
  | [] => 0
  | r :: _ => r.body.detail

/-- R165, R189: EVHEAD2, the timestamp's low half. -/
def EventQueue.head2 (e : EventQueue) : Word :=
  match e.records with
  | [] => 0
  | r :: _ => lowHalf r.time

/-- R165, R189: EVHEAD3, the timestamp's high half. -/
def EventQueue.head3 (e : EventQueue) : Word :=
  match e.records with
  | [] => 0
  | r :: _ => highHalf r.time

/-- R153: what a read of a stream's data port returns: the host page's word at the read pointer while the
pointer is below the word count, and otherwise 0. -/
def StreamManager.dataWord (m : StreamManager) (k : Fin 4) : Word :=
  match m.streams[k].host with
  | none => 0
  | some c =>
    if m.streams[k].readPointer < c.words then
      m.memory.read (pageBase c.page + m.streams[k].readPointer)
    else 0

/-! ### The window (R172) -/

/-- The contents of the register at a word offset, RESET not asserted. -/
def State.register (s : State) (offset : BitVec 6) : Word :=
  match offset.toNat with
  | 0x00 => Config.ident
  | 0x01 => 0
  | 0x02 => s.host.port.status
  | 0x03 => s.host.params[0]
  | 0x04 => s.host.params[1]
  | 0x05 => s.host.params[2]
  | 0x06 => s.host.params[3]
  | 0x07 => s.host.params[4]
  | 0x08 => s.host.params[5]
  | 0x09 => s.intcause
  | 0x0A => s.host.intenable
  | 0x0B => lowHalf s.triggers.time
  | 0x0C => s.triggers.timeHi
  | 0x0D => s.link.status
  | 0x0E => s.engstat
  | 0x0F => s.arbiter.status
  | 0x10 => s.sets[0].status
  | 0x11 => s.sets[1].status
  | 0x12 => s.sets[2].status
  | 0x13 => s.sets[3].status
  | 0x14 => s.sets[4].status
  | 0x15 => s.sets[5].status
  | 0x16 => s.sets[6].status
  | 0x17 => s.sets[7].status
  | 0x18 => s.streams.streams[0].status
  | 0x19 => s.streams.streams[1].status
  | 0x1A => s.streams.streams[2].status
  | 0x1B => s.streams.streams[3].status
  | 0x1C => s.streams.dataWord 0
  | 0x1D => s.streams.dataWord 1
  | 0x1E => s.streams.dataWord 2
  | 0x1F => s.streams.dataWord 3
  | 0x20 => s.events.head0
  | 0x21 => s.events.head1
  | 0x22 => s.events.head2
  | 0x23 => s.events.head3
  | 0x24 => s.events.status
  | 0x25 => s.triggers.timers[0].remaining
  | 0x26 => s.triggers.timers[1].remaining
  | 0x27 => s.triggers.timers[2].remaining
  | 0x28 => s.triggers.timers[3].remaining
  | 0x29 => s.triggers.timstate
  | 0x2A => s.triggers.extstat
  | 0x2B => s.events.mask
  | _ => 0

/-- R172: the word a host read at a word offset returns. While RESET is asserted every read returns 0. -/
def State.read (s : State) (offset : BitVec 6) : Word := if s.resetAsserted then 0 else s.register offset

end Sys2Proof.Machine
end

