-- ==== Sys2Proof/Machine/Operands.lean ====
section
/-! DEFINITION. The packing of command parameters in PARAM0–PARAM5 (section 10.5): what a configuration command
reads from the registers, `none` where a value is out of range, and what a reading command returns in them. -/

namespace Sys2Proof.Machine

/-! ### Entries -/

/-- R4: the oversample code of a 3-bit field; 7 is out of range. -/
def oversample? (c : BitVec 3) : Option (Fin 7) :=
  if h : c.toNat < 7 then some ⟨c.toNat, h⟩ else none

/-- R184: the fields ENTRY_WRITE takes from PARAM1–PARAM5; `none` when one lies outside its range (R11). The
zone bits of PARAM2 are ignored. -/
def unpackEntry? (p : Vector Word 6) : Option EntryFields :=
  match OutputMode.ofCode? (p[2].extractLsb' 14 2), LimitAction.ofCode? (p[2].extractLsb' 8 2),
    oversample? (p[2].extractLsb' 0 3) with
  | some output, some action, some oversample =>
    if p[5].toNat ≤ 4095 then
      some
        { channel := p[1].extractLsb' 0 5, gain := p[1].extractLsb' 5 2, settle := p[1].extractLsb' 8 8,
          oversample := oversample, reduction := .ofCode (p[2].extractLsb' 4 2),
          window := p[2].getLsbD 3, low := p[3], high := p[4], hysteresis := p[5].extractLsb' 0 12,
          action := action, target := (p[2].extractLsb' 10 3).toFin, output := output }
    else none
  | _, _, _ => none

/-- R6, R8, R11: the checks across fields: low below high, the hysteresis bands apart, each in whole numbers,
when the window is present; and a window for ZONE_CHANGE. -/
def EntryFields.consistent (f : EntryFields) : Bool :=
  (!f.window ||
    (decide (f.low.toInt < f.high.toInt) &&
      decide (f.low.toInt + f.hysteresis.toNat ≤ f.high.toInt - f.hysteresis.toNat))) &&
  (f.output != .zoneChange || f.window)

/-- R184: PARAM1 of an entry: settle 15–8, gain 6–5, channel 4–0. -/
def EntryFields.param1 (f : EntryFields) : Word := f.settle ++ 0#1 ++ f.gain ++ f.channel

/-- R184: PARAM2 of an entry: output mode 15–14, target 12–10, action 9–8, zone 7–6, reduction 5–4, window 3,
oversample code 2–0. -/
def Entry.param2 (e : Entry) : Word :=
  e.fields.output.code ++ 0#1 ++ BitVec.ofFin (w := 3) e.fields.target ++ e.fields.action.code ++
    e.zone.code ++ e.fields.reduction.code ++ bit e.fields.window ++
    BitVec.ofNat 3 e.fields.oversample.val

/-- R14, R184: PARAM1–PARAM5 as ENTRY_READ returns them. -/
def Entry.pack (e : Entry) (p : Vector Word 6) : Vector Word 6 :=
  put (put (put (put (put p 1 e.fields.param1) 2 e.param2) 3 e.fields.low) 4 e.fields.high) 5
    (e.fields.hysteresis.setWidth 16)

/-! ### Descriptors -/

/-- R185: the descriptor SET_WRITE takes from PARAM1–PARAM3; `none` when a field lies outside its range (R21). -/
def unpackDescriptor? (p : Vector Word 6) : Option Descriptor :=
  match TriggerSource.ofCode? (p[2].extractLsb' 0 3) with
  | none => none
  | some source =>
    let count := (p[1].extractLsb' 8 6).toNat
    if 1 ≤ count ∧ count ≤ 32 then
      some
        { first := (p[1].extractLsb' 0 7).toFin, count := count, source := source,
          priority := (p[2].extractLsb' 4 2).toFin, passes := p[2].extractLsb' 8 8,
          overrun := .ofBit (p[2].getLsbD 6), chainPresent := p[3].getLsbD 3,
          chainTarget := (p[3].extractLsb' 0 3).toFin, stream := (p[3].extractLsb' 4 2).toFin,
          preemptible := p[2].getLsbD 7, fault := .ofBit (p[3].getLsbD 6) }
    else none

/-- R185: entry count 13–8, first entry 6–0. -/
def Descriptor.param1 (d : Descriptor) : Word :=
  0#2 ++ BitVec.ofNat 6 d.count ++ 0#1 ++ BitVec.ofFin (w := 7) d.first

/-- R185: passes 15–8, preemptible 7, overrun policy 6, priority 5–4, trigger source 2–0. -/
def Descriptor.param2 (d : Descriptor) : Word :=
  d.passes ++ bit d.preemptible ++ bit d.overrun.bit ++ BitVec.ofFin (w := 2) d.priority ++ 0#1 ++
    d.source.code

/-- R185: fault policy 6, stream 5–4, chain presence 3, chain target 2–0. -/
def Descriptor.param3 (d : Descriptor) : Word :=
  0#9 ++ bit d.fault.bit ++ BitVec.ofFin (w := 2) d.stream ++ bit d.chainPresent ++
    BitVec.ofFin (w := 3) d.chainTarget

/-- R22, R185: PARAM1–PARAM5 as SET_READ returns them. -/
def ScanSet.pack (x : ScanSet) (p : Vector Word 6) : Vector Word 6 :=
  put (put (put (put (put p 1 x.desc.param1) 2 x.desc.param2) 3 x.desc.param3) 4 x.overruns) 5
    x.completed

/-! ### Timers, lines, link and streams -/

/-- R186: the timer TIMER_WRITE leaves (R49): STOPPED with the new configuration, remaining the period, unit phase
0; `none` for a period of 0 or a gate code of 3. -/
def unpackTimer? (p : Vector Word 6) : Option Timer :=
  match Gate.ofCode? (p[2].extractLsb' 8 2) with
  | none => none
  | some gate =>
    if p[1] = 0 then none
    else
      some
        { period := p[1], unit := .ofCode (p[2].extractLsb' 0 2), mode := .ofBit (p[2].getLsbD 4),
          gate := gate, state := .stopped, remaining := p[1], phase := 0,
          unitsDue := 0 }

/-- R114, R186: the link configuration LINK_WRITE takes from PARAM0–PARAM3. -/
structure LinkConfig where
  selectTimeout : Nat
  conversionTimeout : Nat
  retryLimit : Nat
  threshold : Nat
  deriving DecidableEq, Repr

/-- R114: `none` for a timeout of 0 or above 255, a retry limit above 3, or a threshold of 0 or above 15. -/
def unpackLink? (p : Vector Word 6) : Option LinkConfig :=
  if 1 ≤ p[0].toNat ∧ p[0].toNat ≤ 255 ∧ 1 ≤ p[1].toNat ∧ p[1].toNat ≤ 255 ∧ p[2].toNat ≤ 3 ∧
      1 ≤ p[3].toNat ∧ p[3].toNat ≤ 15 then
    some
      { selectTimeout := p[0].toNat, conversionTimeout := p[1].toNat, retryLimit := p[2].toNat,
        threshold := p[3].toNat }
  else none

/-- R186: the configuration STREAM_WRITE takes from PARAM1–PARAM3; `none` for a quota outside 1–128 or a
page-ready threshold outside 1–64 (R137). The enabled bit is ignored. -/
def unpackStream? (p : Vector Word 6) : Option StreamConfig :=
  let threshold := (p[2].extractLsb' 8 7).toNat
  if 1 ≤ p[1].toNat ∧ p[1].toNat ≤ 128 ∧ 1 ≤ threshold ∧ threshold ≤ 64 then
    some
      { quota := p[1].toNat, policy := .ofBit (p[2].getLsbD 0), timestamps := p[2].getLsbD 1,
        flush := p[3], threshold := threshold }
  else none

/-- R186: enabled 15, page-ready threshold 14–8, timestamps 1, overflow policy 0. -/
def Stream.param2 (x : Stream) : Word :=
  bit x.enabled ++ BitVec.ofNat 7 x.config.threshold ++ 0#6 ++ bit x.config.timestamps ++
    bit x.config.policy.bit

/-- R138, R186: PARAM1–PARAM5 as STREAM_READ returns them. -/
def Stream.pack (x : Stream) (p : Vector Word 6) : Vector Word 6 :=
  put (put (put (put (put p 1 (wordOf x.config.quota)) 2 x.param2) 3 x.config.flush) 4 x.nextSeq) 5
    x.written

/-- R152: PARAM0–PARAM4 as PAGE_OPEN returns them. -/
def ClosedPage.pack (c : ClosedPage) (p : Vector Word 6) : Vector Word 6 :=
  put (put (put (put (put p 0 (wordOf c.page.val)) 1 c.seq) 2 (wordOf c.words)) 3 (wordOf c.records)) 4
    (if c.flushed then 1 else 0)

end Sys2Proof.Machine
end

