-- ==== Sys2Proof/Machine/Ops.lean ====
section
/-! DEFINITION. The operations the commands share: posting an event, handing a record to a stream, making,
returning and removing requests, a trigger arrival, sending a link message, starting an entry, and the
command port's own checks. The completion of an entry is in Completion.lean. -/

namespace Sys2Proof.Machine

/-! ### Posting an event (R160, R161) -/

/-- R160: a kind is masked when it is one of 1–13 and its enable in EVMASK is clear. EVENTS_LOST never is. -/
def EventQueue.masked (e : EventQueue) (b : EventBody) : Bool :=
  decide (b.kind ≤ 13) && !e.mask.getLsbD b.kind

/-- R161: a posting is discarded by the mask, appended with the time counter, or counted as lost. -/
def EventQueue.post (e : EventQueue) (now : Time) (b : EventBody) : EventQueue :=
  if e.masked b then e
  else if e.records.length < Config.eventCapacity then
    { e with records := e.records ++ [{ body := b, time := now }] }
  else { e with lost := satAdd e.lost 1 }

/-- R162: postings taken in order. -/
def EventQueue.postAll (e : EventQueue) (now : Time) (bs : List EventBody) : EventQueue :=
  bs.foldl (fun q b => q.post now b) e

/-- One posting by a block of the part. -/
def post (b : EventBody) (s : State) : State := { s with events := s.events.post s.triggers.time b }

/-! ### Sample memory and streams (R134, R142–R149) -/

/-- R136: the pages a stream holds: its filling page, its full queue, oldest first, and its host page. -/
def Stream.pages (x : Stream) : List (Fin 128) :=
  x.full.map ClosedPage.page ++ (x.filling.map FillingPage.page).toList ++
    (x.host.map ClosedPage.page).toList

/-- One stream changed. -/
def StreamManager.amend (m : StreamManager) (k : Fin 4) (f : Stream → Stream) : StreamManager :=
  { m with streams := Machine.amend m.streams k f }

/-- R142, R143: a page becomes the filling page: no words, the next page sequence, the open time of now. -/
def Stream.fill (x : Stream) (page : Fin 128) (now : Time) : Stream :=
  { x with
    filling := some { page := page, seq := x.nextSeq, words := 0, records := 0, openTime := now }
    nextSeq := x.nextSeq + 1 }

/-- R148: the filling page leaves its place and joins the tail of the full queue. -/
def Stream.close (x : Stream) (flushed : Bool) : Stream :=
  match x.filling with
  | none => x
  | some f =>
    { x with
      filling := none
      full := x.full ++
        [{ page := f.page, seq := f.seq, words := f.words, records := f.records, flushed := flushed }] }

/-- R145: the counts after a record of `len` words is appended to the filling page `f`; a page of 64 words is
closed with FLUSHED clear. -/
def Stream.count (x : Stream) (f : FillingPage) (len : Nat) : Stream :=
  let y :=
    { x with
      filling := some { f with words := f.words + len, records := f.records + 1 }
      written := x.written + 1 }
  if f.words + len = Config.pageWords then y.close false else y

/-- R145: a record appended to a stream's filling page. -/
def StreamManager.append (m : StreamManager) (k : Fin 4) (r : Record) (now : Time) : StreamManager :=
  match m.streams[k].filling with
  | none => m
  | some f =>
    let ts := m.streams[k].config.timestamps
    { m with
      memory := m.memory.writeList (pageBase f.page + f.words) (r.words ts now)
      streams := put m.streams k (m.streams[k].count f (recordLength ts)) }

/-- R141: the LOSS record that carries a loss count. -/
def lossRecord (count : Word) : Record :=
  { kind := .loss, status := .ok, set := 0, entry := 0, mark := false, value := count }

/-- R146, R147: a record stored on the filling page, after a LOSS record when the loss count is nonzero. -/
def StreamManager.store (m : StreamManager) (k : Fin 4) (r : Record) (now : Time) : StreamManager :=
  if m.streams[k].loss = 0 then m.append k r now
  else
    (((m.append k (lossRecord m.streams[k].loss) now).amend k fun x => { x with loss := 0 }).append k r
      now)

/-- R143: the head of the full queue is removed, its record count is added to the loss count, PAGE_RECLAIMED is
posted, and the page becomes the filling page. Only under RECLAIM_OLDEST, and not from an empty full queue. -/
def StreamManager.reclaim (m : StreamManager) (k : Fin 4) (now : Time) :
    Option (StreamManager × List EventBody) :=
  match m.streams[k].config.policy, m.streams[k].full with
  | .reclaimOldest, c :: rest =>
    some
      ({ m with
          streams :=
            put m.streams k
              ({ m.streams[k] with full := rest, loss := satAdd m.streams[k].loss c.records }.fill c.page
                now) },
        [.pageReclaimed k c.seq])
  | .reclaimOldest, [] | .dropNew, _ => none

/-- R142, R143: how a stream with no filling page gets one: the pool head within its quota, or its oldest full
page, with the event that posts; `none` when it can get neither. -/
def StreamManager.obtain (m : StreamManager) (k : Fin 4) (now : Time) :
    Option (StreamManager × List EventBody) :=
  match m.pool with
  | [] => m.reclaim k now
  | page :: rest =>
    if m.streams[k].pages.length < m.streams[k].config.quota then
      some ({ m with pool := rest, streams := put m.streams k (m.streams[k].fill page now) }, [])
    else m.reclaim k now

/-- R144: the record is lost: the loss count grows, and STREAM_LOSS is posted when it leaves 0. -/
def StreamManager.lose (m : StreamManager) (k : Fin 4) : StreamManager × List EventBody :=
  (m.amend k fun x => { x with loss := satAdd x.loss 1 },
    if m.streams[k].loss = 0 then [.streamLoss k] else [])

/-- R147: a record handed to a stream, with the events it posts. -/
def StreamManager.handOff (m : StreamManager) (k : Fin 4) (r : Record) (now : Time) :
    StreamManager × List EventBody :=
  match m.streams[k].filling with
  | some _ => (m.store k r now, [])
  | none =>
    match m.obtain k now with
    | some (m', bs) => (m'.store k r now, bs)
    | none => m.lose k

/-- R147: a RESULT or STOP record handed to a stream, its postings within the hand-off. -/
def handRecord (k : Fin 4) (r : Record) (s : State) : State :=
  let (m, bs) := s.streams.handOff k r s.triggers.time
  { s with streams := m, events := s.events.postAll s.triggers.time bs }

/-! ### Scan sets and their records (R19, R33, R34) -/

/-- One set's run context or descriptor changed. -/
def State.modSet (s : State) (k : Fin 8) (f : ScanSet → ScanSet) : State :=
  { s with sets := amend s.sets k f }

/-- R33: a RESULT or STOP record for a set is handed to the set's stream with the pass-start mark, which the
hand-off clears. -/
def handSetRecord (k : Fin 8) (kind : RecordKind) (status : Status) (entry : Fin 128) (value : Word)
    (s : State) : State :=
  (handRecord s.sets[k].desc.stream
      { kind := kind, status := status, set := k, entry := entry, mark := s.sets[k].passStart,
        value := value }
      s).modSet k fun x => { x with passStart := false }

/-- R18: the entry at a position of a set's run. -/
def Descriptor.entryAt (d : Descriptor) (position : Nat) : Fin 128 :=
  Fin.ofNat 128 (d.first.val + position)

/-- R34: the entry after the one at the cursor; the run's first entry after the last. -/
def ScanSet.nextEntry (x : ScanSet) : Fin 128 :=
  if x.cursor + 1 = x.desc.count then x.desc.first else x.desc.entryAt (x.cursor + 1)

/-- R34: the STOP record of a scan that a host stop ends: the entry at the cursor, cursor entries completed. -/
def handHostStop (k : Fin 8) (cause : StopCause) (s : State) : State :=
  handSetRecord k .stop .ok (s.sets[k].desc.entryAt s.sets[k].cursor)
    (cause.code ++ BitVec.ofNat 8 s.sets[k].cursor) s

/-- R34: the STOP record of a scan that its last entry ends: the entry after it, which is counted. -/
def handBoundaryStop (k : Fin 8) (cause : StopCause) (s : State) : State :=
  handSetRecord k .stop .ok s.sets[k].nextEntry
    (cause.code ++ BitVec.ofNat 8 (s.sets[k].cursor + 1)) s

/-! ### The Request Queue (R64–R66, R74) -/

/-- R64: higher priority first; among equal priority the stamp issued earlier first. -/
def Request.precedes (a b : Request) : Bool :=
  decide (b.priority < a.priority) || (decide (a.priority = b.priority) && decide (a.stamp < b.stamp))

/-- R64: a request put at its place; the others keep their order. -/
def insertRequest (r : Request) : List Request → List Request
  | [] => [r]
  | q :: rest => if r.precedes q then r :: q :: rest else q :: insertRequest r rest

/-- R66: the request of a set removed. -/
def removeRequest (k : Fin 8) (q : List Request) : List Request := q.filter fun r => r.set != k

/-- R24, R31, R39, R63, R65: a NEW request for a set joins the queue with a fresh stamp; cursor and pass count are 0,
pass-start pending is set, and the set is PENDING. -/
def makeRequest (k : Fin 8) (s : State) : State :=
  { s with
    arbiter :=
      { queue :=
          insertRequest
            { set := k, priority := s.sets[k].desc.priority, stamp := s.arbiter.issued, kind := .new }
            s.arbiter.queue
        issued := s.arbiter.issued + 1 }
    sets :=
      amend s.sets k fun x =>
        { x with state := .pending, cursor := 0, passCount := 0, passStart := true } }

/-! ### Trigger arrivals (R24, R25, R58) -/

/-- R24: one trigger arrival at a set. -/
def triggerArrival (k : Fin 8) (o : Origin) (s : State) : State :=
  match s.sets[k].state with
  | .disabled | .halted | .stopping => s
  | .armed => makeRequest k s
  | .pending | .running | .preempted =>
    if s.sets[k].desc.overrun = .defer ∧ s.sets[k].deferred = false then
      s.modSet k fun x => { x with deferred := true }
    else
      post (.triggerOverrun k o) (s.modSet k fun x => { x with overruns := satAdd x.overruns 1 })

/-- The eight sets in ascending order of index. -/
def allSets : List (Fin 8) := [0, 1, 2, 3, 4, 5, 6, 7]

/-- R25, R58: a timer expiry or a qualifying edge hands one arrival to each set that names its source, in
ascending order of set index, each taken in the state the set is then in. -/
def deliverTriggers (src : TriggerSource) (o : Origin) (s : State) : State :=
  allSets.foldl (fun t k => if t.sets[k].desc.source = src then triggerArrival k o t else t) s

/-! ### Link messages (R102, R103, R106, R108) -/

/-- R102: the attempt timeout of a message as configured now. -/
def Link.timeoutOf (l : Link) : Message → Nat
  | .select _ | .resetFe => l.selectTimeout
  | .convert => l.conversionTimeout

/-- R103, R106: a transaction starts: its tag is issued, its first attempt is sent and timed. -/
def Link.send (l : Link) (m : Message) : Link :=
  { l with
    outstanding := some { message := m, tag := l.tagCounter, left := l.timeoutOf m, retries := 0 }
    tagCounter := l.tagCounter + 1
    lout := l.lout ++ lineBits (m.frame l.tagCounter) }

/-- R108: the same message is sent again with the same tag and a fresh timeout as configured now. -/
def Link.resend (l : Link) (o : Outstanding) : Link :=
  { l with
    outstanding := some { o with left := l.timeoutOf o.message, retries := o.retries + 1 }
    lout := l.lout ++ lineBits (o.message.frame o.tag) }

/-- A transaction started by the engine or the link. -/
def sendMessage (m : Message) (s : State) : State := { s with link := s.link.send m }

/-- R117: the link enters RESETTING: reset pending is clear (R105), the selection is absent (R93), the count is
0, and the RESET_FE transaction starts. -/
def enterResetting (s : State) : State :=
  sendMessage .resetFe
    { s with
      engine := { s.engine with selection := none }
      link := { s.link with state := .resetting, resetPending := false, failures := 0 } }

/-- R116: a pending reset is carried out once the engine is IDLE. -/
def carryOutReset (s : State) : State :=
  if s.link.resetPending && s.engine.held.isNone then enterResetting s else s

/-! ### Starting an entry and a request (R27, R67, R80, R81) -/

/-- R80: an execution at its start: the snapshot taken, nothing accumulated. -/
def Execution.begin (r : Request) (entry : Fin 128) (f : EntryFields) (p : Phase) : Execution :=
  { request := r, entry := entry, snapshot := f, samples := 0,
    acc := { sum := 0, minimum := none, maximum := none }, clipped := false, phase := p }

/-- R80, R81: the engine starts the entry at the held set's cursor. It sends CONVERT when the current selection
is the entry's, and otherwise SELECT, which makes the selection absent (R82). -/
def startEntry (r : Request) (s : State) : State :=
  let entry := s.sets[r.set].desc.entryAt s.sets[r.set].cursor
  let f := s.entries[entry].fields
  if s.engine.selection = some { channel := f.channel, gain := f.gain } then
    sendMessage .convert { s with engine := { s.engine with held := some (.begin r entry f .converting) } }
  else
    sendMessage (.select { channel := f.channel, gain := f.gain })
      { s with engine := { held := some (.begin r entry f .selecting), selection := none } }

/-- R27: the run context a set takes at the start of its request. -/
def ScanSet.started (x : ScanSet) : RequestKind → ScanSet
  | .new => { x with state := .running, cursor := 0, passCount := 0, passStart := true }
  | .resumed c p m => { x with state := .running, cursor := c, passCount := p, passStart := m }

/-- R67: the conditions of a start. -/
def State.canStart (s : State) : Bool :=
  s.engine.held.isNone && s.link.state = .up && !s.link.resetPending && !s.arbiter.queue.isEmpty

/-- R67: the head request is removed and given to the engine, its set is RUNNING, and its entry is started. -/
def startHead (s : State) : State :=
  match s.arbiter.queue with
  | [] => s
  | r :: rest =>
    startEntry r
      { s with
        arbiter := { s.arbiter with queue := rest }
        sets := amend s.sets r.set fun x => x.started r.kind }

/-! ### The end of a drain (R37, R96) -/

/-- R36, R37: the set state a host stop leaves. -/
def DrainCause.setState : DrainCause → SetState
  | .hostStop => .armed
  | .hostDisable => .disabled

/-- R35–R37: cursor and pass count 0 and pass-start pending clear, in a state. -/
def ScanSet.rest (x : ScanSet) (st : SetState) : ScanSet :=
  { x with state := st, cursor := 0, passCount := 0, passStart := false }

/-- R36, R94, R96: the held request is given up by a host stop: the STOP record, the set ARMED or DISABLED, the
engine IDLE. -/
def releaseHeld (k : Fin 8) (cause : DrainCause) (s : State) : State :=
  let t := (handHostStop k cause.stopCause s).modSet k fun x => x.rest cause.setState
  { t with engine := { t.engine with held := none } }

/-- R175, R179: the long command completes: DONE, OK, the command field kept, COMMAND_DONE set. -/
def completeLong (s : State) : State :=
  { s with host := { s.host with port := { s.host.port with state := .done, result := .ok }, commandDone := true } }

/-- R96: a drain ends: the message is no longer outstanding, the selection is kept or absent, the set is
released, the command completes, and a pending reset is carried out. -/
def endDrain (x : Execution) (cause : DrainCause) (keepSelection : Bool) (s : State) : State :=
  carryOutReset
    (completeLong
      (releaseHeld x.request.set cause
        { s with
          link := { s.link with outstanding := none }
          engine := { s.engine with selection := if keepSelection then s.engine.selection else none } }))

/-! ### The command port (R175, R177, R178, R180) -/

/-- What a command's own checks answer: a refusal, an immediate acceptance or a long one. -/
inductive Reply where
  | refuse (r : Result)
  | accept (s : State)
  | long (s : State)

/-- The port at a command's taking. -/
def State.withPort (s : State) (st : PortState) (r : Result) (c : Fin 25) : State :=
  { s with host := { s.host with port := { state := st, result := r, command := c } } }

/-- R175, R178: the port after a command's own checks. -/
def Reply.settle (c : Fin 25) (s : State) : Reply → State
  | .refuse r => s.withPort .done r c
  | .accept t => t.withPort .done .ok c
  | .long t => t.withPort .inProgress .ok c

/-- R180: a command refused while the port is IN_PROGRESS writes its code into the result field alone. -/
def State.portResult (s : State) (r : Result) : State :=
  { s with host := { s.host with port := { s.host.port with result := r } } }

/-- R177, R180: a host command other than SOFT_RESET, of code `c`: ignored while RESET is asserted (R172), refused
with BUSY while the port is IN_PROGRESS, and otherwise weighed by its own checks. So an ENTRY_WRITE to the entry in
progress taken before the end of a drain answers BUSY, as R10, R11 and R180 say, where R13's last bullet says IN_USE
(DESIGN CHOICE, log entry 19). -/
def hostCommand (c : Fin 25) (body : State → Reply) (s : State) : State :=
  if s.resetAsserted then s
  else
    match s.host.port.state with
    | .inProgress => s.portResult .busy
    | .idle | .done => (body s).settle c s

/-- R177, check 3: the index in PARAM0. -/
def State.index (s : State) (n : Nat) : Option (Fin n) := index? n s.host.params[0]

/-- The parameter registers a command returns data in. -/
def State.withParams (s : State) (p : Vector Word 6) : State := { s with host := { s.host with params := p } }

/-- R172: what a state change by the part or the host is while RESET is asserted: nothing. -/
def whenReleased (f : State → State) (s : State) : State := if s.resetAsserted then s else f s

end Sys2Proof.Machine
end

