-- ==== Sys2Proof/Machine/Completion.lean ====
section
/-! DEFINITION. The completion of an entry, taken whole as part of the arrival that ends it (R89, R90): the limit
evaluation, the record, the limit action, the cursor's advance, the arbiter's decision, the link's count and
the next entry's start; and the ends of link transactions that lead to it. -/

namespace Sys2Proof.Machine

/-! ### Reduction (R85, R86) -/

/-- R85: a sample folded into the accumulator. -/
def Accumulator.fold (a : Accumulator) (v : Int) : Accumulator :=
  { sum := a.sum + v
    minimum := some (match a.minimum with | none => v | some m => if v < m then v else m)
    maximum := some (match a.maximum with | none => v | some m => if m < v then v else m) }

/-- R86: the accumulator of `n` samples reduced to one signed value. Division by the positive `n` rounds toward
minus infinity. -/
def reduceSamples (r : Reduction) (a : Accumulator) (n : Nat) : Int :=
  match r with
  | .mean => a.sum / (n : Int)
  | .min => a.minimum.getD 0
  | .max => a.maximum.getD 0
  | .span => min (a.maximum.getD 0 - a.minimum.getD 0) 32767

/-! ### The Limit Monitor (R121–R128) -/

/-- R122: the new zone of a value `v` against thresholds `l` and `h` and hysteresis `y`, from the zone read. -/
def nextZone (z : Zone) (v l h y : Int) : Zone :=
  match z with
  | .unknown => if v > h then .above else if v < l then .below else .inside
  | .inside => if v > h then .above else if v < l then .below else .inside
  | .above => if v < l then .below else if v < h - y then .inside else .above
  | .below => if v > h then .above else if v > l + y then .inside else .below

/-- R123: the zone entered: ABOVE or BELOW at a crossing out, and none otherwise. -/
def zoneEntered (old new : Zone) : Option Zone :=
  if old = new then none
  else
    match new with
    | .above => some .above
    | .below => some .below
    | .inside | .unknown => none

/-- R125: the limit event of a move; a first placement and an unchanged zone post none. -/
def limitEvent? (k : Fin 8) (entry : Fin 128) (value : Word) (old new : Zone) : Option EventBody :=
  if old = new then none
  else
    match old, new with
    | _, .above => some (.limitAbove k entry value)
    | _, .below => some (.limitBelow k entry value)
    | .unknown, .inside => none
    | _, .inside => some (.limitInside k entry value)
    | _, .unknown => none

/-- R121: what the monitor finds for one completion. -/
structure Finding where
  recordRequired : Bool
  entered : Option Zone
  deriving DecidableEq, Repr

/-- R126: record required of a successful result. -/
def OutputMode.requires (m : OutputMode) (changed : Bool) : Bool :=
  match m with
  | .always => true
  | .zoneChange => changed
  | .silent => false

/-- R121–R127: step 1 of a completion. A successful result of an entry with a window is evaluated: its zone moves
in the table and its limit event is posted. A failure is not, and always requires a record. -/
def limitEvaluate (x : Execution) (status : Status) (value : Word) (s : State) : State × Finding :=
  if status.success then
    if x.snapshot.window then
      let old := s.entries[x.entry].zone
      let new :=
        nextZone old value.toInt x.snapshot.low.toInt x.snapshot.high.toInt x.snapshot.hysteresis.toNat
      let t := { s with entries := amend s.entries x.entry fun e => { e with zone := new } }
      let u :=
        match limitEvent? x.request.set x.entry value old new with
        | none => t
        | some b => post b t
      (u, { recordRequired := x.snapshot.output.requires (old != new), entered := zoneEntered old new })
    else (s, { recordRequired := x.snapshot.output.requires false, entered := none })
  else (s, { recordRequired := true, entered := none })

/-! ### Ends of a scan (R30, R31, R38, R39) -/

/-- The request leaves the engine and is discarded; the engine is IDLE. The selection is left as it is. -/
def dropHeld (s : State) : State := { s with engine := { s.engine with held := none } }

/-- R31, R39: a set whose scan has ended restarts from its deferred flag, which is cleared, or is ARMED. -/
def restartOrArm (k : Fin 8) (s : State) : State :=
  if s.sets[k].deferred then makeRequest k (s.modSet k fun x => { x with deferred := false })
  else s.modSet k fun x => { x with state := .armed }

/-- R38: the set is halted: STOP record, SET_HALTED, the request discarded, HALTED. -/
def haltSet (k : Fin 8) (entry : Fin 128) (status : Status) (s : State) : State :=
  dropHeld
    ((post (.setHalted k entry status) (handBoundaryStop k .halt s)).modSet k fun x =>
      { x with state := .halted, cursor := 0, passCount := 0, deferred := false })

/-- R39: a limit stop: STOP record, SCAN_STOPPED, the request discarded, then a restart or ARMED. -/
def limitStop (k : Fin 8) (s : State) : State :=
  restartOrArm k
    (dropHeld
      ((post (.scanStopped k) (handBoundaryStop k .limit s)).modSet k fun x =>
        { x with cursor := 0, passCount := 0 }))

/-- R31: the chain trigger, when the chain target is present. -/
def deliverChain (k : Fin 8) (s : State) : State :=
  if s.sets[k].desc.chainPresent then triggerArrival s.sets[k].desc.chainTarget .chain s else s

/-- R30, R31: the scan is complete: scans completed, SCAN_DONE, the engine released, the set restarted or armed,
and then the chain trigger. Pass-start pending is left as it stands (DEDUCED, log entry 12). -/
def completeScan (k : Fin 8) (s : State) : State :=
  let t := s.modSet k fun x => { x with completed := x.completed + 1 }
  let u := post (.scanDone k t.sets[k].completed) t
  deliverChain k
    (restartOrArm k (dropHeld (u.modSet k fun x => { x with cursor := 0, passCount := 0 })))

/-! ### The boundary (R28, R29, R69–R74) -/

/-- What kind of boundary an advance reached. -/
inductive Boundary where
  /-- Inside a pass. -/
  | inside
  /-- A pass end that does not complete the scan. -/
  | passEnd
  /-- The scan has ended and no request is held. -/
  | ended
  deriving DecidableEq, Repr

/-- R28, R29: the cursor advances; at the run's end the pass count grows and the scan completes or goes on with
pass-start pending. -/
def advanceCursor (k : Fin 8) (s : State) : State × Boundary :=
  if s.sets[k].cursor + 1 = s.sets[k].desc.count then
    let t := s.modSet k fun x => { x with cursor := 0, passCount := x.passCount + 1 }
    if t.sets[k].desc.passes ≠ 0 ∧ t.sets[k].passCount = t.sets[k].desc.passes then
      (completeScan k t, .ended)
    else (t.modSet k fun x => { x with passStart := true }, .passEnd)
  else (s.modSet k fun x => { x with cursor := x.cursor + 1 }, .inside)

/-- R62, R70–R74: the held request as it returns: RESUMED with the run context saved, its stamp kept or new. -/
def Request.returned (r : Request) (x : ScanSet) (stamp : Nat) : Request :=
  { r with stamp := stamp, kind := .resumed x.cursor x.passCount x.passStart }

/-- R74: the held request is taken back: re-inserted, its set PREEMPTED, the engine IDLE. `newStamp` is R71's. -/
def returnRequest (newStamp : Bool) (s : State) : State :=
  match s.engine.held with
  | none => s
  | some x =>
    let r := x.request
    let stamp := if newStamp then s.arbiter.issued else r.stamp
    dropHeld
      ({ s with
          arbiter :=
            { queue := insertRequest (r.returned s.sets[r.set] stamp) s.arbiter.queue
              issued := if newStamp then s.arbiter.issued + 1 else s.arbiter.issued } }.modSet
        r.set fun y => { y with state := .preempted })

/-- R69: the arbiter's decision at an entry boundary. -/
def arbiterDecision (b : Boundary) (s : State) : State :=
  match s.engine.held with
  | none => s
  | some x =>
    if s.link.resetPending then returnRequest false s
    else
      match s.arbiter.queue, b with
      | q :: _, .inside =>
        if s.sets[x.request.set].desc.preemptible ∧ x.request.priority < q.priority then
          returnRequest false s
        else s
      | q :: _, .passEnd =>
        if s.sets[x.request.set].desc.preemptible ∧ x.request.priority ≤ q.priority then
          returnRequest true s
        else s
      | q :: _, .ended => s
      | [], _ => s

/-! ### The link's count (R73, R112, R113) -/

/-- R113: the link goes DOWN: the selection absent, reset pending clear, the count 0, LINK_DOWN, the held request
returned, and a pending reset carried out from DOWN. -/
def linkDown (s : State) : State :=
  let t :=
    { s with
      engine := { s.engine with selection := none }
      link := { s.link with state := .down, resetPending := false, failures := 0 } }
  let u := returnRequest false (post (.linkDown s.link.threshold) t)
  if s.link.resetPending then enterResetting u else u

/-- R112: the consecutive-failure count updated by a completed entry's status. -/
def updateCount (status : Status) (s : State) : State :=
  match status with
  | .ok | .clipped | .feFault => { s with link := { s.link with failures := 0 } }
  | .noResponse =>
    if s.link.threshold ≤ s.link.failures + 1 then linkDown s
    else { s with link := { s.link with failures := s.link.failures + 1 } }

/-- R92, R116: the completion's last step: the next entry of a held request is started; otherwise the engine is
IDLE and a pending reset is carried out. -/
def goOn (s : State) : State :=
  match s.engine.held with
  | some x => startEntry x.request s
  | none => carryOutReset s

/-- R69, R112, R92: steps 5 to 7 of a completion. -/
def finishBoundary (b : Boundary) (status : Status) (s : State) : State :=
  goOn (updateCount status (arbiterDecision b s))

/-! ### The two completions (R89, R90) -/

/-- R89, R90, step 2: the RESULT record of an entry handed to the held set's stream. -/
def handResult (x : Execution) (status : Status) (value : Word) (s : State) : State :=
  handSetRecord x.request.set .result status x.entry value s

/-- R128: step 3 of a successful completion. `none` for the boundary when the scan goes on. -/
def limitAction (x : Execution) (entered : Option Zone) (s : State) : State × Bool :=
  match entered with
  | none => (s, false)
  | some _ =>
    match x.snapshot.action with
    | .notify => (s, false)
    | .trigger => (triggerArrival x.snapshot.target .limit s, false)
    | .stopOwn => (limitStop x.request.set s, true)

/-- R89: the completion of an entry that ends OK or CLIPPED. -/
def completeSuccess (x : Execution) (status : Status) (value : Word) (s : State) : State :=
  let (s1, found) := limitEvaluate x status value s
  let s2 := if found.recordRequired then handResult x status value s1 else s1
  let (s3, stopped) := limitAction x found.entered s2
  let (s4, b) := if stopped then (s3, Boundary.ended) else advanceCursor x.request.set s3
  finishBoundary b status s4

/-- R90, R91: the completion of an entry that ends NO_RESPONSE or FE_FAULT. The selection is absent (R87), and the
value recorded is 0. -/
def completeFailure (x : Execution) (status : Status) (s : State) : State :=
  let s0 := { s with engine := { s.engine with selection := none } }
  let (s1, found) := limitEvaluate x status 0 s0
  let s2 := if found.recordRequired then handResult x status 0 s1 else s1
  let s3 := post (.entryFailed x.request.set x.entry status) s2
  let (s4, b) :=
    match s3.sets[x.request.set].desc.fault with
    | .halt => (haltSet x.request.set x.entry status s3, Boundary.ended)
    | .carryOn => advanceCursor x.request.set s3
  finishBoundary b status s4

/-! ### Samples, attempts and answers (R82, R85, R88, R106–R111) -/

/-- The held request's execution replaced. -/
def State.withHeld (s : State) (x : Execution) : State :=
  { s with engine := { s.engine with held := some x } }

/-- R85: a SAMPLE that answers the outstanding CONVERT. -/
def takeSample (x : Execution) (overRange fault : Bool) (value : Word) (s : State) : State :=
  if fault then completeFailure x .feFault s
  else
    let y :=
      { x with
        acc := x.acc.fold value.toInt, samples := x.samples + 1, clipped := x.clipped || overRange }
    if y.samples < x.snapshot.conversions then sendMessage .convert (s.withHeld y)
    else
      completeSuccess y (if y.clipped then .clipped else .ok)
        (BitVec.ofInt 16 (reduceSamples x.snapshot.reduction y.acc y.samples)) (s.withHeld y)

/-- R82: a suitable SELECT_ACK: the selection is recorded; with settle 0 the first CONVERT is sent, and otherwise
the settle timer starts. -/
def takeSelection (x : Execution) (sel : Selection) (s : State) : State :=
  let t := { s with engine := { s.engine with selection := some sel } }
  if x.snapshot.settle = 0 then sendMessage .convert (t.withHeld { x with phase := .converting })
  else t.withHeld { x with phase := .settling x.snapshot.settle.toNat }

/-- R117: a suitable RESET_ACK: the link is UP, the count 0, LINK_UP posted. -/
def takeReset (s : State) : State :=
  post .linkUp { s with link := { s.link with state := .up, failures := 0 } }

/-- R88, R117: a transaction has failed: the entry ends NO_RESPONSE, or the failed RESET_FE takes the link DOWN and
posts LINK_RESET_FAILED. -/
def transactionFailed (o : Outstanding) (s : State) : State :=
  let t := { s with link := { s.link with outstanding := none } }
  match o.message, s.engine.held with
  | .resetFe, _ => post .linkResetFailed { t with link := { t.link with state := .down } }
  | .select _, some x | .convert, some x => completeFailure x .noResponse t
  | .select _, none | .convert, none => t

/-- R108: an attempt has failed: the message is sent again while retries used is below the limit, and otherwise
the transaction fails. -/
def attemptFailed (o : Outstanding) (s : State) : State :=
  if o.retries < s.link.retryLimit then { s with link := s.link.resend o } else transactionFailed o s

/-- R102: what a frame from the front end says. -/
inductive AnswerFrame where
  | selectAck (sel : Selection)
  | sample (overRange fault : Bool) (value : Word)
  | resetAck
  | other
  deriving DecidableEq, Repr

/-- R106: the class of a frame. -/
inductive FrameClass where
  | stray | suitable | unsuitable
  deriving DecidableEq, Repr

/-- R106: whether a frame is the kind of answer, and the echo, its message asks for. -/
def Message.answeredBy (m : Message) (f : AnswerFrame) : Bool :=
  match m, f with
  | .select sel, .selectAck echo => sel = echo
  | .convert, .sample _ _ _ => true
  | .resetFe, .resetAck => true
  | .select _, .sample _ _ _ | .select _, .resetAck | .select _, .other => false
  | .convert, .selectAck _ | .convert, .resetAck | .convert, .other => false
  | .resetFe, .selectAck _ | .resetFe, .sample _ _ _ | .resetFe, .other => false

/-- R106: a frame classified against the outstanding message. -/
def classify (o : Option Outstanding) (tag : BitVec 2) (f : AnswerFrame) : FrameClass :=
  match o with
  | none => .stray
  | some o => if o.tag ≠ tag then .stray else if o.message.answeredBy f then .suitable else .unsuitable

/-- R96: whether a drain leaves the selection: only after a CONVERT answered by a SAMPLE without the fault flag. -/
def drainKeeps (m : Message) (f : AnswerFrame) : Bool :=
  match m, f with
  | .convert, .sample _ fault _ => !fault
  | .convert, .selectAck _ | .convert, .resetAck | .convert, .other => false
  | .select _, _ | .resetFe, _ => false

/-- R107: a suitable answer, its transaction ended and the outstanding message absent, handed to its sender. -/
def takeAnswer (f : AnswerFrame) (s : State) : State :=
  match f, s.engine.held with
  | .selectAck sel, some x => takeSelection x sel s
  | .sample overRange fault value, some x => takeSample x overRange fault value s
  | .resetAck, _ => takeReset s
  | .selectAck _, none | .sample _ _ _, none | .other, _ => s

/-- The engine's drain, when it is DRAINING. -/
def Engine.drain? (e : Engine) : Option (Execution × DrainCause) :=
  match e.held with
  | none => none
  | some x =>
    match x.phase with
    | .draining cause => some (x, cause)
    | .selecting | .settling _ | .converting => none

/-- R111, R108: the sticky flags a classified frame sets. -/
def Link.flag (l : Link) : FrameClass → Link
  | .stray => { l with straySeen := true }
  | .unsuitable => { l with protocolError := true }
  | .suitable => l

/-- R106–R111: a frame taken from LIN. A stray frame is discarded; in a drain an answer ends it; otherwise a
suitable answer ends its transaction and an unsuitable one fails its attempt. -/
def receiveFrame (tag : BitVec 2) (f : AnswerFrame) (s : State) : State :=
  let c := classify s.link.outstanding tag f
  let t := { s with link := s.link.flag c }
  match c, s.link.outstanding with
  | .stray, _ | _, none => t
  | .suitable, some o =>
    match s.engine.drain? with
    | some (x, cause) => endDrain x cause (drainKeeps o.message f) t
    | none => takeAnswer f { t with link := { t.link with outstanding := none } }
  | .unsuitable, some o =>
    match s.engine.drain? with
    | some (x, cause) => endDrain x cause (drainKeeps o.message f) t
    | none => attemptFailed o t

end Sys2Proof.Machine
end

