-- ==== Sys2Proof/Machine/Entries.lean ====
section
/-! DEFINITION. The commands on conversion entries: ENTRY_WRITE and ENTRY_READ (01_conversion_entries.md). -/

namespace Sys2Proof.Machine

/-- R10: the entry the engine is executing. -/
def State.entryInProgress (s : State) : Option (Fin 128) := s.engine.held.map Execution.entry

/-- R11, R12: the checks and the effect of ENTRY_WRITE, in the order of R11's table. The command port refuses a write
taken in a drain with BUSY before it comes here (R10, against R13's IN_USE: log entry 19). -/
def entryWriteReply (s : State) : Reply :=
  match s.index 128 with
  | none => .refuse .badIndex
  | some i =>
    if s.entryInProgress = some i then .refuse .inUse
    else
      match unpackEntry? s.host.params with
      | none => .refuse .badConfig
      | some f =>
        if f.consistent then
          .accept { s with entries := put s.entries i { fields := f, zone := .unknown } }
        else .refuse .badConfig

/-- ENTRY_WRITE (R11, R12, R13). -/
def execEntryWrite (s : State) : Answer := .next (hostCommand 1 entryWriteReply s)

/-- R14: the fields and the zone are returned in PARAM1–PARAM5. -/
def entryReadReply (s : State) : Reply :=
  match s.index 128 with
  | none => .refuse .badIndex
  | some i => .accept (s.withParams (s.entries[i].pack s.host.params))

/-- ENTRY_READ (R14). -/
def execEntryRead (s : State) : Answer := .next (hostCommand 2 entryReadReply s)

end Sys2Proof.Machine
end

