-- ==== Sys2Proof/Machine/EventCommands.lean ====
section
/-! DEFINITION. EVENT_POP (R163). -/

namespace Sys2Proof.Machine

/-- R163: the head removed, and a nonzero lost-event count appended as EVENTS_LOST, not weighed against the mask. -/
def EventQueue.pop (e : EventQueue) (now : Time) : EventQueue :=
  let rest := e.records.tail
  if e.lost = 0 then { e with records := rest }
  else { e with records := rest ++ [{ body := .eventsLost e.lost, time := now }], lost := 0 }

/-- R163: the check and the effect of EVENT_POP. -/
def eventPopReply (s : State) : Reply :=
  if s.events.records = [] then .refuse .noEvent
  else .accept { s with events := s.events.pop s.triggers.time }

/-- EVENT_POP (R163). -/
def execEventPop (s : State) : Answer := .next (hostCommand 23 eventPopReply s)

end Sys2Proof.Machine
end

