-- ==== Sys2Proof/Machine/FrontEnd.lean ====
section
/-! DEFINITION. The frames from the front end (R102, R106–R111, R191). While RESET is asserted the part is held at its
reset values, and a frame does nothing. -/

namespace Sys2Proof.Machine

/-- R191: the echo of a SELECT_ACK: gain in bits 9–8, channel in bits 4–0; the other payload bits are ignored. -/
def echo (payload : Word) : Selection :=
  { channel := payload.extractLsb' 0 5, gain := payload.extractLsb' 8 2 }

/-- SELECT_ACK (R82). The flag bits are ignored (R102). -/
def execSelectAck (tag _flags : BitVec 2) (payload : Word) (s : State) : Answer :=
  .next (whenReleased (receiveFrame tag (.selectAck (echo payload))) s)

/-- SAMPLE (R85). The two flags and the value are passed to the engine unchanged (R102). -/
def execSample (tag : BitVec 2) (overRange fault : Bool) (value : Word) (s : State) : Answer :=
  .next (whenReleased (receiveFrame tag (.sample overRange fault value)) s)

/-- RESET_ACK (R117). The flag bits and the payload are ignored (R102). -/
def execResetAck (tag _flags : BitVec 2) (_payload : Word) (s : State) : Answer :=
  .next (whenReleased (receiveFrame tag .resetAck) s)

/-- A frame of another type (R102): never a suitable answer. -/
def execOtherTypeFrame (typeCode : BitVec 4) (tag _flags : BitVec 2) (_payload : Word) (s : State) : Answer :=
  if otherType typeCode then .next (whenReleased (receiveFrame tag .other) s)
  else .refused .namesAnotherCommand

end Sys2Proof.Machine
end

