-- ==== Sys2Proof/Machine/LinkCommands.lean ====
section
/-! DEFINITION. The host's commands on the link, and the engine's and the link's own arrivals: LINK_WRITE,
LINK_RESET, the start, the settle expiry and the attempt timeout (chapters 4, 5 and 6). -/

namespace Sys2Proof.Machine

/-- R114: the count after LINK_WRITE: one below a threshold that lies at or below it. -/
def Link.configured (l : Link) (c : LinkConfig) : Link :=
  { l with
    selectTimeout := c.selectTimeout, conversionTimeout := c.conversionTimeout,
    retryLimit := c.retryLimit, threshold := c.threshold,
    failures := if c.threshold ≤ l.failures then c.threshold - 1 else l.failures }

/-- R114: the check and the effect of LINK_WRITE. -/
def linkWriteReply (s : State) : Reply :=
  match unpackLink? s.host.params with
  | none => .refuse .badConfig
  | some c => .accept { s with link := s.link.configured c }

/-- LINK_WRITE (R114). -/
def execLinkWrite (s : State) : Answer := .next (hostCommand 14 linkWriteReply s)

/-- R115: what LINK_RESET does, by the link state, the engine and reset pending. -/
def linkResetReply (s : State) : Reply :=
  match s.link.state with
  | .resetting => .refuse .badState
  | .down => .accept (enterResetting s)
  | .up =>
    if s.link.resetPending then .refuse .badState
    else
      match s.engine.held with
      | none => .accept (enterResetting s)
      | some _ => .accept { s with link := { s.link with resetPending := true } }

/-- LINK_RESET (R115). -/
def execLinkReset (s : State) : Answer := .next (hostCommand 15 linkResetReply s)

/-- START (R67): taken only when its four conditions hold. -/
def execStart (s : State) : Answer :=
  .next (whenReleased (fun s => if s.canStart then startHead s else s) s)

/-- R83: the settle time has run out: the first CONVERT is sent. -/
def settleExpire (s : State) : State :=
  match s.engine.held with
  | none => s
  | some x =>
    if x.phase = .settling 0 then sendMessage .convert (s.withHeld { x with phase := .converting }) else s

/-- SETTLE_EXPIRY (R83). -/
def execSettleExpiry (s : State) : Answer := .next (whenReleased settleExpire s)

/-- R108, R110: the attempt in flight has timed out: it ends a drain, and otherwise fails the attempt. -/
def attemptExpire (s : State) : State :=
  match s.link.outstanding with
  | none => s
  | some o =>
    if o.left = 0 then
      match s.engine.drain? with
      | some (x, cause) => endDrain x cause false s
      | none => attemptFailed o s
    else s

/-- ATTEMPT_TIMEOUT (R106, R108, R110). -/
def execAttemptTimeout (s : State) : Answer := .next (whenReleased attemptExpire s)

end Sys2Proof.Machine
end

