-- ==== Sys2Proof/Machine/StreamCommands.lean ====
section
/-! DEFINITION. The commands on streams and pages, the flush expiry and the data port (08_sample_memory_and_streams.md). -/

namespace Sys2Proof.Machine

/-- One stream changed. -/
def State.modStream (s : State) (k : Fin 4) (f : Stream → Stream) : State :=
  { s with streams := s.streams.amend k f }

/-- R137: the checks and the effect of STREAM_WRITE. -/
def streamWriteReply (s : State) : Reply :=
  match s.index 4 with
  | none => .refuse .badIndex
  | some k =>
    if s.streams.streams[k].enabled then .refuse .badState
    else
      match unpackStream? s.host.params with
      | none => .refuse .badConfig
      | some c => .accept (s.modStream k fun x => { x with config := c })

/-- STREAM_WRITE (R137). -/
def execStreamWrite (s : State) : Answer := .next (hostCommand 16 streamWriteReply s)

/-- R138: the configuration, next sequence and records written are returned in PARAM1–PARAM5. -/
def streamReadReply (s : State) : Reply :=
  match s.index 4 with
  | none => .refuse .badIndex
  | some k => .accept (s.withParams (s.streams.streams[k].pack s.host.params))

/-- STREAM_READ (R138). -/
def execStreamRead (s : State) : Answer := .next (hostCommand 17 streamReadReply s)

/-- R139: the checks and the effect of STREAM_ENABLE. -/
def streamEnableReply (s : State) : Reply :=
  match s.index 4 with
  | none => .refuse .badIndex
  | some k =>
    if s.streams.streams[k].enabled then .refuse .badState
    else if s.streams.streams[k].config.threshold ≤ s.streams.streams[k].config.quota then
      .accept (s.modStream k fun x => { x with enabled := true, nextSeq := 0, loss := 0, written := 0 })
    else .refuse .badConfig

/-- STREAM_ENABLE (R139). -/
def execStreamEnable (s : State) : Answer := .next (hostCommand 18 streamEnableReply s)

/-- R140: some set in a state other than DISABLED names the stream. -/
def State.streamNamed (s : State) (k : Fin 4) : Bool :=
  s.sets.toList.any fun x => x.state != .disabled && x.desc.stream == k

/-- R140: all pages of the stream go to the pool tail: the full queue oldest first, the filling page, the host
page. -/
def StreamManager.disable (m : StreamManager) (k : Fin 4) : StreamManager :=
  { m with
    pool := m.pool ++ m.streams[k].pages
    streams :=
      put m.streams k
        { m.streams[k] with
          enabled := false, filling := none, full := [], host := none, readPointer := 0, loss := 0 } }

/-- R140: the checks and the effect of STREAM_DISABLE. -/
def streamDisableReply (s : State) : Reply :=
  match s.index 4 with
  | none => .refuse .badIndex
  | some k =>
    if !s.streams.streams[k].enabled then .refuse .badState
    else if s.streamNamed k then .refuse .inUse
    else .accept { s with streams := s.streams.disable k }

/-- STREAM_DISABLE (R140). -/
def execStreamDisable (s : State) : Answer := .next (hostCommand 19 streamDisableReply s)

/-- R150: the filling page, when there is one, is closed with FLUSHED set; PARAM0 tells which. -/
def streamFlushReply (s : State) : Reply :=
  match s.index 4 with
  | none => .refuse .badIndex
  | some k =>
    .accept
      ((s.modStream k fun x => x.close true).withParams
        (put s.host.params 0 (if s.streams.streams[k].filling.isSome then 1 else 0)))

/-- STREAM_FLUSH (R150). -/
def execStreamFlush (s : State) : Answer := .next (hostCommand 20 streamFlushReply s)

/-- R152: the checks and the effect of PAGE_OPEN. -/
def pageOpenReply (s : State) : Reply :=
  match s.index 4 with
  | none => .refuse .badIndex
  | some k =>
    if !s.streams.streams[k].enabled then .refuse .badState
    else if s.streams.streams[k].host.isSome then .refuse .inUse
    else
      match s.streams.streams[k].full with
      | [] => .refuse .noPage
      | c :: rest =>
        .accept
          ((s.modStream k fun x =>
                { x with full := rest, host := some c, readPointer := 0, readPast := false }).withParams
            (c.pack s.host.params))

/-- PAGE_OPEN (R152). -/
def execPageOpen (s : State) : Answer := .next (hostCommand 21 pageOpenReply s)

/-- R154: the host page of a stream goes to the pool tail. -/
def StreamManager.release (m : StreamManager) (k : Fin 4) (c : ClosedPage) : StreamManager :=
  { m with
    pool := m.pool ++ [c.page]
    streams := put m.streams k { m.streams[k] with host := none, readPointer := 0 } }

/-- R154: the checks and the effect of PAGE_RELEASE. -/
def pageReleaseReply (s : State) : Reply :=
  match s.index 4 with
  | none => .refuse .badIndex
  | some k =>
    match s.streams.streams[k].host with
    | none => .refuse .noPage
    | some c => .accept { s with streams := s.streams.release k c }

/-- PAGE_RELEASE (R154). -/
def execPageRelease (s : State) : Answer := .next (hostCommand 22 pageReleaseReply s)

/-- R149: the flush timer of a filling page has run out: the interval is not 0, and interval ms have passed since
its open time. DESIGN CHOICE (log entry 6): the time passed is the time counter less the open time, modulo 2^32, so an
expiry left untaken until the counter has come round to the open time, about 71.6 minutes, is not due again until the
interval has passed once more. -/
def Stream.flushDue (x : Stream) (now : Time) : Bool :=
  match x.filling with
  | none => false
  | some f => x.config.flush != 0 && decide (1000 * x.config.flush.toNat ≤ (now - f.openTime).toNat)

/-- FLUSH_EXPIRY (R149): the page is closed with FLUSHED set. -/
def execFlushExpiry (k : Fin 4) (s : State) : Answer :=
  .next
    (whenReleased
      (fun s =>
        if s.streams.streams[k].flushDue s.triggers.time then s.modStream k fun x => x.close true else s)
      s)

/-- R153: whether a read of a stream's data port finds a word. -/
def Stream.hasWord (x : Stream) : Bool :=
  match x.host with
  | none => false
  | some c => decide (x.readPointer < c.words)

/-- R153: a stream after a read of its data port: the pointer advanced, or READ_PAST set. -/
def Stream.dataRead (x : Stream) : Stream :=
  if x.hasWord then { x with readPointer := x.readPointer + 1 } else { x with readPast := true }

/-- The word a host read leaves on D15–D0 (log entry 4). -/
def State.withData (s : State) (w : Word) : State := { s with host := { s.host with data := w } }

/-- STRMDATA_READ (R153). While RESET is asserted the read returns 0 and acts on nothing (R172). -/
def execStrmdataRead (k : Fin 4) (s : State) : Answer :=
  .next
    (if s.resetAsserted then s.withData 0
    else (s.modStream k Stream.dataRead).withData (s.streams.dataWord k))

end Sys2Proof.Machine
end

