-- ==== Sys2Proof/Machine/Registers.lean ====
section
/-! DEFINITION. The host's accesses to registers other than a command: the parameter registers, the interrupt and
event control registers, the clearing writes, TIMELO, the ignored writes, and a code that names no
command (10_register_window_commands_and_formats.md). While RESET is asserted every write is ignored and
every read returns 0 (R172). -/

namespace Sys2Proof.Machine

/-- UNKNOWN_COMMAND (R175, R177): refused; in IN_PROGRESS only the result field changes, and otherwise the port is DONE
with command 0. -/
def execUnknownCommand (code : Word) (s : State) : Answer :=
  if namesNoCommand code then
    .next
      (whenReleased
        (fun s =>
          match s.host.port.state with
          | .inProgress => s.portResult .unknownCommand
          | .idle | .done => s.withPort .done .unknownCommand 0)
        s)
  else .refused .namesAnotherCommand

/-- PARAM_WRITE (R174): the whole word is stored. -/
def execParamWrite (n : Fin 6) (value : Word) (s : State) : Answer :=
  .next (whenReleased (fun s => s.withParams (put s.host.params n value)) s)

/-- INTENABLE_WRITE (R169): bits 2–0 are replaced; the others are ignored and read as 0. -/
def execIntenableWrite (value : Word) (s : State) : Answer :=
  .next (whenReleased (fun s => { s with host := { s.host with intenable := value &&& 0x0007 } }) s)

/-- EVMASK_WRITE (R160): bits 13–1 are replaced; the others are ignored and read as 0. -/
def execEvmaskWrite (value : Word) (s : State) : Answer :=
  .next (whenReleased (fun s => { s with events := { s.events with mask := value &&& 0x3FFE } }) s)

/-- INTCAUSE_WRITE (R168): a one in bit 2 clears COMMAND_DONE; nothing else is acted on. -/
def execIntcauseWrite (value : Word) (s : State) : Answer :=
  .next
    (whenReleased
      (fun s => { s with host := { s.host with commandDone := s.host.commandDone && !value.getLsbD 2 } }) s)

/-- LINKSTAT_WRITE (R111): a one in bit 8 clears STRAY_SEEN, a one in bit 9 clears PROTOCOL_ERROR. -/
def execLinkstatWrite (value : Word) (s : State) : Answer :=
  .next
    (whenReleased
      (fun s =>
        { s with
          link :=
            { s.link with
              straySeen := s.link.straySeen && !value.getLsbD 8
              protocolError := s.link.protocolError && !value.getLsbD 9 } })
      s)

/-- TIMELO_READ (R47): the low half is returned and the high half latched for TIMEHI. -/
def execTimeloRead (s : State) : Answer :=
  .next
    (if s.resetAsserted then s.withData 0
    else
      ({ s with triggers := { s.triggers with timeHi := highHalf s.triggers.time } }).withData
        (lowHalf s.triggers.time))

/-- IGNORED_REGISTER_WRITE (R172): nothing changes. -/
def execIgnoredRegisterWrite (offset : BitVec 6) (_value : Word) (s : State) : Answer :=
  if writeActs offset then .refused .namesAnotherCommand else .next s

end Sys2Proof.Machine
end

