-- ==== Sys2Proof/Machine/Resets.lean ====
section
/-! DEFINITION. The two resets: SOFT_RESET (R181, R182), and the assertion and release of RESET (R183, R46, R55). -/

namespace Sys2Proof.Machine

/-- R61: a timer after soft reset: STOPPED, remaining its period, unit phase 0, its configuration kept. -/
def Timer.softReset (x : Timer) : Timer :=
  { x with state := .stopped, remaining := x.period, phase := 0, unitsDue := 0 }

/-- R120: the link after soft reset: DOWN, its configuration and tag counter kept. DESIGN CHOICE (log entry 20): R68's
last bullet says that a start followed by the soft reset and the soft reset alone end in the same state; the start's
first message advances the tag counter (R103), and the model keeps it (R103, R120, R181), so there the two orders
differ. -/
def Link.softReset (l : Link) : Link :=
  { l with
    state := .down, resetPending := false, failures := 0, outstanding := none, straySeen := false,
    protocolError := false }

/-- R157: the streams after soft reset: configuration and enabled flags kept, every page in the rebuilt pool. -/
def StreamManager.softReset (m : StreamManager) : StreamManager :=
  { m with pool := fullPool, streams := mapAll (fun x => .fresh x.config x.enabled) m.streams }

/-- R171: the Event Queue after soft reset: empty, the mask kept. -/
def EventQueue.softReset (e : EventQueue) : EventQueue := { e with records := [], lost := 0 }

/-- R182: ABANDONED when a long command was in progress, and OK otherwise. -/
def PortState.softResult : PortState → Result
  | .inProgress => .abandoned
  | .idle | .done => .ok

/-- R181: every block takes the soft reset as its own rule gives. The enabled flags, the descriptors and all
configuration are kept; the parameter registers, INTENABLE, EVMASK and the TIMEHI latch are kept. -/
def softReset (s : State) : State :=
  { s with
    entries := mapAll (fun e => { e with zone := .unknown }) s.entries
    sets := mapAll (fun x => .fresh x.desc) s.sets
    triggers := { s.triggers with timers := mapAll Timer.softReset s.triggers.timers }
    arbiter := .default
    engine := .default
    link := s.link.softReset
    streams := s.streams.softReset
    events := s.events.softReset
    host :=
      { s.host with
        port := { state := .done, result := s.host.port.state.softResult, command := 24 }
        commandDone := false } }

/-- SOFT_RESET (R181, R182): taken in every port state; ignored while RESET is asserted (R172). -/
def execSoftReset (s : State) : Answer := .next (whenReleased softReset s)

/-- DEVICE_RESET (R183 and the device-reset rule of every block): RESET is asserted. The arrivals still waiting
are not part of the part, and stay. -/
def execDeviceReset (s : State) : Answer :=
  .next { State.reset with pending := s.pending, resetAsserted := true }

/-- RESET_RELEASE (R46, R55): RESET is released, and the first samples set the held levels, with no edge. -/
def execResetRelease (ext0 ext1 : Bool) (s : State) : Answer :=
  .next
    (if s.resetAsserted then
      { s with
        resetAsserted := false
        triggers :=
          { s.triggers with
            lines :=
              amend (amend s.triggers.lines 0 fun x => { x with high := ext0 }) 1 fun x =>
                { x with high := ext1 } } }
    else s)

end Sys2Proof.Machine
end

