-- ==== Sys2Proof/Machine/Sets.lean ====
section
/-! DEFINITION. The commands on scan sets (02_scan_sets.md). -/

namespace Sys2Proof.Machine

/-- R21: the checks and the effect of SET_WRITE. -/
def setWriteReply (s : State) : Reply :=
  match s.index 8 with
  | none => .refuse .badIndex
  | some k =>
    if s.sets[k].state ≠ .disabled then .refuse .badState
    else
      match unpackDescriptor? s.host.params with
      | none => .refuse .badConfig
      | some d => .accept (s.modSet k fun x => { x with desc := d })

/-- SET_WRITE (R21). -/
def execSetWrite (s : State) : Answer := .next (hostCommand 3 setWriteReply s)

/-- R22: the descriptor and the two counters are returned in PARAM1–PARAM5. -/
def setReadReply (s : State) : Reply :=
  match s.index 8 with
  | none => .refuse .badIndex
  | some k => .accept (s.withParams (s.sets[k].pack s.host.params))

/-- SET_READ (R22). -/
def execSetRead (s : State) : Answer := .next (hostCommand 4 setReadReply s)

/-- R23: the run fits in the Entry Table and the named stream is enabled. -/
def State.canEnable (s : State) (k : Fin 8) : Bool :=
  decide (s.sets[k].desc.first.val + s.sets[k].desc.count ≤ 128) &&
    s.streams.streams[s.sets[k].desc.stream].enabled

/-- R23: the checks and the effect of SET_ENABLE. -/
def setEnableReply (s : State) : Reply :=
  match s.index 8 with
  | none => .refuse .badIndex
  | some k =>
    if s.sets[k].state ≠ .disabled then .refuse .badState
    else if s.canEnable k then
      .accept (s.modSet k fun x => { ScanSet.fresh x.desc with state := .armed })
    else .refuse .badConfig

/-- SET_ENABLE (R23). -/
def execSetEnable (s : State) : Answer := .next (hostCommand 5 setEnableReply s)

/-- R25: SET_TRIGGER is accepted in every state of the set and delivers one SOFTWARE arrival. -/
def setTriggerReply (s : State) : Reply :=
  match s.index 8 with
  | none => .refuse .badIndex
  | some k => .accept (triggerArrival k .software s)

/-- SET_TRIGGER (R25). -/
def execSetTrigger (s : State) : Answer := .next (hostCommand 7 setTriggerReply s)

/-- R35, R66: the request of a PENDING or PREEMPTED set is removed, and the set leaves for the state the command
gives it, its deferred flag cleared. -/
def withdraw (k : Fin 8) (cause : DrainCause) (s : State) : State :=
  { s with
    arbiter := { s.arbiter with queue := removeRequest k s.arbiter.queue }
    sets := amend s.sets k fun x => { x.rest cause.setState with deferred := false } }

/-- R36, R94, R95: a stop of the RUNNING set, its deferred flag cleared at once. With a message outstanding the
engine drains and the command is long; from SETTLING the engine is released, and a pending reset is carried
out at the end of the release. -/
def stopRunning (k : Fin 8) (cause : DrainCause) (s : State) : Reply :=
  let t := s.modSet k fun x => { x with deferred := false }
  match s.engine.held with
  | none => .accept (carryOutReset (releaseHeld k cause t))
  | some x =>
    match x.phase with
    | .selecting | .converting =>
      .long
        ((t.modSet k fun y => { y with state := .stopping }).withHeld { x with phase := .draining cause })
    | .settling _ => .accept (carryOutReset (releaseHeld k cause t))
    | .draining _ => .refuse .badState

/-- R35, R36: what SET_STOP and SET_DISABLE do to a set, by its state. SET_STOP of an ARMED set leaves pass-start pending
too (DEDUCED, log entry 12). -/
def stopSet (k : Fin 8) (cause : DrainCause) (s : State) : Reply :=
  match s.sets[k].state with
  | .disabled | .stopping => .refuse .badState
  | .armed =>
    match cause with
    | .hostStop => .accept s
    | .hostDisable => .accept (s.modSet k fun x => x.rest .disabled)
  | .pending => .accept (withdraw k cause s)
  | .preempted => .accept (withdraw k cause (handHostStop k cause.stopCause s))
  | .halted =>
    match cause with
    | .hostStop => .refuse .badState
    | .hostDisable => .accept (s.modSet k fun x => x.rest .disabled)
  | .running => stopRunning k cause s

/-- R35: the index check of SET_STOP and SET_DISABLE, and then the set's own. -/
def stopReply (cause : DrainCause) (s : State) : Reply :=
  match s.index 8 with
  | none => .refuse .badIndex
  | some k => stopSet k cause s

/-- SET_DISABLE (R35, R36, R37). -/
def execSetDisable (s : State) : Answer := .next (hostCommand 6 (stopReply .hostDisable) s)

/-- SET_STOP (R35, R36, R37). -/
def execSetStop (s : State) : Answer := .next (hostCommand 8 (stopReply .hostStop) s)

/-- R40: the checks and the effect of SET_CLEAR. -/
def setClearReply (s : State) : Reply :=
  match s.index 8 with
  | none => .refuse .badIndex
  | some k =>
    if s.sets[k].state = .halted then .accept (s.modSet k fun x => { x with state := .armed })
    else .refuse .badState

/-- SET_CLEAR (R40). -/
def execSetClear (s : State) : Answer := .next (hostCommand 9 setClearReply s)

end Sys2Proof.Machine
end

