-- ==== Sys2Proof/Machine/Triggers.lean ====
section
/-! DEFINITION. The Trigger Unit: the commands on timers and lines, the samples of the lines, the timers' own
arrivals and the microsecond of the time base (03_triggers_and_interval_timers.md). -/

namespace Sys2Proof.Machine

/-- One timer changed. -/
def State.modTimer (s : State) (t : Fin 4) (f : Timer → Timer) : State :=
  { s with triggers := { s.triggers with timers := amend s.triggers.timers t f } }

/-- R49: the checks and the effect of TIMER_WRITE. -/
def timerWriteReply (s : State) : Reply :=
  match s.index 4 with
  | none => .refuse .badIndex
  | some t =>
    if s.triggers.timers[t].state ≠ .stopped then .refuse .badState
    else
      match unpackTimer? s.host.params with
      | none => .refuse .badConfig
      | some x => .accept (s.modTimer t fun _ => x)

/-- TIMER_WRITE (R49). -/
def execTimerWrite (s : State) : Answer := .next (hostCommand 10 timerWriteReply s)

/-- R50, R51: whether a gate lets its timer count: NONE, or its line's held level high. -/
def TriggerUnit.gateOpen (u : TriggerUnit) : Gate → Bool
  | .none => true
  | .high l => u.lines[l].high

/-- R48: a timer with remaining equal to its period, unit phase 0 and no unit due, in a state. -/
def Timer.loaded (x : Timer) (st : TimerState) : Timer :=
  { x with state := st, remaining := x.period, phase := 0, unitsDue := 0 }

/-- R50: the checks and the effect of TIMER_START. -/
def timerStartReply (s : State) : Reply :=
  match s.index 4 with
  | none => .refuse .badIndex
  | some t =>
    if s.triggers.timers[t].state ≠ .stopped then .refuse .badState
    else
      .accept
        (s.modTimer t fun x =>
          x.loaded (if s.triggers.gateOpen x.gate then .running else .gated))

/-- TIMER_START (R50). -/
def execTimerStart (s : State) : Answer := .next (hostCommand 11 timerStartReply s)

/-- R53: TIMER_STOP is accepted in every state of the timer. -/
def timerStopReply (s : State) : Reply :=
  match s.index 4 with
  | none => .refuse .badIndex
  | some t => .accept (s.modTimer t fun x => x.loaded .stopped)

/-- TIMER_STOP (R53). -/
def execTimerStop (s : State) : Answer := .next (hostCommand 12 timerStopReply s)

/-- R56: the checks and the effect of EXT_WRITE; the held level is unchanged. -/
def extWriteReply (s : State) : Reply :=
  match s.index 2 with
  | none => .refuse .badIndex
  | some l =>
    match EdgeConfig.ofWord? s.host.params[1] with
    | none => .refuse .badConfig
    | some e =>
      .accept
        { s with triggers := { s.triggers with lines := amend s.triggers.lines l fun x => { x with edge := e } } }

/-- EXT_WRITE (R56). -/
def execExtWrite (s : State) : Answer := .next (hostCommand 13 extWriteReply s)

/-- R56: whether a change to the level `high` qualifies. -/
def EdgeConfig.qualifies (e : EdgeConfig) (high : Bool) : Bool :=
  match e with
  | .rising => high
  | .falling => !high
  | .both => true

/-- R51, R54: a RUNNING timer whose gate goes low holds its count. A unit that the present microsecond has completed,
and that is not taken before the gate, is held one microsecond short (R54). DESIGN CHOICE (log entry 7): a unit due with
unit phase 0 is taken for that unit. With a unit of 1 µs the phase is always 0, so when steps are late, and the gate goes
high and low again with no microsecond between, a unit due from an earlier microsecond is dropped. -/
def Timer.gatedNow (x : Timer) : Timer :=
  if x.phase = 0 ∧ 0 < x.unitsDue then
    { x with state := .gated, phase := x.unit.micros - 1, unitsDue := x.unitsDue - 1 }
  else { x with state := .gated }

/-- R51: a change of the gate line's level moves a timer between RUNNING and GATED. -/
def Timer.gateChange (x : Timer) (line : Fin 2) (high : Bool) : Timer :=
  if x.gate = .high line then
    match x.state with
    | .stopped => x
    | .running => if high then x else x.gatedNow
    | .gated => if high then { x with state := .running } else x
  else x

/-- R55, R57: a sample that differs from the held level becomes the held level, acts on the timers gated by the
line, and, when it qualifies, delivers a trigger to every set that names the line. -/
def lineSample (line : Fin 2) (high : Bool) (s : State) : State :=
  if s.triggers.lines[line].high = high then s
  else
    let t :=
      { s with
        triggers :=
          { s.triggers with
            lines := amend s.triggers.lines line fun x => { x with high := high }
            timers := mapAll (fun x => x.gateChange line high) s.triggers.timers } }
    if s.triggers.lines[line].edge.qualifies high then deliverTriggers (.ext line) (.ext line) t else t

/-- EXT_LEVEL_CHANGE (R55, R57). No sample is taken while RESET is asserted. -/
def execExtLevelChange (line : Fin 2) (high : Bool) (s : State) : Answer :=
  .next (whenReleased (lineSample line high) s)

/-- R51: a RUNNING timer has counted a whole unit whose step has not been taken. -/
def Timer.unitDue (x : Timer) : Bool := decide (x.state = .running) && decide (0 < x.unitsDue)

/-- R51: a completed unit other than the one that ends the period: remaining is reduced by one. -/
def unitComplete (t : Fin 4) (s : State) : State :=
  if s.triggers.timers[t].unitDue ∧ s.triggers.timers[t].remaining ≠ 1 then
    s.modTimer t fun x => { x with remaining := x.remaining - 1, unitsDue := x.unitsDue - 1 }
  else s

/-- TIMER_UNIT_COMPLETE (R51). -/
def execTimerUnitComplete (t : Fin 4) (s : State) : Answer := .next (whenReleased (unitComplete t) s)

/-- R52: what expiry does to the timer by its mode. The unit phase of a periodic timer is already that of its next
period: 0 in the microsecond of the expiry, and what has been counted since when the step is late (log entry 7). -/
def Timer.expired (x : Timer) : Timer :=
  match x.mode with
  | .periodic => { x with remaining := x.period, unitsDue := x.unitsDue - 1 }
  | .oneShot => x.loaded .stopped

/-- R51, R52: the unit that reduces remaining from 1 to 0 is complete: the triggers are delivered, and then the
timer reloads or stops. -/
def timerExpire (t : Fin 4) (s : State) : State :=
  if s.triggers.timers[t].unitDue ∧ s.triggers.timers[t].remaining = 1 then
    (deliverTriggers (.timer t) (.timer t) s).modTimer t Timer.expired
  else s

/-- TIMER_EXPIRY (R52, R58). -/
def execTimerExpiry (t : Fin 4) (s : State) : Answer := .next (whenReleased (timerExpire t) s)

/-- R46, R51: a RUNNING timer counts each microsecond into its unit phase; when that would reach one whole unit it
returns to 0 and the unit's step is due. -/
def Timer.tick (x : Timer) : Timer :=
  match x.state with
  | .running =>
    if x.phase + 1 < x.unit.micros then { x with phase := x.phase + 1 }
    else { x with phase := 0, unitsDue := x.unitsDue + 1 }
  | .stopped | .gated => x

/-- R83: the settle timer counts one microsecond. -/
def Phase.tick : Phase → Phase
  | .settling n => .settling (n - 1)
  | .selecting => .selecting
  | .converting => .converting
  | .draining c => .draining c

/-- R46, R51, R83, R106: one microsecond: the time counter, every RUNNING timer, the settle timer and the attempt
timeout. The flush timers are read from the time counter itself (R149). -/
def advanceTime (s : State) : State :=
  { s with
    triggers :=
      { s.triggers with time := s.triggers.time + 1, timers := mapAll Timer.tick s.triggers.timers }
    engine :=
      { s.engine with held := s.engine.held.map fun x => { x with phase := x.phase.tick } }
    link := { s.link with outstanding := s.link.outstanding.map fun o => { o with left := o.left - 1 } } }

/-- TIME_COUNTER_ADVANCE (R46). While RESET is asserted the counter is held at 0. -/
def execTimeCounterAdvance (s : State) : Answer := .next (whenReleased advanceTime s)

end Sys2Proof.Machine
end

