-- ==== Sys2Proof/Machine/Dispatch.lean ====
section
/-! DEFINITION. Every command's meaning, one arm per row of spec/opcode_table.json, in the table's order. -/

namespace Sys2Proof.Machine

def exec (i : Instr) (s : State) : Host.Outcome State Fault Refusal :=
  match i with
  | .entryWrite => Sys2Proof.Machine.execEntryWrite s
  | .entryRead => Sys2Proof.Machine.execEntryRead s
  | .setWrite => Sys2Proof.Machine.execSetWrite s
  | .setRead => Sys2Proof.Machine.execSetRead s
  | .setEnable => Sys2Proof.Machine.execSetEnable s
  | .setDisable => Sys2Proof.Machine.execSetDisable s
  | .setTrigger => Sys2Proof.Machine.execSetTrigger s
  | .setStop => Sys2Proof.Machine.execSetStop s
  | .setClear => Sys2Proof.Machine.execSetClear s
  | .timerWrite => Sys2Proof.Machine.execTimerWrite s
  | .timerStart => Sys2Proof.Machine.execTimerStart s
  | .timerStop => Sys2Proof.Machine.execTimerStop s
  | .extWrite => Sys2Proof.Machine.execExtWrite s
  | .linkWrite => Sys2Proof.Machine.execLinkWrite s
  | .linkReset => Sys2Proof.Machine.execLinkReset s
  | .streamWrite => Sys2Proof.Machine.execStreamWrite s
  | .streamRead => Sys2Proof.Machine.execStreamRead s
  | .streamEnable => Sys2Proof.Machine.execStreamEnable s
  | .streamDisable => Sys2Proof.Machine.execStreamDisable s
  | .streamFlush => Sys2Proof.Machine.execStreamFlush s
  | .pageOpen => Sys2Proof.Machine.execPageOpen s
  | .pageRelease => Sys2Proof.Machine.execPageRelease s
  | .eventPop => Sys2Proof.Machine.execEventPop s
  | .softReset => Sys2Proof.Machine.execSoftReset s
  | .unknownCommand code => Sys2Proof.Machine.execUnknownCommand code s
  | .paramWrite n value => Sys2Proof.Machine.execParamWrite n value s
  | .intenableWrite value => Sys2Proof.Machine.execIntenableWrite value s
  | .evmaskWrite value => Sys2Proof.Machine.execEvmaskWrite value s
  | .intcauseWrite value => Sys2Proof.Machine.execIntcauseWrite value s
  | .linkstatWrite value => Sys2Proof.Machine.execLinkstatWrite value s
  | .timeloRead => Sys2Proof.Machine.execTimeloRead s
  | .strmdataRead stream => Sys2Proof.Machine.execStrmdataRead stream s
  | .ignoredRegisterWrite offset value => Sys2Proof.Machine.execIgnoredRegisterWrite offset value s
  | .deviceReset => Sys2Proof.Machine.execDeviceReset s
  | .resetRelease ext0 ext1 => Sys2Proof.Machine.execResetRelease ext0 ext1 s
  | .extLevelChange line high => Sys2Proof.Machine.execExtLevelChange line high s
  | .timerUnitComplete timer => Sys2Proof.Machine.execTimerUnitComplete timer s
  | .timerExpiry timer => Sys2Proof.Machine.execTimerExpiry timer s
  | .settleExpiry => Sys2Proof.Machine.execSettleExpiry s
  | .attemptTimeout => Sys2Proof.Machine.execAttemptTimeout s
  | .flushExpiry stream => Sys2Proof.Machine.execFlushExpiry stream s
  | .selectAck tag flags payload => Sys2Proof.Machine.execSelectAck tag flags payload s
  | .sample tag overRange fault value => Sys2Proof.Machine.execSample tag overRange fault value s
  | .resetAck tag flags payload => Sys2Proof.Machine.execResetAck tag flags payload s
  | .otherTypeFrame typeCode tag flags payload => Sys2Proof.Machine.execOtherTypeFrame typeCode tag flags payload s
  | .start => Sys2Proof.Machine.execStart s
  | .timeCounterAdvance => Sys2Proof.Machine.execTimeCounterAdvance s

end Sys2Proof.Machine
end

