-- ==== Sys2Proof/Machine/Step.lean ====
section
/-! DEFINITION. One step: the arrival at the front of the queue is taken whole. -/

namespace Sys2Proof.Machine

/-- The arrival at the front is taken, with the rest of the queue left waiting. With nothing waiting the part
idles (DESIGN CHOICE, log entry 1): a tick of the clock is an arrival of its own, TIME_COUNTER_ADVANCE. -/
def step (s : State) : Host.Outcome State Fault Refusal :=
  match s.pending with
  | [] => .next s
  | c :: rest => exec c { s with pending := rest }

/-- The command an opcode-table word spells, put at the front of the queue; the state as it is when the word
spells none. -/
def State.withFetchWord (s : State) (nbits w : Nat) : State :=
  match decodeTableWord nbits w with
  | none => s
  | some c => { s with pending := c :: s.pending }

end Sys2Proof.Machine
end

