-- ==== Sys2Proof/Safety.lean ====
section
/-! DEFINITION. What the manual says holds at every moment, as predicates of a state. Each is an invariant that a
step keeps; the statements of Certificates/Slice0 say so. -/

namespace Sys2Proof.Machine

/-! ### Sample memory and streams -/

/-- Sample memory is in its canonical form. -/
def MemoryCanonical (s : State) : Prop := s.streams.memory.wf = true

/-- R134: every page, wherever it is. -/
def StreamManager.allPages (m : StreamManager) : List (Fin 128) :=
  m.pool ++ m.streams.toList.flatMap Stream.pages

/-- R134: each of the 128 pages is in exactly one place: the free pool, one filling page, one full queue or one
host page. -/
def PagesInOnePlace (s : State) : Prop := s.streams.allPages.Perm (List.finRange 128)

/-- R145, R148: the counts of a page that holds whole records of one length. -/
def countsFit (ts : Bool) (words records : Nat) : Prop :=
  1 ≤ records ∧ words = records * recordLength ts ∧ words ≤ Config.pageWords

/-- R148: the sequences of the full queue and the filling page, oldest first. -/
def Stream.sequences (x : Stream) : List Word :=
  x.full.map ClosedPage.seq ++ (x.filling.map FillingPage.seq).toList

/-- R148: pages close in the order of their sequences, and the newest is the one before the next to be issued. -/
def Stream.InSequence (x : Stream) : Prop :=
  ∀ i, (h : i < x.sequences.length) →
    x.sequences[i] + BitVec.ofNat 16 (x.sequences.length - i) = x.nextSeq

/-- R135, R136, R142–R149: what one stream holds. -/
structure Stream.Sound (x : Stream) : Prop where
  /-- R135. -/
  ranges : 1 ≤ x.config.quota ∧ x.config.quota ≤ 128 ∧ 1 ≤ x.config.threshold ∧ x.config.threshold ≤ 64
  /-- R139. -/
  reachable : x.enabled = true → x.config.threshold ≤ x.config.quota
  /-- R136: the pages held never number more than the quota. -/
  quota : x.pages.length ≤ x.config.quota
  /-- R136: a disabled stream holds no page. -/
  idle : x.enabled = false → x.pages = []
  /-- R145: a stream with a filling page has room for one more record, and a filling page holds one. -/
  filling : ∀ f ∈ x.filling, countsFit x.config.timestamps f.words f.records ∧ f.words < Config.pageWords
  /-- R148: a closed page is full with FLUSHED clear, or below 64 words with FLUSHED set. -/
  full : ∀ c ∈ x.full,
    countsFit x.config.timestamps c.words c.records ∧ (c.flushed = false ↔ c.words = Config.pageWords)
  /-- R152: so is the host page, and the read pointer is within it. -/
  host : ∀ c ∈ x.host,
    countsFit x.config.timestamps c.words c.records ∧ (c.flushed = false ↔ c.words = Config.pageWords) ∧
      x.readPointer ≤ c.words
  /-- R140, R154: with no host page the read pointer is 0. -/
  noHost : x.host = none → x.readPointer = 0
  /-- R146: a stream with a filling page has written its loss count out. -/
  lossWritten : x.filling.isSome = true → x.loss = 0
  /-- R148. -/
  sequence : x.InSequence

/-! ### Events, timers and entries -/

/-- R161: at most 32 records, and a lost-event count of 0 whenever there is room; R160: EVMASK holds its thirteen
positions alone. -/
def EventQueueBounded (s : State) : Prop :=
  s.events.records.length ≤ 32 ∧ (s.events.records.length < 32 → s.events.lost = 0) ∧
    s.events.mask &&& 0x3FFE = s.events.mask

/-- R48, R51: what one timer holds, its gate line's level given. -/
structure Timer.Sound (u : TriggerUnit) (x : Timer) : Prop where
  period : 1 ≤ x.period.toNat
  remaining : 1 ≤ x.remaining.toNat ∧ x.remaining.toNat ≤ x.period.toNat
  phase : x.phase < x.unit.micros
  /-- No unit is due either: that count is the model's own (log entry 7). -/
  stopped : x.state = .stopped → x.remaining = x.period ∧ x.phase = 0 ∧ x.unitsDue = 0
  running : x.state = .running → u.gateOpen x.gate = true
  gated : x.state = .gated → u.gateOpen x.gate = false

/-- R48, R51, of every timer; R60: while RESET is asserted every timer is STOPPED. -/
structure TimersSound (s : State) : Prop where
  each : ∀ t : Fin 4, s.triggers.timers[t].Sound s.triggers
  asserted : s.resetAsserted = true → ∀ t : Fin 4, s.triggers.timers[t].state = .stopped

/-- R6, R8, R9, R80: every entry passes the checks across its fields, has zone UNKNOWN without a window, and equals the
snapshot while it is in progress. -/
structure EntriesSound (s : State) : Prop where
  consistent : ∀ i : Fin 128, s.entries[i].fields.consistent = true
  zone : ∀ i : Fin 128, s.entries[i].fields.window = false → s.entries[i].zone = .unknown
  snapshot : ∀ x ∈ s.engine.held, x.snapshot = s.entries[x.entry].fields

/-! ### Requests, sets and the engine -/

/-- R63, R64: the queue in its order, and every stamp held by a request, in the queue or in the engine, issued once. -/
structure QueueOrdered (s : State) : Prop where
  sorted : s.arbiter.queue.Pairwise fun a b => a.precedes b = true
  distinct : (s.arbiter.queue.map Request.stamp ++
    (s.engine.held.map fun x => x.request.stamp).toList).Nodup
  issued : ∀ n ∈ s.arbiter.queue.map Request.stamp ++
    (s.engine.held.map fun x => x.request.stamp).toList, n < s.arbiter.issued

/-- R19, R62: a set's queued request carries what the set's state says: NEW at PENDING; RESUMED with the saved
fields at PREEMPTED. -/
def ScanSet.carries (x : ScanSet) (kind : RequestKind) : Prop :=
  match kind with
  | .new => x.state = .pending
  | .resumed c p m => x.state = .preempted ∧ x.cursor = c ∧ x.passCount = p ∧ x.passStart = m

/-- R20, R62, R64, R79: which set has a request, where, and what it carries. -/
structure RequestsPlaced (s : State) : Prop where
  /-- R64: at most one request per set, and so at most eight. -/
  one : (s.arbiter.queue.map Request.set).Nodup
  /-- R20: a set has a request in the queue exactly when it is PENDING or PREEMPTED. -/
  queued : ∀ k : Fin 8, k ∈ s.arbiter.queue.map Request.set ↔
    s.sets[k].state = .pending ∨ s.sets[k].state = .preempted
  /-- R62: its priority is its set's, and its kind and saved fields go with its set's state. -/
  carried : ∀ r ∈ s.arbiter.queue, r.priority = s.sets[r.set].desc.priority ∧ s.sets[r.set].carries r.kind
  /-- R20: the RUNNING or STOPPING set is the one whose request the engine holds. -/
  held : ∀ k : Fin 8, (s.engine.held.map fun x => x.request.set) = some k ↔
    s.sets[k].state = .running ∨ s.sets[k].state = .stopping
  /-- R79: it is STOPPING exactly while the engine is DRAINING. -/
  draining : ∀ x ∈ s.engine.held,
    x.request.priority = s.sets[x.request.set].desc.priority ∧
      (s.engine.drain?.isSome = true ↔ s.sets[x.request.set].state = .stopping)

/-- R19, R20, R21: what the run context of one set holds, its stream's enabled flag given. -/
structure ScanSet.Sound (x : ScanSet) (streamEnabled : Bool) : Prop where
  count : 1 ≤ x.desc.count ∧ x.desc.count ≤ 32
  cursor : x.cursor < x.desc.count
  passes : x.desc.passes ≠ 0 → x.passCount.toNat < x.desc.passes.toNat
  rest : x.state ≠ .running → x.state ≠ .preempted → x.state ≠ .stopping → x.cursor = 0 ∧ x.passCount = 0
  run : x.state ≠ .disabled → x.desc.first.val + x.desc.count ≤ 128
  stream : x.state ≠ .disabled → streamEnabled = true
  deferred : x.deferred = true →
    x.desc.overrun = .defer ∧ (x.state = .pending ∨ x.state = .running ∨ x.state = .preempted)

/-- R10, R19, R20, R78, R136: requests in place, every run context and every stream sound, and the entry in progress at
the held set's cursor. -/
structure SetsAndStreamsSound (s : State) : Prop where
  requests : RequestsPlaced s
  sets : ∀ k : Fin 8, s.sets[k].Sound s.streams.streams[s.sets[k].desc.stream].enabled
  streams : ∀ k : Fin 4, s.streams.streams[k].Sound
  /-- R134: no word lies beyond the 8192. -/
  memory : ∀ c ∈ s.streams.memory, c.1 < 8192
  entry : ∀ x ∈ s.engine.held,
    x.entry.val = s.sets[x.request.set].desc.first.val + s.sets[x.request.set].cursor

/-! ### The link, the engine and the port -/

/-- R104, R112: the ranges of the link record. -/
structure LinkInRange (s : State) : Prop where
  timeouts : 1 ≤ s.link.selectTimeout ∧ s.link.selectTimeout ≤ 255 ∧ 1 ≤ s.link.conversionTimeout ∧
    s.link.conversionTimeout ≤ 255
  retryLimit : s.link.retryLimit ≤ 3
  threshold : 1 ≤ s.link.threshold ∧ s.link.threshold ≤ 15
  failures : s.link.failures < s.link.threshold
  attempt : ∀ o ∈ s.link.outstanding, o.left ≤ 255 ∧ o.retries ≤ 3

/-- R79, R83: the message outstanding in each engine phase: a SELECT in SELECTING, a CONVERT in CONVERTING, none in
SETTLING, one of the two in DRAINING. -/
def Execution.sends (x : Execution) (o : Option Message) : Prop :=
  match x.phase with
  | .selecting => o = some (.select { channel := x.snapshot.channel, gain := x.snapshot.gain })
  | .settling _ => o = none
  | .converting => o = some .convert
  | .draining _ =>
    o = some (.select { channel := x.snapshot.channel, gain := x.snapshot.gain }) ∨ o = some .convert

/-- R79, R93, R105: the link state, the engine and the outstanding message go together. -/
structure LinkMatchesEngine (s : State) : Prop where
  /-- R105: the engine is IDLE and the selection absent while the link is not UP. -/
  up : s.link.state ≠ .up → s.engine.held = none ∧ s.engine.selection = none
  /-- R105: DOWN has nothing outstanding. -/
  down : s.link.state = .down → s.link.outstanding = none
  /-- R105: RESETTING has its RESET_FE outstanding. -/
  resetting : s.link.state = .resetting → s.link.outstanding.map Outstanding.message = some .resetFe
  /-- R79: an IDLE engine has nothing outstanding while the link is UP. -/
  idle : s.link.state = .up → s.engine.held = none → s.link.outstanding = none
  /-- R79: what the engine has outstanding in each of its states. -/
  sends : ∀ x ∈ s.engine.held, x.sends (s.link.outstanding.map Outstanding.message)
  /-- R104, R115: a reset is pending only while the link is UP and the engine holds a request. -/
  pendingReset : s.link.resetPending = true → s.link.state = .up ∧ s.engine.held.isSome = true
  /-- R82, R93: while a SELECT is outstanding the selection is absent; in SETTLING and CONVERTING it is the
  snapshot's. -/
  selection : ∀ x ∈ s.engine.held,
    match x.phase with
    | .selecting => s.engine.selection = none
    | .settling _ | .converting =>
      s.engine.selection = some { channel := x.snapshot.channel, gain := x.snapshot.gain }
    | .draining _ => True

/-- R78, R85: the samples taken and the accumulator of the entry in progress. -/
def EngineInRange (s : State) : Prop :=
  ∀ x ∈ s.engine.held,
    x.samples < x.snapshot.conversions ∧
      (x.acc.minimum.isSome = true ↔ 0 < x.samples) ∧ (x.acc.maximum.isSome = true ↔ 0 < x.samples)

/-- R175, R179: the command port is IN_PROGRESS exactly while the engine is DRAINING, and then its command is
SET_STOP or SET_DISABLE; IDLE shows OK and command 0. R169: INTENABLE holds its three positions alone. -/
structure PortMatchesEngine (s : State) : Prop where
  long : s.host.port.state = .inProgress ↔ s.engine.drain?.isSome = true
  command : s.host.port.state = .inProgress → s.host.port.command = 6 ∨ s.host.port.command = 8
  idle : s.host.port.state = .idle → s.host.port.result = .ok ∧ s.host.port.command = 0
  intenable : s.host.intenable &&& 0x0007 = s.host.intenable

end Sys2Proof.Machine
end

