-- ==== Sys2Proof/Certificates/Slice0/Obligations.lean ====
section
/-! DEFINITION. The statements for the provers, after the vocabulary they are written in. A statement about a command
gives its whole next state as an update of the state before it: what the update does not name is unchanged. -/

namespace Sys2Proof.Statements

open Sys2Proof.Machine

/-! ### The command port -/

/-- RESET is not asserted and the command port is not IN_PROGRESS: a host command reaches its own checks (R177). -/
def Taking (s : State) : Prop := s.resetAsserted = false ∧ s.host.port.state ≠ .inProgress

/-- PARAM0 holds the index `i`. -/
def Named {n : Nat} (s : State) (i : Fin n) : Prop := s.host.params[0].toNat = i.val

/-- `s` with CMDSTAT showing DONE, the result `r` and the command `c`, and nothing else changed. -/
def ended (c : Fin 25) (r : Result) (s : State) : State :=
  { s with host := { s.host with port := { state := .done, result := r, command := c } } }

/-- `s` with the words `p` in PARAM0–PARAM5. -/
def returning (p : Vector Word 6) (s : State) : State := { s with host := { s.host with params := p } }

/-- `s` with one set replaced. -/
def withSet (k : Fin 8) (x : ScanSet) (s : State) : State := { s with sets := put s.sets k x }

/-- `s` with one stream replaced. -/
def withStream (k : Fin 4) (x : Stream) (s : State) : State :=
  { s with streams := { s.streams with streams := put s.streams.streams k x } }

/-- `s` with one timer replaced. -/
def withTimer (t : Fin 4) (x : Timer) (s : State) : State :=
  { s with triggers := { s.triggers with timers := put s.triggers.timers t x } }

/-! ### The packing of section 10.5, read as numbers -/

/-- R184: PARAM1–PARAM5 hold the twelve fields of an entry. -/
def HoldsEntry (p : Vector Word 6) (f : EntryFields) : Prop :=
  (p[1].toNat % 32 = f.channel.toNat ∧ p[1].toNat / 32 % 4 = f.gain.toNat ∧
    p[1].toNat / 256 = f.settle.toNat) ∧
  (p[2].toNat % 8 = f.oversample.val ∧ (p[2].toNat / 8 % 2 = 1 ↔ f.window = true) ∧
    p[2].toNat / 16 % 4 = f.reduction.code.toNat ∧ p[2].toNat / 256 % 4 = f.action.code.toNat ∧
    p[2].toNat / 1024 % 8 = f.target.val ∧ p[2].toNat / 16384 = f.output.code.toNat) ∧
  p[3] = f.low ∧ p[4] = f.high ∧ p[5].toNat = f.hysteresis.toNat

/-- R11: the checks across an entry's fields. -/
def EntryCommits (f : EntryFields) : Prop :=
  (f.window = true →
    f.low.toInt < f.high.toInt ∧
      ¬ f.low.toInt + f.hysteresis.toNat > f.high.toInt - f.hysteresis.toNat) ∧
  (f.output = .zoneChange → f.window = true)

/-- R185: PARAM1–PARAM3 hold the ten fields of a descriptor. -/
def HoldsDescriptor (p : Vector Word 6) (d : Descriptor) : Prop :=
  (p[1].toNat / 256 % 64 = d.count ∧ p[1].toNat % 128 = d.first.val) ∧
  (p[2].toNat / 256 = d.passes.toNat ∧ (p[2].toNat / 128 % 2 = 1 ↔ d.preemptible = true) ∧
    (p[2].toNat / 64 % 2 = 1 ↔ d.overrun = .defer) ∧ p[2].toNat / 16 % 4 = d.priority.val ∧
    p[2].toNat % 8 = d.source.code.toNat) ∧
  (p[3].toNat / 64 % 2 = 1 ↔ d.fault = .halt) ∧ p[3].toNat / 16 % 4 = d.stream.val ∧
  (p[3].toNat / 8 % 2 = 1 ↔ d.chainPresent = true) ∧ p[3].toNat % 8 = d.chainTarget.val

/-- R186: PARAM1 and PARAM2 hold the configuration of a timer; the units are 1, 10, 100 and 1000 µs (R48). -/
def HoldsTimer (p : Vector Word 6) (x : Timer) : Prop :=
  p[1] = x.period ∧ 10 ^ (p[2].toNat % 4) = x.unit.micros ∧
  (p[2].toNat / 16 % 2 = 1 ↔ x.mode = .oneShot) ∧
  p[2].toNat / 256 % 4 = (match x.gate with | .none => 0 | .high l => 1 + l.val)

/-- R186: PARAM1–PARAM3 hold the configuration of a stream. -/
def HoldsStream (p : Vector Word 6) (c : StreamConfig) : Prop :=
  p[1].toNat = c.quota ∧ p[2].toNat / 256 % 128 = c.threshold ∧
  (p[2].toNat / 2 % 2 = 1 ↔ c.timestamps = true) ∧ (p[2].toNat % 2 = 1 ↔ c.policy = .reclaimOldest) ∧
  p[3] = c.flush

/-! ### Requests and trigger arrivals -/

/-- R64: `a` stands before `b` in the Request Queue. -/
def Before (a b : Request) : Prop :=
  b.priority < a.priority ∨ a.priority = b.priority ∧ a.stamp < b.stamp

/-- R64: `q'` is `q` with `r` at its place: behind every request that `r` does not stand before, up to the first that
it does. -/
def Placed (r : Request) (q q' : List Request) : Prop :=
  ∃ front back, q = front ++ back ∧ q' = front ++ r :: back ∧ (∀ x ∈ front, ¬ Before r x) ∧
    ∀ x ∈ back.head?, Before r x

/-- R62, R63: the NEW request of a set, with the stamp the counter issues next. -/
def newRequest (s : State) (k : Fin 8) : Request :=
  { set := k, priority := s.sets[k].desc.priority, stamp := s.arbiter.issued, kind := .new }

/-- R24: the effect of one trigger arrival, by the set's state, overrun policy and deferred flag. -/
def Arrives (k : Fin 8) (o : Origin) (s t : State) : Prop :=
  match s.sets[k].state with
  | .disabled | .halted | .stopping => t = s
  | .armed =>
    ∃ q, Placed (newRequest s k) s.arbiter.queue q ∧
      t =
        withSet k { s.sets[k] with state := .pending, cursor := 0, passCount := 0, passStart := true }
          { s with arbiter := { queue := q, issued := s.arbiter.issued + 1 } }
  | .pending | .running | .preempted =>
    if s.sets[k].desc.overrun = .defer ∧ s.sets[k].deferred = false then
      t = withSet k { s.sets[k] with deferred := true } s
    else
      t =
        post (.triggerOverrun k o)
          (withSet k
            { s.sets[k] with overruns := BitVec.ofNat 16 (min (s.sets[k].overruns.toNat + 1) 65535) } s)

/-! ### The link and the engine -/

/-- R103, R106: a transaction's first attempt is sent: the counter's value is its tag, its timeout is the one
configured, no retry is used, and the frame goes out on LOUT in its line form (R191; kept in the model's own `lout`, log
entry 5). -/
def sent (m : Message) (s : State) : State :=
  { s with
    link :=
      { s.link with
        outstanding :=
          some
            { message := m, tag := s.link.tagCounter, retries := 0,
              left := match m with
                | .convert => s.link.conversionTimeout
                | .select _ | .resetFe => s.link.selectTimeout }
        tagCounter := s.link.tagCounter + 1
        lout := s.link.lout ++ lineBits (m.frame s.link.tagCounter) } }

/-- R108: the outstanding message `o` is sent again, with its tag, a fresh timeout and one more retry used. -/
def sentAgain (o : Outstanding) (s : State) : State :=
  { s with
    link :=
      { s.link with
        outstanding :=
          some
            { o with
              retries := o.retries + 1
              left := match o.message with
                | .convert => s.link.conversionTimeout
                | .select _ | .resetFe => s.link.selectTimeout }
        lout := s.link.lout ++ lineBits (o.message.frame o.tag) } }

/-- R116, R117: the link enters RESETTING. -/
def resetting (s : State) : State :=
  sent .resetFe
    { s with
      engine := { s.engine with selection := none }
      link := { s.link with state := .resetting, resetPending := false, failures := 0 } }

/-- R116: a pending reset is carried out. -/
def resettingIfPending (s : State) : State := if s.link.resetPending = true then resetting s else s

/-- R107: the outstanding message absent. -/
def answered (s : State) : State := { s with link := { s.link with outstanding := none } }

/-- R111, R108: PROTOCOL_ERROR set. -/
def protocolError (s : State) : State := { s with link := { s.link with protocolError := true } }

/-- The engine holds `x`. -/
def holding (x : Execution) (s : State) : State := { s with engine := { s.engine with held := some x } }

/-- The engine is IDLE, its selection as it was. -/
def idle (s : State) : State := { s with engine := { s.engine with held := none } }

/-- R80: the execution of entry `e` at its start, for the request `r`. -/
def fresh (r : Request) (e : Fin 128) (s : State) (p : Phase) : Execution :=
  { request := r, entry := e, snapshot := s.entries[e].fields, samples := 0,
    acc := { sum := 0, minimum := none, maximum := none }, clipped := false, phase := p }

/-- R80, R81, R82: entry `e` is started for `r`: CONVERT when the current selection is the entry's, and otherwise
SELECT, with the selection absent. -/
def entryStarted (r : Request) (e : Fin 128) (s : State) : State :=
  if s.engine.selection = some { channel := s.entries[e].fields.channel, gain := s.entries[e].fields.gain } then
    sent .convert (holding (fresh r e s .converting) s)
  else
    sent (.select { channel := s.entries[e].fields.channel, gain := s.entries[e].fields.gain })
      { s with engine := { held := some (fresh r e s .selecting), selection := none } }

/-- No engine drain: IDLE, SELECTING, SETTLING or CONVERTING. -/
def NotDraining (s : State) : Prop := ∀ x ∈ s.engine.held, ∀ c, x.phase ≠ .draining c

/-- A sample is awaited: the engine is CONVERTING `x` and its CONVERT is outstanding with the tag `tag`. -/
def Awaits (s : State) (x : Execution) (tag : BitVec 2) : Prop :=
  s.resetAsserted = false ∧ s.engine.held = some x ∧ x.phase = .converting ∧
    ∃ o, s.link.outstanding = some o ∧ o.message = .convert ∧ o.tag = tag

/-- R85: `x` after one more sample. -/
def folded (x : Execution) (overRange : Bool) (value : Word) : Execution :=
  { x with
    samples := x.samples + 1
    clipped := x.clipped || overRange
    acc :=
      { sum := x.acc.sum + value.toInt
        minimum := some (match x.acc.minimum with | none => value.toInt | some m => min m value.toInt)
        maximum := some (match x.acc.maximum with | none => value.toInt | some m => max m value.toInt) } }

/-- R86: the reduced value of an execution that has taken all its samples, as a word. -/
def reduced (x : Execution) : Word :=
  BitVec.ofInt 16 (reduceSamples x.snapshot.reduction x.acc x.samples)

/-- R87. -/
def outcome (x : Execution) : Status := if x.clipped = true then .clipped else .ok

/-- The last sample of an entry: no fault flag, and the snapshot's count reached by it. -/
def LastSample (x : Execution) : Prop := x.samples + 1 = 2 ^ x.snapshot.oversample.val

/-- The state in which the completion of an entry begins: its answer taken. -/
def converted (x : Execution) (s : State) : State := holding x (answered s)

/-- R112: the consecutive-failure count 0. -/
def countCleared (s : State) : State := { s with link := { s.link with failures := 0 } }

/-- R112: the consecutive-failure count one more. -/
def countGrown (s : State) : State := { s with link := { s.link with failures := s.link.failures + 1 } }

/-- R113, steps 1 to 3: the link DOWN, the selection absent, no reset pending, the count 0, and LINK_DOWN posted with the
threshold. -/
def linkFallen (s : State) : State :=
  post (.linkDown s.link.threshold)
    { s with
      engine := { s.engine with selection := none }
      link := { s.link with state := .down, resetPending := false, failures := 0 } }

/-- R112, R113, R116: `t` is `s`, in which a completion has left no request with the engine, after the link's count is
updated by the entry's status, a threshold reached takes the link DOWN, and a pending reset is carried out. -/
structure Counted (status : Status) (s t : State) : Prop where
  answered : status ≠ .noResponse → t = resettingIfPending (countCleared s)
  below : status = .noResponse → s.link.failures + 1 < s.link.threshold →
    t = resettingIfPending (countGrown s)
  reached : status = .noResponse → s.link.failures + 1 = s.link.threshold →
    t = if s.link.resetPending = true then resetting (linkFallen s) else linkFallen s

/-! ### Failed transactions and entries -/

/-- R106, R108: the command is a frame with the tag of `o` that does not answer its message: an unsuitable answer. -/
def Unsuitable (o : Outstanding) (c : Instr) : Prop :=
  (∃ code flags payload, c = .otherTypeFrame code o.tag flags payload ∧ code ≠ 0x9 ∧ code ≠ 0xA ∧ code ≠ 0xB) ∨
  (∃ flags payload, c = .selectAck o.tag flags payload ∧
    ∀ sel, o.message = .select sel →
      payload.toNat % 32 ≠ sel.channel.toNat ∨ payload.toNat / 256 % 4 ≠ sel.gain.toNat) ∨
  (∃ overRange fault value, c = .sample o.tag overRange fault value ∧ o.message ≠ .convert) ∨
  (∃ flags payload, c = .resetAck o.tag flags payload ∧ o.message ≠ .resetFe)

/-- R108: the last attempt of `o` fails by the command `c`, at its timeout or at an unsuitable answer, and `u` is `s` with
the outstanding message absent, and PROTOCOL_ERROR set in the second case. -/
def LastAttemptFails (s : State) (o : Outstanding) (c : Instr) (u : State) : Prop :=
  s.link.outstanding = some o ∧ s.link.retryLimit ≤ o.retries ∧
    (c = .attemptTimeout ∧ o.left = 0 ∧ u = answered s ∨ Unsuitable o c ∧ u = answered (protocolError s))

/-- R85, R88: the entry that the engine executes as `x` ends by the command `c` with a failure, and `u` is the state in
which its completion begins: FE_FAULT at a SAMPLE with the fault flag, NO_RESPONSE when the last attempt of its SELECT or
CONVERT fails. -/
def EntryFails (s : State) (x : Execution) (status : Status) (c : Instr) (u : State) : Prop :=
  (∃ tag overRange value,
    Awaits s x tag ∧ status = .feFault ∧ c = .sample tag overRange true value ∧ u = answered s) ∨
  ∃ o, s.resetAsserted = false ∧ s.engine.held = some x ∧
    (x.phase = .converting ∧ o.message = .convert ∨ x.phase = .selecting ∧ ∃ sel, o.message = .select sel) ∧
    status = .noResponse ∧ LastAttemptFails s o c u

/-- R87, R90, steps 1 to 3: the selection is absent, the RESULT record with the failure and value 0 is handed over whatever
the output mode, and ENTRY_FAILED is posted. -/
def failureReported (x : Execution) (status : Status) (s : State) : State :=
  post (.entryFailed x.request.set x.entry status)
    (handSetRecord x.request.set .result status x.entry 0
      { s with engine := { s.engine with selection := none } })

/-! ### Records -/

/-- R34, R36, R94, R96: the held request of set `k` is given up by a host stop: the STOP record with the entry at the
cursor, the set in the state `st`, the engine IDLE. -/
def stopped (k : Fin 8) (cause : StopCause) (st : SetState) (s : State) : State :=
  idle
    (withSet k
      { (handSetRecord k .stop .ok (Fin.ofNat 128 (s.sets[k].desc.first.val + s.sets[k].cursor))
            (cause.code ++ BitVec.ofNat 8 s.sets[k].cursor) s).sets[k] with
        state := st, cursor := 0, passCount := 0, passStart := false }
      (handSetRecord k .stop .ok (Fin.ofNat 128 (s.sets[k].desc.first.val + s.sets[k].cursor))
        (cause.code ++ BitVec.ofNat 8 s.sets[k].cursor) s))

/-- R34: the entry after the one at the cursor; the run's first after its last. -/
def following (x : ScanSet) : Fin 128 :=
  if x.cursor + 1 = x.desc.count then x.desc.first else Fin.ofNat 128 (x.desc.first.val + (x.cursor + 1))

/-- R34: the STOP record of a scan that its last entry ends, handed over. -/
def stopRecorded (k : Fin 8) (cause : StopCause) (s : State) : State :=
  handSetRecord k .stop .ok (following s.sets[k]) (cause.code ++ BitVec.ofNat 8 (s.sets[k].cursor + 1)) s

/-- R31, R39: a set whose scan has ended restarts from its deferred flag or is ARMED. -/
def Restarts (k : Fin 8) (s t : State) : Prop :=
  if s.sets[k].deferred = true then
    ∃ q, Placed (newRequest s k) s.arbiter.queue q ∧
      t =
        withSet k
          { s.sets[k] with
            state := .pending, deferred := false, cursor := 0, passCount := 0, passStart := true }
          { s with arbiter := { queue := q, issued := s.arbiter.issued + 1 } }
  else t = withSet k { s.sets[k] with state := .armed } s

/-- R30, R31: set `k` completes its scan: scans completed grows, SCAN_DONE is posted, the engine is IDLE, the set restarts
from its deferred flag or is ARMED, and the chain target, when present, takes its trigger. Pass-start pending is left as it
stands in a set that is ARMED (DEDUCED, log entry 12). -/
def ScanCompleted (k : Fin 8) (s t : State) : Prop :=
  ∃ u,
    Restarts k
      (idle
        (withSet k { s.sets[k] with completed := s.sets[k].completed + 1, cursor := 0, passCount := 0 }
          (post (.scanDone k (s.sets[k].completed + 1)) s)))
      u ∧
    if s.sets[k].desc.chainPresent = true then Arrives s.sets[k].desc.chainTarget .chain u t else t = u

/-! ### A completed entry whose scan goes on -/

/-- R121, R122: the zone the value `r` of an entry is found in; an entry without a window keeps its zone. -/
def zoneFound (x : Execution) (r : Word) (s : State) : Zone :=
  if x.snapshot.window = true then
    nextZone s.entries[x.entry].zone r.toInt x.snapshot.low.toInt x.snapshot.high.toInt
      x.snapshot.hysteresis.toNat
  else s.entries[x.entry].zone

/-- R123: a crossing out: the zone has moved to ABOVE or BELOW. -/
def Entered (old new : Zone) : Prop := new ≠ old ∧ (new = .above ∨ new = .below)

/-- R125: the event of a move; a zone that stays and a first placement post none. -/
def moveReported (k : Fin 8) (i : Fin 128) (r : Word) (old new : Zone) (s : State) : State :=
  if new = old then s
  else
    match new with
    | .above => post (.limitAbove k i r) s
    | .below => post (.limitBelow k i r) s
    | .inside => if old = .unknown then s else post (.limitInside k i r) s
    | .unknown => s

/-- R121, R122, R125: the zone moved in the table and reported, for an entry with a window. -/
def evaluated (x : Execution) (r : Word) (old new : Zone) (s : State) : State :=
  if x.snapshot.window = true then
    moveReported x.request.set x.entry r old new
      { s with entries := put s.entries x.entry { s.entries[x.entry] with zone := new } }
  else s

/-- R126, R89: the RESULT record, handed over under ALWAYS, and under ZONE_CHANGE when the zone has moved. -/
def recordedIfRequired (x : Execution) (r : Word) (old new : Zone) (s : State) : State :=
  if x.snapshot.output = .always ∨ x.snapshot.output = .zoneChange ∧ new ≠ old then
    handSetRecord x.request.set .result (outcome x) x.entry r s
  else s

/-- R74: the held request `r` is taken back with the stamp `stamp`: RESUMED with the set's run context saved, at its place
in the queue, its set PREEMPTED, the engine IDLE. -/
def Returned (r : Request) (stamp issued : Nat) (s t : State) : Prop :=
  ∃ q,
    Placed
      { r with
        stamp := stamp
        kind :=
          .resumed s.sets[r.set].cursor s.sets[r.set].passCount s.sets[r.set].passStart }
      s.arbiter.queue q ∧
    t =
      idle
        (withSet r.set { s.sets[r.set] with state := .preempted }
          { s with arbiter := { queue := q, issued := issued } })

/-- R70, R71: the set of `r` is preemptible and the head of the queue is above `r` by the test `above`. -/
def GivesWay (r : Request) (above : Fin 4 → Prop) (s : State) : Prop :=
  s.sets[r.set].desc.preemptible = true ∧ ∃ h ∈ s.arbiter.queue.head?, above h.priority

/-- R112, R113, R73, R92: the arbiter has left `r` with the engine: the link's count is updated by the entry's status, and
the entry at the cursor is started, or, when the count reaches the threshold, the link goes DOWN and `r` is returned with
its stamp. -/
structure GoesOn (status : Status) (r : Request) (s t : State) : Prop where
  answered : status ≠ .noResponse →
    t =
      entryStarted r (Fin.ofNat 128 (s.sets[r.set].desc.first.val + s.sets[r.set].cursor)) (countCleared s)
  below : status = .noResponse → s.link.failures + 1 < s.link.threshold →
    t =
      entryStarted r (Fin.ofNat 128 (s.sets[r.set].desc.first.val + s.sets[r.set].cursor)) (countGrown s)
  reached : status = .noResponse → s.link.failures + 1 = s.link.threshold →
    Returned r r.stamp s.arbiter.issued (linkFallen s) t

/-- R69–R72, R112, R113, R92, R116: the arbiter's decision on `r` at a boundary inside a pass or at a pass end, reached with
the entry's status, and what follows it: a pending reset takes the request back with its stamp, preemption takes it
back with its stamp, a yield with a new one, and otherwise the request goes on. In every case the link's count is updated
by the status, and then a pending reset is carried out. -/
structure Decided (status : Status) (r : Request) (passEnd : Bool) (s t : State) : Prop where
  reset : s.link.resetPending = true →
    ∃ u, Returned r r.stamp s.arbiter.issued s u ∧ Counted status u t
  preempted : s.link.resetPending = false → passEnd = false → GivesWay r (fun p => r.priority < p) s →
    ∃ u, Returned r r.stamp s.arbiter.issued s u ∧ Counted status u t
  yielded : s.link.resetPending = false → passEnd = true → GivesWay r (fun p => r.priority ≤ p) s →
    ∃ u, Returned r s.arbiter.issued (s.arbiter.issued + 1) s u ∧ Counted status u t
  left : s.link.resetPending = false → (passEnd = false → ¬ GivesWay r (fun p => r.priority < p) s) →
    (passEnd = true → ¬ GivesWay r (fun p => r.priority ≤ p) s) → GoesOn status r s t

/-! ### Streams and their pages -/

/-- R142: `page` becomes the filling page of a stream. -/
def filledBy (x : Stream) (page : Fin 128) (now : Time) : Stream :=
  { x with
    filling := some { page := page, seq := x.nextSeq, words := 0, records := 0, openTime := now }
    nextSeq := x.nextSeq + 1 }

/-- R141: the words of a record. -/
def wordsOf (r : Record) (ts : Bool) (now : Time) : List Word :=
  if ts = true then [r.header true, r.value, lowHalf now, highHalf now] else [r.header false, r.value]

/-- R145: `n` is `m` with the record `r` appended to the filling page `f` of stream `k`. -/
structure Appended (m : StreamManager) (k : Fin 4) (f : FillingPage) (r : Record) (now : Time)
    (n : StreamManager) : Prop where
  /-- The free pool is unchanged. -/
  pool : n.pool = m.pool
  /-- The words are written at the page's word count, in order. -/
  written : ∀ i, (h : i < (wordsOf r m.streams[k].config.timestamps now).length) →
    n.memory.read (64 * f.page.val + f.words + i) = (wordsOf r m.streams[k].config.timestamps now)[i]
  /-- Every other word of sample memory reads as before. -/
  others : ∀ a,
    (a < 64 * f.page.val + f.words ∨
      64 * f.page.val + f.words + (wordsOf r m.streams[k].config.timestamps now).length ≤ a) →
    n.memory.read a = m.memory.read a
  /-- The other streams are unchanged. -/
  apart : ∀ j, j ≠ k → n.streams[j] = m.streams[j]
  /-- The counts grow, and a page of 64 words is closed with FLUSHED clear. -/
  counted :
    n.streams[k] =
      if f.words + (wordsOf r m.streams[k].config.timestamps now).length = 64 then
        { m.streams[k] with
          filling := none
          full := m.streams[k].full ++
            [{ page := f.page, seq := f.seq, words := 64, records := f.records + 1, flushed := false }]
          written := m.streams[k].written + 1 }
      else
        { m.streams[k] with
          filling :=
            some
              { f with
                words := f.words + (wordsOf r m.streams[k].config.timestamps now).length
                records := f.records + 1 }
          written := m.streams[k].written + 1 }

/-- R146, R147: on a stream that has just got the filling page `f`, a nonzero loss count is first appended as a LOSS
record and set to 0, and then the record is appended. -/
def Stored (m : StreamManager) (k : Fin 4) (f : FillingPage) (r : Record) (now : Time)
    (n : StreamManager) : Prop :=
  if m.streams[k].loss = 0 then Appended m k f r now n
  else
    ∃ n',
      Appended m k f
        { kind := .loss, status := .ok, set := 0, entry := 0, mark := false, value := m.streams[k].loss } now
        n' ∧
      ∃ g, n'.streams[k].filling = some g ∧
        Appended { n' with streams := put n'.streams k { n'.streams[k] with loss := 0 } } k g r now n

/-- R148, R149, R150: the filling page closed with FLUSHED set. -/
def flushed (x : Stream) (f : FillingPage) : Stream :=
  { x with
    filling := none
    full := x.full ++
      [{ page := f.page, seq := f.seq, words := f.words, records := f.records, flushed := true }] }

/-! ### Registers -/

/-- Section 10.4: the commands of the directory in the order of their codes, from code 1. -/
def directory : List Instr :=
  [.entryWrite, .entryRead, .setWrite, .setRead, .setEnable, .setDisable, .setTrigger, .setStop, .setClear,
    .timerWrite, .timerStart, .timerStop, .extWrite, .linkWrite, .linkReset, .streamWrite, .streamRead,
    .streamEnable, .streamDisable, .streamFlush, .pageOpen, .pageRelease, .eventPop, .softReset]

/-- What the event head registers show of an event, as numbers (R159, R189). -/
structure Shown where
  stream : Nat := 0
  entry : Nat := 0
  set : Nat := 0
  kind : Nat
  detail : Nat := 0

/-- R58: the number of an origin. -/
def originNumber : Origin → Nat
  | .software => 0
  | .timer t => 1 + t.val
  | .ext l => 5 + l.val
  | .chain => 7
  | .limit => 8

/-- R87: the number of a status. -/
def statusNumber : Status → Nat
  | .ok => 0
  | .clipped => 1
  | .noResponse => 2
  | .feFault => 3

/-- R159: the table of event kinds: which fields each carries, and its detail. -/
def shown : EventBody → Shown
  | .limitAbove k i v => { entry := i, set := k, kind := 1, detail := v.toNat }
  | .limitBelow k i v => { entry := i, set := k, kind := 2, detail := v.toNat }
  | .limitInside k i v => { entry := i, set := k, kind := 3, detail := v.toNat }
  | .scanDone k n => { set := k, kind := 4, detail := n.toNat }
  | .scanStopped k => { set := k, kind := 5, detail := 3 }
  | .setHalted k i st => { entry := i, set := k, kind := 6, detail := statusNumber st }
  | .entryFailed k i st => { entry := i, set := k, kind := 7, detail := statusNumber st }
  | .triggerOverrun k o => { set := k, kind := 8, detail := originNumber o }
  | .linkDown t => { kind := 9, detail := t }
  | .linkUp => { kind := 10 }
  | .linkResetFailed => { kind := 11 }
  | .streamLoss k => { stream := k, kind := 12 }
  | .pageReclaimed k q => { stream := k, kind := 13, detail := q.toNat }
  | .eventsLost n => { kind := 14, detail := n.toNat }

/-- R172: what each offset reads right after RESET is released with the lines at the levels given. -/
def resetWord (ext0 ext1 : Bool) (offset : BitVec 6) : Word :=
  if offset.toNat = 0x00 then 0x2416
  else if 0x25 ≤ offset.toNat ∧ offset.toNat ≤ 0x28 then 1
  else if offset.toNat = 0x2A then (if ext0 = true then 1 else 0) + (if ext1 = true then 2 else 0)
  else if offset.toNat = 0x2B then 0x3FFE
  else 0

/-- A line's edge configuration says that a change to the level `high` is a trigger (R56). -/
def Qualifies (e : EdgeConfig) (high : Bool) : Prop :=
  match e with
  | .rising => high = true
  | .falling => high = false
  | .both => True

/-- R51, R54: a timer after its gate line has gone to the level `high`; a unit completed by the present microsecond is
held one microsecond short. Which unit that is when steps are taken late is the model's choice (log entry 7). -/
def gateMoved (x : Timer) (high : Bool) : Timer :=
  match x.state, high with
  | .running, false =>
    if x.phase = 0 ∧ 0 < x.unitsDue then
      { x with state := .gated, phase := x.unit.micros - 1, unitsDue := x.unitsDue - 1 }
    else { x with state := .gated }
  | .gated, true => { x with state := .running }
  | .running, true | .gated, false | .stopped, _ => x

/-- R51: the timer is RUNNING and a unit it has completed has not been taken yet (log entry 7). -/
def UnitReached (x : Timer) : Prop := x.state = .running ∧ 0 < x.unitsDue

/-- R46, R51: a timer after one microsecond. -/
def ticked (x : Timer) : Timer :=
  if x.state = .running then
    if x.phase + 1 < x.unit.micros then { x with phase := x.phase + 1 }
    else { x with phase := 0, unitsDue := x.unitsDue + 1 }
  else x

end Sys2Proof.Statements

open Sys2Proof Sys2Proof.Machine Sys2Proof.Statements

/-! ### The machine and its commands -/

/-- A step takes the command at the front of the queue, with the rest left waiting; with none waiting the part idles
(DESIGN CHOICE, log entry 1). -/
def Obligations.StepTakesFrontCommand : Prop :=
  (∀ (c : Instr) (s : State), step { s with pending := c :: s.pending } = exec c s) ∧
    ∀ s : State, s.pending = [] → step s = .next s

/-- Every command of the table answers a next state, in every state; a term that spells another command is refused
(DESIGN CHOICE, log entry 11). That the waiting commands are kept is the model's choice too: the queue is the model's own
(log entry 1), and DEVICE_RESET keeps what waits in it (log entry 15). -/
def Obligations.WellFormedCommandsComplete : Prop :=
  ∀ (c : Instr) (s : State),
    (c.wellFormed = true → ∃ t, exec c s = .next t ∧ t.pending = s.pending) ∧
      (c.wellFormed = false → exec c s = .refused .namesAnotherCommand)

/-- Section 10.4, R172, R191: the command that each host write, each host read and each 24-bit frame is; the frame of
each message the part sends; and the line form of a frame, which a receiver reads as that one frame after any number of
idle levels. -/
def Obligations.WordsSpellCommands : Prop :=
  (∀ (offset : BitVec 6) (value : Word),
    (offset.toNat = 0x01 →
      commandOfWrite offset value =
        if value.toNat = 0 then .unknownCommand value
        else directory.getD (value.toNat - 1) (.unknownCommand value)) ∧
    (∀ n : Fin 6, offset.toNat = 0x03 + n.val → commandOfWrite offset value = .paramWrite n value) ∧
    (offset.toNat = 0x09 → commandOfWrite offset value = .intcauseWrite value) ∧
    (offset.toNat = 0x0A → commandOfWrite offset value = .intenableWrite value) ∧
    (offset.toNat = 0x0D → commandOfWrite offset value = .linkstatWrite value) ∧
    (offset.toNat = 0x2B → commandOfWrite offset value = .evmaskWrite value) ∧
    (offset.toNat = 0x00 ∨ offset.toNat = 0x02 ∨ offset.toNat = 0x0B ∨ offset.toNat = 0x0C ∨
        0x0E ≤ offset.toNat ∧ offset.toNat ≠ 0x2B →
      commandOfWrite offset value = .ignoredRegisterWrite offset value)) ∧
  (∀ offset : BitVec 6,
    (offset.toNat = 0x0B → commandOfRead offset = some .timeloRead) ∧
    (∀ k : Fin 4, offset.toNat = 0x1C + k.val → commandOfRead offset = some (.strmdataRead k)) ∧
    (offset.toNat ≠ 0x0B → offset.toNat < 0x1C ∨ 0x1F < offset.toNat → commandOfRead offset = none)) ∧
  (∀ (f : Frame) (code : BitVec 4) (tag flags : BitVec 2) (payload : Word),
    f.toNat = code.toNat * 2 ^ 20 + tag.toNat * 2 ^ 18 + flags.toNat * 2 ^ 16 + payload.toNat →
    (code = 0x9 → commandOfFrame f = .selectAck tag flags payload) ∧
    (∀ overRange fault : Bool, code = 0xA → flags.toNat = overRange.toNat * 2 + fault.toNat →
      commandOfFrame f = .sample tag overRange fault payload) ∧
    (code = 0xB → commandOfFrame f = .resetAck tag flags payload) ∧
    (code ≠ 0x9 → code ≠ 0xA → code ≠ 0xB →
      commandOfFrame f = .otherTypeFrame code tag flags payload)) ∧
  (∀ (tag : BitVec 2) (sel : Selection),
    ((Message.select sel).frame tag).toNat =
      1 * 2 ^ 20 + tag.toNat * 2 ^ 18 + sel.gain.toNat * 256 + sel.channel.toNat ∧
    (Message.convert.frame tag).toNat = 2 * 2 ^ 20 + tag.toNat * 2 ^ 18 ∧
    (Message.resetFe.frame tag).toNat = 3 * 2 ^ 20 + tag.toNat * 2 ^ 18) ∧
  ∀ f : Frame,
    (lineBits f).length = 25 ∧ (lineBits f)[0]? = some false ∧
    (∀ n : Fin 24, (lineBits f)[1 + n.val]? = some (f.toNat.testBit (23 - n.val))) ∧
    ∀ (idle : Nat) (rest : List Bool),
      commandsOfLine .idle (List.replicate idle true ++ (lineBits f ++ rest)) =
        commandOfFrame f :: commandsOfLine .idle rest

/-- DEVICE_RESET, from any state, and RESET_RELEASE of the state it leaves, the only one in which that command acts:
every register reads what R172's map gives, and every entry, set, timer, line, request and block is as its block's rule
gives (R16, R44, R60, R77, R100, R119, R156, R170, R183). What unlisted words read as, the last word read, what LOUT has
carried, the units due and the commands left waiting are the model's choices (log entries 3, 4, 5, 7 and 15). -/
def Obligations.DeviceResetLeavesMap : Prop :=
  ∀ (s : State) (ext0 ext1 : Bool),
    ∃ t u,
      exec .deviceReset s = .next t ∧ t.resetAsserted = true ∧
        exec (.resetRelease ext0 ext1) t = .next u ∧ u.resetAsserted = false ∧
        (∀ offset : BitVec 6, t.read offset = 0 ∧ u.read offset = resetWord ext0 ext1 offset) ∧
        t.int = false ∧ u.int = false ∧
        (∀ i : Fin 128, u.entries[i] = .default) ∧ (∀ k : Fin 8, u.sets[k] = .fresh .default) ∧
        u.triggers =
          { time := 0, timeHi := 0
            timers :=
              .replicate 4
                { period := 1, unit := .us1, mode := .periodic, gate := .none, state := .stopped,
                  remaining := 1, phase := 0, unitsDue := 0 }
            lines := #v[{ edge := .rising, high := ext0 }, { edge := .rising, high := ext1 }] } ∧
        u.arbiter = .default ∧ u.engine = .default ∧ u.link = .default ∧ u.streams = .default ∧
        u.events = .default ∧ u.host = .default ∧ u.pending = s.pending

/-- R177: a host command other than SOFT_RESET, weighed by its own checks, ends DONE with OK, or goes IN_PROGRESS
with OK when it is SET_STOP or SET_DISABLE, or is refused and changes CMDSTAT alone. -/
def Obligations.RefusedCommandChangesCmdstatAlone : Prop :=
  ∀ (c : Instr) (n : Fin 25) (s : State), c.code? = some n → n ≠ 24 → Taking s →
    ∃ t, exec c s = .next t ∧ t.host.port.command = n ∧
      (t.host.port.state = .done ∧ t.host.port.result = .ok ∨
        t.host.port.state = .inProgress ∧ t.host.port.result = .ok ∧ (c = .setStop ∨ c = .setDisable) ∨
        ∃ r, r ≠ .ok ∧ t = ended n r s)

/-- R175, R180, R177: while the port is IN_PROGRESS every command other than SOFT_RESET writes BUSY, and an unknown
code UNKNOWN_COMMAND, into the result field alone; otherwise an unknown code ends DONE with command 0. That BUSY answers
an ENTRY_WRITE of the entry in progress too, taken while the engine drains, is the model's choice (log entry 19): R10,
R11 and R180 say BUSY there and R13's last bullet IN_USE. -/
def Obligations.BusyAndUnknownCommands : Prop :=
  ∀ s : State, s.resetAsserted = false →
    (s.host.port.state = .inProgress →
      (∀ (c : Instr) (n : Fin 25), c.code? = some n → n ≠ 24 →
        exec c s =
          .next { s with host := { s.host with port := { s.host.port with result := .busy } } }) ∧
      ∀ code : Word, code.toNat = 0 ∨ 25 ≤ code.toNat →
        exec (.unknownCommand code) s =
          .next { s with host := { s.host with port := { s.host.port with result := .unknownCommand } } }) ∧
    (s.host.port.state ≠ .inProgress →
      ∀ code : Word, code.toNat = 0 ∨ 25 ≤ code.toNat →
        exec (.unknownCommand code) s = .next (ended 0 .unknownCommand s))

/-- R172, R46: while RESET is asserted no command but its release, or a new assertion, changes anything (the model's
own record of the last word read apart, log entry 4), every read returns 0, and INT is deasserted. That arrivals other
than the host's act on nothing then is the model's reading (log entry 10). -/
def Obligations.AssertedResetHoldsEverything : Prop :=
  ∀ s : State, s.resetAsserted = true →
    (∀ offset : BitVec 6, s.read offset = 0) ∧ s.int = false ∧
    (∀ k : Fin 4,
      exec (.strmdataRead k) s = .next { s with host := { s.host with data := 0 } }) ∧
    exec .timeloRead s = .next { s with host := { s.host with data := 0 } } ∧
    ∀ c : Instr, c.wellFormed = true → c ≠ .deviceReset → (∀ e0 e1, c ≠ .resetRelease e0 e1) →
      c ≠ .timeloRead → (∀ k, c ≠ .strmdataRead k) → exec c s = .next s

/-- R168, R179: the end of a drain is the only arrival that sets COMMAND_DONE; the port is then DONE with OK and the
engine holds no request. -/
def Obligations.CommandDoneSetOnlyByDrainEnd : Prop :=
  ∀ (c : Instr) (s t : State), exec c s = .next t → s.host.commandDone = false →
    t.host.commandDone = true →
    (∃ x cause, s.engine.held = some x ∧ x.phase = .draining cause) ∧ t.engine.held = none ∧
      t.host.port.state = .done ∧ t.host.port.result = .ok ∧
      t.host.port.command = s.host.port.command

/-- R46: the time counter changes by TIME_COUNTER_ADVANCE, by one, wrapping, and by device reset, and by nothing
else. -/
def Obligations.TimeCounterOnlyAdvances : Prop :=
  ∀ (c : Instr) (s t : State), exec c s = .next t →
    t.triggers.time = s.triggers.time ∨
      c = .timeCounterAdvance ∧ t.triggers.time = s.triggers.time + 1 ∨
      c = .deviceReset ∧ t.triggers.time = 0

/-- R173. -/
def Obligations.IdentReads2416h : Prop :=
  ∀ s : State, s.resetAsserted = false →
    s.read 0x00 = 0x2416 ∧ ∀ value : Word, exec (commandOfWrite 0x00 value) s = .next s

/-! ### Entries and sets -/

/-- R11, R12: ENTRY_WRITE is refused by the first check that fails, and otherwise replaces the twelve fields and sets
the zone to UNKNOWN. -/
def Obligations.EntryWriteOutcome : Prop :=
  ∀ s : State, Taking s →
    (128 ≤ s.host.params[0].toNat → exec .entryWrite s = .next (ended 1 .badIndex s)) ∧
    ∀ i : Fin 128, Named s i →
      (s.engine.held.map Execution.entry = some i → exec .entryWrite s = .next (ended 1 .inUse s)) ∧
      (s.engine.held.map Execution.entry ≠ some i →
        (∀ f, HoldsEntry s.host.params f → EntryCommits f →
          exec .entryWrite s =
            .next
              (ended 1 .ok { s with entries := put s.entries i { fields := f, zone := .unknown } })) ∧
        ((∀ f, HoldsEntry s.host.params f → ¬ EntryCommits f) →
          exec .entryWrite s = .next (ended 1 .badConfig s)))

/-- R14, R22, R138: ENTRY_READ, SET_READ and STREAM_READ return what they name in PARAM1–PARAM5, unused bits 0, and
change nothing else but CMDSTAT; an index out of range is refused. -/
def Obligations.ReadCommandsReturnData : Prop :=
  ∀ s : State, Taking s →
    ((128 ≤ s.host.params[0].toNat → exec .entryRead s = .next (ended 2 .badIndex s)) ∧
      ∀ i : Fin 128, Named s i →
        ∃ p, exec .entryRead s = .next (ended 2 .ok (returning p s)) ∧ p[0] = s.host.params[0] ∧
          HoldsEntry p s.entries[i].fields ∧ p[2].toNat / 64 % 4 = s.entries[i].zone.code.toNat ∧
          p[1].toNat / 128 % 2 = 0 ∧ p[2].toNat / 8192 % 2 = 0) ∧
    ((8 ≤ s.host.params[0].toNat → exec .setRead s = .next (ended 4 .badIndex s)) ∧
      ∀ k : Fin 8, Named s k → s.sets[k].desc.count ≤ 32 →
        ∃ p, exec .setRead s = .next (ended 4 .ok (returning p s)) ∧ p[0] = s.host.params[0] ∧
          HoldsDescriptor p s.sets[k].desc ∧ p[4] = s.sets[k].overruns ∧ p[5] = s.sets[k].completed ∧
          p[1].toNat / 128 % 2 = 0 ∧ p[1].toNat / 16384 = 0 ∧ p[2].toNat / 8 % 2 = 0 ∧
          p[3].toNat / 128 = 0) ∧
    (4 ≤ s.host.params[0].toNat → exec .streamRead s = .next (ended 17 .badIndex s)) ∧
      ∀ k : Fin 4, Named s k → s.streams.streams[k].config.quota ≤ 128 →
        s.streams.streams[k].config.threshold ≤ 64 →
        ∃ p, exec .streamRead s = .next (ended 17 .ok (returning p s)) ∧ p[0] = s.host.params[0] ∧
          HoldsStream p s.streams.streams[k].config ∧
          (p[2].toNat / 32768 = 1 ↔ s.streams.streams[k].enabled = true) ∧
          p[4] = s.streams.streams[k].nextSeq ∧ p[5] = s.streams.streams[k].written ∧
          p[2].toNat / 4 % 64 = 0

/-- R21: SET_WRITE is refused by the first check that fails, and otherwise replaces the descriptor alone. -/
def Obligations.SetWriteOutcome : Prop :=
  ∀ s : State, Taking s →
    (8 ≤ s.host.params[0].toNat → exec .setWrite s = .next (ended 3 .badIndex s)) ∧
    ∀ k : Fin 8, Named s k →
      (s.sets[k].state ≠ .disabled → exec .setWrite s = .next (ended 3 .badState s)) ∧
      (s.sets[k].state = .disabled →
        (∀ d, HoldsDescriptor s.host.params d → 1 ≤ d.count ∧ d.count ≤ 32 →
          exec .setWrite s = .next (ended 3 .ok (withSet k { s.sets[k] with desc := d } s))) ∧
        ((∀ d, HoldsDescriptor s.host.params d → ¬ (1 ≤ d.count ∧ d.count ≤ 32)) →
          exec .setWrite s = .next (ended 3 .badConfig s)))

/-- R23, R40: SET_ENABLE arms a DISABLED set whose run fits and whose stream is enabled, every item of its run
context 0; SET_CLEAR arms a HALTED set and keeps its counters. -/
def Obligations.SetEnableAndClear : Prop :=
  ∀ s : State, Taking s →
    (8 ≤ s.host.params[0].toNat →
      exec .setEnable s = .next (ended 5 .badIndex s) ∧ exec .setClear s = .next (ended 9 .badIndex s)) ∧
    ∀ k : Fin 8, Named s k →
      (s.sets[k].state ≠ .disabled → exec .setEnable s = .next (ended 5 .badState s)) ∧
      (s.sets[k].state = .disabled →
        s.sets[k].desc.first.val + s.sets[k].desc.count > 128 ∨
          s.streams.streams[s.sets[k].desc.stream].enabled = false →
        exec .setEnable s = .next (ended 5 .badConfig s)) ∧
      (s.sets[k].state = .disabled → s.sets[k].desc.first.val + s.sets[k].desc.count ≤ 128 →
        s.streams.streams[s.sets[k].desc.stream].enabled = true →
        exec .setEnable s =
          .next
            (ended 5 .ok
              (withSet k
                { desc := s.sets[k].desc, state := .armed, cursor := 0, passCount := 0, deferred := false,
                  overruns := 0, completed := 0, passStart := false } s))) ∧
      (s.sets[k].state ≠ .halted → exec .setClear s = .next (ended 9 .badState s)) ∧
      (s.sets[k].state = .halted →
        exec .setClear s = .next (ended 9 .ok (withSet k { s.sets[k] with state := .armed } s)))

/-- R25, R24: SET_TRIGGER delivers one SOFTWARE arrival to the set in PARAM0, whatever the set's state. -/
def Obligations.SetTriggerDeliversArrival : Prop :=
  ∀ s : State, Taking s →
    (8 ≤ s.host.params[0].toNat → exec .setTrigger s = .next (ended 7 .badIndex s)) ∧
    ∀ k : Fin 8, Named s k →
      ∃ t, Arrives k .software s t ∧ exec .setTrigger s = .next (ended 7 .ok t)

/-- R35: SET_STOP and SET_DISABLE of a set that is not RUNNING, by its state. That SET_STOP of an ARMED set, which R35's table
gives as no change, leaves pass-start pending too, beside its sentence that every transition clears it, is DEDUCED (log
entry 12). -/
def Obligations.StopOfSetNotRunning : Prop :=
  ∀ s : State, Taking s →
    (8 ≤ s.host.params[0].toNat →
      exec .setStop s = .next (ended 8 .badIndex s) ∧ exec .setDisable s = .next (ended 6 .badIndex s)) ∧
    ∀ k : Fin 8, Named s k →
      (s.sets[k].state = .disabled ∨ s.sets[k].state = .stopping →
        exec .setStop s = .next (ended 8 .badState s) ∧
          exec .setDisable s = .next (ended 6 .badState s)) ∧
      (s.sets[k].state = .armed → exec .setStop s = .next (ended 8 .ok s)) ∧
      (s.sets[k].state = .halted → exec .setStop s = .next (ended 8 .badState s)) ∧
      (s.sets[k].state = .armed ∨ s.sets[k].state = .halted →
        exec .setDisable s =
          .next
            (ended 6 .ok
              (withSet k
                { s.sets[k] with state := .disabled, cursor := 0, passCount := 0, passStart := false }
                s))) ∧
      ∀ (c : Instr) (n : Fin 25) (cause : StopCause) (st : SetState),
        c = .setStop ∧ n = 8 ∧ cause = .hostStop ∧ st = .armed ∨
          c = .setDisable ∧ n = 6 ∧ cause = .hostDisable ∧ st = .disabled →
        ∀ t,
          (s.sets[k].state = .pending ∧ t = s ∨
            s.sets[k].state = .preempted ∧
              t = handSetRecord k .stop .ok (Fin.ofNat 128 (s.sets[k].desc.first.val + s.sets[k].cursor))
                (cause.code ++ BitVec.ofNat 8 s.sets[k].cursor) s) →
          exec c s =
            .next
              (ended n .ok
                (withSet k
                  { t.sets[k] with
                    state := st, cursor := 0, passCount := 0, passStart := false, deferred := false }
                  { t with
                    arbiter :=
                      { t.arbiter with queue := t.arbiter.queue.filter fun r => r.set != k } }))

/-- R36, R94, R95: SET_STOP and SET_DISABLE of the RUNNING set: from SETTLING the request is released at once with a
STOP record, and a pending reset is carried out; from SELECTING or CONVERTING the engine drains, the set is
STOPPING and the port IN_PROGRESS. -/
def Obligations.StopOfRunningSet : Prop :=
  ∀ (s : State) (k : Fin 8) (x : Execution), Taking s → Named s k → s.sets[k].state = .running →
    s.engine.held = some x → x.request.set = k →
    ∀ (c : Instr) (n : Fin 25) (drain : DrainCause) (cause : StopCause) (st : SetState),
      c = .setStop ∧ n = 8 ∧ drain = .hostStop ∧ cause = .hostStop ∧ st = .armed ∨
        c = .setDisable ∧ n = 6 ∧ drain = .hostDisable ∧ cause = .hostDisable ∧ st = .disabled →
      (∀ left, x.phase = .settling left →
        exec c s =
          .next
            (ended n .ok
              (resettingIfPending (stopped k cause st (withSet k { s.sets[k] with deferred := false } s))))) ∧
      (x.phase = .selecting ∨ x.phase = .converting →
        exec c s =
          .next
            { holding { x with phase := .draining drain }
                (withSet k { s.sets[k] with deferred := false, state := .stopping } s) with
              host :=
                { s.host with port := { state := .inProgress, result := .ok, command := n } } })

/-! ### Triggers and timers -/

/-- R49, R50: TIMER_WRITE configures a STOPPED timer; TIMER_START loads it and lets it run when its gate is open. That
no unit is due then speaks of the model's own count (log entry 7). -/
def Obligations.TimerWriteAndStart : Prop :=
  ∀ s : State, Taking s →
    (4 ≤ s.host.params[0].toNat →
      exec .timerWrite s = .next (ended 10 .badIndex s) ∧
        exec .timerStart s = .next (ended 11 .badIndex s)) ∧
    ∀ t : Fin 4, Named s t →
      (s.triggers.timers[t].state ≠ .stopped →
        exec .timerWrite s = .next (ended 10 .badState s) ∧
          exec .timerStart s = .next (ended 11 .badState s)) ∧
      (s.triggers.timers[t].state = .stopped →
        (∀ x : Timer, HoldsTimer s.host.params x → x.period ≠ 0 → x.state = .stopped →
          x.remaining = x.period → x.phase = 0 → x.unitsDue = 0 →
          exec .timerWrite s = .next (ended 10 .ok (withTimer t x s))) ∧
        ((∀ x : Timer, HoldsTimer s.host.params x → x.period = 0) →
          exec .timerWrite s = .next (ended 10 .badConfig s)) ∧
        exec .timerStart s =
          .next
            (ended 11 .ok
              (withTimer t
                { s.triggers.timers[t] with
                  remaining := s.triggers.timers[t].period
                  phase := 0
                  unitsDue := 0
                  state :=
                    match s.triggers.timers[t].gate with
                    | .none => .running
                    | .high l => if s.triggers.lines[l].high = true then .running else .gated }
                s)))

/-- R53: TIMER_STOP stops the timer in every state, with remaining its period and unit phase 0, and no unit due in the
model's own count (log entry 7). -/
def Obligations.TimerStopDiscardsCount : Prop :=
  ∀ s : State, Taking s →
    (4 ≤ s.host.params[0].toNat → exec .timerStop s = .next (ended 12 .badIndex s)) ∧
    ∀ t : Fin 4, Named s t →
      exec .timerStop s =
        .next
          (ended 12 .ok
            (withTimer t
              { s.triggers.timers[t] with
                state := .stopped, remaining := s.triggers.timers[t].period, phase := 0, unitsDue := 0 }
              s))

/-- R56: EXT_WRITE replaces a line's edge configuration alone. -/
def Obligations.ExtWriteOutcome : Prop :=
  ∀ s : State, Taking s →
    (2 ≤ s.host.params[0].toNat → exec .extWrite s = .next (ended 13 .badIndex s)) ∧
    ∀ l : Fin 2, Named s l →
      (∀ e : EdgeConfig, s.host.params[1].toNat = e.code.toNat →
        exec .extWrite s =
          .next
            (ended 13 .ok
              { s with
                triggers :=
                  { s.triggers with
                    lines := put s.triggers.lines l { s.triggers.lines[l] with edge := e } } })) ∧
      (2 < s.host.params[1].toNat → exec .extWrite s = .next (ended 13 .badConfig s))

/-- R55, R51, R57: a sample equal to the held level does nothing; one that differs becomes the held level, moves the
timers gated by the line, and, when it qualifies, reaches the sets that name the line. `gateMoved` holds a unit that is due one
microsecond short, as R54 gives for the gate taken first, in the model's own count of units due; that it takes a unit due
with unit phase 0 for that unit, however late the steps are, is the model's choice (log entry 7). -/
def Obligations.LevelChangeOutcome : Prop :=
  ∀ (s : State) (l : Fin 2) (high : Bool), s.resetAsserted = false →
    (s.triggers.lines[l].high = high → exec (.extLevelChange l high) s = .next s) ∧
    (s.triggers.lines[l].high ≠ high →
      ∃ timers : Vector Timer 4,
        (∀ j : Fin 4,
          timers[j] =
            if s.triggers.timers[j].gate = .high l then gateMoved s.triggers.timers[j] high
            else s.triggers.timers[j]) ∧
        ∀ t,
          t =
            { s with
              triggers :=
                { s.triggers with
                  timers := timers
                  lines := put s.triggers.lines l { s.triggers.lines[l] with high := high } } } →
          (Qualifies s.triggers.lines[l].edge high →
            exec (.extLevelChange l high) s = .next (deliverTriggers (.ext l) (.ext l) t)) ∧
          (¬ Qualifies s.triggers.lines[l].edge high → exec (.extLevelChange l high) s = .next t))

/-- R25, R58, R24, R63: a timer expiry or a qualifying edge takes each set that names its source, and no other, through
its own arrival, in ascending order of set index. Each ARMED one makes a NEW request, and the arrival counter issues one
stamp for each; each overrun posts TRIGGER_OVERRUN with the arrival's origin; nothing but sets, requests and the Event
Queue changes. -/
def Obligations.TriggerReachesEachNamingSet : Prop :=
  ∀ (s t : State) (src : TriggerSource) (o : Origin) (armed overrun : List (Fin 8)),
    t = deliverTriggers src o s →
    armed =
      (List.finRange 8).filter (fun k =>
        decide (s.sets[k].desc.source = src) && decide (s.sets[k].state = .armed)) →
    overrun =
      (List.finRange 8).filter (fun k =>
        decide (s.sets[k].desc.source = src) &&
          decide
            (s.sets[k].state = .pending ∨ s.sets[k].state = .running ∨ s.sets[k].state = .preempted) &&
          !decide (s.sets[k].desc.overrun = .defer ∧ s.sets[k].deferred = false)) →
    t = { s with sets := t.sets, arbiter := t.arbiter, events := t.events } ∧
    (∀ k : Fin 8, s.sets[k].desc.source ≠ src → t.sets[k] = s.sets[k]) ∧
    (∀ k : Fin 8, s.sets[k].desc.source = src →
      t.sets[k] =
        match s.sets[k].state with
        | .disabled | .halted | .stopping => s.sets[k]
        | .armed => { s.sets[k] with state := .pending, cursor := 0, passCount := 0, passStart := true }
        | .pending | .running | .preempted =>
          if s.sets[k].desc.overrun = .defer ∧ s.sets[k].deferred = false then
            { s.sets[k] with deferred := true }
          else
            { s.sets[k] with overruns := BitVec.ofNat 16 (min (s.sets[k].overruns.toNat + 1) 65535) }) ∧
    t.events = (overrun.foldl (fun u k => post (.triggerOverrun k o) u) s).events ∧
    t.arbiter.issued = s.arbiter.issued + armed.length ∧
    t.arbiter.queue.length = s.arbiter.queue.length + armed.length ∧
    ∀ r : Request,
      r ∈ t.arbiter.queue ↔
        r ∈ s.arbiter.queue ∨
          ∃ k ∈ armed,
            r =
              { newRequest s k with
                stamp := s.arbiter.issued + (armed.filter fun j => decide (j < k)).length }

/-- R51, R52: a completed unit reduces remaining by one; the unit that ends the period delivers the timer's triggers
and then reloads or stops the timer by its mode; neither happens while no unit is due (DESIGN CHOICE, log entries 6 and
7). The unit phase that a reloaded timer keeps is 0 in the microsecond that completes the unit (`TimeAdvances`), as R52
gives, and what has been counted since when the step is taken later. -/
def Obligations.TimerUnitAndExpiry : Prop :=
  ∀ (s : State) (t : Fin 4), s.resetAsserted = false →
    (¬ UnitReached s.triggers.timers[t] →
      exec (.timerUnitComplete t) s = .next s ∧ exec (.timerExpiry t) s = .next s) ∧
    (UnitReached s.triggers.timers[t] → s.triggers.timers[t].remaining ≠ 1 →
      exec (.timerUnitComplete t) s =
        .next
          (withTimer t
            { s.triggers.timers[t] with
              remaining := s.triggers.timers[t].remaining - 1
              unitsDue := s.triggers.timers[t].unitsDue - 1 }
            s) ∧
      exec (.timerExpiry t) s = .next s) ∧
    (UnitReached s.triggers.timers[t] → s.triggers.timers[t].remaining = 1 →
      exec (.timerUnitComplete t) s = .next s ∧
      exec (.timerExpiry t) s =
        .next
          (withTimer t
            (match s.triggers.timers[t].mode with
              | .periodic =>
                { s.triggers.timers[t] with
                  remaining := s.triggers.timers[t].period
                  unitsDue := s.triggers.timers[t].unitsDue - 1 }
              | .oneShot =>
                { s.triggers.timers[t] with
                  state := .stopped, remaining := s.triggers.timers[t].period, phase := 0, unitsDue := 0 })
            (deliverTriggers (.timer t) (.timer t) s)))

/-- R46, R51, R83, R106: a microsecond advances the time counter, every RUNNING timer, the settle timer and the attempt
timeout, in whole advances (DEDUCED, log entry 9), and nothing else. A unit phase that would reach one whole unit returns
to 0, and the completed unit joins the model's own count of units whose step is to come (DESIGN CHOICE, log entry 7). -/
def Obligations.TimeAdvances : Prop :=
  ∀ s : State, s.resetAsserted = false →
    ∃ timers : Vector Timer 4,
      (∀ j : Fin 4, timers[j] = ticked s.triggers.timers[j]) ∧
      ∃ t,
        exec .timeCounterAdvance s = .next t ∧
        t = { s with triggers := t.triggers, engine := t.engine, link := t.link } ∧
        t.triggers = { s.triggers with time := s.triggers.time + 1, timers := timers } ∧
        t.engine.selection = s.engine.selection ∧
        (s.engine.held = none → t.engine.held = none) ∧
        (∀ x, s.engine.held = some x →
          (∀ left, x.phase = .settling left →
            t.engine.held = some { x with phase := .settling (left - 1) }) ∧
          ((∀ left, x.phase ≠ .settling left) → t.engine.held = some x)) ∧
        t.link = { s.link with outstanding := t.link.outstanding } ∧
        t.link.outstanding = s.link.outstanding.map fun o => { o with left := o.left - 1 }

/-! ### The link and the engine -/

/-- R114: LINK_WRITE replaces the four values, and the count falls to one below a threshold at or below it. -/
def Obligations.LinkWriteOutcome : Prop :=
  ∀ (s : State) (sel conv retry thr : Nat), Taking s → s.host.params[0].toNat = sel →
    s.host.params[1].toNat = conv → s.host.params[2].toNat = retry → s.host.params[3].toNat = thr →
    ((sel = 0 ∨ 255 < sel ∨ conv = 0 ∨ 255 < conv ∨ 3 < retry ∨ thr = 0 ∨ 15 < thr) →
      exec .linkWrite s = .next (ended 14 .badConfig s)) ∧
    (1 ≤ sel → sel ≤ 255 → 1 ≤ conv → conv ≤ 255 → retry ≤ 3 → 1 ≤ thr → thr ≤ 15 →
      exec .linkWrite s =
        .next
          (ended 14 .ok
            { s with
              link :=
                { s.link with
                  selectTimeout := sel, conversionTimeout := conv, retryLimit := retry, threshold := thr,
                  failures := if thr ≤ s.link.failures then thr - 1 else s.link.failures } }))

/-- R115: LINK_RESET, by the link state, reset pending and the engine. -/
def Obligations.LinkResetOutcome : Prop :=
  ∀ s : State, Taking s →
    (s.link.state = .resetting ∨ s.link.state = .up ∧ s.link.resetPending = true →
      exec .linkReset s = .next (ended 15 .badState s)) ∧
    (s.link.state = .down ∨
        s.link.state = .up ∧ s.link.resetPending = false ∧ s.engine.held = none →
      exec .linkReset s = .next (ended 15 .ok (resetting s))) ∧
    (s.link.state = .up → s.link.resetPending = false → s.engine.held ≠ none →
      exec .linkReset s =
        .next (ended 15 .ok { s with link := { s.link with resetPending := true } }))

/-- R117, R108: a RESET_ACK with the RESET_FE's tag makes the link UP and posts LINK_UP; a RESET_FE whose last attempt
fails, at its timeout or at an unsuitable answer, which sets PROTOCOL_ERROR, takes it DOWN and posts
LINK_RESET_FAILED. -/
def Obligations.ResetTransactionEnds : Prop :=
  ∀ (s : State) (o : Outstanding), s.resetAsserted = false → s.engine.held = none →
    s.link.outstanding = some o → o.message = .resetFe →
    (∀ (flags : BitVec 2) (payload : Word),
      exec (.resetAck o.tag flags payload) s =
        .next
          (post .linkUp
            { s with link := { s.link with outstanding := none, state := .up, failures := 0 } })) ∧
    ∀ (c : Instr) (u : State), LastAttemptFails s o c u →
      exec c s = .next (post .linkResetFailed { u with link := { u.link with state := .down } })

/-- R106, R108: outside a drain a failed attempt with a retry left is sent again with its tag: at its timeout, and at an
unsuitable answer, which also sets PROTOCOL_ERROR. A timeout before its moment does nothing (DESIGN CHOICE, log entry 6). -/
def Obligations.FailedAttemptResent : Prop :=
  ∀ (s : State) (o : Outstanding), s.resetAsserted = false → NotDraining s →
    s.link.outstanding = some o → o.retries < s.link.retryLimit →
    (o.left = 0 → exec .attemptTimeout s = .next (sentAgain o s)) ∧
    (o.left ≠ 0 → exec .attemptTimeout s = .next s) ∧
    (∀ (code : BitVec 4) (flags : BitVec 2) (payload : Word), code ≠ 0x9 → code ≠ 0xA → code ≠ 0xB →
      exec (.otherTypeFrame code o.tag flags payload) s = .next (sentAgain o (protocolError s))) ∧
    (∀ (flags : BitVec 2) (payload : Word),
      (∀ sel, o.message = .select sel →
        payload.toNat % 32 ≠ sel.channel.toNat ∨ payload.toNat / 256 % 4 ≠ sel.gain.toNat) →
      exec (.selectAck o.tag flags payload) s = .next (sentAgain o (protocolError s))) ∧
    (∀ (overRange fault : Bool) (value : Word), o.message ≠ .convert →
      exec (.sample o.tag overRange fault value) s = .next (sentAgain o (protocolError s))) ∧
    ∀ (flags : BitVec 2) (payload : Word), o.message ≠ .resetFe →
      exec (.resetAck o.tag flags payload) s = .next (sentAgain o (protocolError s))

/-- R106, R111: a frame with nothing outstanding, or with another tag, sets STRAY_SEEN and does nothing else. -/
def Obligations.StrayFrameSetsStraySeen : Prop :=
  ∀ (s : State) (tag : BitVec 2), s.resetAsserted = false →
    (∀ o, s.link.outstanding = some o → o.tag ≠ tag) →
    ∀ c : Instr,
      (∃ flags payload, c = .selectAck tag flags payload) ∨
        (∃ overRange fault value, c = .sample tag overRange fault value) ∨
        (∃ flags payload, c = .resetAck tag flags payload) ∨
        (∃ code flags payload, c = .otherTypeFrame code tag flags payload ∧ code ≠ 0x9 ∧ code ≠ 0xA ∧
          code ≠ 0xB) →
      exec c s = .next { s with link := { s.link with straySeen := true } }

/-- R96, R110, R37, R179: a drain ends at the timeout of the attempt in flight or at any answer with the outstanding
tag. The selection survives only a CONVERT answered by a SAMPLE without the fault flag; an unsuitable answer
sets PROTOCOL_ERROR; the STOP record is handed over, the set is ARMED or DISABLED, the long command completes,
and a pending reset is carried out. -/
def Obligations.DrainEnds : Prop :=
  ∀ (s : State) (x : Execution) (drain : DrainCause) (cause : StopCause) (st : SetState) (o : Outstanding),
    s.resetAsserted = false → s.engine.held = some x → x.phase = .draining drain →
    s.link.outstanding = some o →
    drain = .hostStop ∧ cause = .hostStop ∧ st = .armed ∨
      drain = .hostDisable ∧ cause = .hostDisable ∧ st = .disabled →
    ∀ finish : Bool → State → State,
      (finish = fun keep u =>
        resettingIfPending
          (let v :=
            stopped x.request.set cause st
              { answered u with
                engine := { u.engine with selection := if keep = true then u.engine.selection else none } }
          { v with
            host :=
              { v.host with
                commandDone := true
                port := { v.host.port with state := .done, result := .ok } } })) →
      (o.left = 0 → exec .attemptTimeout s = .next (finish false s)) ∧
      (∀ (overRange fault : Bool) (value : Word), o.message = .convert →
        exec (.sample o.tag overRange fault value) s = .next (finish (!fault) s)) ∧
      (∀ (overRange fault : Bool) (value : Word), o.message ≠ .convert →
        exec (.sample o.tag overRange fault value) s = .next (finish false (protocolError s))) ∧
      (∀ (flags : BitVec 2) (payload : Word) (sel : Selection), o.message = .select sel →
        payload.toNat % 32 = sel.channel.toNat → payload.toNat / 256 % 4 = sel.gain.toNat →
        exec (.selectAck o.tag flags payload) s = .next (finish false s)) ∧
      (∀ (flags : BitVec 2) (payload : Word),
        (∀ sel, o.message = .select sel →
          payload.toNat % 32 ≠ sel.channel.toNat ∨ payload.toNat / 256 % 4 ≠ sel.gain.toNat) →
        exec (.selectAck o.tag flags payload) s = .next (finish false (protocolError s))) ∧
      (∀ (flags : BitVec 2) (payload : Word), o.message ≠ .resetFe →
        exec (.resetAck o.tag flags payload) s = .next (finish false (protocolError s))) ∧
      ∀ (code : BitVec 4) (flags : BitVec 2) (payload : Word), code ≠ 0x9 → code ≠ 0xA → code ≠ 0xB →
        exec (.otherTypeFrame code o.tag flags payload) s = .next (finish false (protocolError s))

/-- R82, R107: a SELECT_ACK with the SELECT's tag that echoes its channel and gain sets the selection; with settle 0
the first CONVERT is sent, and otherwise the settle timer starts. -/
def Obligations.SelectAckSettlesOrConverts : Prop :=
  ∀ (s : State) (x : Execution) (o : Outstanding) (sel : Selection) (flags : BitVec 2) (payload : Word),
    s.resetAsserted = false → s.engine.held = some x → x.phase = .selecting →
    s.link.outstanding = some o → o.message = .select sel → payload.toNat % 32 = sel.channel.toNat →
    payload.toNat / 256 % 4 = sel.gain.toNat →
    ∀ u, u = { answered s with engine := { s.engine with selection := some sel } } →
      (x.snapshot.settle = 0 →
        exec (.selectAck o.tag flags payload) s =
          .next (sent .convert (holding { x with phase := .converting } u))) ∧
      (x.snapshot.settle ≠ 0 →
        exec (.selectAck o.tag flags payload) s =
          .next (holding { x with phase := .settling x.snapshot.settle.toNat } u))

/-- R83, R67, R27, R80: the settle expiry sends the first CONVERT; a start takes the head request out of the queue,
makes its set RUNNING with the values its kind gives, and starts the entry at the cursor. Neither does anything
when its conditions do not hold (DESIGN CHOICE, log entry 6). -/
def Obligations.SettleExpiryAndStart : Prop :=
  ∀ s : State, s.resetAsserted = false →
    (∀ x, s.engine.held = some x → x.phase = .settling 0 →
      exec .settleExpiry s = .next (sent .convert (holding { x with phase := .converting } s))) ∧
    ((∀ x, s.engine.held = some x → x.phase ≠ .settling 0) → exec .settleExpiry s = .next s) ∧
    (s.engine.held ≠ none ∨ s.link.state ≠ .up ∨ s.link.resetPending = true ∨ s.arbiter.queue = [] →
      exec .start s = .next s) ∧
    ∀ (r : Request) (rest : List Request), s.arbiter.queue = r :: rest → s.engine.held = none →
      s.link.state = .up → s.link.resetPending = false →
      ∀ (cursor : Nat) (passes : BitVec 8) (mark : Bool),
        (r.kind = .new ∧ cursor = 0 ∧ passes = 0 ∧ mark = true ∨ r.kind = .resumed cursor passes mark) →
        exec .start s =
          .next
            (entryStarted r (Fin.ofNat 128 (s.sets[r.set].desc.first.val + cursor))
              (withSet r.set
                { s.sets[r.set] with
                  state := .running, cursor := cursor, passCount := passes, passStart := mark }
                { s with arbiter := { s.arbiter with queue := rest } }))

/-- R85: a SAMPLE without the fault flag that is not the entry's last is folded, and the next CONVERT is sent. -/
def Obligations.SampleFoldsAndConvertsAgain : Prop :=
  ∀ (s : State) (x : Execution) (tag : BitVec 2) (overRange : Bool) (value : Word), Awaits s x tag →
    x.samples + 1 < 2 ^ x.snapshot.oversample.val →
    exec (.sample tag overRange false value) s =
      .next (sent .convert (converted (folded x overRange value) s))

/-- R85, R89, R121–R129, R28, R29, R69–R74, R112, R92: the last SAMPLE of an entry that does not end its scan, neither by
the last pass nor by STOP_OWN. The value is evaluated against the window, the RESULT record is handed over when the output
mode requires it, a crossing under TRIGGER gives the action target its arrival, the cursor advances inside the pass or to
the next pass, and the arbiter returns the request or leaves it to go on with the entry at the new cursor. That the held
set is RUNNING holds of every state that meets `RequestsPlaced`. -/
def Obligations.LastSampleStartsNextEntry : Prop :=
  ∀ (s : State) (x : Execution) (tag : BitVec 2) (overRange : Bool) (value : Word) (k : Fin 8)
      (r : Word) (old new : Zone) (v : State),
    Awaits s x tag → LastSample x → x.request.set = k → s.sets[k].state = .running →
    r = reduced (folded x overRange value) → old = s.entries[x.entry].zone → new = zoneFound x r s →
    (Entered old new → x.snapshot.action ≠ .stopOwn) →
    v =
      recordedIfRequired (folded x overRange value) r old new
        (evaluated x r old new (converted (folded x overRange value) s)) →
    ∃ w,
      (Entered old new ∧ x.snapshot.action = .trigger → Arrives x.snapshot.target .limit v w) ∧
      (¬ (Entered old new ∧ x.snapshot.action = .trigger) → w = v) ∧
      (s.sets[k].cursor + 1 < s.sets[k].desc.count →
        ∃ t,
          Decided (outcome (folded x overRange value)) x.request false
            (withSet k { w.sets[k] with cursor := s.sets[k].cursor + 1 } w) t ∧
          exec (.sample tag overRange false value) s = .next t) ∧
      (s.sets[k].cursor + 1 = s.sets[k].desc.count →
        ¬ (s.sets[k].desc.passes ≠ 0 ∧ s.sets[k].passCount + 1 = s.sets[k].desc.passes) →
        ∃ t,
          Decided (outcome (folded x overRange value)) x.request true
            (withSet k
              { w.sets[k] with cursor := 0, passCount := s.sets[k].passCount + 1, passStart := true } w)
            t ∧
          exec (.sample tag overRange false value) s = .next t)

/-- R30, R31, R89, R121–R129, R131: the last SAMPLE of the last entry of the last pass, with no crossing under STOP_OWN. The
value is evaluated against the window, the RESULT record is handed over when the output mode requires it, and a crossing
under TRIGGER gives the action target its arrival, all before the completion: scans completed grows, SCAN_DONE is posted,
the engine is IDLE, the set restarts from its deferred flag or is ARMED, the chain target takes its trigger, the count is
cleared, and a pending reset is carried out. That the held set is RUNNING holds of every state that meets
`RequestsPlaced`. That a set left ARMED keeps pass-start pending as it stands, still set after a scan that wrote no record,
is DEDUCED (log entry 12). -/
def Obligations.LastSampleCompletesScan : Prop :=
  ∀ (s : State) (x : Execution) (tag : BitVec 2) (overRange : Bool) (value : Word) (k : Fin 8)
      (r : Word) (old new : Zone) (v : State),
    Awaits s x tag → LastSample x → x.request.set = k → s.sets[k].state = .running →
    s.sets[k].cursor + 1 = s.sets[k].desc.count → s.sets[k].desc.passes ≠ 0 →
    s.sets[k].passCount + 1 = s.sets[k].desc.passes →
    r = reduced (folded x overRange value) → old = s.entries[x.entry].zone → new = zoneFound x r s →
    (Entered old new → x.snapshot.action ≠ .stopOwn) →
    v =
      recordedIfRequired (folded x overRange value) r old new
        (evaluated x r old new (converted (folded x overRange value) s)) →
    ∃ w z,
      (Entered old new ∧ x.snapshot.action = .trigger → Arrives x.snapshot.target .limit v w) ∧
      (¬ (Entered old new ∧ x.snapshot.action = .trigger) → w = v) ∧
      ScanCompleted k w z ∧
      exec (.sample tag overRange false value) s = .next (resettingIfPending (countCleared z))

/-- R121–R125, R128, R39: the last SAMPLE of an entry whose value enters ABOVE or BELOW under STOP_OWN: the zone moves,
the limit event is posted, the record required is handed over, and then a STOP record with cause LIMIT; SCAN_STOPPED
is posted, the engine is IDLE and the set restarts or is ARMED. -/
def Obligations.CrossingStopsOwnScan : Prop :=
  ∀ (s : State) (x : Execution) (tag : BitVec 2) (overRange : Bool) (value : Word) (k : Fin 8) (new : Zone)
      (u v w : State),
    Awaits s x tag → LastSample x → x.request.set = k → x.snapshot.window = true →
    x.snapshot.action = .stopOwn →
    new =
      nextZone s.entries[x.entry].zone (reduced (folded x overRange value)).toInt x.snapshot.low.toInt
        x.snapshot.high.toInt x.snapshot.hysteresis.toNat →
    new ≠ s.entries[x.entry].zone → new = .above ∨ new = .below →
    u =
      post
        (if new = .above then .limitAbove k x.entry (reduced (folded x overRange value))
          else .limitBelow k x.entry (reduced (folded x overRange value)))
        { converted (folded x overRange value) s with
          entries := put s.entries x.entry { s.entries[x.entry] with zone := new } } →
    (x.snapshot.output = .silent ∧ v = u ∨
      x.snapshot.output ≠ .silent ∧
        v = handSetRecord k .result (outcome (folded x overRange value)) x.entry
          (reduced (folded x overRange value)) u) →
    w =
      idle
        (withSet k { (stopRecorded k .limit v).sets[k] with cursor := 0, passCount := 0 }
          (post (.scanStopped k) (stopRecorded k .limit v))) →
    ∃ y, Restarts k w y ∧
      exec (.sample tag overRange false value) s = .next (resettingIfPending (countCleared y))

/-- R85, R88, R90, R91, R38, R112, R113: an entry that ends FE_FAULT or NO_RESPONSE under fault policy HALT: the selection
is absent, the failed RESULT record is handed over, ENTRY_FAILED is posted, and the set is HALTED with a STOP record and
SET_HALTED. The link's count is then updated by the failure, and the threshold takes the link DOWN with no request to
return. -/
def Obligations.FaultHaltsSet : Prop :=
  ∀ (s : State) (x : Execution) (status : Status) (c : Instr) (k : Fin 8) (b u v : State),
    EntryFails s x status c b → x.request.set = k → s.sets[k].desc.fault = .halt →
    u = failureReported x status b →
    v = post (.setHalted k x.entry status) (stopRecorded k .halt u) →
    ∃ t,
      Counted status
        (idle
          (withSet k { v.sets[k] with state := .halted, cursor := 0, passCount := 0, deferred := false } v))
        t ∧
      exec c s = .next t

/-- R85, R88, R90, R91, R28–R31, R69–R74, R112, R113, R92: an entry that ends NO_RESPONSE or FE_FAULT under fault policy
CONTINUE. The selection is absent, the failed RESULT record is handed over and ENTRY_FAILED is posted, whatever the output
mode. The cursor advances as after a success: inside the pass, to the next pass, or to the end of the scan, which
completes it. Of a request still held the arbiter decides, by a pending reset, the head of the queue or neither. NO_RESPONSE
adds one to the link's count and FE_FAULT clears it; a count that reaches the threshold takes the link DOWN with LINK_DOWN,
a held request goes back RESUMED with its stamp, and a pending reset is carried out from DOWN. -/
def Obligations.NoResponseTakesLinkDown : Prop :=
  ∀ (s : State) (x : Execution) (status : Status) (c : Instr) (k : Fin 8) (b v : State),
    EntryFails s x status c b → x.request.set = k → s.sets[k].desc.fault = .carryOn →
    v = failureReported x status b →
    ∃ t, exec c s = .next t ∧
      (s.sets[k].cursor + 1 < s.sets[k].desc.count →
        Decided status x.request false (withSet k { v.sets[k] with cursor := s.sets[k].cursor + 1 } v) t) ∧
      (s.sets[k].cursor + 1 = s.sets[k].desc.count →
        ¬ (s.sets[k].desc.passes ≠ 0 ∧ s.sets[k].passCount + 1 = s.sets[k].desc.passes) →
        Decided status x.request true
          (withSet k
            { v.sets[k] with cursor := 0, passCount := s.sets[k].passCount + 1, passStart := true } v)
          t) ∧
      (s.sets[k].cursor + 1 = s.sets[k].desc.count → s.sets[k].desc.passes ≠ 0 →
        s.sets[k].passCount + 1 = s.sets[k].desc.passes →
        ∃ z, ScanCompleted k v z ∧ Counted status z t)

/-! ### Values and zones -/

/-- R86: what the accumulator of `n` samples, folded one after another, is reduced to. -/
def Obligations.ReductionFollowsTable : Prop :=
  ∀ (x : Execution) (first : Word) (others : List (Bool × Word)),
    x.samples = 0 → x.acc = { sum := 0, minimum := none, maximum := none } →
    ∀ (y : Execution) (values : List Int), values = first.toInt :: others.map (fun p => p.2.toInt) →
      y = others.foldl (fun z p => folded z p.1 p.2) (folded x false first) →
      ∃ lowest highest, lowest ∈ values ∧ highest ∈ values ∧
        (∀ v ∈ values, lowest ≤ v ∧ v ≤ highest) ∧ y.samples = values.length ∧
        reduceSamples .mean y.acc y.samples = Int.floor ((values.sum : ℚ) / values.length) ∧
        lowest ≤ reduceSamples .mean y.acc y.samples ∧
        reduceSamples .mean y.acc y.samples ≤ highest ∧
        reduceSamples .min y.acc y.samples = lowest ∧ reduceSamples .max y.acc y.samples = highest ∧
        reduceSamples .span y.acc y.samples =
          if highest - lowest > 32767 then 32767 else highest - lowest

/-- R122: the new zone, by the zone read. -/
def Obligations.ZoneFollowsTable : Prop :=
  ∀ (v : Int) (low high : Word) (hysteresis : BitVec 12) (L H h : Int), L = low.toInt → H = high.toInt →
    h = hysteresis.toNat → L < H → L + h ≤ H - h →
    (∀ z, z = .unknown ∨ z = .inside →
      (v > H → nextZone z v L H h = .above) ∧ (v < L → nextZone z v L H h = .below) ∧
        (L ≤ v ∧ v ≤ H → nextZone z v L H h = .inside)) ∧
    (v < L → nextZone .above v L H h = .below) ∧
    (L ≤ v ∧ v < H - h → nextZone .above v L H h = .inside) ∧
    (v ≥ H - h → nextZone .above v L H h = .above) ∧
    (v > H → nextZone .below v L H h = .above) ∧
    (L + h < v ∧ v ≤ H → nextZone .below v L H h = .inside) ∧
    (v ≤ L + h → nextZone .below v L H h = .below) ∧
    ∀ z, nextZone z v L H h ≠ .unknown

/-! ### Streams -/

/-- R137, R139, R140: STREAM_WRITE, STREAM_ENABLE and STREAM_DISABLE. -/
def Obligations.StreamWriteEnableDisable : Prop :=
  ∀ s : State, Taking s →
    (4 ≤ s.host.params[0].toNat →
      exec .streamWrite s = .next (ended 16 .badIndex s) ∧
        exec .streamEnable s = .next (ended 18 .badIndex s) ∧
        exec .streamDisable s = .next (ended 19 .badIndex s)) ∧
    ∀ (k : Fin 4) (x : Stream), Named s k → x = s.streams.streams[k] →
      (x.enabled = true →
        exec .streamWrite s = .next (ended 16 .badState s) ∧
          exec .streamEnable s = .next (ended 18 .badState s)) ∧
      (x.enabled = false →
        exec .streamDisable s = .next (ended 19 .badState s) ∧
        (∀ c, HoldsStream s.host.params c → 1 ≤ c.quota → c.quota ≤ 128 → 1 ≤ c.threshold →
          c.threshold ≤ 64 →
          exec .streamWrite s = .next (ended 16 .ok (withStream k { x with config := c } s))) ∧
        ((∀ c, HoldsStream s.host.params c →
            ¬ (1 ≤ c.quota ∧ c.quota ≤ 128 ∧ 1 ≤ c.threshold ∧ c.threshold ≤ 64)) →
          exec .streamWrite s = .next (ended 16 .badConfig s)) ∧
        (x.config.threshold ≤ x.config.quota →
          exec .streamEnable s =
            .next
              (ended 18 .ok
                (withStream k { x with enabled := true, nextSeq := 0, loss := 0, written := 0 } s))) ∧
        (x.config.quota < x.config.threshold →
          exec .streamEnable s = .next (ended 18 .badConfig s))) ∧
      (x.enabled = true → (∃ j : Fin 8, s.sets[j].state ≠ .disabled ∧ s.sets[j].desc.stream = k) →
        exec .streamDisable s = .next (ended 19 .inUse s)) ∧
      (x.enabled = true → (∀ j : Fin 8, s.sets[j].state ≠ .disabled → s.sets[j].desc.stream ≠ k) →
        exec .streamDisable s =
          .next
            (ended 19 .ok
              { s with
                streams :=
                  { s.streams with
                    pool :=
                      s.streams.pool ++ x.full.map ClosedPage.page ++
                        (x.filling.map FillingPage.page).toList ++ (x.host.map ClosedPage.page).toList
                    streams :=
                      put s.streams.streams k
                        { x with
                          enabled := false, filling := none, full := [], host := none, readPointer := 0,
                          loss := 0 } } }))

/-- R150, R149: STREAM_FLUSH and the flush expiry close a filling page with FLUSHED set; without one, or before the
interval has passed, neither changes a stream (for the expiry DESIGN CHOICE, log entry 6). The time passed is taken modulo
2^32, which for an expiry left untaken for a whole round of the time counter is the model's choice (log entry 6). -/
def Obligations.FlushClosesFillingPage : Prop :=
  ∀ s : State, s.resetAsserted = false →
    (Taking s → 4 ≤ s.host.params[0].toNat → exec .streamFlush s = .next (ended 20 .badIndex s)) ∧
    ∀ (k : Fin 4) (x : Stream), x = s.streams.streams[k] →
      (x.filling = none →
        exec (.flushExpiry k) s = .next s ∧
          (Taking s → Named s k →
            exec .streamFlush s = .next (ended 20 .ok (returning (put s.host.params 0 0) s)))) ∧
      ∀ f, x.filling = some f →
        (Taking s → Named s k →
          exec .streamFlush s =
            .next
              (ended 20 .ok (returning (put s.host.params 0 1) (withStream k (flushed x f) s)))) ∧
        (x.config.flush ≠ 0 →
          1000 * x.config.flush.toNat ≤ (s.triggers.time - f.openTime).toNat →
          exec (.flushExpiry k) s = .next (withStream k (flushed x f) s)) ∧
        (x.config.flush = 0 ∨ (s.triggers.time - f.openTime).toNat < 1000 * x.config.flush.toNat →
          exec (.flushExpiry k) s = .next s)

/-- R152, R153, R154: PAGE_OPEN, the reads of the data port, and PAGE_RELEASE. The word read stands in the model's
own `data` (log entry 4). -/
def Obligations.HostPageOpenReadRelease : Prop :=
  ∀ s : State, s.resetAsserted = false →
    (Taking s → 4 ≤ s.host.params[0].toNat →
      exec .pageOpen s = .next (ended 21 .badIndex s) ∧
        exec .pageRelease s = .next (ended 22 .badIndex s)) ∧
    ∀ (k : Fin 4) (x : Stream), x = s.streams.streams[k] →
      (Taking s → Named s k →
        (x.enabled = false → exec .pageOpen s = .next (ended 21 .badState s)) ∧
        (x.enabled = true → x.host ≠ none → exec .pageOpen s = .next (ended 21 .inUse s)) ∧
        (x.enabled = true → x.host = none → x.full = [] →
          exec .pageOpen s = .next (ended 21 .noPage s)) ∧
        (∀ c rest, x.enabled = true → x.host = none → x.full = c :: rest →
          ∃ p : Vector Word 6,
            exec .pageOpen s =
              .next
                (ended 21 .ok
                  (returning p
                    (withStream k
                      { x with full := rest, host := some c, readPointer := 0, readPast := false } s))) ∧
            p[0].toNat = c.page.val ∧ p[1] = c.seq ∧ p[2] = BitVec.ofNat 16 c.words ∧
            p[3] = BitVec.ofNat 16 c.records ∧ p[4].toNat = c.flushed.toNat ∧
            p[5] = s.host.params[5]) ∧
        (x.host = none → exec .pageRelease s = .next (ended 22 .noPage s)) ∧
        ∀ c, x.host = some c →
          exec .pageRelease s =
            .next
              (ended 22 .ok
                (withStream k { x with host := none, readPointer := 0 }
                  { s with streams := { s.streams with pool := s.streams.pool ++ [c.page] } }))) ∧
      (∀ c, x.host = some c → x.readPointer < c.words →
        ∃ w, w = s.streams.memory.read (64 * c.page.val + x.readPointer) ∧
          s.read (0x1C + BitVec.ofNat 6 k.val) = w ∧
          exec (.strmdataRead k) s =
            .next
              { withStream k { x with readPointer := x.readPointer + 1 } s with
                host := { s.host with data := w } }) ∧
      ((∀ c, x.host = some c → c.words ≤ x.readPointer) →
        s.read (0x1C + BitVec.ofNat 6 k.val) = 0 ∧
          exec (.strmdataRead k) s =
            .next { withStream k { x with readPast := true } s with host := { s.host with data := 0 } })

/-- R33, R141–R147, R162, R190: a record handed to a stream, by what the stream holds. Pages leave and enter as stated,
the words written are the record's, with the header's bits where R190 lays them out, and no other word or stream
changes. A set's RESULT or STOP record carries the pass-start mark and clears it, and its hand-off's postings are taken
in order. -/
def Obligations.RecordHandedToStream : Prop :=
  (∀ (r : Record) (ts : Bool),
    (r.header ts).toNat =
      (match r.kind with | .result => 0 | .loss => 1 | .stop => 2) * 16384 + ts.toNat * 8192 +
        statusNumber r.status * 2048 + r.set.val * 256 + r.mark.toNat * 128 + r.entry.val) ∧
  (∀ (s : State) (k : Fin 8) (kind : RecordKind) (status : Status) (entry : Fin 128) (value : Word)
      (n : StreamManager) (events : List EventBody),
    s.streams.handOff s.sets[k].desc.stream
        { kind := kind, status := status, set := k, entry := entry, mark := s.sets[k].passStart,
          value := value }
        s.triggers.time =
      (n, events) →
    handSetRecord k kind status entry value s =
      withSet k { s.sets[k] with passStart := false }
        { events.foldl (fun u b => post b u) s with streams := n }) ∧
  ∀ (m n : StreamManager) (k : Fin 4) (r : Record) (now : Time) (x : Stream) (events : List EventBody),
    m.memory.wf = true → x = m.streams[k] → m.handOff k r now = (n, events) →
    (∀ f, x.filling = some f → x.loss = 0 →
      f.words + (wordsOf r x.config.timestamps now).length ≤ 64 →
      Appended m k f r now n ∧ events = []) ∧
    (∀ page rest f, x.filling = none → m.pool = page :: rest →
      x.full.length + x.host.toList.length < x.config.quota →
      f = { page := page, seq := x.nextSeq, words := 0, records := 0, openTime := now } →
      Stored { m with pool := rest, streams := put m.streams k (filledBy x page now) } k f r now n ∧
        events = []) ∧
    (x.filling = none → m.pool = [] ∨ x.config.quota ≤ x.full.length + x.host.toList.length →
      (x.config.policy = .dropNew ∨ x.full = [] →
        n =
          { m with
            streams :=
              put m.streams k { x with loss := BitVec.ofNat 16 (min (x.loss.toNat + 1) 65535) } } ∧
        events = if x.loss = 0 then [.streamLoss k] else []) ∧
      ∀ c rest f, x.config.policy = .reclaimOldest → x.full = c :: rest →
        f = { page := c.page, seq := x.nextSeq, words := 0, records := 0, openTime := now } →
        Stored
            { m with
              streams :=
                put m.streams k
                  (filledBy
                    { x with
                      full := rest, loss := BitVec.ofNat 16 (min (x.loss.toNat + c.records) 65535) }
                    c.page now) }
            k f r now n ∧
          events = [.pageReclaimed k c.seq])

/-! ### Events, interrupt and registers -/

/-- R161, R163: a posting is discarded by the mask, appended, or counted as lost; EVENT_POP removes the head and
appends a nonzero lost-event count, or is refused. -/
def Obligations.EventPostAndPop : Prop :=
  ∀ s : State,
    (∀ b : EventBody,
      (b.kind ≤ 13 → s.events.mask.getLsbD b.kind = false → post b s = s) ∧
      (b.kind = 14 ∨ s.events.mask.getLsbD b.kind = true →
        (s.events.records.length < 32 →
          post b s =
            { s with
              events :=
                { s.events with
                  records := s.events.records ++ [{ body := b, time := s.triggers.time }] } }) ∧
        (32 ≤ s.events.records.length →
          post b s =
            { s with
              events :=
                { s.events with lost := BitVec.ofNat 16 (min (s.events.lost.toNat + 1) 65535) } }))) ∧
    (Taking s →
      (s.events.records = [] → exec .eventPop s = .next (ended 23 .noEvent s)) ∧
      ∀ e rest, s.events.records = e :: rest →
        exec .eventPop s =
          .next
            (ended 23 .ok
              { s with
                events :=
                  { s.events with
                    lost := 0
                    records :=
                      if s.events.lost = 0 then rest
                      else rest ++ [{ body := .eventsLost s.events.lost, time := s.triggers.time }] } })) ∧
    (s.resetAsserted = false → s.host.port.state = .inProgress →
      exec .eventPop s =
        .next { s with host := { s.host with port := { s.host.port with result := .busy } } })

/-- R167, R169, R175, R187–R189: what CMDSTAT, LINKSTAT, ENGSTAT, QUEUESTAT, SETSTAT, STRMSTAT, EVHEAD0–EVHEAD3, EVSTAT,
INTCAUSE, INTENABLE, EVMASK, TIMREM, TIMSTATE and EXTSTAT show, as numbers, and when INT is asserted. -/
def Obligations.StatusRegistersAndInt : Prop :=
  ∀ s : State, s.resetAsserted = false →
    (s.read 0x02).toNat =
      s.host.port.command.val * 256 + s.host.port.result.code.toNat * 16 + s.host.port.state.code.toNat ∧
    (s.link.failures ≤ 15 →
      (s.read 0x0D).toNat =
        s.link.protocolError.toNat * 512 + s.link.straySeen.toNat * 256 + s.link.failures * 16 +
          s.link.resetPending.toNat * 4 + s.link.state.code.toNat) ∧
    (∀ k : Fin 8,
      (s.read (0x10 + BitVec.ofNat 6 k.val)).toNat =
        s.sets[k].passCount.toNat * 256 + s.sets[k].deferred.toNat * 8 + s.sets[k].state.code.toNat) ∧
    (∀ k : Fin 4, s.streams.streams[k].full.length ≤ 128 →
      (s.read (0x18 + BitVec.ofNat 6 k.val)).toNat =
        (s.streams.streams[k].loss != 0).toNat * 4096 + s.streams.streams[k].readPast.toNat * 2048 +
          s.streams.streams[k].host.isSome.toNat * 1024 + s.streams.streams[k].filling.isSome.toNat * 512 +
          s.streams.streams[k].full.length * 2 + s.streams.streams[k].enabled.toNat) ∧
    (s.events.records.length ≤ 32 →
      (s.read 0x24).toNat = min s.events.lost.toNat 1023 * 64 + s.events.records.length) ∧
    (∀ r rest, s.arbiter.queue = r :: rest → rest.length ≤ 7 →
      (s.read 0x0F).toNat =
        (if r.kind = .new then 0 else 1024) + r.priority.val * 256 + r.set.val * 16 +
          (rest.length + 1)) ∧
    (s.arbiter.queue = [] → s.read 0x0F = 0) ∧
    (s.engine.held = none → s.read 0x0E = 0) ∧
    (∀ x, s.engine.held = some x → s.sets[x.request.set].cursor ≤ 31 →
      (s.read 0x0E).toNat =
        s.sets[x.request.set].cursor * 256 + x.request.set.val * 16 +
          (match x.phase with | .selecting => 1 | .settling _ => 2 | .converting => 3 | .draining _ => 4)) ∧
    (s.events.records = [] → s.read 0x20 = 0 ∧ s.read 0x21 = 0 ∧ s.read 0x22 = 0 ∧ s.read 0x23 = 0) ∧
    (∀ e rest, s.events.records = e :: rest → (shown e.body).detail ≤ 65535 →
      (s.read 0x20).toNat =
        (shown e.body).stream * 16384 + (shown e.body).entry * 128 + (shown e.body).set * 16 +
          (shown e.body).kind ∧
      (s.read 0x21).toNat = (shown e.body).detail ∧ (s.read 0x22).toNat = e.time.toNat % 65536 ∧
      (s.read 0x23).toNat = e.time.toNat / 65536) ∧
    (s.read 0x29).toNat =
      s.triggers.timers[3].state.code.toNat * 64 + s.triggers.timers[2].state.code.toNat * 16 +
        s.triggers.timers[1].state.code.toNat * 4 + s.triggers.timers[0].state.code.toNat ∧
    (s.read 0x2A).toNat =
      s.triggers.lines[1].edge.code.toNat * 64 + s.triggers.lines[0].edge.code.toNat * 16 +
        s.triggers.lines[1].high.toNat * 2 + s.triggers.lines[0].high.toNat ∧
    (∀ t : Fin 4, s.read (0x25 + BitVec.ofNat 6 t.val) = s.triggers.timers[t].remaining) ∧
    s.read 0x0A = s.host.intenable ∧ s.read 0x2B = s.events.mask ∧
    ∀ done pages events : Prop,
      (done ↔ s.host.commandDone = true) →
      (pages ↔
        ∃ k : Fin 4, s.streams.streams[k].enabled = true ∧
          s.streams.streams[k].config.threshold ≤ s.streams.streams[k].full.length) →
      (events ↔ s.events.records ≠ []) →
      ((s.read 0x09).getLsbD 2 = true ↔ done) ∧ ((s.read 0x09).getLsbD 1 = true ↔ pages) ∧
        ((s.read 0x09).getLsbD 0 = true ↔ events) ∧ (s.read 0x09).toNat < 8 ∧
        (s.int = true ↔
          done ∧ s.host.intenable.getLsbD 2 = true ∨ pages ∧ s.host.intenable.getLsbD 1 = true ∨
            events ∧ s.host.intenable.getLsbD 0 = true)

/-- R47, R111, R153, R160, R168, R169, R172, R174: the host's writes to the registers that take them, the writes that are
ignored, the reads of TIMELO and of the data ports, and what PARAM0–PARAM5, CMD, TIMEHI and the unassigned offsets read as.
The word read stands in the model's own `data` (log entry 4). -/
def Obligations.RegisterAccesses : Prop :=
  ∀ (s : State) (value : Word), s.resetAsserted = false →
    (∀ n : Fin 6,
      exec (.paramWrite n value) s = .next (returning (put s.host.params n value) s)) ∧
    (∃ e : Word, e.toNat = value.toNat % 8 ∧
      exec (.intenableWrite value) s = .next { s with host := { s.host with intenable := e } }) ∧
    (∃ e : Word, e.toNat = value.toNat % 16384 / 2 * 2 ∧
      exec (.evmaskWrite value) s = .next { s with events := { s.events with mask := e } }) ∧
    (value.getLsbD 2 = true →
      exec (.intcauseWrite value) s = .next { s with host := { s.host with commandDone := false } }) ∧
    (value.getLsbD 2 = false → exec (.intcauseWrite value) s = .next s) ∧
    exec (.linkstatWrite value) s =
      .next
        { s with
          link :=
            { s.link with
              straySeen := if value.getLsbD 8 = true then false else s.link.straySeen
              protocolError := if value.getLsbD 9 = true then false else s.link.protocolError } } ∧
    (∃ w latch : Word, w.toNat = s.triggers.time.toNat % 65536 ∧
      latch.toNat = s.triggers.time.toNat / 65536 ∧ s.read 0x0B = w ∧ s.read 0x0C = s.triggers.timeHi ∧
      exec .timeloRead s =
        .next
          { s with
            triggers := { s.triggers with timeHi := latch }
            host := { s.host with data := w } }) ∧
    (∀ n : Fin 6, s.read (0x03 + BitVec.ofNat 6 n.val) = s.host.params[n]) ∧
    s.read 0x01 = 0 ∧
    (∀ offset : BitVec 6, 0x2C ≤ offset.toNat → s.read offset = 0) ∧
    (∀ k : Fin 4,
      ∃ t, exec (.strmdataRead k) s = .next t ∧ t.host.data = s.read (0x1C + BitVec.ofNat 6 k.val)) ∧
    ∀ offset : BitVec 6,
      offset.toNat = 0x00 ∨ offset.toNat = 0x02 ∨ 0x0B ≤ offset.toNat ∧ offset.toNat ≠ 0x0D ∧
        offset.toNat ≠ 0x2B →
      exec (.ignoredRegisterWrite offset value) s = .next s

/-- R181, R182 and the soft-reset rule of every block: what SOFT_RESET leaves, in every port state. The words of sample memory and
the log of what LOUT carried are kept by the model's choice (log entries 5 and 14), and so are the waiting commands (log
entry 1); the units due are the model's own count (log entry 7). The tag counter is kept as R103, R120 and R181 say, also
after a start that R68's last bullet puts before the soft reset (the model's choice, log entry 20). -/
def Obligations.SoftResetOutcome : Prop :=
  ∀ s : State, s.resetAsserted = false →
    ∃ t, exec .softReset s = .next t ∧
      (∀ i : Fin 128, t.entries[i] = { fields := s.entries[i].fields, zone := .unknown }) ∧
      (∀ k : Fin 8, t.sets[k] = .fresh s.sets[k].desc) ∧
      (∀ j : Fin 4,
        t.triggers.timers[j] =
          { s.triggers.timers[j] with
            state := .stopped, remaining := s.triggers.timers[j].period, phase := 0, unitsDue := 0 }) ∧
      t.triggers = { s.triggers with timers := t.triggers.timers } ∧
      t.arbiter = { queue := [], issued := 0 } ∧ t.engine = { held := none, selection := none } ∧
      t.link =
        { s.link with
          state := .down, resetPending := false, failures := 0, outstanding := none, straySeen := false,
          protocolError := false } ∧
      t.streams.pool = List.finRange 128 ∧ t.streams.memory = s.streams.memory ∧
      (∀ k : Fin 4,
        t.streams.streams[k] =
          { config := s.streams.streams[k].config, enabled := s.streams.streams[k].enabled, filling := none,
            full := [], host := none, readPointer := 0, nextSeq := 0, loss := 0, written := 0,
            readPast := false }) ∧
      t.events = { records := [], lost := 0, mask := s.events.mask } ∧
      t.host =
        { s.host with
          commandDone := false
          port :=
            { state := .done, command := 24,
              result := if s.host.port.state = .inProgress then .abandoned else .ok } } ∧
      t.pending = s.pending ∧ t.resetAsserted = false

/-! ### Invariants that every step keeps -/

/-- The state right after reset meets every invariant below. -/
def Obligations.ResetMeetsInvariants : Prop :=
  MemoryCanonical State.reset ∧ PagesInOnePlace State.reset ∧ EventQueueBounded State.reset ∧
    TimersSound State.reset ∧ EntriesSound State.reset ∧ QueueOrdered State.reset ∧
    RequestsPlaced State.reset ∧ SetsAndStreamsSound State.reset ∧ LinkInRange State.reset ∧
    EngineInRange State.reset ∧ LinkMatchesEngine State.reset ∧ PortMatchesEngine State.reset

/-- Sample memory keeps its canonical form (the model's, log entry 3). -/
def Obligations.StepKeepsMemoryCanonical : Prop :=
  ∀ s s' : State, MemoryCanonical s → step s = .next s' → MemoryCanonical s'

/-- R134: each page stays in exactly one place. -/
def Obligations.StepKeepsPagesInOnePlace : Prop :=
  ∀ s s' : State, PagesInOnePlace s → step s = .next s' → PagesInOnePlace s'

/-- R161, R160: the Event Queue never holds more than 32 records, nor a lost count while it has room. -/
def Obligations.StepKeepsEventQueueBounded : Prop :=
  ∀ s s' : State, EventQueueBounded s → step s = .next s' → EventQueueBounded s'

/-- R48, R51, R60: the timers' counts, states and gates stay together, and a part held in RESET has every timer STOPPED. The
unit phase keeps R48's range, one unit less 1 µs at most, because a completed unit is counted apart until its step is taken
(DESIGN CHOICE, log entry 7). -/
def Obligations.StepKeepsTimersSound : Prop :=
  ∀ s s' : State, TimersSound s → step s = .next s' → TimersSound s'

/-- R6, R8, R9, R80: every entry passes commit validation, an entry without a window has zone UNKNOWN, and the entry in
progress equals its snapshot. -/
def Obligations.StepKeepsEntriesSound : Prop :=
  ∀ s s' : State, EntriesSound s → step s = .next s' → EntriesSound s'

/-- R63, R64: the Request Queue stays in its order, its stamps distinct. -/
def Obligations.StepKeepsQueueOrdered : Prop :=
  ∀ s s' : State, QueueOrdered s → step s = .next s' → QueueOrdered s'

/-- R20, R62, R64, R79: requests stay where the set states say they are. -/
def Obligations.StepKeepsRequestsPlaced : Prop :=
  ∀ s s' : State, RequestsPlaced s → step s = .next s' → RequestsPlaced s'

/-- R10, R19, R20, R21, R135, R136, R145, R146, R148: the run contexts, the streams and their pages stay sound. -/
def Obligations.StepKeepsSetsAndStreamsSound : Prop :=
  ∀ s s' : State, SetsAndStreamsSound s → step s = .next s' → SetsAndStreamsSound s'

/-- R78, R85, R104, R112: the link record and the samples taken stay in their ranges. -/
def Obligations.StepKeepsLinkAndEngineInRange : Prop :=
  ∀ s s' : State, LinkInRange s ∧ EngineInRange s → step s = .next s' → LinkInRange s' ∧ EngineInRange s'

/-- R79, R93, R105: the link state, the engine, the outstanding message and the selection stay together. -/
def Obligations.StepKeepsLinkMatchesEngine : Prop :=
  ∀ s s' : State, LinkMatchesEngine s → step s = .next s' → LinkMatchesEngine s'

/-- R175, R179: the port is IN_PROGRESS exactly while the engine drains. -/
def Obligations.StepKeepsPortMatchesEngine : Prop :=
  ∀ s s' : State, PortMatchesEngine s → step s = .next s' → PortMatchesEngine s'
end

