-- ==== Sys2Proof/Laws/Vectors.lean ====
section
/-! SUPPORT. What reading a member of a family gives after one member, or every member, has been replaced. -/

namespace Sys2Proof.Machine

/-- Reading by position: simp turns `v[i]` at a `Fin` into `v[i.val]`. -/
theorem put_getElem {α : Type} {n : Nat} (v : Vector α n) (i : Fin n) (x : α) (j : Nat) (h : j < n) :
    (put v i x)[j] = if i.val = j then x else v[j] := by
  simp [put, Vector.getElem_set]

@[simp] theorem put_getElem_self {α : Type} {n : Nat} (v : Vector α n) (i : Fin n) (x : α) :
    (put v i x)[i.val] = x := by
  simp [put_getElem]

@[simp] theorem put_getElem_ne {α : Type} {n : Nat} (v : Vector α n) {i j : Fin n} (x : α)
    (h : i ≠ j) : (put v i x)[j.val] = v[j.val] := by
  simp [put_getElem, Fin.val_ne_of_ne h]

theorem put_get {α : Type} {n : Nat} (v : Vector α n) (i j : Fin n) (x : α) :
    (put v i x)[j] = if i = j then x else v[j] := by
  simp [put_getElem, Fin.ext_iff]

theorem amend_get {α : Type} {n : Nat} (v : Vector α n) (i j : Fin n) (f : α → α) :
    (amend v i f)[j] = if i = j then f v[j] else v[j] := by
  unfold amend
  rw [put_get]
  split
  · next h => rw [h]
  · rfl

@[simp] theorem amend_getElem_self {α : Type} {n : Nat} (v : Vector α n) (i : Fin n) (f : α → α) :
    (amend v i f)[i.val] = f v[i.val] := by
  simp [amend]

@[simp] theorem amend_getElem_ne {α : Type} {n : Nat} (v : Vector α n) {i j : Fin n} (f : α → α)
    (h : i ≠ j) : (amend v i f)[j.val] = v[j.val] := by
  simp [amend, h]

@[simp] theorem mapAll_getElem {α β : Type} {n : Nat} (f : α → β) (v : Vector α n) (j : Nat) (h : j < n) :
    (mapAll f v)[j] = f v[j] := by
  simp [mapAll]

/-- Two families with equal members are equal. -/
theorem family_ext {α : Type} {n : Nat} {v w : Vector α n} (h : ∀ j : Fin n, v[j] = w[j]) : v = w :=
  Vector.ext fun i hi => h ⟨i, hi⟩

@[simp] theorem put_put {α : Type} {n : Nat} (v : Vector α n) (i : Fin n) (x y : α) :
    put (put v i x) i y = put v i y := by
  apply family_ext
  intro j
  simp only [put_get]
  split <;> rfl

@[simp] theorem put_member {α : Type} {n : Nat} (v : Vector α n) (i : Fin n) : put v i v[i] = v := by
  apply family_ext
  intro j
  rw [put_get]
  split
  · next h => rw [h]
  · rfl

/-- Changing one member is putting the changed member in its place. -/
theorem amend_eq_put {α : Type} {n : Nat} (v : Vector α n) (i : Fin n) (f : α → α) :
    amend v i f = put v i (f v[i]) := rfl

/-- R177, check 3: an index register within range names the index it holds. -/
theorem index?_eq_some {n : Nat} {w : Word} {i : Fin n} : index? n w = some i ↔ w.toNat = i.val := by
  unfold index?
  split
  · next h => simp [Fin.ext_iff]
  · next h =>
    simp only [reduceCtorEq, false_iff]
    have := i.isLt
    omega

/-- R177, check 3: an index register out of range names none. -/
theorem index?_eq_none {n : Nat} {w : Word} : index? n w = none ↔ n ≤ w.toNat := by
  unfold index?
  split
  · next h => simp; omega
  · next h => simp; omega

end Sys2Proof.Machine
end

