-- ==== Sys2Proof/Laws/State.lean ====
section
/-! SUPPORT. One lemma per field per named update of the state, each true by unfolding the update: proofs rewrite
with these and never unfold a record update. -/

namespace Sys2Proof.Machine

variable (s : State)

/-! ### `post` -/

@[simp] theorem post_pending (b : EventBody) : (post b s).pending = s.pending := rfl

@[simp] theorem post_resetAsserted (b : EventBody) : (post b s).resetAsserted = s.resetAsserted := rfl

@[simp] theorem post_entries (b : EventBody) : (post b s).entries = s.entries := rfl

@[simp] theorem post_sets (b : EventBody) : (post b s).sets = s.sets := rfl

@[simp] theorem post_triggers (b : EventBody) : (post b s).triggers = s.triggers := rfl

@[simp] theorem post_arbiter (b : EventBody) : (post b s).arbiter = s.arbiter := rfl

@[simp] theorem post_engine (b : EventBody) : (post b s).engine = s.engine := rfl

@[simp] theorem post_link (b : EventBody) : (post b s).link = s.link := rfl

@[simp] theorem post_streams (b : EventBody) : (post b s).streams = s.streams := rfl

@[simp] theorem post_events (b : EventBody) : (post b s).events = s.events.post s.triggers.time b := rfl

@[simp] theorem post_host (b : EventBody) : (post b s).host = s.host := rfl

/-! ### `modSet` -/

@[simp] theorem modSet_pending (k : Fin 8) (f : ScanSet → ScanSet) : (s.modSet k f).pending = s.pending := rfl

@[simp] theorem modSet_resetAsserted (k : Fin 8) (f : ScanSet → ScanSet) :
    (s.modSet k f).resetAsserted = s.resetAsserted := rfl

@[simp] theorem modSet_entries (k : Fin 8) (f : ScanSet → ScanSet) : (s.modSet k f).entries = s.entries := rfl

@[simp] theorem modSet_sets (k : Fin 8) (f : ScanSet → ScanSet) : (s.modSet k f).sets = amend s.sets k f := rfl

@[simp] theorem modSet_triggers (k : Fin 8) (f : ScanSet → ScanSet) : (s.modSet k f).triggers =
    s.triggers := rfl

@[simp] theorem modSet_arbiter (k : Fin 8) (f : ScanSet → ScanSet) : (s.modSet k f).arbiter = s.arbiter := rfl

@[simp] theorem modSet_engine (k : Fin 8) (f : ScanSet → ScanSet) : (s.modSet k f).engine = s.engine := rfl

@[simp] theorem modSet_link (k : Fin 8) (f : ScanSet → ScanSet) : (s.modSet k f).link = s.link := rfl

@[simp] theorem modSet_streams (k : Fin 8) (f : ScanSet → ScanSet) : (s.modSet k f).streams = s.streams := rfl

@[simp] theorem modSet_events (k : Fin 8) (f : ScanSet → ScanSet) : (s.modSet k f).events = s.events := rfl

@[simp] theorem modSet_host (k : Fin 8) (f : ScanSet → ScanSet) : (s.modSet k f).host = s.host := rfl

/-! ### `handRecord` -/

@[simp] theorem handRecord_pending (k : Fin 4) (r : Record) : (handRecord k r s).pending = s.pending := rfl

@[simp] theorem handRecord_resetAsserted (k : Fin 4) (r : Record) : (handRecord k r s).resetAsserted =
    s.resetAsserted := rfl

@[simp] theorem handRecord_entries (k : Fin 4) (r : Record) : (handRecord k r s).entries = s.entries := rfl

@[simp] theorem handRecord_sets (k : Fin 4) (r : Record) : (handRecord k r s).sets = s.sets := rfl

@[simp] theorem handRecord_triggers (k : Fin 4) (r : Record) : (handRecord k r s).triggers = s.triggers := rfl

@[simp] theorem handRecord_arbiter (k : Fin 4) (r : Record) : (handRecord k r s).arbiter = s.arbiter := rfl

@[simp] theorem handRecord_engine (k : Fin 4) (r : Record) : (handRecord k r s).engine = s.engine := rfl

@[simp] theorem handRecord_link (k : Fin 4) (r : Record) : (handRecord k r s).link = s.link := rfl

@[simp] theorem handRecord_streams (k : Fin 4) (r : Record) : (handRecord k r s).streams =
    (s.streams.handOff k r s.triggers.time).1 := rfl

@[simp] theorem handRecord_events (k : Fin 4) (r : Record) : (handRecord k r s).events =
    s.events.postAll s.triggers.time (s.streams.handOff k r s.triggers.time).2 := rfl

@[simp] theorem handRecord_host (k : Fin 4) (r : Record) : (handRecord k r s).host = s.host := rfl

/-! ### `sendMessage` -/

@[simp] theorem sendMessage_pending (m : Message) : (sendMessage m s).pending = s.pending := rfl

@[simp] theorem sendMessage_resetAsserted (m : Message) : (sendMessage m s).resetAsserted =
    s.resetAsserted := rfl

@[simp] theorem sendMessage_entries (m : Message) : (sendMessage m s).entries = s.entries := rfl

@[simp] theorem sendMessage_sets (m : Message) : (sendMessage m s).sets = s.sets := rfl

@[simp] theorem sendMessage_triggers (m : Message) : (sendMessage m s).triggers = s.triggers := rfl

@[simp] theorem sendMessage_arbiter (m : Message) : (sendMessage m s).arbiter = s.arbiter := rfl

@[simp] theorem sendMessage_engine (m : Message) : (sendMessage m s).engine = s.engine := rfl

@[simp] theorem sendMessage_link (m : Message) : (sendMessage m s).link = s.link.send m := rfl

@[simp] theorem sendMessage_streams (m : Message) : (sendMessage m s).streams = s.streams := rfl

@[simp] theorem sendMessage_events (m : Message) : (sendMessage m s).events = s.events := rfl

@[simp] theorem sendMessage_host (m : Message) : (sendMessage m s).host = s.host := rfl

/-! ### `withPort` -/

@[simp] theorem withPort_pending (st : PortState) (r : Result) (c : Fin 25) :
    (s.withPort st r c).pending = s.pending := rfl

@[simp] theorem withPort_resetAsserted (st : PortState) (r : Result) (c : Fin 25) :
    (s.withPort st r c).resetAsserted = s.resetAsserted := rfl

@[simp] theorem withPort_entries (st : PortState) (r : Result) (c : Fin 25) :
    (s.withPort st r c).entries = s.entries := rfl

@[simp] theorem withPort_sets (st : PortState) (r : Result) (c : Fin 25) : (s.withPort st r c).sets =
    s.sets := rfl

@[simp] theorem withPort_triggers (st : PortState) (r : Result) (c : Fin 25) :
    (s.withPort st r c).triggers = s.triggers := rfl

@[simp] theorem withPort_arbiter (st : PortState) (r : Result) (c : Fin 25) :
    (s.withPort st r c).arbiter = s.arbiter := rfl

@[simp] theorem withPort_engine (st : PortState) (r : Result) (c : Fin 25) :
    (s.withPort st r c).engine = s.engine := rfl

@[simp] theorem withPort_link (st : PortState) (r : Result) (c : Fin 25) : (s.withPort st r c).link =
    s.link := rfl

@[simp] theorem withPort_streams (st : PortState) (r : Result) (c : Fin 25) :
    (s.withPort st r c).streams = s.streams := rfl

@[simp] theorem withPort_events (st : PortState) (r : Result) (c : Fin 25) :
    (s.withPort st r c).events = s.events := rfl

@[simp] theorem withPort_host (st : PortState) (r : Result) (c : Fin 25) : (s.withPort st r c).host =
    { s.host with port := { state := st, result := r, command := c } } := rfl

/-! ### `portResult` -/

@[simp] theorem portResult_pending (r : Result) : (s.portResult r).pending = s.pending := rfl

@[simp] theorem portResult_resetAsserted (r : Result) : (s.portResult r).resetAsserted = s.resetAsserted := rfl

@[simp] theorem portResult_entries (r : Result) : (s.portResult r).entries = s.entries := rfl

@[simp] theorem portResult_sets (r : Result) : (s.portResult r).sets = s.sets := rfl

@[simp] theorem portResult_triggers (r : Result) : (s.portResult r).triggers = s.triggers := rfl

@[simp] theorem portResult_arbiter (r : Result) : (s.portResult r).arbiter = s.arbiter := rfl

@[simp] theorem portResult_engine (r : Result) : (s.portResult r).engine = s.engine := rfl

@[simp] theorem portResult_link (r : Result) : (s.portResult r).link = s.link := rfl

@[simp] theorem portResult_streams (r : Result) : (s.portResult r).streams = s.streams := rfl

@[simp] theorem portResult_events (r : Result) : (s.portResult r).events = s.events := rfl

@[simp] theorem portResult_host (r : Result) : (s.portResult r).host =
    { s.host with port := { s.host.port with result := r } } := rfl

/-! ### `withParams` -/

@[simp] theorem withParams_pending (p : Vector Word 6) : (s.withParams p).pending = s.pending := rfl

@[simp] theorem withParams_resetAsserted (p : Vector Word 6) : (s.withParams p).resetAsserted =
    s.resetAsserted := rfl

@[simp] theorem withParams_entries (p : Vector Word 6) : (s.withParams p).entries = s.entries := rfl

@[simp] theorem withParams_sets (p : Vector Word 6) : (s.withParams p).sets = s.sets := rfl

@[simp] theorem withParams_triggers (p : Vector Word 6) : (s.withParams p).triggers = s.triggers := rfl

@[simp] theorem withParams_arbiter (p : Vector Word 6) : (s.withParams p).arbiter = s.arbiter := rfl

@[simp] theorem withParams_engine (p : Vector Word 6) : (s.withParams p).engine = s.engine := rfl

@[simp] theorem withParams_link (p : Vector Word 6) : (s.withParams p).link = s.link := rfl

@[simp] theorem withParams_streams (p : Vector Word 6) : (s.withParams p).streams = s.streams := rfl

@[simp] theorem withParams_events (p : Vector Word 6) : (s.withParams p).events = s.events := rfl

@[simp] theorem withParams_host (p : Vector Word 6) : (s.withParams p).host = { s.host with params := p } := rfl

/-! ### `withData` -/

@[simp] theorem withData_pending (w : Word) : (s.withData w).pending = s.pending := rfl

@[simp] theorem withData_resetAsserted (w : Word) : (s.withData w).resetAsserted = s.resetAsserted := rfl

@[simp] theorem withData_entries (w : Word) : (s.withData w).entries = s.entries := rfl

@[simp] theorem withData_sets (w : Word) : (s.withData w).sets = s.sets := rfl

@[simp] theorem withData_triggers (w : Word) : (s.withData w).triggers = s.triggers := rfl

@[simp] theorem withData_arbiter (w : Word) : (s.withData w).arbiter = s.arbiter := rfl

@[simp] theorem withData_engine (w : Word) : (s.withData w).engine = s.engine := rfl

@[simp] theorem withData_link (w : Word) : (s.withData w).link = s.link := rfl

@[simp] theorem withData_streams (w : Word) : (s.withData w).streams = s.streams := rfl

@[simp] theorem withData_events (w : Word) : (s.withData w).events = s.events := rfl

@[simp] theorem withData_host (w : Word) : (s.withData w).host = { s.host with data := w } := rfl

/-! ### `withHeld` -/

@[simp] theorem withHeld_pending (x : Execution) : (s.withHeld x).pending = s.pending := rfl

@[simp] theorem withHeld_resetAsserted (x : Execution) : (s.withHeld x).resetAsserted = s.resetAsserted := rfl

@[simp] theorem withHeld_entries (x : Execution) : (s.withHeld x).entries = s.entries := rfl

@[simp] theorem withHeld_sets (x : Execution) : (s.withHeld x).sets = s.sets := rfl

@[simp] theorem withHeld_triggers (x : Execution) : (s.withHeld x).triggers = s.triggers := rfl

@[simp] theorem withHeld_arbiter (x : Execution) : (s.withHeld x).arbiter = s.arbiter := rfl

@[simp] theorem withHeld_engine (x : Execution) : (s.withHeld x).engine =
    { s.engine with held := some x } := rfl

@[simp] theorem withHeld_link (x : Execution) : (s.withHeld x).link = s.link := rfl

@[simp] theorem withHeld_streams (x : Execution) : (s.withHeld x).streams = s.streams := rfl

@[simp] theorem withHeld_events (x : Execution) : (s.withHeld x).events = s.events := rfl

@[simp] theorem withHeld_host (x : Execution) : (s.withHeld x).host = s.host := rfl

/-! ### `dropHeld` -/

@[simp] theorem dropHeld_pending : (dropHeld s).pending = s.pending := rfl

@[simp] theorem dropHeld_resetAsserted : (dropHeld s).resetAsserted = s.resetAsserted := rfl

@[simp] theorem dropHeld_entries : (dropHeld s).entries = s.entries := rfl

@[simp] theorem dropHeld_sets : (dropHeld s).sets = s.sets := rfl

@[simp] theorem dropHeld_triggers : (dropHeld s).triggers = s.triggers := rfl

@[simp] theorem dropHeld_arbiter : (dropHeld s).arbiter = s.arbiter := rfl

@[simp] theorem dropHeld_engine : (dropHeld s).engine = { s.engine with held := none } := rfl

@[simp] theorem dropHeld_link : (dropHeld s).link = s.link := rfl

@[simp] theorem dropHeld_streams : (dropHeld s).streams = s.streams := rfl

@[simp] theorem dropHeld_events : (dropHeld s).events = s.events := rfl

@[simp] theorem dropHeld_host : (dropHeld s).host = s.host := rfl

/-! ### `completeLong` -/

@[simp] theorem completeLong_pending : (completeLong s).pending = s.pending := rfl

@[simp] theorem completeLong_resetAsserted : (completeLong s).resetAsserted = s.resetAsserted := rfl

@[simp] theorem completeLong_entries : (completeLong s).entries = s.entries := rfl

@[simp] theorem completeLong_sets : (completeLong s).sets = s.sets := rfl

@[simp] theorem completeLong_triggers : (completeLong s).triggers = s.triggers := rfl

@[simp] theorem completeLong_arbiter : (completeLong s).arbiter = s.arbiter := rfl

@[simp] theorem completeLong_engine : (completeLong s).engine = s.engine := rfl

@[simp] theorem completeLong_link : (completeLong s).link = s.link := rfl

@[simp] theorem completeLong_streams : (completeLong s).streams = s.streams := rfl

@[simp] theorem completeLong_events : (completeLong s).events = s.events := rfl

@[simp] theorem completeLong_host : (completeLong s).host =
    { s.host with
      port := { s.host.port with state := .done, result := .ok }
      commandDone := true } := rfl

/-! ### `modTimer` -/

@[simp] theorem modTimer_pending (t : Fin 4) (f : Timer → Timer) : (s.modTimer t f).pending = s.pending := rfl

@[simp] theorem modTimer_resetAsserted (t : Fin 4) (f : Timer → Timer) :
    (s.modTimer t f).resetAsserted = s.resetAsserted := rfl

@[simp] theorem modTimer_entries (t : Fin 4) (f : Timer → Timer) : (s.modTimer t f).entries = s.entries := rfl

@[simp] theorem modTimer_sets (t : Fin 4) (f : Timer → Timer) : (s.modTimer t f).sets = s.sets := rfl

@[simp] theorem modTimer_triggers (t : Fin 4) (f : Timer → Timer) : (s.modTimer t f).triggers =
    { s.triggers with timers := amend s.triggers.timers t f } := rfl

@[simp] theorem modTimer_arbiter (t : Fin 4) (f : Timer → Timer) : (s.modTimer t f).arbiter = s.arbiter := rfl

@[simp] theorem modTimer_engine (t : Fin 4) (f : Timer → Timer) : (s.modTimer t f).engine = s.engine := rfl

@[simp] theorem modTimer_link (t : Fin 4) (f : Timer → Timer) : (s.modTimer t f).link = s.link := rfl

@[simp] theorem modTimer_streams (t : Fin 4) (f : Timer → Timer) : (s.modTimer t f).streams = s.streams := rfl

@[simp] theorem modTimer_events (t : Fin 4) (f : Timer → Timer) : (s.modTimer t f).events = s.events := rfl

@[simp] theorem modTimer_host (t : Fin 4) (f : Timer → Timer) : (s.modTimer t f).host = s.host := rfl

/-! ### `modStream` -/

@[simp] theorem modStream_pending (k : Fin 4) (f : Stream → Stream) : (s.modStream k f).pending =
    s.pending := rfl

@[simp] theorem modStream_resetAsserted (k : Fin 4) (f : Stream → Stream) :
    (s.modStream k f).resetAsserted = s.resetAsserted := rfl

@[simp] theorem modStream_entries (k : Fin 4) (f : Stream → Stream) : (s.modStream k f).entries =
    s.entries := rfl

@[simp] theorem modStream_sets (k : Fin 4) (f : Stream → Stream) : (s.modStream k f).sets = s.sets := rfl

@[simp] theorem modStream_triggers (k : Fin 4) (f : Stream → Stream) : (s.modStream k f).triggers =
    s.triggers := rfl

@[simp] theorem modStream_arbiter (k : Fin 4) (f : Stream → Stream) : (s.modStream k f).arbiter =
    s.arbiter := rfl

@[simp] theorem modStream_engine (k : Fin 4) (f : Stream → Stream) : (s.modStream k f).engine = s.engine := rfl

@[simp] theorem modStream_link (k : Fin 4) (f : Stream → Stream) : (s.modStream k f).link = s.link := rfl

@[simp] theorem modStream_streams (k : Fin 4) (f : Stream → Stream) : (s.modStream k f).streams =
    s.streams.amend k f := rfl

@[simp] theorem modStream_events (k : Fin 4) (f : Stream → Stream) : (s.modStream k f).events = s.events := rfl

@[simp] theorem modStream_host (k : Fin 4) (f : Stream → Stream) : (s.modStream k f).host = s.host := rfl

/-! ### `makeRequest` -/

@[simp] theorem makeRequest_pending (k : Fin 8) : (makeRequest k s).pending = s.pending := rfl

@[simp] theorem makeRequest_resetAsserted (k : Fin 8) : (makeRequest k s).resetAsserted = s.resetAsserted := rfl

@[simp] theorem makeRequest_entries (k : Fin 8) : (makeRequest k s).entries = s.entries := rfl

@[simp] theorem makeRequest_sets (k : Fin 8) : (makeRequest k s).sets =
    amend s.sets k fun x =>
      { x with state := .pending, cursor := 0, passCount := 0, passStart := true } := rfl

@[simp] theorem makeRequest_triggers (k : Fin 8) : (makeRequest k s).triggers = s.triggers := rfl

@[simp] theorem makeRequest_arbiter (k : Fin 8) : (makeRequest k s).arbiter =
    { queue :=
        insertRequest
          { set := k, priority := s.sets[k].desc.priority, stamp := s.arbiter.issued, kind := .new }
          s.arbiter.queue
      issued := s.arbiter.issued + 1 } := rfl

@[simp] theorem makeRequest_engine (k : Fin 8) : (makeRequest k s).engine = s.engine := rfl

@[simp] theorem makeRequest_link (k : Fin 8) : (makeRequest k s).link = s.link := rfl

@[simp] theorem makeRequest_streams (k : Fin 8) : (makeRequest k s).streams = s.streams := rfl

@[simp] theorem makeRequest_events (k : Fin 8) : (makeRequest k s).events = s.events := rfl

@[simp] theorem makeRequest_host (k : Fin 8) : (makeRequest k s).host = s.host := rfl

/-! ### `enterResetting` -/

@[simp] theorem enterResetting_pending : (enterResetting s).pending = s.pending := rfl

@[simp] theorem enterResetting_resetAsserted : (enterResetting s).resetAsserted = s.resetAsserted := rfl

@[simp] theorem enterResetting_entries : (enterResetting s).entries = s.entries := rfl

@[simp] theorem enterResetting_sets : (enterResetting s).sets = s.sets := rfl

@[simp] theorem enterResetting_triggers : (enterResetting s).triggers = s.triggers := rfl

@[simp] theorem enterResetting_arbiter : (enterResetting s).arbiter = s.arbiter := rfl

@[simp] theorem enterResetting_engine : (enterResetting s).engine = { s.engine with selection := none } := rfl

@[simp] theorem enterResetting_link : (enterResetting s).link =
    Link.send { s.link with state := .resetting, resetPending := false, failures := 0 }
      .resetFe := rfl

@[simp] theorem enterResetting_streams : (enterResetting s).streams = s.streams := rfl

@[simp] theorem enterResetting_events : (enterResetting s).events = s.events := rfl

@[simp] theorem enterResetting_host : (enterResetting s).host = s.host := rfl

/-- R33: the hand-off of a set's record is `handRecord`'s, and then the mark is clear. -/
theorem handSetRecord_eq (k : Fin 8) (kind : RecordKind) (st : Status) (e : Fin 128) (v : Word) :
    handSetRecord k kind st e v s =
      (handRecord s.sets[k].desc.stream
          { kind := kind, status := st, set := k, entry := e, mark := s.sets[k].passStart, value := v }
          s).modSet k fun x => { x with passStart := false } := rfl

end Sys2Proof.Machine
end

