-- ==== Sys2Proof/Laws/Frames.lean ====
section
/-! SUPPORT. The frames of the shared operations that branch: for each, the fields it never changes, one lemma per
field. -/

namespace Sys2Proof.Machine

variable (s : State)

/-! ### `carryOutReset`: changes engine, link at most -/

@[simp] theorem carryOutReset_pending : (carryOutReset s).pending = s.pending := by
  simp only [carryOutReset]
  (repeat' split) <;> simp

@[simp] theorem carryOutReset_resetAsserted : (carryOutReset s).resetAsserted = s.resetAsserted := by
  simp only [carryOutReset]
  (repeat' split) <;> simp

@[simp] theorem carryOutReset_entries : (carryOutReset s).entries = s.entries := by
  simp only [carryOutReset]
  (repeat' split) <;> simp

@[simp] theorem carryOutReset_sets : (carryOutReset s).sets = s.sets := by
  simp only [carryOutReset]
  (repeat' split) <;> simp

@[simp] theorem carryOutReset_triggers : (carryOutReset s).triggers = s.triggers := by
  simp only [carryOutReset]
  (repeat' split) <;> simp

@[simp] theorem carryOutReset_arbiter : (carryOutReset s).arbiter = s.arbiter := by
  simp only [carryOutReset]
  (repeat' split) <;> simp

@[simp] theorem carryOutReset_streams : (carryOutReset s).streams = s.streams := by
  simp only [carryOutReset]
  (repeat' split) <;> simp

@[simp] theorem carryOutReset_events : (carryOutReset s).events = s.events := by
  simp only [carryOutReset]
  (repeat' split) <;> simp

@[simp] theorem carryOutReset_host : (carryOutReset s).host = s.host := by
  simp only [carryOutReset]
  (repeat' split) <;> simp

/-! ### `startEntry`: changes engine, link at most -/

@[simp] theorem startEntry_pending (r : Request) : (startEntry r s).pending = s.pending := by
  simp only [startEntry]
  (repeat' split) <;> simp

@[simp] theorem startEntry_resetAsserted (r : Request) : (startEntry r s).resetAsserted = s.resetAsserted := by
  simp only [startEntry]
  (repeat' split) <;> simp

@[simp] theorem startEntry_entries (r : Request) : (startEntry r s).entries = s.entries := by
  simp only [startEntry]
  (repeat' split) <;> simp

@[simp] theorem startEntry_sets (r : Request) : (startEntry r s).sets = s.sets := by
  simp only [startEntry]
  (repeat' split) <;> simp

@[simp] theorem startEntry_triggers (r : Request) : (startEntry r s).triggers = s.triggers := by
  simp only [startEntry]
  (repeat' split) <;> simp

@[simp] theorem startEntry_arbiter (r : Request) : (startEntry r s).arbiter = s.arbiter := by
  simp only [startEntry]
  (repeat' split) <;> simp

@[simp] theorem startEntry_streams (r : Request) : (startEntry r s).streams = s.streams := by
  simp only [startEntry]
  (repeat' split) <;> simp

@[simp] theorem startEntry_events (r : Request) : (startEntry r s).events = s.events := by
  simp only [startEntry]
  (repeat' split) <;> simp

@[simp] theorem startEntry_host (r : Request) : (startEntry r s).host = s.host := by
  simp only [startEntry]
  (repeat' split) <;> simp

/-! ### `startHead`: changes sets, arbiter, engine, link at most -/

@[simp] theorem startHead_pending : (startHead s).pending = s.pending := by
  simp only [startHead]
  (repeat' split) <;> simp

@[simp] theorem startHead_resetAsserted : (startHead s).resetAsserted = s.resetAsserted := by
  simp only [startHead]
  (repeat' split) <;> simp

@[simp] theorem startHead_entries : (startHead s).entries = s.entries := by
  simp only [startHead]
  (repeat' split) <;> simp

@[simp] theorem startHead_triggers : (startHead s).triggers = s.triggers := by
  simp only [startHead]
  (repeat' split) <;> simp

@[simp] theorem startHead_streams : (startHead s).streams = s.streams := by
  simp only [startHead]
  (repeat' split) <;> simp

@[simp] theorem startHead_events : (startHead s).events = s.events := by
  simp only [startHead]
  (repeat' split) <;> simp

@[simp] theorem startHead_host : (startHead s).host = s.host := by
  simp only [startHead]
  (repeat' split) <;> simp

/-! ### `triggerArrival`: changes sets, arbiter, events at most -/

@[simp] theorem triggerArrival_pending (k : Fin 8) (o : Origin) :
    (triggerArrival k o s).pending = s.pending := by
  simp only [triggerArrival]
  (repeat' split) <;> simp

@[simp] theorem triggerArrival_resetAsserted (k : Fin 8) (o : Origin) :
    (triggerArrival k o s).resetAsserted = s.resetAsserted := by
  simp only [triggerArrival]
  (repeat' split) <;> simp

@[simp] theorem triggerArrival_entries (k : Fin 8) (o : Origin) :
    (triggerArrival k o s).entries = s.entries := by
  simp only [triggerArrival]
  (repeat' split) <;> simp

@[simp] theorem triggerArrival_triggers (k : Fin 8) (o : Origin) :
    (triggerArrival k o s).triggers = s.triggers := by
  simp only [triggerArrival]
  (repeat' split) <;> simp

@[simp] theorem triggerArrival_engine (k : Fin 8) (o : Origin) : (triggerArrival k o s).engine = s.engine := by
  simp only [triggerArrival]
  (repeat' split) <;> simp

@[simp] theorem triggerArrival_link (k : Fin 8) (o : Origin) : (triggerArrival k o s).link = s.link := by
  simp only [triggerArrival]
  (repeat' split) <;> simp

@[simp] theorem triggerArrival_streams (k : Fin 8) (o : Origin) :
    (triggerArrival k o s).streams = s.streams := by
  simp only [triggerArrival]
  (repeat' split) <;> simp

@[simp] theorem triggerArrival_host (k : Fin 8) (o : Origin) : (triggerArrival k o s).host = s.host := by
  simp only [triggerArrival]
  (repeat' split) <;> simp

/-! ### `handSetRecord`: changes sets, streams, events at most -/

@[simp] theorem handSetRecord_pending (k : Fin 8) (kind : RecordKind) (st : Status) (e : Fin 128) (v : Word) :
    (handSetRecord k kind st e v s).pending = s.pending := by
  simp [handSetRecord]

@[simp] theorem handSetRecord_resetAsserted (k : Fin 8) (kind : RecordKind) (st : Status) (e : Fin 128) (v : Word) :
    (handSetRecord k kind st e v s).resetAsserted = s.resetAsserted := by
  simp [handSetRecord]

@[simp] theorem handSetRecord_entries (k : Fin 8) (kind : RecordKind) (st : Status) (e : Fin 128) (v : Word) :
    (handSetRecord k kind st e v s).entries = s.entries := by
  simp [handSetRecord]

@[simp] theorem handSetRecord_triggers (k : Fin 8) (kind : RecordKind) (st : Status) (e : Fin 128) (v : Word) :
    (handSetRecord k kind st e v s).triggers = s.triggers := by
  simp [handSetRecord]

@[simp] theorem handSetRecord_arbiter (k : Fin 8) (kind : RecordKind) (st : Status) (e : Fin 128) (v : Word) :
    (handSetRecord k kind st e v s).arbiter = s.arbiter := by
  simp [handSetRecord]

@[simp] theorem handSetRecord_engine (k : Fin 8) (kind : RecordKind) (st : Status) (e : Fin 128) (v : Word) :
    (handSetRecord k kind st e v s).engine = s.engine := by
  simp [handSetRecord]

@[simp] theorem handSetRecord_link (k : Fin 8) (kind : RecordKind) (st : Status) (e : Fin 128) (v : Word) :
    (handSetRecord k kind st e v s).link = s.link := by
  simp [handSetRecord]

@[simp] theorem handSetRecord_host (k : Fin 8) (kind : RecordKind) (st : Status) (e : Fin 128) (v : Word) :
    (handSetRecord k kind st e v s).host = s.host := by
  simp [handSetRecord]

/-! ### `handHostStop`: changes sets, streams, events at most -/

@[simp] theorem handHostStop_pending (k : Fin 8) (c : StopCause) :
    (handHostStop k c s).pending = s.pending := by
  simp [handHostStop]

@[simp] theorem handHostStop_resetAsserted (k : Fin 8) (c : StopCause) :
    (handHostStop k c s).resetAsserted = s.resetAsserted := by
  simp [handHostStop]

@[simp] theorem handHostStop_entries (k : Fin 8) (c : StopCause) :
    (handHostStop k c s).entries = s.entries := by
  simp [handHostStop]

@[simp] theorem handHostStop_triggers (k : Fin 8) (c : StopCause) :
    (handHostStop k c s).triggers = s.triggers := by
  simp [handHostStop]

@[simp] theorem handHostStop_arbiter (k : Fin 8) (c : StopCause) :
    (handHostStop k c s).arbiter = s.arbiter := by
  simp [handHostStop]

@[simp] theorem handHostStop_engine (k : Fin 8) (c : StopCause) : (handHostStop k c s).engine = s.engine := by
  simp [handHostStop]

@[simp] theorem handHostStop_link (k : Fin 8) (c : StopCause) : (handHostStop k c s).link = s.link := by
  simp [handHostStop]

@[simp] theorem handHostStop_host (k : Fin 8) (c : StopCause) : (handHostStop k c s).host = s.host := by
  simp [handHostStop]

/-! ### `handBoundaryStop`: changes sets, streams, events at most -/

@[simp] theorem handBoundaryStop_pending (k : Fin 8) (c : StopCause) :
    (handBoundaryStop k c s).pending = s.pending := by
  simp [handBoundaryStop]

@[simp] theorem handBoundaryStop_resetAsserted (k : Fin 8) (c : StopCause) :
    (handBoundaryStop k c s).resetAsserted = s.resetAsserted := by
  simp [handBoundaryStop]

@[simp] theorem handBoundaryStop_entries (k : Fin 8) (c : StopCause) :
    (handBoundaryStop k c s).entries = s.entries := by
  simp [handBoundaryStop]

@[simp] theorem handBoundaryStop_triggers (k : Fin 8) (c : StopCause) :
    (handBoundaryStop k c s).triggers = s.triggers := by
  simp [handBoundaryStop]

@[simp] theorem handBoundaryStop_arbiter (k : Fin 8) (c : StopCause) :
    (handBoundaryStop k c s).arbiter = s.arbiter := by
  simp [handBoundaryStop]

@[simp] theorem handBoundaryStop_engine (k : Fin 8) (c : StopCause) :
    (handBoundaryStop k c s).engine = s.engine := by
  simp [handBoundaryStop]

@[simp] theorem handBoundaryStop_link (k : Fin 8) (c : StopCause) : (handBoundaryStop k c s).link = s.link := by
  simp [handBoundaryStop]

@[simp] theorem handBoundaryStop_host (k : Fin 8) (c : StopCause) : (handBoundaryStop k c s).host = s.host := by
  simp [handBoundaryStop]

/-! ### `releaseHeld`: changes sets, engine, streams, events at most -/

@[simp] theorem releaseHeld_pending (k : Fin 8) (c : DrainCause) : (releaseHeld k c s).pending = s.pending := by
  simp [releaseHeld]

@[simp] theorem releaseHeld_resetAsserted (k : Fin 8) (c : DrainCause) :
    (releaseHeld k c s).resetAsserted = s.resetAsserted := by
  simp [releaseHeld]

@[simp] theorem releaseHeld_entries (k : Fin 8) (c : DrainCause) : (releaseHeld k c s).entries = s.entries := by
  simp [releaseHeld]

@[simp] theorem releaseHeld_triggers (k : Fin 8) (c : DrainCause) :
    (releaseHeld k c s).triggers = s.triggers := by
  simp [releaseHeld]

@[simp] theorem releaseHeld_arbiter (k : Fin 8) (c : DrainCause) : (releaseHeld k c s).arbiter = s.arbiter := by
  simp [releaseHeld]

@[simp] theorem releaseHeld_link (k : Fin 8) (c : DrainCause) : (releaseHeld k c s).link = s.link := by
  simp [releaseHeld]

@[simp] theorem releaseHeld_host (k : Fin 8) (c : DrainCause) : (releaseHeld k c s).host = s.host := by
  simp [releaseHeld]

/-! ### `endDrain`: changes sets, engine, link, streams, events, host at most -/

@[simp] theorem endDrain_pending (x : Execution) (c : DrainCause) (keep : Bool) :
    (endDrain x c keep s).pending = s.pending := by
  simp [endDrain]

@[simp] theorem endDrain_resetAsserted (x : Execution) (c : DrainCause) (keep : Bool) :
    (endDrain x c keep s).resetAsserted = s.resetAsserted := by
  simp [endDrain]

@[simp] theorem endDrain_entries (x : Execution) (c : DrainCause) (keep : Bool) :
    (endDrain x c keep s).entries = s.entries := by
  simp [endDrain]

@[simp] theorem endDrain_triggers (x : Execution) (c : DrainCause) (keep : Bool) :
    (endDrain x c keep s).triggers = s.triggers := by
  simp [endDrain]

@[simp] theorem endDrain_arbiter (x : Execution) (c : DrainCause) (keep : Bool) :
    (endDrain x c keep s).arbiter = s.arbiter := by
  simp [endDrain]

/-! ### `limitEvaluate`: changes entries, events at most -/

@[simp] theorem limitEvaluate_pending (x : Execution) (st : Status) (v : Word) :
    ((limitEvaluate x st v s).1).pending = s.pending := by
  simp only [limitEvaluate]
  (repeat' split) <;> simp

@[simp] theorem limitEvaluate_resetAsserted (x : Execution) (st : Status) (v : Word) :
    ((limitEvaluate x st v s).1).resetAsserted = s.resetAsserted := by
  simp only [limitEvaluate]
  (repeat' split) <;> simp

@[simp] theorem limitEvaluate_sets (x : Execution) (st : Status) (v : Word) :
    ((limitEvaluate x st v s).1).sets = s.sets := by
  simp only [limitEvaluate]
  (repeat' split) <;> simp

@[simp] theorem limitEvaluate_triggers (x : Execution) (st : Status) (v : Word) :
    ((limitEvaluate x st v s).1).triggers = s.triggers := by
  simp only [limitEvaluate]
  (repeat' split) <;> simp

@[simp] theorem limitEvaluate_arbiter (x : Execution) (st : Status) (v : Word) :
    ((limitEvaluate x st v s).1).arbiter = s.arbiter := by
  simp only [limitEvaluate]
  (repeat' split) <;> simp

@[simp] theorem limitEvaluate_engine (x : Execution) (st : Status) (v : Word) :
    ((limitEvaluate x st v s).1).engine = s.engine := by
  simp only [limitEvaluate]
  (repeat' split) <;> simp

@[simp] theorem limitEvaluate_link (x : Execution) (st : Status) (v : Word) :
    ((limitEvaluate x st v s).1).link = s.link := by
  simp only [limitEvaluate]
  (repeat' split) <;> simp

@[simp] theorem limitEvaluate_streams (x : Execution) (st : Status) (v : Word) :
    ((limitEvaluate x st v s).1).streams = s.streams := by
  simp only [limitEvaluate]
  (repeat' split) <;> simp

@[simp] theorem limitEvaluate_host (x : Execution) (st : Status) (v : Word) :
    ((limitEvaluate x st v s).1).host = s.host := by
  simp only [limitEvaluate]
  (repeat' split) <;> simp

/-! ### `restartOrArm`: changes sets, arbiter at most -/

@[simp] theorem restartOrArm_pending (k : Fin 8) : (restartOrArm k s).pending = s.pending := by
  simp only [restartOrArm]
  (repeat' split) <;> simp

@[simp] theorem restartOrArm_resetAsserted (k : Fin 8) :
    (restartOrArm k s).resetAsserted = s.resetAsserted := by
  simp only [restartOrArm]
  (repeat' split) <;> simp

@[simp] theorem restartOrArm_entries (k : Fin 8) : (restartOrArm k s).entries = s.entries := by
  simp only [restartOrArm]
  (repeat' split) <;> simp

@[simp] theorem restartOrArm_triggers (k : Fin 8) : (restartOrArm k s).triggers = s.triggers := by
  simp only [restartOrArm]
  (repeat' split) <;> simp

@[simp] theorem restartOrArm_engine (k : Fin 8) : (restartOrArm k s).engine = s.engine := by
  simp only [restartOrArm]
  (repeat' split) <;> simp

@[simp] theorem restartOrArm_link (k : Fin 8) : (restartOrArm k s).link = s.link := by
  simp only [restartOrArm]
  (repeat' split) <;> simp

@[simp] theorem restartOrArm_streams (k : Fin 8) : (restartOrArm k s).streams = s.streams := by
  simp only [restartOrArm]
  (repeat' split) <;> simp

@[simp] theorem restartOrArm_events (k : Fin 8) : (restartOrArm k s).events = s.events := by
  simp only [restartOrArm]
  (repeat' split) <;> simp

@[simp] theorem restartOrArm_host (k : Fin 8) : (restartOrArm k s).host = s.host := by
  simp only [restartOrArm]
  (repeat' split) <;> simp

/-! ### `haltSet`: changes sets, engine, streams, events at most -/

@[simp] theorem haltSet_pending (k : Fin 8) (e : Fin 128) (st : Status) :
    (haltSet k e st s).pending = s.pending := by
  simp [haltSet]

@[simp] theorem haltSet_resetAsserted (k : Fin 8) (e : Fin 128) (st : Status) :
    (haltSet k e st s).resetAsserted = s.resetAsserted := by
  simp [haltSet]

@[simp] theorem haltSet_entries (k : Fin 8) (e : Fin 128) (st : Status) :
    (haltSet k e st s).entries = s.entries := by
  simp [haltSet]

@[simp] theorem haltSet_triggers (k : Fin 8) (e : Fin 128) (st : Status) :
    (haltSet k e st s).triggers = s.triggers := by
  simp [haltSet]

@[simp] theorem haltSet_arbiter (k : Fin 8) (e : Fin 128) (st : Status) :
    (haltSet k e st s).arbiter = s.arbiter := by
  simp [haltSet]

@[simp] theorem haltSet_link (k : Fin 8) (e : Fin 128) (st : Status) : (haltSet k e st s).link = s.link := by
  simp [haltSet]

@[simp] theorem haltSet_host (k : Fin 8) (e : Fin 128) (st : Status) : (haltSet k e st s).host = s.host := by
  simp [haltSet]

/-! ### `limitStop`: changes sets, arbiter, engine, streams, events at most -/

@[simp] theorem limitStop_pending (k : Fin 8) : (limitStop k s).pending = s.pending := by
  simp [limitStop]

@[simp] theorem limitStop_resetAsserted (k : Fin 8) : (limitStop k s).resetAsserted = s.resetAsserted := by
  simp [limitStop]

@[simp] theorem limitStop_entries (k : Fin 8) : (limitStop k s).entries = s.entries := by
  simp [limitStop]

@[simp] theorem limitStop_triggers (k : Fin 8) : (limitStop k s).triggers = s.triggers := by
  simp [limitStop]

@[simp] theorem limitStop_link (k : Fin 8) : (limitStop k s).link = s.link := by
  simp [limitStop]

@[simp] theorem limitStop_host (k : Fin 8) : (limitStop k s).host = s.host := by
  simp [limitStop]

/-! ### `deliverChain`: changes sets, arbiter, events at most -/

@[simp] theorem deliverChain_pending (k : Fin 8) : (deliverChain k s).pending = s.pending := by
  simp only [deliverChain]
  (repeat' split) <;> simp

@[simp] theorem deliverChain_resetAsserted (k : Fin 8) :
    (deliverChain k s).resetAsserted = s.resetAsserted := by
  simp only [deliverChain]
  (repeat' split) <;> simp

@[simp] theorem deliverChain_entries (k : Fin 8) : (deliverChain k s).entries = s.entries := by
  simp only [deliverChain]
  (repeat' split) <;> simp

@[simp] theorem deliverChain_triggers (k : Fin 8) : (deliverChain k s).triggers = s.triggers := by
  simp only [deliverChain]
  (repeat' split) <;> simp

@[simp] theorem deliverChain_engine (k : Fin 8) : (deliverChain k s).engine = s.engine := by
  simp only [deliverChain]
  (repeat' split) <;> simp

@[simp] theorem deliverChain_link (k : Fin 8) : (deliverChain k s).link = s.link := by
  simp only [deliverChain]
  (repeat' split) <;> simp

@[simp] theorem deliverChain_streams (k : Fin 8) : (deliverChain k s).streams = s.streams := by
  simp only [deliverChain]
  (repeat' split) <;> simp

@[simp] theorem deliverChain_host (k : Fin 8) : (deliverChain k s).host = s.host := by
  simp only [deliverChain]
  (repeat' split) <;> simp

/-! ### `completeScan`: changes sets, arbiter, engine, events at most -/

@[simp] theorem completeScan_pending (k : Fin 8) : (completeScan k s).pending = s.pending := by
  simp [completeScan]

@[simp] theorem completeScan_resetAsserted (k : Fin 8) :
    (completeScan k s).resetAsserted = s.resetAsserted := by
  simp [completeScan]

@[simp] theorem completeScan_entries (k : Fin 8) : (completeScan k s).entries = s.entries := by
  simp [completeScan]

@[simp] theorem completeScan_triggers (k : Fin 8) : (completeScan k s).triggers = s.triggers := by
  simp [completeScan]

@[simp] theorem completeScan_link (k : Fin 8) : (completeScan k s).link = s.link := by
  simp [completeScan]

@[simp] theorem completeScan_streams (k : Fin 8) : (completeScan k s).streams = s.streams := by
  simp [completeScan]

@[simp] theorem completeScan_host (k : Fin 8) : (completeScan k s).host = s.host := by
  simp [completeScan]

/-! ### `advanceCursor`: changes sets, arbiter, engine, events at most -/

@[simp] theorem advanceCursor_pending (k : Fin 8) : ((advanceCursor k s).1).pending = s.pending := by
  simp only [advanceCursor]
  (repeat' split) <;> simp

@[simp] theorem advanceCursor_resetAsserted (k : Fin 8) :
    ((advanceCursor k s).1).resetAsserted = s.resetAsserted := by
  simp only [advanceCursor]
  (repeat' split) <;> simp

@[simp] theorem advanceCursor_entries (k : Fin 8) : ((advanceCursor k s).1).entries = s.entries := by
  simp only [advanceCursor]
  (repeat' split) <;> simp

@[simp] theorem advanceCursor_triggers (k : Fin 8) : ((advanceCursor k s).1).triggers = s.triggers := by
  simp only [advanceCursor]
  (repeat' split) <;> simp

@[simp] theorem advanceCursor_link (k : Fin 8) : ((advanceCursor k s).1).link = s.link := by
  simp only [advanceCursor]
  (repeat' split) <;> simp

@[simp] theorem advanceCursor_streams (k : Fin 8) : ((advanceCursor k s).1).streams = s.streams := by
  simp only [advanceCursor]
  (repeat' split) <;> simp

@[simp] theorem advanceCursor_host (k : Fin 8) : ((advanceCursor k s).1).host = s.host := by
  simp only [advanceCursor]
  (repeat' split) <;> simp

/-! ### `returnRequest`: changes sets, arbiter, engine at most -/

@[simp] theorem returnRequest_pending (new : Bool) : (returnRequest new s).pending = s.pending := by
  simp only [returnRequest]
  (repeat' split) <;> simp

@[simp] theorem returnRequest_resetAsserted (new : Bool) :
    (returnRequest new s).resetAsserted = s.resetAsserted := by
  simp only [returnRequest]
  (repeat' split) <;> simp

@[simp] theorem returnRequest_entries (new : Bool) : (returnRequest new s).entries = s.entries := by
  simp only [returnRequest]
  (repeat' split) <;> simp

@[simp] theorem returnRequest_triggers (new : Bool) : (returnRequest new s).triggers = s.triggers := by
  simp only [returnRequest]
  (repeat' split) <;> simp

@[simp] theorem returnRequest_link (new : Bool) : (returnRequest new s).link = s.link := by
  simp only [returnRequest]
  (repeat' split) <;> simp

@[simp] theorem returnRequest_streams (new : Bool) : (returnRequest new s).streams = s.streams := by
  simp only [returnRequest]
  (repeat' split) <;> simp

@[simp] theorem returnRequest_events (new : Bool) : (returnRequest new s).events = s.events := by
  simp only [returnRequest]
  (repeat' split) <;> simp

@[simp] theorem returnRequest_host (new : Bool) : (returnRequest new s).host = s.host := by
  simp only [returnRequest]
  (repeat' split) <;> simp

/-! ### `arbiterDecision`: changes sets, arbiter, engine at most -/

@[simp] theorem arbiterDecision_pending (b : Boundary) : (arbiterDecision b s).pending = s.pending := by
  simp only [arbiterDecision]
  (repeat' split) <;> simp

@[simp] theorem arbiterDecision_resetAsserted (b : Boundary) :
    (arbiterDecision b s).resetAsserted = s.resetAsserted := by
  simp only [arbiterDecision]
  (repeat' split) <;> simp

@[simp] theorem arbiterDecision_entries (b : Boundary) : (arbiterDecision b s).entries = s.entries := by
  simp only [arbiterDecision]
  (repeat' split) <;> simp

@[simp] theorem arbiterDecision_triggers (b : Boundary) : (arbiterDecision b s).triggers = s.triggers := by
  simp only [arbiterDecision]
  (repeat' split) <;> simp

@[simp] theorem arbiterDecision_link (b : Boundary) : (arbiterDecision b s).link = s.link := by
  simp only [arbiterDecision]
  (repeat' split) <;> simp

@[simp] theorem arbiterDecision_streams (b : Boundary) : (arbiterDecision b s).streams = s.streams := by
  simp only [arbiterDecision]
  (repeat' split) <;> simp

@[simp] theorem arbiterDecision_events (b : Boundary) : (arbiterDecision b s).events = s.events := by
  simp only [arbiterDecision]
  (repeat' split) <;> simp

@[simp] theorem arbiterDecision_host (b : Boundary) : (arbiterDecision b s).host = s.host := by
  simp only [arbiterDecision]
  (repeat' split) <;> simp

/-! ### `linkDown`: changes sets, arbiter, engine, link, events at most -/

@[simp] theorem linkDown_pending : (linkDown s).pending = s.pending := by
  simp only [linkDown]
  (repeat' split) <;> simp

@[simp] theorem linkDown_resetAsserted : (linkDown s).resetAsserted = s.resetAsserted := by
  simp only [linkDown]
  (repeat' split) <;> simp

@[simp] theorem linkDown_entries : (linkDown s).entries = s.entries := by
  simp only [linkDown]
  (repeat' split) <;> simp

@[simp] theorem linkDown_triggers : (linkDown s).triggers = s.triggers := by
  simp only [linkDown]
  (repeat' split) <;> simp

@[simp] theorem linkDown_streams : (linkDown s).streams = s.streams := by
  simp only [linkDown]
  (repeat' split) <;> simp

@[simp] theorem linkDown_host : (linkDown s).host = s.host := by
  simp only [linkDown]
  (repeat' split) <;> simp

/-! ### `updateCount`: changes sets, arbiter, engine, link, events at most -/

@[simp] theorem updateCount_pending (st : Status) : (updateCount st s).pending = s.pending := by
  simp only [updateCount]
  (repeat' split) <;> simp

@[simp] theorem updateCount_resetAsserted (st : Status) :
    (updateCount st s).resetAsserted = s.resetAsserted := by
  simp only [updateCount]
  (repeat' split) <;> simp

@[simp] theorem updateCount_entries (st : Status) : (updateCount st s).entries = s.entries := by
  simp only [updateCount]
  (repeat' split) <;> simp

@[simp] theorem updateCount_triggers (st : Status) : (updateCount st s).triggers = s.triggers := by
  simp only [updateCount]
  (repeat' split) <;> simp

@[simp] theorem updateCount_streams (st : Status) : (updateCount st s).streams = s.streams := by
  simp only [updateCount]
  (repeat' split) <;> simp

@[simp] theorem updateCount_host (st : Status) : (updateCount st s).host = s.host := by
  simp only [updateCount]
  (repeat' split) <;> simp

/-! ### `goOn`: changes engine, link at most -/

@[simp] theorem goOn_pending : (goOn s).pending = s.pending := by
  simp only [goOn]
  (repeat' split) <;> simp

@[simp] theorem goOn_resetAsserted : (goOn s).resetAsserted = s.resetAsserted := by
  simp only [goOn]
  (repeat' split) <;> simp

@[simp] theorem goOn_entries : (goOn s).entries = s.entries := by
  simp only [goOn]
  (repeat' split) <;> simp

@[simp] theorem goOn_sets : (goOn s).sets = s.sets := by
  simp only [goOn]
  (repeat' split) <;> simp

@[simp] theorem goOn_triggers : (goOn s).triggers = s.triggers := by
  simp only [goOn]
  (repeat' split) <;> simp

@[simp] theorem goOn_arbiter : (goOn s).arbiter = s.arbiter := by
  simp only [goOn]
  (repeat' split) <;> simp

@[simp] theorem goOn_streams : (goOn s).streams = s.streams := by
  simp only [goOn]
  (repeat' split) <;> simp

@[simp] theorem goOn_events : (goOn s).events = s.events := by
  simp only [goOn]
  (repeat' split) <;> simp

@[simp] theorem goOn_host : (goOn s).host = s.host := by
  simp only [goOn]
  (repeat' split) <;> simp

/-! ### `finishBoundary`: changes sets, arbiter, engine, link, events at most -/

@[simp] theorem finishBoundary_pending (b : Boundary) (st : Status) :
    (finishBoundary b st s).pending = s.pending := by
  simp [finishBoundary]

@[simp] theorem finishBoundary_resetAsserted (b : Boundary) (st : Status) :
    (finishBoundary b st s).resetAsserted = s.resetAsserted := by
  simp [finishBoundary]

@[simp] theorem finishBoundary_entries (b : Boundary) (st : Status) :
    (finishBoundary b st s).entries = s.entries := by
  simp [finishBoundary]

@[simp] theorem finishBoundary_triggers (b : Boundary) (st : Status) :
    (finishBoundary b st s).triggers = s.triggers := by
  simp [finishBoundary]

@[simp] theorem finishBoundary_streams (b : Boundary) (st : Status) :
    (finishBoundary b st s).streams = s.streams := by
  simp [finishBoundary]

@[simp] theorem finishBoundary_host (b : Boundary) (st : Status) : (finishBoundary b st s).host = s.host := by
  simp [finishBoundary]

/-! ### `handResult`: changes sets, streams, events at most -/

@[simp] theorem handResult_pending (x : Execution) (st : Status) (v : Word) :
    (handResult x st v s).pending = s.pending := by
  simp [handResult]

@[simp] theorem handResult_resetAsserted (x : Execution) (st : Status) (v : Word) :
    (handResult x st v s).resetAsserted = s.resetAsserted := by
  simp [handResult]

@[simp] theorem handResult_entries (x : Execution) (st : Status) (v : Word) :
    (handResult x st v s).entries = s.entries := by
  simp [handResult]

@[simp] theorem handResult_triggers (x : Execution) (st : Status) (v : Word) :
    (handResult x st v s).triggers = s.triggers := by
  simp [handResult]

@[simp] theorem handResult_arbiter (x : Execution) (st : Status) (v : Word) :
    (handResult x st v s).arbiter = s.arbiter := by
  simp [handResult]

@[simp] theorem handResult_engine (x : Execution) (st : Status) (v : Word) :
    (handResult x st v s).engine = s.engine := by
  simp [handResult]

@[simp] theorem handResult_link (x : Execution) (st : Status) (v : Word) :
    (handResult x st v s).link = s.link := by
  simp [handResult]

@[simp] theorem handResult_host (x : Execution) (st : Status) (v : Word) :
    (handResult x st v s).host = s.host := by
  simp [handResult]

/-! ### `limitAction`: changes sets, arbiter, engine, streams, events at most -/

@[simp] theorem limitAction_pending (x : Execution) (z : Option Zone) :
    ((limitAction x z s).1).pending = s.pending := by
  simp only [limitAction]
  (repeat' split) <;> simp

@[simp] theorem limitAction_resetAsserted (x : Execution) (z : Option Zone) :
    ((limitAction x z s).1).resetAsserted = s.resetAsserted := by
  simp only [limitAction]
  (repeat' split) <;> simp

@[simp] theorem limitAction_entries (x : Execution) (z : Option Zone) :
    ((limitAction x z s).1).entries = s.entries := by
  simp only [limitAction]
  (repeat' split) <;> simp

@[simp] theorem limitAction_triggers (x : Execution) (z : Option Zone) :
    ((limitAction x z s).1).triggers = s.triggers := by
  simp only [limitAction]
  (repeat' split) <;> simp

@[simp] theorem limitAction_link (x : Execution) (z : Option Zone) : ((limitAction x z s).1).link = s.link := by
  simp only [limitAction]
  (repeat' split) <;> simp

@[simp] theorem limitAction_host (x : Execution) (z : Option Zone) : ((limitAction x z s).1).host = s.host := by
  simp only [limitAction]
  (repeat' split) <;> simp

/-! ### `completeSuccess`: changes entries, sets, arbiter, engine, link, streams, events at most -/

@[simp] theorem completeSuccess_pending (x : Execution) (st : Status) (v : Word) :
    (completeSuccess x st v s).pending = s.pending := by
  simp only [completeSuccess]
  (repeat' split) <;> simp

@[simp] theorem completeSuccess_resetAsserted (x : Execution) (st : Status) (v : Word) :
    (completeSuccess x st v s).resetAsserted = s.resetAsserted := by
  simp only [completeSuccess]
  (repeat' split) <;> simp

@[simp] theorem completeSuccess_triggers (x : Execution) (st : Status) (v : Word) :
    (completeSuccess x st v s).triggers = s.triggers := by
  simp only [completeSuccess]
  (repeat' split) <;> simp

@[simp] theorem completeSuccess_host (x : Execution) (st : Status) (v : Word) :
    (completeSuccess x st v s).host = s.host := by
  simp only [completeSuccess]
  (repeat' split) <;> simp

/-! ### `completeFailure`: changes entries, sets, arbiter, engine, link, streams, events at most -/

@[simp] theorem completeFailure_pending (x : Execution) (st : Status) :
    (completeFailure x st s).pending = s.pending := by
  simp only [completeFailure]
  (repeat' split) <;> simp

@[simp] theorem completeFailure_resetAsserted (x : Execution) (st : Status) :
    (completeFailure x st s).resetAsserted = s.resetAsserted := by
  simp only [completeFailure]
  (repeat' split) <;> simp

@[simp] theorem completeFailure_triggers (x : Execution) (st : Status) :
    (completeFailure x st s).triggers = s.triggers := by
  simp only [completeFailure]
  (repeat' split) <;> simp

@[simp] theorem completeFailure_host (x : Execution) (st : Status) :
    (completeFailure x st s).host = s.host := by
  simp only [completeFailure]
  (repeat' split) <;> simp

/-! ### `takeSample`: changes entries, sets, arbiter, engine, link, streams, events at most -/

@[simp] theorem takeSample_pending (x : Execution) (o f : Bool) (v : Word) :
    (takeSample x o f v s).pending = s.pending := by
  simp only [takeSample]
  (repeat' split) <;> simp

@[simp] theorem takeSample_resetAsserted (x : Execution) (o f : Bool) (v : Word) :
    (takeSample x o f v s).resetAsserted = s.resetAsserted := by
  simp only [takeSample]
  (repeat' split) <;> simp

@[simp] theorem takeSample_triggers (x : Execution) (o f : Bool) (v : Word) :
    (takeSample x o f v s).triggers = s.triggers := by
  simp only [takeSample]
  (repeat' split) <;> simp

@[simp] theorem takeSample_host (x : Execution) (o f : Bool) (v : Word) :
    (takeSample x o f v s).host = s.host := by
  simp only [takeSample]
  (repeat' split) <;> simp

/-! ### `takeSelection`: changes engine, link at most -/

@[simp] theorem takeSelection_pending (x : Execution) (sel : Selection) :
    (takeSelection x sel s).pending = s.pending := by
  simp only [takeSelection]
  (repeat' split) <;> simp

@[simp] theorem takeSelection_resetAsserted (x : Execution) (sel : Selection) :
    (takeSelection x sel s).resetAsserted = s.resetAsserted := by
  simp only [takeSelection]
  (repeat' split) <;> simp

@[simp] theorem takeSelection_entries (x : Execution) (sel : Selection) :
    (takeSelection x sel s).entries = s.entries := by
  simp only [takeSelection]
  (repeat' split) <;> simp

@[simp] theorem takeSelection_sets (x : Execution) (sel : Selection) :
    (takeSelection x sel s).sets = s.sets := by
  simp only [takeSelection]
  (repeat' split) <;> simp

@[simp] theorem takeSelection_triggers (x : Execution) (sel : Selection) :
    (takeSelection x sel s).triggers = s.triggers := by
  simp only [takeSelection]
  (repeat' split) <;> simp

@[simp] theorem takeSelection_arbiter (x : Execution) (sel : Selection) :
    (takeSelection x sel s).arbiter = s.arbiter := by
  simp only [takeSelection]
  (repeat' split) <;> simp

@[simp] theorem takeSelection_streams (x : Execution) (sel : Selection) :
    (takeSelection x sel s).streams = s.streams := by
  simp only [takeSelection]
  (repeat' split) <;> simp

@[simp] theorem takeSelection_events (x : Execution) (sel : Selection) :
    (takeSelection x sel s).events = s.events := by
  simp only [takeSelection]
  (repeat' split) <;> simp

@[simp] theorem takeSelection_host (x : Execution) (sel : Selection) :
    (takeSelection x sel s).host = s.host := by
  simp only [takeSelection]
  (repeat' split) <;> simp

/-! ### `takeReset`: changes link, events at most -/

@[simp] theorem takeReset_pending : (takeReset s).pending = s.pending := by
  simp [takeReset]

@[simp] theorem takeReset_resetAsserted : (takeReset s).resetAsserted = s.resetAsserted := by
  simp [takeReset]

@[simp] theorem takeReset_entries : (takeReset s).entries = s.entries := by
  simp [takeReset]

@[simp] theorem takeReset_sets : (takeReset s).sets = s.sets := by
  simp [takeReset]

@[simp] theorem takeReset_triggers : (takeReset s).triggers = s.triggers := by
  simp [takeReset]

@[simp] theorem takeReset_arbiter : (takeReset s).arbiter = s.arbiter := by
  simp [takeReset]

@[simp] theorem takeReset_engine : (takeReset s).engine = s.engine := by
  simp [takeReset]

@[simp] theorem takeReset_streams : (takeReset s).streams = s.streams := by
  simp [takeReset]

@[simp] theorem takeReset_host : (takeReset s).host = s.host := by
  simp [takeReset]

/-! ### `transactionFailed`: changes entries, sets, arbiter, engine, link, streams, events at most -/

@[simp] theorem transactionFailed_pending (o : Outstanding) : (transactionFailed o s).pending = s.pending := by
  simp only [transactionFailed]
  (repeat' split) <;> simp

@[simp] theorem transactionFailed_resetAsserted (o : Outstanding) :
    (transactionFailed o s).resetAsserted = s.resetAsserted := by
  simp only [transactionFailed]
  (repeat' split) <;> simp

@[simp] theorem transactionFailed_triggers (o : Outstanding) :
    (transactionFailed o s).triggers = s.triggers := by
  simp only [transactionFailed]
  (repeat' split) <;> simp

@[simp] theorem transactionFailed_host (o : Outstanding) : (transactionFailed o s).host = s.host := by
  simp only [transactionFailed]
  (repeat' split) <;> simp

/-! ### `attemptFailed`: changes entries, sets, arbiter, engine, link, streams, events at most -/

@[simp] theorem attemptFailed_pending (o : Outstanding) : (attemptFailed o s).pending = s.pending := by
  simp only [attemptFailed]
  (repeat' split) <;> simp

@[simp] theorem attemptFailed_resetAsserted (o : Outstanding) :
    (attemptFailed o s).resetAsserted = s.resetAsserted := by
  simp only [attemptFailed]
  (repeat' split) <;> simp

@[simp] theorem attemptFailed_triggers (o : Outstanding) : (attemptFailed o s).triggers = s.triggers := by
  simp only [attemptFailed]
  (repeat' split) <;> simp

@[simp] theorem attemptFailed_host (o : Outstanding) : (attemptFailed o s).host = s.host := by
  simp only [attemptFailed]
  (repeat' split) <;> simp

/-! ### `takeAnswer`: changes entries, sets, arbiter, engine, link, streams, events at most -/

@[simp] theorem takeAnswer_pending (f : AnswerFrame) : (takeAnswer f s).pending = s.pending := by
  simp only [takeAnswer]
  (repeat' split) <;> simp

@[simp] theorem takeAnswer_resetAsserted (f : AnswerFrame) :
    (takeAnswer f s).resetAsserted = s.resetAsserted := by
  simp only [takeAnswer]
  (repeat' split) <;> simp

@[simp] theorem takeAnswer_triggers (f : AnswerFrame) : (takeAnswer f s).triggers = s.triggers := by
  simp only [takeAnswer]
  (repeat' split) <;> simp

@[simp] theorem takeAnswer_host (f : AnswerFrame) : (takeAnswer f s).host = s.host := by
  simp only [takeAnswer]
  (repeat' split) <;> simp

/-! ### `receiveFrame`: changes entries, sets, arbiter, engine, link, streams, events, host at most -/

@[simp] theorem receiveFrame_pending (tag : BitVec 2) (f : AnswerFrame) :
    (receiveFrame tag f s).pending = s.pending := by
  simp only [receiveFrame]
  (repeat' split) <;> simp

@[simp] theorem receiveFrame_resetAsserted (tag : BitVec 2) (f : AnswerFrame) :
    (receiveFrame tag f s).resetAsserted = s.resetAsserted := by
  simp only [receiveFrame]
  (repeat' split) <;> simp

@[simp] theorem receiveFrame_triggers (tag : BitVec 2) (f : AnswerFrame) :
    (receiveFrame tag f s).triggers = s.triggers := by
  simp only [receiveFrame]
  (repeat' split) <;> simp

end Sys2Proof.Machine
end

