-- ==== Sys2Proof/Laws/Memory.lean ====
section
/-! SUPPORT. Sample memory: reading after writing, and every operation over the Stream Manager keeps the canonical
form. -/

namespace Sys2Proof.Machine

/-! ### The canonical form -/

theorem Memory.wfFrom_mono {lo lo' : Nat} (h : lo' ≤ lo) :
    ∀ {m : Memory}, m.wfFrom lo = true → m.wfFrom lo' = true
  | [], _ => rfl
  | (a, w) :: rest, hw => by
    simp only [Memory.wfFrom, Bool.and_eq_true, decide_eq_true_eq] at hw ⊢
    exact ⟨⟨h.trans hw.1.1, hw.1.2⟩, hw.2⟩

/-- Nothing is listed below the bound. -/
theorem Memory.read_below {lo a : Nat} (h : a < lo) :
    ∀ {m : Memory}, m.wfFrom lo = true → m.read a = Config.unwrittenWord
  | [], _ => rfl
  | (b, w) :: rest, hw => by
    simp only [Memory.wfFrom, Bool.and_eq_true, decide_eq_true_eq] at hw
    have hb : a ≠ b := by omega
    simp only [Memory.read, if_neg hb]
    exact Memory.read_below (by omega) hw.2

theorem Memory.cell_wfFrom {a lo : Nat} {w : Word} {rest : Memory} (ha : lo ≤ a)
    (h : rest.wfFrom (a + 1) = true) : (Memory.cell a w rest).wfFrom lo = true := by
  unfold Memory.cell
  split
  · exact Memory.wfFrom_mono (by omega) h
  · next hw => simpa [Memory.wfFrom, ha, h] using hw

theorem Memory.write_wfFrom {a lo : Nat} {w : Word} (ha : lo ≤ a) :
    ∀ {m : Memory}, m.wfFrom lo = true → (m.write a w).wfFrom lo = true
  | [], _ => Memory.cell_wfFrom ha rfl
  | (b, v) :: rest, hm => by
    have hm' := hm
    simp only [Memory.wfFrom, Bool.and_eq_true, decide_eq_true_eq, bne_iff_ne] at hm
    obtain ⟨⟨hb, hv⟩, hr⟩ := hm
    unfold Memory.write
    split
    · next h =>
      refine Memory.cell_wfFrom ha ?_
      simp only [Memory.wfFrom, Bool.and_eq_true, decide_eq_true_eq, bne_iff_ne]
      exact ⟨⟨h, hv⟩, hr⟩
    · next h =>
      split
      · next hab => subst hab; exact Memory.cell_wfFrom ha hr
      · next hab =>
        simp only [Memory.wfFrom, Bool.and_eq_true, decide_eq_true_eq, bne_iff_ne]
        exact ⟨⟨hb, hv⟩, Memory.write_wfFrom (by omega) hr⟩

/-- A write keeps the canonical form. -/
theorem Memory.write_wf {m : Memory} (a : Nat) (w : Word) (h : m.wf = true) : (m.write a w).wf = true :=
  Memory.write_wfFrom (Nat.zero_le a) h

theorem Memory.writeList_wf : ∀ {m : Memory} (a : Nat) (ws : List Word), m.wf = true →
    (m.writeList a ws).wf = true
  | _, _, [], h => h
  | _, a, w :: ws, h => Memory.writeList_wf (a + 1) ws (Memory.write_wf a w h)

/-! ### Reading after writing -/

theorem Memory.cell_read_self {a : Nat} {w : Word} {rest : Memory} (h : rest.wfFrom (a + 1) = true) :
    (Memory.cell a w rest).read a = w := by
  unfold Memory.cell
  split
  · next hw => rw [Memory.read_below (by omega) h, hw]
  · simp [Memory.read]

theorem Memory.cell_read_other {a b : Nat} {w : Word} {rest : Memory} (h : b ≠ a) :
    (Memory.cell a w rest).read b = rest.read b := by
  unfold Memory.cell
  split
  · rfl
  · simp [Memory.read, h]

theorem Memory.write_read_selfFrom {a lo : Nat} {w : Word} :
    ∀ {m : Memory}, m.wfFrom lo = true → (m.write a w).read a = w
  | [], _ => Memory.cell_read_self rfl
  | (b, v) :: rest, hm => by
    simp only [Memory.wfFrom, Bool.and_eq_true, decide_eq_true_eq, bne_iff_ne] at hm
    obtain ⟨⟨hb, hv⟩, hr⟩ := hm
    unfold Memory.write
    split
    · next h =>
      refine Memory.cell_read_self ?_
      simp only [Memory.wfFrom, Bool.and_eq_true, decide_eq_true_eq, bne_iff_ne]
      exact ⟨⟨h, hv⟩, hr⟩
    · split
      · next hab => subst hab; exact Memory.cell_read_self hr
      · next hab =>
        simp only [Memory.read, if_neg hab]
        exact Memory.write_read_selfFrom hr

/-- A read of the word just written gives the word written. -/
theorem Memory.write_read_self {m : Memory} (a : Nat) (w : Word) (h : m.wf = true) :
    (m.write a w).read a = w :=
  Memory.write_read_selfFrom h

/-- A write leaves every other word alone. -/
theorem Memory.write_read_other {a b : Nat} (w : Word) (h : b ≠ a) :
    ∀ m : Memory, (m.write a w).read b = m.read b
  | [] => Memory.cell_read_other h
  | (c, v) :: rest => by
    unfold Memory.write
    split
    · exact Memory.cell_read_other h
    · split
      · next hac => subst hac; rw [Memory.cell_read_other h]; simp [Memory.read, h]
      · simp only [Memory.read]
        split
        · rfl
        · exact Memory.write_read_other w h rest

/-- Words written one after another leave every word outside them alone. -/
theorem Memory.writeList_read_outside {b : Nat} : ∀ (a : Nat) (ws : List Word) (m : Memory),
    b < a ∨ a + ws.length ≤ b → (m.writeList a ws).read b = m.read b
  | _, [], _, _ => rfl
  | a, w :: ws, m, h => by
    simp only [List.length_cons] at h
    unfold Memory.writeList
    rw [Memory.writeList_read_outside (a + 1) ws _ (by omega), Memory.write_read_other w (by omega)]

/-- Words written one after another are read back in order. -/
theorem Memory.writeList_read_inside : ∀ (a : Nat) (ws : List Word) (m : Memory) (i : Nat)
    (h : i < ws.length), m.wf = true → (m.writeList a ws).read (a + i) = ws[i]
  | a, w :: ws, m, 0, _, hm => by
    unfold Memory.writeList
    rw [Memory.writeList_read_outside (a + 1) ws _ (by omega)]
    exact Memory.write_read_self a w hm
  | a, w :: ws, m, i + 1, h, hm => by
    unfold Memory.writeList
    have h' : i < ws.length := by simpa using h
    have := Memory.writeList_read_inside (a + 1) ws (m.write a w) i h' (Memory.write_wf a w hm)
    simpa [Nat.add_assoc, Nat.add_comm 1 i] using this

/-! ### Every operation keeps the form -/

theorem StreamManager.append_wf {m : StreamManager} (k : Fin 4) (r : Record) (now : Time)
    (h : m.memory.wf = true) : (m.append k r now).memory.wf = true := by
  unfold StreamManager.append
  split
  · exact h
  · exact Memory.writeList_wf _ _ h

theorem StreamManager.store_wf {m : StreamManager} (k : Fin 4) (r : Record) (now : Time)
    (h : m.memory.wf = true) : (m.store k r now).memory.wf = true := by
  unfold StreamManager.store
  split
  · exact StreamManager.append_wf k r now h
  · exact StreamManager.append_wf k r now (StreamManager.append_wf (m := m) k _ now h)

/-- R142, R143: getting a filling page touches no word of sample memory. -/
theorem StreamManager.obtain_memory {m m' : StreamManager} {bs : List EventBody} {k : Fin 4} {now : Time}
    (h : m.obtain k now = some (m', bs)) : m'.memory = m.memory := by
  have reclaimed : ∀ {m' bs}, m.reclaim k now = some (m', bs) → m'.memory = m.memory := by
    intro m' bs hr
    unfold StreamManager.reclaim at hr
    split at hr
    · simp only [Option.some.injEq, Prod.mk.injEq] at hr
      rw [← hr.1]
    · cases hr
    · cases hr
  unfold StreamManager.obtain at h
  split at h
  · exact reclaimed h
  · split at h
    · simp only [Option.some.injEq, Prod.mk.injEq] at h
      rw [← h.1]
    · exact reclaimed h

/-- R147: a hand-off keeps the canonical form. -/
theorem StreamManager.handOff_wf {m : StreamManager} (k : Fin 4) (r : Record) (now : Time)
    (h : m.memory.wf = true) : (m.handOff k r now).1.memory.wf = true := by
  unfold StreamManager.handOff
  split
  · exact StreamManager.store_wf k r now h
  · split
    · next m' bs ho =>
      exact StreamManager.store_wf k r now (by rw [StreamManager.obtain_memory ho]; exact h)
    · exact h

@[simp] theorem StreamManager.amend_memory (m : StreamManager) (k : Fin 4) (f : Stream → Stream) :
    (m.amend k f).memory = m.memory := rfl

@[simp] theorem StreamManager.disable_memory (m : StreamManager) (k : Fin 4) :
    (m.disable k).memory = m.memory := rfl

@[simp] theorem StreamManager.release_memory (m : StreamManager) (k : Fin 4) (c : ClosedPage) :
    (m.release k c).memory = m.memory := rfl

@[simp] theorem StreamManager.softReset_memory (m : StreamManager) : m.softReset.memory = m.memory := rfl

/-- Memory after reset is in canonical form. -/
theorem reset_memory_wf : State.reset.streams.memory.wf = true := rfl

end Sys2Proof.Machine
end

