-- ==== Sys2Proof/Laws/Operations.lean ====
section
/-! SUPPORT. For each shared operation, one lemma that says everything it can do. Proofs about a command cite these and
do not unfold the operation. -/

namespace Sys2Proof.Machine

variable (s : State)

/-! ### Events -/

/-- R161: the three outcomes of a posting. -/
theorem EventQueue.post_cases (e : EventQueue) (now : Time) (b : EventBody) :
    e.masked b = true ∧ e.post now b = e ∨
    e.masked b = false ∧ e.records.length < 32 ∧
      e.post now b = { e with records := e.records ++ [{ body := b, time := now }] } ∨
    e.masked b = false ∧ 32 ≤ e.records.length ∧ e.post now b = { e with lost := satAdd e.lost 1 } := by
  unfold EventQueue.post
  cases hm : e.masked b
  · by_cases h : e.records.length < Config.eventCapacity
    · simp [h]
    · simp only [h, if_false, Bool.false_eq_true]
      exact .inr (.inr ⟨trivial, by simpa using h, trivial⟩)
  · simp

/-- R160: what the mask discards. -/
theorem EventQueue.masked_iff (e : EventQueue) (b : EventBody) :
    e.masked b = true ↔ b.kind ≤ 13 ∧ e.mask.getLsbD b.kind = false := by
  simp [EventQueue.masked]

/-- A property of the Event Queue that every posting keeps is kept by a list of postings. -/
theorem EventQueue.postAll_induct {P : EventQueue → Prop} (now : Time)
    (h : ∀ e b, P e → P (e.post now b)) : ∀ (bs : List EventBody) (e : EventQueue), P e → P (e.postAll now bs)
  | [], _, he => he
  | b :: bs, e, he => EventQueue.postAll_induct now h bs (e.post now b) (h e b he)

/-! ### The Request Queue -/

/-- R64: the order of the Request Queue, in words. -/
theorem Request.precedes_iff (a b : Request) :
    a.precedes b = true ↔ b.priority < a.priority ∨ a.priority = b.priority ∧ a.stamp < b.stamp := by
  simp [Request.precedes]

/-- R64: a request joins at its place: behind the ones it does not precede, up to the first it does. -/
theorem insertRequest_split (r : Request) : ∀ q : List Request,
    ∃ front back, q = front ++ back ∧ insertRequest r q = front ++ r :: back ∧
      (∀ x ∈ front, r.precedes x = false) ∧ ∀ x ∈ back.head?, r.precedes x = true
  | [] => ⟨[], [], rfl, rfl, by simp, by simp⟩
  | x :: rest => by
    cases hx : r.precedes x with
    | true => exact ⟨[], x :: rest, rfl, by simp [insertRequest, hx], by simp, by simpa using hx⟩
    | false =>
      obtain ⟨front, back, h1, h2, h3, h4⟩ := insertRequest_split r rest
      refine ⟨x :: front, back, by simp [h1], by simp [insertRequest, hx, h2], ?_, h4⟩
      simpa [hx] using h3

/-- The queue after an insertion holds the same requests and the new one. -/
theorem insertRequest_perm (r : Request) (q : List Request) : (insertRequest r q).Perm (r :: q) := by
  obtain ⟨front, back, h1, h2, -, -⟩ := insertRequest_split r q
  rw [h2, h1]
  exact List.perm_middle

theorem mem_insertRequest {r x : Request} {q : List Request} : x ∈ insertRequest r q ↔ x = r ∨ x ∈ q := by
  rw [(insertRequest_perm r q).mem_iff, List.mem_cons]

theorem mem_removeRequest {k : Fin 8} {x : Request} {q : List Request} :
    x ∈ removeRequest k q ↔ x ∈ q ∧ x.set ≠ k := by
  simp [removeRequest]

/-! ### Trigger arrivals -/

/-- R24: one trigger arrival, by the set's state. -/
theorem triggerArrival_cases (k : Fin 8) (o : Origin) :
    (s.sets[k].state = .disabled ∨ s.sets[k].state = .halted ∨ s.sets[k].state = .stopping) ∧
      triggerArrival k o s = s ∨
    s.sets[k].state = .armed ∧ triggerArrival k o s = makeRequest k s ∨
    (s.sets[k].state = .pending ∨ s.sets[k].state = .running ∨ s.sets[k].state = .preempted) ∧
      (s.sets[k].desc.overrun = .defer ∧ s.sets[k].deferred = false ∧
          triggerArrival k o s = s.modSet k (fun x => { x with deferred := true }) ∨
        (s.sets[k].desc.overrun = .defer → s.sets[k].deferred = true) ∧
          triggerArrival k o s =
            post (.triggerOverrun k o)
              (s.modSet k fun x => { x with overruns := satAdd x.overruns 1 })) := by
  unfold triggerArrival
  cases h : s.sets[k].state <;>
    simp only [reduceCtorEq, false_or, or_false, true_and, false_and, and_self, or_true] <;>
    · split
      · next hd => exact .inl ⟨hd.1, hd.2, rfl⟩
      · next hd =>
        exact .inr ⟨fun ho => by simpa using (not_and.1 hd) ho, rfl⟩

/-! ### Timers, lines and the line form -/

/-- R25: an expiry or an edge leaves the Trigger Unit as it is. -/
@[simp] theorem deliverTriggers_triggers (src : TriggerSource) (o : Origin) :
    (deliverTriggers src o s).triggers = s.triggers := by
  have step : ∀ (ks : List (Fin 8)) (t : State),
      (ks.foldl (fun t k => if t.sets[k].desc.source = src then triggerArrival k o t else t) t).triggers =
        t.triggers := by
    intro ks
    induction ks with
    | nil => intro t; rfl
    | cons k rest ih =>
      intro t
      rw [List.foldl_cons, ih]
      split <;> simp
  exact step allSets s

/-- R48: no unit has length 0. -/
theorem TimerUnit.micros_pos (u : TimerUnit) : 0 < u.micros := by
  cases u <;> decide

/-- R51: the microsecond of a timer. -/
theorem Timer.tick_cases (x : Timer) :
    x.state ≠ .running ∧ x.tick = x ∨
    x.state = .running ∧ x.phase + 1 < x.unit.micros ∧ x.tick = { x with phase := x.phase + 1 } ∨
    x.state = .running ∧ x.unit.micros ≤ x.phase + 1 ∧
      x.tick = { x with phase := 0, unitsDue := x.unitsDue + 1 } := by
  unfold Timer.tick
  cases h : x.state
  · exact .inl ⟨by simp, rfl⟩
  · dsimp only
    split
    · next hp => exact .inr (.inl ⟨rfl, hp, rfl⟩)
    · next hp => exact .inr (.inr ⟨rfl, by omega, rfl⟩)
  · exact .inl ⟨by simp, rfl⟩

/-- R51, R54: what a change of a line's level makes of a timer. -/
theorem Timer.gateChange_cases (x : Timer) (line : Fin 2) (high : Bool) :
    x.gateChange line high = x ∧
        (x.gate ≠ .high line ∨ x.state = .stopped ∨ x.state = .running ∧ high = true ∨
          x.state = .gated ∧ high = false) ∨
    x.gate = .high line ∧ x.state = .gated ∧ high = true ∧
      x.gateChange line high = { x with state := .running } ∨
    x.gate = .high line ∧ x.state = .running ∧ high = false ∧ x.gateChange line high = x.gatedNow := by
  unfold Timer.gateChange
  by_cases hg : x.gate = .high line
  · rw [if_pos hg]
    cases hs : x.state <;> cases high <;> simp [hg]
  · rw [if_neg hg]
    exact .inl ⟨rfl, .inl hg⟩

/-- R54: the count a gate gone low holds. -/
theorem Timer.gatedNow_cases (x : Timer) :
    x.phase = 0 ∧ 0 < x.unitsDue ∧
        x.gatedNow = { x with state := .gated, phase := x.unit.micros - 1, unitsDue := x.unitsDue - 1 } ∨
    ¬ (x.phase = 0 ∧ 0 < x.unitsDue) ∧ x.gatedNow = { x with state := .gated } := by
  unfold Timer.gatedNow
  split
  · next h => exact .inl ⟨h.1, h.2, rfl⟩
  · next h => exact .inr ⟨h, rfl⟩

/-- R191: a start bit and 24 bits. -/
@[simp] theorem lineBits_length (f : Frame) : (lineBits f).length = 25 := by simp [lineBits]

/-- R191: a receiver passes over an idle level. -/
@[simp] theorem commandsOfLine_idle (rest : List Bool) :
    commandsOfLine .idle (idleLevel :: rest) = commandsOfLine .idle rest := rfl

/-- R191: a receiver begins a frame at a start bit. -/
@[simp] theorem commandsOfLine_start (rest : List Bool) :
    commandsOfLine .idle (false :: rest) = commandsOfLine (.taking 24 0) rest := rfl

/-! ### The link and the engine -/

/-- R116: a pending reset is carried out exactly when the engine is IDLE. -/
theorem carryOutReset_cases :
    s.link.resetPending = true ∧ s.engine.held = none ∧ carryOutReset s = enterResetting s ∨
    (s.link.resetPending = true → s.engine.held ≠ none) ∧ carryOutReset s = s := by
  unfold carryOutReset
  split
  · next h =>
    simp only [Bool.and_eq_true, Option.isNone_iff_eq_none] at h
    exact .inl ⟨h.1, h.2, rfl⟩
  · next h =>
    simp only [Bool.and_eq_true, Option.isNone_iff_eq_none, not_and] at h
    exact .inr ⟨h, rfl⟩

/-- R80, R81: an entry's start, by the current selection. -/
theorem startEntry_cases (r : Request) :
    ∃ entry : Fin 128, ∃ f : EntryFields, entry = s.sets[r.set].desc.entryAt s.sets[r.set].cursor ∧
      f = s.entries[entry].fields ∧
      (s.engine.selection = some { channel := f.channel, gain := f.gain } ∧
          startEntry r s =
            sendMessage .convert (s.withHeld (.begin r entry f .converting)) ∨
        s.engine.selection ≠ some { channel := f.channel, gain := f.gain } ∧
          startEntry r s =
            sendMessage (.select { channel := f.channel, gain := f.gain })
              { s with engine := { held := some (.begin r entry f .selecting), selection := none } }) := by
  refine ⟨_, _, rfl, rfl, ?_⟩
  unfold startEntry
  dsimp only
  split
  · next h => exact .inl ⟨h, rfl⟩
  · next h => exact .inr ⟨h, rfl⟩

/-- R108: a failed attempt is sent again or fails its transaction. -/
theorem attemptFailed_cases (o : Outstanding) :
    o.retries < s.link.retryLimit ∧ attemptFailed o s = { s with link := s.link.resend o } ∨
    s.link.retryLimit ≤ o.retries ∧ attemptFailed o s = transactionFailed o s := by
  unfold attemptFailed
  split
  · next h => exact .inl ⟨h, rfl⟩
  · next h => exact .inr ⟨by omega, rfl⟩

/-- R106: the three classes of a frame. -/
theorem classify_cases (out : Option Outstanding) (tag : BitVec 2) (f : AnswerFrame) :
    classify out tag f = .stray ∧ (∀ o ∈ out, o.tag ≠ tag) ∨
    ∃ o, out = some o ∧ o.tag = tag ∧
      (classify out tag f = .suitable ∧ o.message.answeredBy f = true ∨
        classify out tag f = .unsuitable ∧ o.message.answeredBy f = false) := by
  unfold classify
  cases out with
  | none => simp
  | some o =>
    by_cases h : o.tag = tag
    · cases ha : o.message.answeredBy f <;> simp [h, ha]
    · simp [h]

/-- R106–R111: what taking a frame can do. -/
theorem receiveFrame_cases (tag : BitVec 2) (f : AnswerFrame) :
    (∀ o ∈ s.link.outstanding, o.tag ≠ tag) ∧
      receiveFrame tag f s = { s with link := { s.link with straySeen := true } } ∨
    ∃ o, s.link.outstanding = some o ∧ o.tag = tag ∧
      (o.message.answeredBy f = true ∧
          (s.engine.drain? = none ∧
              receiveFrame tag f s = takeAnswer f { s with link := { s.link with outstanding := none } } ∨
            ∃ x cause, s.engine.drain? = some (x, cause) ∧
              receiveFrame tag f s = endDrain x cause (drainKeeps o.message f) s) ∨
        o.message.answeredBy f = false ∧
          (s.engine.drain? = none ∧
              receiveFrame tag f s =
                attemptFailed o { s with link := { s.link with protocolError := true } } ∨
            ∃ x cause, s.engine.drain? = some (x, cause) ∧
              receiveFrame tag f s =
                endDrain x cause (drainKeeps o.message f)
                  { s with link := { s.link with protocolError := true } })) := by
  rcases classify_cases s.link.outstanding tag f with ⟨hc, ht⟩ | ⟨o, ho, ht, ⟨hc, ha⟩ | ⟨hc, ha⟩⟩
  · refine .inl ⟨ht, ?_⟩
    unfold receiveFrame
    simp only [hc, Link.flag]
  · refine .inr ⟨o, ho, ht, .inl ⟨ha, ?_⟩⟩
    unfold receiveFrame
    simp only [hc, Link.flag]
    simp only [ho]
    rcases hd : s.engine.drain? with - | ⟨x, cause⟩ <;> simp
  · refine .inr ⟨o, ho, ht, .inr ⟨ha, ?_⟩⟩
    unfold receiveFrame
    simp only [hc, Link.flag]
    simp only [ho]
    rcases hd : s.engine.drain? with - | ⟨x, cause⟩ <;> simp

/-- R79: the engine's drain, in words. -/
theorem Engine.drain?_eq_some {e : Engine} {x : Execution} {cause : DrainCause} :
    e.drain? = some (x, cause) ↔ e.held = some x ∧ x.phase = .draining cause := by
  unfold Engine.drain?
  rcases e.held with - | y
  · simp
  · constructor
    · intro h
      rcases hp : y.phase with - | n | - | c <;> simp only [hp] at h <;> cases h
      exact ⟨rfl, hp⟩
    · rintro ⟨h, hp⟩
      cases h
      simp only [hp]

/-- See `Engine.drain?_eq_some`. -/
theorem Engine.drain?_eq_none {e : Engine} :
    e.drain? = none ↔ ∀ x ∈ e.held, ∀ cause, x.phase ≠ .draining cause := by
  constructor
  · intro h x hx cause hp
    have : e.drain? = some (x, cause) := Engine.drain?_eq_some.2 ⟨hx, hp⟩
    rw [h] at this
    cases this
  · intro h
    rcases hd : e.drain? with - | ⟨x, cause⟩
    · rfl
    · obtain ⟨hx, hp⟩ := Engine.drain?_eq_some.1 hd
      exact absurd hp (h x hx cause)

/-! ### The completion -/

/-- R28–R30: the cursor's advance: inside the pass, a pass end, or the scan complete. -/
theorem advanceCursor_cases (k : Fin 8) :
    s.sets[k].cursor + 1 ≠ s.sets[k].desc.count ∧
      advanceCursor k s = (s.modSet k (fun x => { x with cursor := x.cursor + 1 }), .inside) ∨
    s.sets[k].cursor + 1 = s.sets[k].desc.count ∧
      (s.sets[k].desc.passes ≠ 0 ∧ s.sets[k].passCount + 1 = s.sets[k].desc.passes ∧
          advanceCursor k s =
            (completeScan k (s.modSet k fun x => { x with cursor := 0, passCount := x.passCount + 1 }),
              .ended) ∨
        (s.sets[k].desc.passes ≠ 0 → s.sets[k].passCount + 1 ≠ s.sets[k].desc.passes) ∧
          advanceCursor k s =
            ((s.modSet k fun x => { x with cursor := 0, passCount := x.passCount + 1 }).modSet k
                (fun x => { x with passStart := true }),
              .passEnd)) := by
  unfold advanceCursor
  split
  · next hc =>
    refine .inr ⟨hc, ?_⟩
    dsimp only
    split
    · next h =>
      simp only [State.modSet, Fin.getElem_fin, amend_getElem_self] at h
      exact .inl ⟨h.1, h.2, rfl⟩
    · next h =>
      simp only [State.modSet, Fin.getElem_fin, amend_getElem_self, not_and] at h
      exact .inr ⟨h, rfl⟩
  · next hc => exact .inl ⟨hc, rfl⟩

/-- R69: the arbiter leaves the request, or returns it with its stamp or with a new one. -/
theorem arbiterDecision_cases (b : Boundary) :
    arbiterDecision b s = s ∨
    ∃ x, s.engine.held = some x ∧
      (s.link.resetPending = true ∧ arbiterDecision b s = returnRequest false s ∨
        s.link.resetPending = false ∧ s.sets[x.request.set].desc.preemptible = true ∧
          ∃ q rest, s.arbiter.queue = q :: rest ∧
            (b = .inside ∧ x.request.priority < q.priority ∧
                arbiterDecision b s = returnRequest false s ∨
              b = .passEnd ∧ x.request.priority ≤ q.priority ∧
                arbiterDecision b s = returnRequest true s)) := by
  unfold arbiterDecision
  rcases hx : s.engine.held with - | x
  · exact .inl rfl
  · dsimp only
    cases hr : s.link.resetPending
    · rcases hq : s.arbiter.queue with - | ⟨q, rest⟩
      · exact .inl rfl
      · cases b <;> simp only [Bool.false_eq_true, if_false]
        · split
          · next h => exact .inr ⟨x, rfl, .inr ⟨trivial, h.1, q, rest, rfl, .inl ⟨trivial, h.2, rfl⟩⟩⟩
          · exact .inl rfl
        · split
          · next h => exact .inr ⟨x, rfl, .inr ⟨trivial, h.1, q, rest, rfl, .inr ⟨trivial, h.2, rfl⟩⟩⟩
          · exact .inl rfl
        · exact .inl trivial
    · exact .inr ⟨x, rfl, .inl ⟨rfl, rfl⟩⟩

/-- R74: a return, spelled out. -/
theorem returnRequest_of_held (new : Bool) {x : Execution} (h : s.engine.held = some x) :
    returnRequest new s =
      dropHeld
        ({ s with
            arbiter :=
              { queue :=
                  insertRequest
                    (x.request.returned s.sets[x.request.set]
                      (if new then s.arbiter.issued else x.request.stamp))
                    s.arbiter.queue
                issued := if new then s.arbiter.issued + 1 else s.arbiter.issued } }.modSet
          x.request.set fun y => { y with state := .preempted }) := by
  unfold returnRequest
  rw [h]

/-- R74: with no request held, nothing is returned. -/
theorem returnRequest_of_idle (new : Bool) (h : s.engine.held = none) : returnRequest new s = s := by
  unfold returnRequest
  rw [h]

/-- R112: the update of the consecutive-failure count. -/
theorem updateCount_cases (st : Status) :
    st ≠ .noResponse ∧ updateCount st s = { s with link := { s.link with failures := 0 } } ∨
    st = .noResponse ∧ s.link.failures + 1 < s.link.threshold ∧
      updateCount st s = { s with link := { s.link with failures := s.link.failures + 1 } } ∨
    st = .noResponse ∧ s.link.threshold ≤ s.link.failures + 1 ∧ updateCount st s = linkDown s := by
  cases st
  · exact .inl ⟨by simp, rfl⟩
  · exact .inl ⟨by simp, rfl⟩
  · unfold updateCount
    dsimp only
    split
    · next h => exact .inr (.inr ⟨rfl, h, rfl⟩)
    · next h => exact .inr (.inl ⟨rfl, by omega, rfl⟩)
  · exact .inl ⟨by simp, rfl⟩

/-- R92, R116: the last step of a completion. -/
theorem goOn_cases :
    (∃ x, s.engine.held = some x ∧ goOn s = startEntry x.request s) ∨
    s.engine.held = none ∧ goOn s = carryOutReset s := by
  unfold goOn
  rcases hx : s.engine.held with - | x
  · exact .inr ⟨rfl, rfl⟩
  · exact .inl ⟨x, rfl, rfl⟩

/-- R31, R39: a set whose scan has ended restarts or is ARMED. -/
theorem restartOrArm_cases (k : Fin 8) :
    s.sets[k].deferred = true ∧
      restartOrArm k s = makeRequest k (s.modSet k fun x => { x with deferred := false }) ∨
    s.sets[k].deferred = false ∧ restartOrArm k s = s.modSet k (fun x => { x with state := .armed }) := by
  unfold restartOrArm
  cases h : s.sets[k].deferred <;> simp

/-- R121–R126: step 1 of a completion moves the zone in the table and posts its limit event, or does nothing. -/
theorem limitEvaluate_cases (x : Execution) (st : Status) (v : Word) :
    st.success = false ∧ limitEvaluate x st v s = (s, { recordRequired := true, entered := none }) ∨
    st.success = true ∧ x.snapshot.window = false ∧
      limitEvaluate x st v s =
        (s, { recordRequired := x.snapshot.output.requires false, entered := none }) ∨
    st.success = true ∧ x.snapshot.window = true ∧
      ∃ new, new = nextZone s.entries[x.entry].zone v.toInt x.snapshot.low.toInt x.snapshot.high.toInt
          x.snapshot.hysteresis.toNat ∧
        limitEvaluate x st v s =
          ((match limitEvent? x.request.set x.entry v s.entries[x.entry].zone new with
            | none => { s with entries := amend s.entries x.entry fun e => { e with zone := new } }
            | some b =>
              post b { s with entries := amend s.entries x.entry fun e => { e with zone := new } }),
            { recordRequired := x.snapshot.output.requires (s.entries[x.entry].zone != new)
              entered := zoneEntered s.entries[x.entry].zone new }) := by
  unfold limitEvaluate
  cases hs : st.success
  · exact .inl ⟨rfl, rfl⟩
  · cases hw : x.snapshot.window
    · exact .inr (.inl ⟨rfl, rfl, rfl⟩)
    · exact .inr (.inr ⟨rfl, rfl, _, rfl, rfl⟩)

/-! ### Streams -/

/-- R142, R143: the two ways a stream gets a filling page. -/
theorem StreamManager.obtain_cases (m : StreamManager) (k : Fin 4) (now : Time) :
    (∃ page rest, m.pool = page :: rest ∧ m.streams[k].pages.length < m.streams[k].config.quota ∧
      m.obtain k now =
        some ({ m with pool := rest, streams := put m.streams k (m.streams[k].fill page now) }, [])) ∨
    (m.pool = [] ∨ m.streams[k].config.quota ≤ m.streams[k].pages.length) ∧
      ((∃ c rest, m.streams[k].config.policy = .reclaimOldest ∧ m.streams[k].full = c :: rest ∧
          m.obtain k now =
            some
              ({ m with
                  streams :=
                    put m.streams k
                      ({ m.streams[k] with
                          full := rest, loss := satAdd m.streams[k].loss c.records }.fill c.page now) },
                [.pageReclaimed k c.seq])) ∨
        (m.streams[k].config.policy = .dropNew ∨ m.streams[k].full = []) ∧ m.obtain k now = none) := by
  have reclaims : (∃ c rest, m.streams[k].config.policy = .reclaimOldest ∧ m.streams[k].full = c :: rest ∧
          m.reclaim k now =
            some
              ({ m with
                  streams :=
                    put m.streams k
                      ({ m.streams[k] with
                          full := rest, loss := satAdd m.streams[k].loss c.records }.fill c.page now) },
                [.pageReclaimed k c.seq])) ∨
        (m.streams[k].config.policy = .dropNew ∨ m.streams[k].full = []) ∧ m.reclaim k now = none := by
    unfold StreamManager.reclaim
    rcases hp : m.streams[k].config.policy with - | -
    · exact .inr ⟨.inl rfl, rfl⟩
    · rcases hf : m.streams[k].full with - | ⟨c, rest⟩
      · exact .inr ⟨.inr rfl, rfl⟩
      · exact .inl ⟨c, rest, rfl, rfl, rfl⟩
  unfold StreamManager.obtain
  split
  · next hp => exact .inr ⟨.inl hp, reclaims⟩
  · next page rest hp =>
    split
    · next h => exact .inl ⟨page, rest, hp, h, rfl⟩
    · next h => exact .inr ⟨.inr (by omega), reclaims⟩

/-- R147: the three outcomes of a hand-off. -/
theorem StreamManager.handOff_cases (m : StreamManager) (k : Fin 4) (r : Record) (now : Time) :
    (∃ f, m.streams[k].filling = some f ∧ m.handOff k r now = (m.store k r now, [])) ∨
    m.streams[k].filling = none ∧
      ((∃ m' bs, m.obtain k now = some (m', bs) ∧ m.handOff k r now = (m'.store k r now, bs)) ∨
        m.obtain k now = none ∧ m.handOff k r now = m.lose k) := by
  unfold StreamManager.handOff
  rcases hf : m.streams[k].filling with - | f
  · rcases ho : m.obtain k now with - | ⟨m', bs⟩
    · exact .inr ⟨rfl, .inr ⟨rfl, rfl⟩⟩
    · exact .inr ⟨rfl, .inl ⟨m', bs, rfl, rfl⟩⟩
  · exact .inl ⟨f, rfl, rfl⟩

/-! ### The command port -/

/-- R172, R180, R177: a host command's three ways. -/
theorem hostCommand_cases (c : Fin 25) (body : State → Reply) :
    s.resetAsserted = true ∧ hostCommand c body s = s ∨
    s.resetAsserted = false ∧ s.host.port.state = .inProgress ∧ hostCommand c body s = s.portResult .busy ∨
    s.resetAsserted = false ∧ s.host.port.state ≠ .inProgress ∧
      hostCommand c body s = (body s).settle c s := by
  unfold hostCommand
  cases hr : s.resetAsserted
  · cases hp : s.host.port.state <;> simp
  · simp

/-- R177: a host command that reaches its own checks. -/
theorem hostCommand_taken {c : Fin 25} {body : State → Reply} (hr : s.resetAsserted = false)
    (hp : s.host.port.state ≠ .inProgress) : hostCommand c body s = (body s).settle c s := by
  rcases hostCommand_cases s c body with ⟨h, -⟩ | ⟨-, h, -⟩ | ⟨-, -, h⟩
  · rw [hr] at h; cases h
  · exact absurd h hp
  · exact h

/-- R172: what a change by the part or the host is, RESET not asserted. -/
theorem whenReleased_of_released {f : State → State} (h : s.resetAsserted = false) :
    whenReleased f s = f s := by
  simp [whenReleased, h]

/-- R172: and while it is asserted. -/
theorem whenReleased_of_asserted {f : State → State} (h : s.resetAsserted = true) :
    whenReleased f s = s := by
  simp [whenReleased, h]

end Sys2Proof.Machine
end

