-- ==== Sys2Proof/Tests/Slice0.lean ====
section
/-! SUPPORT. The model's own tests: ill-formed terms refused, words spelled from the manual's encodings, one step at a
time against the manual's examples, and for each statement with hypotheses a concrete state that meets them. -/

namespace Sys2Proof.Tests

open Sys2Proof.Machine Sys2Proof.Statements

/-! ### Small states -/

/-- The state a command leaves. -/
def after (c : Instr) (s : State) : State :=
  match exec c s with
  | .next t => t
  | .fault _ | .refused _ => s

/-- `s` with PARAM0–PARAM5 as given. -/
def posed (p0 p1 p2 p3 p4 p5 : Word) (s : State) : State := returning #v[p0, p1, p2, p3, p4, p5] s

/-- The state after reset, with PARAM0 as given. -/
def named (p0 : Word) : State := posed p0 0 0 0 0 0 .reset

/-- The result code a host command ends with. -/
def resultOf (c : Instr) (s : State) : Result := (after c s).host.port.result

/-- RESET asserted. -/
def asserted : State := { State.reset with resetAsserted := true }

/-- The command port IN_PROGRESS with SET_STOP. -/
def inProgress : State :=
  { State.reset with
    host := { State.reset.host with port := { state := .inProgress, result := .ok, command := 8 } } }

/-- Set 0 in a state, its other values as after reset. -/
def setIn (st : SetState) : State := withSet 0 { ScanSet.fresh .default with state := st } .reset

/-- A message outstanding with tag 1. -/
def outstanding (m : Message) (left retries : Nat) : Outstanding :=
  { message := m, tag := 1, left := left, retries := retries }

/-- The engine in a phase of entry 0 for the RUNNING set 0, over the fields `f`, with the message `o` outstanding. -/
def engaged (f : EntryFields) (p : Phase) (st : SetState) (o : Option Outstanding) : State :=
  { setIn st with
    engine :=
      { held :=
          some
            { request := { set := 0, priority := 0, stamp := 0, kind := .new }, entry := 0, snapshot := f,
              samples := 0, acc := { sum := 0, minimum := none, maximum := none }, clipped := false,
              phase := p }
        selection := some { channel := 0, gain := 0 } }
    link := { Link.default with state := .up, outstanding := o } }

/-- The execution that `engaged` holds. -/
def execution (f : EntryFields) (p : Phase) : Execution :=
  { request := { set := 0, priority := 0, stamp := 0, kind := .new }, entry := 0, snapshot := f, samples := 0,
    acc := { sum := 0, minimum := none, maximum := none }, clipped := false, phase := p }

/-- A CONVERT awaited for an entry with the fields `f`. -/
def awaiting (f : EntryFields) : State := engaged f .converting .running (some (outstanding .convert 5 0))

/-- Set 0 of `s` with another descriptor. -/
def described (d : Descriptor) (s : State) : State := withSet 0 { s.sets[0] with desc := d } s

/-- A message whose last attempt has run out, for the RUNNING set 0 with the descriptor `d`, after `n` failures of a
threshold of 2. -/
def lastAttempt (m : Message) (p : Phase) (n : Nat) (d : Descriptor) : State :=
  described d
    { engaged .default p .running (some (outstanding m 0 1)) with
      link :=
        { Link.default with
          state := .up, outstanding := some (outstanding m 0 1), failures := n, threshold := 2 } }

/-- The link in a state, with nothing outstanding. -/
def linked (st : LinkState) : State := { State.reset with link := { Link.default with state := st } }

/-- Stream 0 as given. -/
def streaming (x : Stream) : State := withStream 0 x .reset

/-- An enabled stream with no page. -/
def emptyStream : Stream := .fresh .default true

/-- A closed page. -/
def closed (page : Fin 128) (words : Nat) : ClosedPage :=
  { page := page, seq := 0, words := words, records := words / 2, flushed := true }

/-- A filling page. -/
def fillingPage (page : Fin 128) (words : Nat) : FillingPage :=
  { page := page, seq := 0, words := words, records := words / 2, openTime := 0 }

/-! ### Ill-formed terms are refused -/

theorem test_unknownCommand_of_named_code : exec (.unknownCommand 1) .reset = .refused .namesAnotherCommand := rfl

theorem test_unknownCommand_codes :
    (Instr.unknownCommand 0).wellFormed = true ∧ (Instr.unknownCommand 24).wellFormed = false ∧
      (Instr.unknownCommand 25).wellFormed = true ∧ (Instr.unknownCommand 0xFFFF).wellFormed = true := by
  decide

theorem test_ignoredWrite_of_acting_offset :
    exec (.ignoredRegisterWrite 0x0D 1) .reset = .refused .namesAnotherCommand := rfl

theorem test_ignoredWrite_offsets :
    (List.range 64).filter (fun n => !(Instr.ignoredRegisterWrite (BitVec.ofNat 6 n) 0).wellFormed) =
      [0x01, 0x03, 0x04, 0x05, 0x06, 0x07, 0x08, 0x09, 0x0A, 0x0D, 0x2B] := by
  decide

theorem test_otherType_of_answer_code :
    exec (.otherTypeFrame 0xA 0 0 0) .reset = .refused .namesAnotherCommand := rfl

theorem test_otherType_codes :
    (Instr.otherTypeFrame 0x8 0 0 0).wellFormed = true ∧ (Instr.otherTypeFrame 0x9 0 0 0).wellFormed = false ∧
      (Instr.otherTypeFrame 0xB 0 0 0).wellFormed = false ∧
      (Instr.otherTypeFrame 0xC 0 0 0).wellFormed = true := by
  decide

/-! ### Words and frames -/

/-- The table gives bits for no row. -/
theorem test_table_words : decodeTableWord 16 1 = none ∧ State.reset.withFetchWord 16 1 = .reset := ⟨rfl, rfl⟩

/-- 10.4: every named code, written to CMD, is the command that carries it. -/
theorem test_command_codes :
    (List.range 25).map (fun n => (commandOfWrite 0x01 (BitVec.ofNat 16 n)).code?.map Fin.val) =
      none :: (List.range 24).map (fun n => some (n + 1)) := by
  decide

/-- 10.8: a SAMPLE, tag 1, over-range flag set, value −3 is the frame A6FFFDh. -/
theorem test_sample_frame :
    commandOfFrame (0xA#4 ++ 1#2 ++ 1#1 ++ 0#1 ++ 0xFFFD#16) = .sample 1 true false 0xFFFD := by decide

/-- 10.8: a SELECT with tag 1, channel 5, gain 2 is the frame 140205h. -/
theorem test_select_frame : (Message.select { channel := 5, gain := 2 }).frame 1 = 0x140205#24 := by decide

/-- R191: the frame 140205h on a line: the start bit, and then its bits from 23 down to 0. -/
theorem test_line_form :
    lineBits 0x140205#24 =
      [false, false, false, false, true, false, true, false, false, false, false, false, false, false, false,
        true, false, false, false, false, false, false, true, false, true] := by
  decide

/-- A code at each end of the directory, an offset that takes a write and one that does not, and the frame A6FFFDh as
its fields. -/
theorem witness_WordsSpellCommands :
    (0x01 : BitVec 6).toNat = 0x01 ∧ directory.getD (24 - 1) .start = .softReset ∧ directory.length = 24 ∧
      (0x08 : BitVec 6).toNat = 0x03 + (5 : Fin 6).val ∧ 0x0E ≤ (0x3F : BitVec 6).toNat ∧
      (0x1F : BitVec 6).toNat = 0x1C + (3 : Fin 4).val ∧
      (0xA6FFFD#24).toNat =
        (0xA#4).toNat * 2 ^ 20 + (1#2).toNat * 2 ^ 18 + (2#2).toNat * 2 ^ 16 + (0xFFFD#16).toNat ∧
      (2#2).toNat = true.toNat * 2 + false.toNat := by
  decide

/-- R191: the frame A6FFFDh, read from a line that was idle for two periods; a frame without its bit 0 is not taken. -/
theorem test_line_read :
    commandsOfLine .idle (true :: true :: lineBits 0xA6FFFD#24) = [.sample 1 true false 0xFFFD] ∧
      commandsOfLine .idle ((lineBits 0xA6FFFD#24).take 24) = [] := by
  decide

/-! ### Entries -/

/-- 1.9, the table of commit validation: PARAM2 and the thresholds, and the result. -/
theorem test_entryWrite_validation :
    resultOf .entryWrite (posed 0 0 0x0008 100 200 50 .reset) = .ok ∧
      resultOf .entryWrite (posed 0 0 0x0008 100 200 51 .reset) = .badConfig ∧
      resultOf .entryWrite (posed 0 0 0x0008 200 200 0 .reset) = .badConfig ∧
      resultOf .entryWrite (posed 0 0 0x0008 0x8000 0x7FFF 4095 .reset) = .ok ∧
      resultOf .entryWrite (posed 0 0 0x0000 500 0xFE0C 0 .reset) = .ok ∧
      resultOf .entryWrite (posed 0 0 0x0000 0 0 5000 .reset) = .badConfig ∧
      resultOf .entryWrite (posed 0 0 0x4000 0 0 0 .reset) = .badConfig ∧
      resultOf .entryWrite (posed 0 0 0x4008 0xFFF6 10 0 .reset) = .ok ∧
      resultOf .entryWrite (posed 0 0 0x0007 0 0 0 .reset) = .badConfig ∧
      resultOf .entryWrite (posed 0 0 0x1900 0 0 0 .reset) = .ok := by
  decide

/-- R11, R12: the last entry is written from the packing of 10.5, and the zone becomes UNKNOWN. -/
theorem test_entryWrite_fields :
    (after .entryWrite (posed 127 0x0A45 0x1D18 0xFFFF 5 2 .reset)).entries[127] =
      { fields :=
          { channel := 5, gain := 2, settle := 10, oversample := 0, reduction := .min, window := true,
            low := 0xFFFF, high := 5, hysteresis := 2, action := .trigger, target := 7, output := .always }
        zone := .unknown } := by
  decide

/-- R14: an entry after reset reads as all zeros, zone UNKNOWN. -/
theorem test_entryRead_default :
    (after .entryRead (posed 3 9 9 9 9 9 .reset)).host.params = #v[3, 0, 0, 0, 0, 0] := by
  decide

theorem witness_EntryWriteOutcome :
    Taking (named 128) ∧ 128 ≤ (named 128).host.params[0].toNat ∧ Named (named 127) (127 : Fin 128) ∧
      Named (named 0) (0 : Fin 128) ∧
      (returning #v[0, 0, 0, 0, 0, 0] (awaiting .default)).engine.held.map Execution.entry = some 0 ∧
      (named 127).engine.held.map Execution.entry ≠ some 127 := by
  refine ⟨⟨rfl, ?_⟩, ?_, rfl, rfl, rfl, ?_⟩ <;> decide

/-- Fields that commit at the boundary 100 + 50 = 200 − 50, and a hysteresis that no fields hold. -/
theorem witness_EntryWriteOutcome_checks :
    (∃ f, HoldsEntry #v[0, 0, 0x0008, 100, 200, 50] f ∧ EntryCommits f) ∧
      (∃ f, HoldsEntry #v[0, 0, 0x0008, 100, 200, 51] f ∧ ¬ EntryCommits f) ∧
      ∀ f, HoldsEntry #v[0, 0, 0, 0, 0, 4096] f → ¬ EntryCommits f := by
  refine ⟨⟨{ EntryFields.default with window := true, low := 100, high := 200, hysteresis := 50 }, ?_, ?_⟩,
    ⟨{ EntryFields.default with window := true, low := 100, high := 200, hysteresis := 51 }, ?_, ?_⟩, ?_⟩
  · simp [HoldsEntry, EntryFields.default, Reduction.code, LimitAction.code, OutputMode.code]
  · simp [EntryCommits, EntryFields.default]
  · simp [HoldsEntry, EntryFields.default, Reduction.code, LimitAction.code, OutputMode.code]
  · simp [EntryCommits, EntryFields.default]
  · rintro f ⟨-, -, -, -, h⟩
    have := f.hysteresis.isLt
    simp at h
    omega

theorem witness_ReadCommandsReturnData :
    Taking State.reset ∧ 128 ≤ (named 128).host.params[0].toNat ∧ Named (named 127) (127 : Fin 128) ∧
      8 ≤ (named 8).host.params[0].toNat ∧ Named (named 7) (7 : Fin 8) ∧ (named 7).sets[7].desc.count ≤ 32 ∧
      4 ≤ (named 4).host.params[0].toNat ∧ Named (named 3) (3 : Fin 4) ∧
      (named 3).streams.streams[3].config.quota ≤ 128 ∧
      (named 3).streams.streams[3].config.threshold ≤ 64 := by
  refine ⟨⟨rfl, ?_⟩, ?_, rfl, ?_, rfl, ?_, ?_, rfl, ?_, ?_⟩ <;> decide

/-! ### Scan sets -/

/-- R21, R185: a descriptor from its packing. -/
theorem test_setWrite_fields :
    (after .setWrite (posed 7 0x2060 0x03F5 0x007F 0 0 .reset)).sets[7].desc =
      { first := 96, count := 32, source := .ext 0, priority := 3, passes := 3, overrun := .defer,
        chainPresent := true, chainTarget := 7, stream := 3, preemptible := true, fault := .halt } := by
  decide

/-- R21: an entry count of 0 or 33, and a source code of 7, are out of range. -/
theorem test_setWrite_ranges :
    resultOf .setWrite (posed 0 0x0000 0 0 0 0 .reset) = .badConfig ∧
      resultOf .setWrite (posed 0 0x2100 0 0 0 0 .reset) = .badConfig ∧
      resultOf .setWrite (posed 0 0x0100 7 0 0 0 .reset) = .badConfig := by
  decide

/-- R22: the default descriptor, packed. -/
theorem test_setRead_default :
    (after .setRead (posed 2 9 9 9 9 9 .reset)).host.params = #v[2, 0x0100, 0x0180, 0, 0, 0] := by
  decide

/-- R23: with first entry 100, entry count 28 is accepted and 29 is refused. -/
theorem test_setEnable_run :
    resultOf .setEnable (described { Descriptor.default with first := 100, count := 28 } (streaming emptyStream)) =
        .ok ∧
      resultOf .setEnable
          (described { Descriptor.default with first := 100, count := 29 } (streaming emptyStream)) =
        .badConfig := by
  decide

theorem test_setEnable_armed :
    (after .setEnable (streaming emptyStream)).sets[0].state = .armed ∧
      resultOf .setEnable .reset = .badConfig := by
  decide

/-- R35: a PENDING set's stop takes its request out of the queue, with no record. -/
theorem test_setStop_pending :
    let t := after .setStop (after .setTrigger (setIn .armed))
    t.arbiter.queue = [] ∧ t.sets[0].state = .armed ∧ t.host.port.state = .done := by
  decide

/-- R36, R37: a stop while CONVERTING leaves CMDSTAT 0801h, as in sequence 11.4. -/
theorem test_setStop_converting :
    let t := after .setStop (awaiting .default)
    t.read 0x02 = 0x0801 ∧ t.sets[0].state = .stopping := by
  decide

theorem test_setDisable_armed : (after .setDisable (setIn .armed)).sets[0].state = .disabled := by decide

theorem test_setDisable_converting : (after .setDisable (awaiting .default)).read 0x02 = 0x0601 := by decide

/-- R24, R62, R63: an ARMED set becomes PENDING with a NEW request that carries the next stamp. -/
theorem test_setTrigger_armed :
    let t := after .setTrigger (setIn .armed)
    t.arbiter = { queue := [{ set := 0, priority := 0, stamp := 0, kind := .new }], issued := 1 } ∧
      t.sets[0].state = .pending ∧ t.sets[0].passStart = true := by
  decide

/-- R24: a PENDING set under DROP counts an overrun and posts TRIGGER_OVERRUN with origin SOFTWARE. -/
theorem test_setTrigger_overrun :
    let t := after .setTrigger (setIn .pending)
    t.sets[0].overruns = 1 ∧ t.events.records.map EventRecord.body = [.triggerOverrun 0 .software] := by
  decide

theorem test_setClear_halted :
    (after .setClear (setIn .halted)).sets[0].state = .armed ∧ resultOf .setClear (setIn .armed) = .badState := by
  decide

theorem witness_SetWriteOutcome :
    Taking State.reset ∧ 8 ≤ (named 8).host.params[0].toNat ∧ Named (named 7) (7 : Fin 8) ∧
      (setIn .armed).sets[0].state ≠ .disabled ∧ (named 7).sets[7].state = .disabled ∧
      (∃ d, HoldsDescriptor #v[0, 0x2000, 0, 0, 0, 0] d ∧ 1 ≤ d.count ∧ d.count ≤ 32) ∧
      ∀ d, HoldsDescriptor #v[0, 0x2100, 0, 0, 0, 0] d → ¬ (1 ≤ d.count ∧ d.count ≤ 32) := by
  refine ⟨⟨rfl, by decide⟩, by decide, rfl, by decide, rfl,
    ⟨{ Descriptor.default with count := 32, passes := 0, preemptible := false }, ?_, by decide, by decide⟩, ?_⟩
  · simp [HoldsDescriptor, Descriptor.default, TriggerSource.code]
  · rintro d ⟨⟨h, -⟩, -⟩
    simp at h
    omega

theorem witness_SetEnableAndClear :
    Taking (setIn .halted) ∧ 8 ≤ (named 8).host.params[0].toNat ∧ Named (setIn .halted) (0 : Fin 8) ∧
      (setIn .armed).sets[0].state ≠ .disabled ∧ State.reset.sets[0].state = .disabled ∧
      State.reset.streams.streams[State.reset.sets[0].desc.stream].enabled = false ∧
      (let s := described { Descriptor.default with first := 100, count := 28 } (streaming emptyStream)
       s.sets[0].desc.first.val + s.sets[0].desc.count = 128 ∧
         s.streams.streams[s.sets[0].desc.stream].enabled = true) ∧
      (described { Descriptor.default with first := 100, count := 29 } .reset).sets[0].desc.first.val + 29 >
        128 ∧
      (setIn .halted).sets[0].state = .halted := by
  refine ⟨⟨rfl, ?_⟩, ?_, rfl, ?_, rfl, rfl, ?_, ?_, rfl⟩ <;> decide

theorem witness_SetTriggerDeliversArrival :
    Taking (setIn .armed) ∧ 8 ≤ (named 8).host.params[0].toNat ∧ Named (setIn .armed) (0 : Fin 8) ∧
      Named (named 7) (7 : Fin 8) := by
  refine ⟨⟨rfl, ?_⟩, ?_, rfl, rfl⟩ <;> decide

theorem witness_StopOfSetNotRunning :
    Taking (setIn .pending) ∧ 8 ≤ (named 8).host.params[0].toNat ∧ Named (named 7) (7 : Fin 8) ∧
      (setIn .stopping).sets[0].state = .stopping ∧ (setIn .halted).sets[0].state = .halted ∧
      (setIn .armed).sets[0].state = .armed ∧ (setIn .disabled).sets[0].state = .disabled ∧
      (setIn .pending).sets[0].state = .pending ∧ (setIn .preempted).sets[0].state = .preempted := by
  refine ⟨⟨rfl, ?_⟩, ?_, rfl, rfl, rfl, rfl, rfl, rfl, rfl⟩ <;> decide

theorem witness_StopOfRunningSet (p : Phase) (h : p = .settling 1 ∨ p = .selecting ∨ p = .converting) :
    let s := engaged .default p .running none
    Taking s ∧ Named s (0 : Fin 8) ∧ s.sets[0].state = .running ∧
      ∃ x, s.engine.held = some x ∧ x.request.set = 0 ∧ x.phase = p := by
  rcases h with rfl | rfl | rfl <;> exact ⟨⟨rfl, by decide⟩, rfl, rfl, _, rfl, rfl, rfl⟩

/-! ### Triggers and timers -/

/-- R49, R186: a timer from its packing. -/
theorem test_timerWrite_fields :
    (after .timerWrite (posed 3 500 0x0113 0 0 0 .reset)).triggers.timers[3] =
      { period := 500, unit := .ms1, mode := .oneShot, gate := .high 0, state := .stopped, remaining := 500,
        phase := 0, unitsDue := 0 } := by
  decide

/-- R49: a period of 0 and a gate code of 3 are out of range. -/
theorem test_timerWrite_ranges :
    resultOf .timerWrite (posed 0 0 0 0 0 0 .reset) = .badConfig ∧
      resultOf .timerWrite (posed 0 1 0x0300 0 0 0 .reset) = .badConfig := by
  decide

theorem test_timerStart_ungated : (after .timerStart .reset).triggers.timers[0].state = .running := by decide

/-- R50: a timer gated by a low line starts GATED. -/
theorem test_timerStart_gated :
    (after .timerStart (withTimer 0 { Timer.default with gate := .high 1 } .reset)).triggers.timers[0].state =
      .gated := by
  decide

theorem test_timerStop_discards :
    (after .timerStop
        (withTimer 0 { Timer.default with period := 9, state := .running, remaining := 2 }
          .reset)).triggers.timers[0] =
      { Timer.default with period := 9, remaining := 9 } := by
  decide

/-- R56: the codes 0–2 name the configurations; 3 is out of range. -/
theorem test_extWrite :
    (after .extWrite (posed 1 2 0 0 0 0 .reset)).triggers.lines[1].edge = .both ∧
      resultOf .extWrite (posed 1 3 0 0 0 0 .reset) = .badConfig := by
  decide

/-- R52: a timer's expiry triggers the sets that name it and reloads the timer. -/
theorem test_timerExpiry :
    let s :=
      described { Descriptor.default with source := .timer 2 }
        (withTimer 2 { Timer.default with period := 7, state := .running, unitsDue := 1 } (setIn .armed))
    let t := after (.timerExpiry 2) s
    t.sets[0].state = .pending ∧ t.triggers.timers[2].remaining = 7 ∧
      t.triggers.timers[2].state = .running := by
  decide

theorem test_timerUnitComplete :
    (after (.timerUnitComplete 0)
        (withTimer 0 { Timer.default with period := 9, state := .running, remaining := 2, unitsDue := 1 }
          .reset)).triggers.timers[0].remaining = 1 := by
  decide

/-- R51: each microsecond is counted, the one taken before a due expiry too: two microseconds of a timer with period 1
and unit 1 µs are two expiries, and no third. -/
theorem test_timer_counts_each_microsecond :
    let s := described { Descriptor.default with source := .timer 0, overrun := .defer } (setIn .armed)
    let t := after .timeCounterAdvance (after .timeCounterAdvance (after .timerStart s))
    let u := after (.timerExpiry 0) (after (.timerExpiry 0) t)
    (after (.timerExpiry 0) t).sets[0].deferred = false ∧ u.sets[0].deferred = true ∧
      (after (.timerExpiry 0) u).events.records = [] := by
  decide

/-- R54: a gate gone low before the due expiry holds remaining 1 with one unit less 1 µs, and the expiry comes one
microsecond after the gate next goes high. -/
theorem test_timer_gate_before_expiry :
    let x := { Timer.default with unit := .us10, gate := .high 0, state := .running, unitsDue := 1 }
    let s := withTimer 0 x (after (.extLevelChange 0 true) .reset)
    let t := after (.extLevelChange 0 false) s
    let u := after .timeCounterAdvance (after (.extLevelChange 0 true) t)
    t.triggers.timers[0] = { x with state := .gated, phase := 9, unitsDue := 0 } ∧
      u.triggers.timers[0] = { x with phase := 0, unitsDue := 1 } := by
  decide

/-- R55, R57: a rising edge triggers the set that names the line; a falling one does not. -/
theorem test_extLevelChange :
    let s := described { Descriptor.default with source := .ext 1 } (setIn .armed)
    (after (.extLevelChange 1 true) s).sets[0].state = .pending ∧
      (after (.extLevelChange 1 false) (after (.extLevelChange 1 true) s)).events.records = [] := by
  decide

/-- R46: the counter wraps from 4 294 967 295 to 0. -/
theorem test_timeCounter_wraps :
    (after .timeCounterAdvance
        { State.reset with triggers := { State.reset.triggers with time := 0xFFFFFFFF } }).triggers.time = 0 := by
  decide

/-- R47: a read of TIMELO at 0001FFFFh returns FFFFh and latches 0001h. -/
theorem test_timeloRead :
    let t := after .timeloRead { State.reset with triggers := { State.reset.triggers with time := 0x0001FFFF } }
    t.host.data = 0xFFFF ∧ t.read 0x0C = 0x0001 := by
  decide

theorem witness_TimerWriteAndStart :
    Taking (named 3) ∧ 4 ≤ (named 4).host.params[0].toNat ∧ Named (named 3) (3 : Fin 4) ∧
      (withTimer 0 { Timer.default with state := .gated } .reset).triggers.timers[0].state ≠ .stopped ∧
      (named 3).triggers.timers[3].state = .stopped ∧
      HoldsTimer #v[3, 1, 0x0200, 0, 0, 0] { Timer.default with gate := .high 1 } ∧
      (∀ x, HoldsTimer #v[3, 0, 0, 0, 0, 0] x → x.period = 0) ∧
      ∀ x, HoldsTimer #v[3, 1, 0x0300, 0, 0, 0] x → x.period = 0 := by
  refine ⟨⟨rfl, by decide⟩, by decide, rfl, by decide, rfl, ?_, ?_, ?_⟩
  · simp [HoldsTimer, Timer.default, TimerUnit.micros]
  · rintro x ⟨h, -⟩
    exact h.symm
  · rintro x ⟨-, -, -, h⟩
    rcases hg : x.gate with - | l
    · simp [hg] at h
    · simp [hg] at h
      omega

theorem witness_TimerStopDiscardsCount :
    Taking (named 3) ∧ 4 ≤ (named 4).host.params[0].toNat ∧ Named (named 3) (3 : Fin 4) := by
  refine ⟨⟨rfl, ?_⟩, ?_, rfl⟩ <;> decide

theorem witness_ExtWriteOutcome :
    let s := posed 1 2 0 0 0 0 .reset
    Taking s ∧ 2 ≤ (named 2).host.params[0].toNat ∧ Named s (1 : Fin 2) ∧
      s.host.params[1].toNat = EdgeConfig.both.code.toNat ∧
      2 < (posed 1 3 0 0 0 0 .reset).host.params[1].toNat := by
  refine ⟨⟨rfl, ?_⟩, ?_, rfl, rfl, ?_⟩ <;> decide

theorem witness_LevelChangeOutcome :
    State.reset.resetAsserted = false ∧ State.reset.triggers.lines[0].high = false ∧
      State.reset.triggers.lines[0].high ≠ true ∧ Qualifies State.reset.triggers.lines[0].edge true ∧
      ¬ Qualifies EdgeConfig.falling true := by
  refine ⟨rfl, rfl, ?_, rfl, ?_⟩ <;> simp [Qualifies, State.reset, TriggerUnit.default, Line.default]

theorem witness_TriggerReachesEachNamingSet :
    let s := described { Descriptor.default with source := .timer 2 } (setIn .armed)
    let u := described { Descriptor.default with source := .timer 2 } (setIn .pending)
    s.sets[0].desc.source = .timer 2 ∧ s.sets[0].state = .armed ∧ s.sets[1].desc.source ≠ .timer 2 ∧
      u.sets[0].state = .pending ∧ ¬ (u.sets[0].desc.overrun = .defer ∧ u.sets[0].deferred = false) := by
  refine ⟨rfl, rfl, ?_, rfl, ?_⟩ <;> decide

theorem witness_TimerUnitAndExpiry :
    ¬ UnitReached State.reset.triggers.timers[0] ∧
      UnitReached { Timer.default with state := .running, unitsDue := 1, remaining := 2 } ∧
      UnitReached { Timer.default with state := .running, unitsDue := 1, remaining := 1 } := by
  refine ⟨?_, ⟨rfl, Nat.one_pos⟩, ⟨rfl, Nat.one_pos⟩⟩
  rintro ⟨h, -⟩
  cases h

theorem witness_TimeAdvances :
    State.reset.resetAsserted = false ∧
      (engaged .default (.settling 3) .running none).engine.held = some (execution .default (.settling 3)) ∧
      (awaiting .default).engine.held = some (execution .default .converting) := ⟨rfl, rfl, rfl⟩

/-! ### The link and the engine -/

/-- R114: a threshold at or below the count sets the count one below it. -/
theorem test_linkWrite :
    let s := posed 20 50 3 1 0 0 { State.reset with link := { Link.default with failures := 3 } }
    (after .linkWrite s).link.failures = 0 ∧ (after .linkWrite s).link.retryLimit = 3 ∧
      resultOf .linkWrite (posed 256 50 3 1 0 0 .reset) = .badConfig ∧
      resultOf .linkWrite (posed 20 50 4 1 0 0 .reset) = .badConfig := by
  decide

/-- R115, R117: from DOWN a RESET_FE goes out and the link is RESETTING. -/
theorem test_linkReset :
    let t := after .linkReset .reset
    t.link.state = .resetting ∧ t.link.lout = lineBits 0x300000#24 ∧ resultOf .linkReset t = .badState := by
  decide

/-- R117: the RESET_ACK takes the link UP and posts LINK_UP. -/
theorem test_resetAck :
    let t := after (.resetAck 0 0 0) (after .linkReset .reset)
    t.link.state = .up ∧ t.events.records.map EventRecord.body = [.linkUp] := by
  decide

/-- R67, R81: a start on an absent selection sends a SELECT for the entry's channel and gain. -/
theorem test_start :
    let s :=
      { setIn .pending with
        arbiter := { queue := [{ set := 0, priority := 0, stamp := 0, kind := .new }], issued := 1 }
        link := { Link.default with state := .up } }
    let t := after .start s
    t.sets[0].state = .running ∧ t.arbiter.queue = [] ∧ t.link.lout = lineBits 0x100000#24 ∧
      (after .start (setIn .pending)).sets[0].state = .pending := by
  decide

/-- R82: with settle 0 the SELECT_ACK is followed by the first CONVERT. -/
theorem test_selectAck :
    let s := engaged .default .selecting .running (some (outstanding (.select { channel := 0, gain := 0 }) 5 0))
    (after (.selectAck 1 0 0) s).engine.held.map Execution.phase = some .converting ∧
      (after (.selectAck 1 0 1) s).link.protocolError = true := by
  decide

theorem test_settleExpiry :
    (after .settleExpiry (engaged .default (.settling 0) .running none)).link.lout = lineBits 0x200000#24 ∧
      (after .settleExpiry (engaged .default (.settling 1) .running none)).link.lout = [] := by
  decide

/-- R30, R34: the only sample of a one-entry scan completes it: SCAN_DONE, and a marked RESULT record. 11.4: an
over-range sample ends the entry CLIPPED with the value it carries. -/
theorem test_sample_completes :
    let t := after (.sample 1 false false 7) (withStream 0 emptyStream (awaiting .default))
    let u := after (.sample 1 true false 0x7FFF) (withStream 0 emptyStream (awaiting .default))
    t.sets[0].state = .armed ∧ t.sets[0].completed = 1 ∧
      t.events.records.map EventRecord.body = [.scanDone 0 1] ∧ t.streams.memory.read 1 = 7 ∧
      u.streams.memory.read 0 = 0x0800 ∧ u.streams.memory.read 1 = 0x7FFF := by
  decide

/-- R106: another type with the outstanding tag sets PROTOCOL_ERROR; another tag is stray. -/
theorem test_otherTypeFrame :
    (after (.otherTypeFrame 0 1 0 0) (awaiting .default)).link.protocolError = true ∧
      (after (.otherTypeFrame 0 2 0 0) (awaiting .default)).link.straySeen = true := by
  decide

/-- R90, R113: the last attempt of a CONVERT fails by an unsuitable answer one failure below the threshold, under CONTINUE
and with a reset pending: ENTRY_FAILED, LINK_DOWN with the threshold, LINKSTAT 0201h (RESETTING, PROTOCOL_ERROR, count 0), and
the set PREEMPTED. -/
theorem test_otherTypeFrame_link_down :
    let s := lastAttempt .convert .converting 1 { Descriptor.default with count := 2 }
    let t := after (.otherTypeFrame 0 1 0 0) { s with link := { s.link with resetPending := true } }
    t.events.records.map EventRecord.body = [.entryFailed 0 0 .noResponse, .linkDown 2] ∧ t.read 0x0D = 0x0201 ∧
      t.sets[0].state = .preempted ∧ t.sets[0].cursor = 1 := by
  decide

/-- 11.4: a timeout in a drain ends it although a retry remains: CMDSTAT 0802h, COMMAND_DONE set, selection absent. -/
theorem test_attemptTimeout_drain :
    let s :=
      { engaged .default (.draining .hostStop) .stopping (some (outstanding .convert 0 0)) with
        host := inProgress.host }
    let t := after .attemptTimeout s
    t.read 0x02 = 0x0802 ∧ t.host.commandDone = true ∧ t.engine = { held := none, selection := none } ∧
      t.sets[0].state = .armed := by
  decide

theorem test_attemptTimeout_resends :
    (after .attemptTimeout
        (engaged .default .converting .running (some (outstanding .convert 0 0)))).link.lout = lineBits 0x240000#24 := by
  decide

theorem witness_LinkWriteOutcome :
    Taking (posed 255 1 3 15 0 0 .reset) ∧ (posed 255 1 3 15 0 0 .reset).host.params[0].toNat = 255 ∧
      (posed 255 1 3 15 0 0 .reset).host.params[1].toNat = 1 ∧
      (posed 255 1 3 15 0 0 .reset).host.params[2].toNat = 3 ∧
      (posed 255 1 3 15 0 0 .reset).host.params[3].toNat = 15 ∧
      (posed 256 1 3 15 0 0 .reset).host.params[0].toNat > 255 ∧
      (posed 255 1 3 16 0 0 .reset).host.params[3].toNat > 15 := by
  refine ⟨⟨rfl, ?_⟩, rfl, rfl, rfl, rfl, ?_, ?_⟩ <;> decide

theorem witness_LinkResetOutcome :
    Taking (linked .resetting) ∧ (linked .resetting).link.state = .resetting ∧
      (linked .down).link.state = .down ∧
      ((linked .up).link.state = .up ∧ (linked .up).link.resetPending = false ∧
        (linked .up).engine.held = none) ∧
      (awaiting .default).link.state = .up ∧ (awaiting .default).link.resetPending = false ∧
      (awaiting .default).engine.held ≠ none := by
  refine ⟨⟨rfl, ?_⟩, rfl, rfl, ⟨rfl, rfl, rfl⟩, rfl, rfl, ?_⟩
  · decide
  · simp [awaiting, engaged]

/-- The last attempt of a RESET_FE at its timeout, and at a SELECT_ACK. -/
theorem witness_ResetTransactionEnds :
    let o := outstanding .resetFe 0 1
    let s := { State.reset with link := { Link.default with state := .resetting, outstanding := some o } }
    s.resetAsserted = false ∧ s.engine.held = none ∧ s.link.outstanding = some o ∧ o.message = .resetFe ∧
      LastAttemptFails s o .attemptTimeout (answered s) ∧
      LastAttemptFails s o (.selectAck 1 0 0) (answered (protocolError s)) := by
  refine ⟨rfl, rfl, rfl, rfl, ⟨rfl, by decide, .inl ⟨rfl, rfl, rfl⟩⟩,
    ⟨rfl, by decide, .inr ⟨.inr (.inl ⟨0, 0, rfl, ?_⟩), rfl⟩⟩⟩
  rintro sel ⟨⟩

theorem witness_FailedAttemptResent (m : Message) (left : Nat) :
    let s := engaged .default .converting .running (some (outstanding m left 0))
    s.resetAsserted = false ∧ NotDraining s ∧ s.link.outstanding = some (outstanding m left 0) ∧
      (outstanding m left 0).retries < s.link.retryLimit := by
  refine ⟨rfl, ?_, rfl, by simp [outstanding, engaged, Link.default]⟩
  rintro x h c
  cases h
  simp

theorem witness_StrayFrameSetsStraySeen :
    (awaiting .default).resetAsserted = false ∧
      (∀ o, (awaiting .default).link.outstanding = some o → o.tag ≠ 0) ∧
      ∀ o, State.reset.link.outstanding = some o → o.tag ≠ 0 := by
  refine ⟨rfl, ?_, ?_⟩
  · rintro o h
    cases h
    decide
  · rintro o h
    cases h

theorem witness_DrainEnds (m : Message) (left : Nat) :
    let s := engaged .default (.draining .hostDisable) .stopping (some (outstanding m left 0))
    s.resetAsserted = false ∧ s.engine.held = some (execution .default (.draining .hostDisable)) ∧
      s.link.outstanding = some (outstanding m left 0) ∧
      ∃ (cause : StopCause) (st : SetState), cause = .hostDisable ∧ st = .disabled :=
  ⟨rfl, rfl, rfl, _, _, rfl, rfl⟩

theorem witness_CommandDoneSetOnlyByDrainEnd :
    let s := engaged .default (.draining .hostStop) .stopping (some (outstanding .convert 0 0))
    exec .attemptTimeout s = .next (after .attemptTimeout s) ∧ s.host.commandDone = false ∧
      (after .attemptTimeout s).host.commandDone = true := by
  refine ⟨rfl, rfl, ?_⟩
  decide

theorem witness_SelectAckSettlesOrConverts (settle : BitVec 8) :
    let f := { EntryFields.default with settle := settle }
    let o := outstanding (.select { channel := 0, gain := 0 }) 5 0
    let s := engaged f .selecting .running (some o)
    s.resetAsserted = false ∧ s.engine.held = some (execution f .selecting) ∧ s.link.outstanding = some o ∧
      o.message = .select { channel := 0, gain := 0 } ∧ (0 : Word).toNat % 32 = (0 : BitVec 5).toNat ∧
      (0 : Word).toNat / 256 % 4 = (0 : BitVec 2).toNat := ⟨rfl, rfl, rfl, rfl, rfl, rfl⟩

theorem witness_SettleExpiryAndStart (kind : RequestKind) :
    let r : Request := { set := 0, priority := 0, stamp := 0, kind := kind }
    let s := { linked .up with arbiter := { queue := [r], issued := 1 } }
    s.resetAsserted = false ∧ s.arbiter.queue = r :: [] ∧ s.engine.held = none ∧ s.link.state = .up ∧
      s.link.resetPending = false ∧
      (engaged .default (.settling 0) .running none).engine.held = some (execution .default (.settling 0)) ∧
      (linked .up).arbiter.queue = [] := ⟨rfl, rfl, rfl, rfl, rfl, rfl, rfl⟩

theorem witness_SampleFoldsAndConvertsAgain :
    let f := { EntryFields.default with oversample := 1 }
    Awaits (awaiting f) (execution f .converting) 1 ∧
      (execution f .converting).samples + 1 < 2 ^ f.oversample.val :=
  ⟨⟨rfl, rfl, rfl, _, rfl, rfl, rfl⟩, by decide⟩

/-- An entry without a window, under each output mode, at the first entry of a run of two. -/
theorem witness_LastSampleStartsNextEntry (m : OutputMode) :
    let f := { EntryFields.default with output := m }
    let s := described { Descriptor.default with count := 2 } (awaiting f)
    let x := execution f .converting
    Awaits s x 1 ∧ LastSample x ∧ x.request.set = 0 ∧ s.sets[0].state = .running ∧
      zoneFound x (reduced (folded x false 7)) s = s.entries[x.entry].zone ∧
      s.sets[0].cursor + 1 < s.sets[0].desc.count :=
  ⟨⟨rfl, rfl, rfl, _, rfl, rfl, rfl⟩, rfl, rfl, rfl, rfl, Nat.lt_succ_self 1⟩

/-- The last entry of a pass that is not the scan's last, and of a continuous set. -/
theorem witness_LastSampleStartsNextEntry_passEnd (passes : BitVec 8) (h : passes = 0 ∨ passes = 2) :
    let s := described { Descriptor.default with passes := passes } (awaiting .default)
    s.sets[0].cursor + 1 = s.sets[0].desc.count ∧
      ¬ (s.sets[0].desc.passes ≠ 0 ∧ s.sets[0].passCount + 1 = s.sets[0].desc.passes) := by
  rcases h with rfl | rfl <;> exact ⟨rfl, by decide⟩

/-- The value one above the high threshold crosses out under TRIGGER, and the armed target takes the arrival. -/
theorem witness_LastSampleStartsNextEntry_limit :
    let f :=
      { EntryFields.default with
        window := true, low := 0xFFF6, high := 10, hysteresis := 2, action := .trigger, target := 1 }
    let x := execution f .converting
    let s := withSet 1 { ScanSet.fresh .default with state := .armed } (awaiting f)
    Entered s.entries[x.entry].zone (zoneFound x (reduced (folded x false 11)) s) ∧
      x.snapshot.action = .trigger ∧ s.sets[x.snapshot.target].state = .armed ∧
      ¬ Entered s.entries[x.entry].zone (zoneFound x (reduced (folded x false 10)) s) := by
  unfold Entered
  decide

/-- The arbiter's cases: a pending reset, a head of higher priority inside a pass, one of equal priority at a pass end,
and an empty queue. -/
theorem witness_LastSampleStartsNextEntry_decided :
    let r := (execution .default .converting).request
    let s := awaiting .default
    let head (p : Fin 4) : State :=
      { s with arbiter := { queue := [{ set := 1, priority := p, stamp := 0, kind := .new }], issued := 1 } }
    ({ s with link := { s.link with resetPending := true } } : State).link.resetPending = true ∧
      s.link.resetPending = false ∧ GivesWay r (fun p => r.priority < p) (head 1) ∧
      GivesWay r (fun p => r.priority ≤ p) (head 0) ∧ ¬ GivesWay r (fun p => r.priority < p) (head 0) ∧
      ¬ GivesWay r (fun p => r.priority ≤ p) s := by
  refine ⟨rfl, rfl, ⟨rfl, _, rfl, ?_⟩, ⟨rfl, _, rfl, ?_⟩, ?_, ?_⟩
  · decide
  · decide
  · rintro ⟨-, q, h, hq⟩
    cases h
    exact absurd hq (by decide)
  · rintro ⟨-, q, h, -⟩
    cases h

/-- R70, R74: a preempted request comes back to the queue behind the head that displaced it, its set PREEMPTED. -/
theorem test_preemption :
    let s := described { Descriptor.default with count := 2 } (awaiting .default)
    let q : Request := { set := 1, priority := 1, stamp := 5, kind := .new }
    let t := after (.sample 1 false false 7) { s with arbiter := { queue := [q], issued := 6 } }
    t.arbiter.queue = [q, { set := 0, priority := 0, stamp := 0, kind := .resumed 1 0 false }] ∧
      t.sets[0].state = .preempted ∧ t.engine.held = none := by
  decide

/-- The one entry of a run of one pass, without a window, under each output mode, with and without a chain target. -/
theorem witness_LastSampleCompletesScan (m : OutputMode) (chain : Bool) :
    let f := { EntryFields.default with output := m }
    let s := described { Descriptor.default with chainPresent := chain } (awaiting f)
    let x := execution f .converting
    Awaits s x 1 ∧ LastSample x ∧ x.request.set = 0 ∧ s.sets[0].state = .running ∧
      s.sets[0].cursor + 1 = s.sets[0].desc.count ∧ s.sets[0].desc.passes ≠ 0 ∧
      s.sets[0].passCount + 1 = s.sets[0].desc.passes ∧
      zoneFound x (reduced (folded x false 7)) s = s.entries[x.entry].zone := by
  refine ⟨⟨rfl, rfl, rfl, _, rfl, rfl, rfl⟩, rfl, rfl, rfl, rfl, ?_, ?_, rfl⟩
  · simp [described, withSet, put, Descriptor.default]
  · simp [described, withSet, put, Descriptor.default, awaiting, engaged, setIn, ScanSet.fresh]

/-- R131, third bullet: a value one above the high threshold crosses out under TRIGGER aimed at the running set itself, at
the completing boundary; at the threshold it does not. -/
theorem witness_LastSampleCompletesScan_limit :
    let f :=
      { EntryFields.default with
        window := true, low := 0xFFF6, high := 10, hysteresis := 2, action := .trigger, target := 0 }
    let x := execution f .converting
    let s := described { Descriptor.default with overrun := .defer } (awaiting f)
    Entered s.entries[x.entry].zone (zoneFound x (reduced (folded x false 11)) s) ∧
      x.snapshot.action = .trigger ∧ x.snapshot.target = x.request.set ∧ s.sets[0].deferred = false ∧
      ¬ Entered s.entries[x.entry].zone (zoneFound x (reduced (folded x false 10)) s) := by
  unfold Entered
  decide

/-- A value one above the high threshold, and one below the low. -/
theorem witness_CrossingStopsOwnScan :
    let f :=
      { EntryFields.default with
        window := true, low := 0xFFF6, high := 10, hysteresis := 2, action := .stopOwn, output := .silent }
    let x := execution f .converting
    Awaits (awaiting f) x 1 ∧ LastSample x ∧ x.request.set = 0 ∧ x.snapshot.window = true ∧
      x.snapshot.action = .stopOwn ∧
      nextZone (awaiting f).entries[x.entry].zone (reduced (folded x false 11)).toInt f.low.toInt f.high.toInt
          f.hysteresis.toNat = .above ∧
      nextZone (awaiting f).entries[x.entry].zone (reduced (folded x false 0xFFF5)).toInt f.low.toInt
          f.high.toInt f.hysteresis.toNat = .below ∧
      (awaiting f).entries[x.entry].zone = .unknown :=
  ⟨⟨rfl, rfl, rfl, _, rfl, rfl, rfl⟩, rfl, rfl, rfl, rfl, by decide, by decide, by decide⟩

/-- An entry fails at a SAMPLE with the fault flag, at the timeout of a CONVERT's last attempt, and at a SAMPLE with the tag
of a SELECT's last attempt. -/
theorem witness_EntryFails (d : Descriptor) (n : Nat) :
    let x := execution .default .converting
    let y := execution .default .selecting
    let sel : Selection := { channel := 0, gain := 0 }
    (∃ b, EntryFails (described d (awaiting .default)) x .feFault (.sample 1 false true 0) b) ∧
      (∃ b, EntryFails (lastAttempt .convert .converting n d) x .noResponse .attemptTimeout b) ∧
      ∃ b, EntryFails (lastAttempt (.select sel) .selecting n d) y .noResponse (.sample 1 false false 0) b := by
  refine ⟨⟨_, .inl ⟨1, false, 0, ⟨rfl, rfl, rfl, _, rfl, rfl, rfl⟩, rfl, rfl, rfl⟩⟩,
    ⟨_, .inr ⟨_, rfl, rfl, .inl ⟨rfl, rfl⟩, rfl, rfl, Nat.le_refl 1, .inl ⟨rfl, rfl, rfl⟩⟩⟩,
    ⟨_, .inr ⟨_, rfl, rfl, .inr ⟨rfl, _, rfl⟩, rfl, rfl, Nat.le_refl 1,
      .inr ⟨.inr (.inr (.inl ⟨false, false, 0, rfl, ?_⟩)), rfl⟩⟩⟩⟩
  rintro ⟨⟩

/-- Under HALT: FE_FAULT, and NO_RESPONSE with the count below its threshold of 2 and just reaching it. -/
theorem witness_FaultHaltsSet :
    let d := { Descriptor.default with fault := .halt }
    let x := execution .default .converting
    let s (n : Nat) := lastAttempt .convert .converting n d
    x.request.set = 0 ∧ (∃ b, EntryFails (described d (awaiting .default)) x .feFault (.sample 1 false true 0) b) ∧
      (described d (awaiting .default)).sets[0].desc.fault = .halt ∧
      (∀ n, (∃ b, EntryFails (s n) x .noResponse .attemptTimeout b) ∧ (s n).sets[0].desc.fault = .halt) ∧
      (s 0).link.failures + 1 < (s 0).link.threshold ∧ (s 1).link.failures + 1 = (s 1).link.threshold :=
  ⟨rfl, (witness_EntryFails _ 0).1, rfl, fun n => ⟨(witness_EntryFails _ n).2.1, rfl⟩, Nat.lt_succ_self 1, rfl⟩

/-- Under CONTINUE: inside a pass of two, at the end of a pass of a continuous set, and at the end of the only pass, each
with the count below its threshold of 2 and just reaching it, and no reset pending. The arbiter's cases are those of
`witness_LastSampleStartsNextEntry_decided`. -/
theorem witness_NoResponseTakesLinkDown (d : Descriptor)
    (h : d = { Descriptor.default with count := 2 } ∨ d = { Descriptor.default with passes := 0 } ∨ d = .default) :
    let x := execution .default .converting
    let s (n : Nat) := lastAttempt .convert .converting n d
    x.request.set = 0 ∧
      (∀ n, (∃ b, EntryFails (s n) x .noResponse .attemptTimeout b) ∧ (s n).sets[0].desc.fault = .carryOn ∧
        (s n).link.resetPending = false) ∧
      (s 0).link.failures + 1 < (s 0).link.threshold ∧ (s 1).link.failures + 1 = (s 1).link.threshold ∧
      ((s 0).sets[0].cursor + 1 < (s 0).sets[0].desc.count ∨
        (s 0).sets[0].cursor + 1 = (s 0).sets[0].desc.count ∧ (s 0).sets[0].desc.passes = 0 ∨
        (s 0).sets[0].cursor + 1 = (s 0).sets[0].desc.count ∧ (s 0).sets[0].desc.passes ≠ 0 ∧
          (s 0).sets[0].passCount + 1 = (s 0).sets[0].desc.passes) := by
  refine ⟨rfl, fun n => ⟨(witness_EntryFails d n).2.1, ?_, rfl⟩, Nat.lt_succ_self 1, rfl, ?_⟩
  · rcases h with rfl | rfl | rfl <;> rfl
  · rcases h with rfl | rfl | rfl
    · exact .inl (Nat.lt_succ_self 1)
    · exact .inr (.inl ⟨rfl, rfl⟩)
    · exact .inr (.inr ⟨rfl, (by rintro ⟨⟩), rfl⟩)

/-! ### Values and zones -/

/-- 5.4: −0.25 becomes −1, not 0; a span above 32767 is 32767. -/
theorem test_reduction :
    reduceSamples .mean { sum := -1, minimum := some (-1), maximum := some 0 } 4 = -1 ∧
      reduceSamples .span { sum := 0, minimum := some (-32768), maximum := some 32767 } 2 = 32767 := by
  decide

/-- 11.5: −600 with low −500 and hysteresis 20 stays BELOW. -/
theorem test_zone : nextZone .below (-600) (-500) 500 20 = .below ∧ nextZone .above 951 0 1000 50 = .above := by
  decide

theorem witness_ReductionFollowsTable :
    (execution .default .converting).samples = 0 ∧
      (execution .default .converting).acc = { sum := 0, minimum := none, maximum := none } := ⟨rfl, rfl⟩

/-- The values at both ends of each band of L = −10, H = 10, h = 4, and the bands that just meet at h = 10. -/
theorem witness_ZoneFollowsTable :
    (-10 : Int) < 10 ∧ (-10 : Int) + 10 ≤ 10 - 10 ∧ (-10 : Int) + 4 ≤ 10 - 4 ∧
      [-11, -10, 5, 6].map (fun v => nextZone .above v (-10) 10 4) = [.below, .inside, .inside, .above] ∧
      [-6, -5, 10, 11].map (fun v => nextZone .below v (-10) 10 4) = [.below, .inside, .inside, .above] ∧
      [-11, -10, 10, 11].map (fun v => nextZone .inside v (-10) 10 4) = [.below, .inside, .inside, .above] ∧
      [-11, -10, 10, 11].map (fun v => nextZone .unknown v (-10) 10 4) =
        [.below, .inside, .inside, .above] := by
  decide

/-! ### Streams -/

/-- R137, R186: a configuration from its packing. -/
theorem test_streamWrite :
    (after .streamWrite (posed 3 128 0x4003 9 0 0 .reset)).streams.streams[3].config =
        { quota := 128, policy := .reclaimOldest, timestamps := true, flush := 9, threshold := 64 } ∧
      resultOf .streamWrite (posed 3 129 0x4003 9 0 0 .reset) = .badConfig := by
  decide

theorem test_streamRead :
    (after .streamRead (posed 2 9 9 9 9 9 .reset)).host.params = #v[2, 32, 0x0100, 0, 0, 0] := by
  decide

/-- R139: with quota 4, threshold 4 is accepted and threshold 5 is refused. -/
theorem test_streamEnable :
    resultOf .streamEnable (streaming (.fresh { StreamConfig.default with quota := 4, threshold := 4 } false)) =
        .ok ∧
      resultOf .streamEnable
          (streaming (.fresh { StreamConfig.default with quota := 4, threshold := 5 } false)) =
        .badConfig := by
  decide

/-- R140: full queue 7, 3 and 20, filling page 11, host page 2, and a pool ending in 40. -/
theorem test_streamDisable :
    let x :=
      { emptyStream with
        full := [closed 7 64, closed 3 64, closed 20 64], filling := some (fillingPage 11 4)
        host := some (closed 2 64) }
    let s := streaming x
    (after .streamDisable { s with streams := { s.streams with pool := [40] } }).streams.pool =
      [40, 7, 3, 20, 11, 2] := by
  decide

theorem test_streamFlush :
    let t := after .streamFlush (streaming { emptyStream with filling := some (fillingPage 11 4) })
    t.host.params[0] = 1 ∧ t.streams.streams[0].full = [closed 11 4] ∧
      (after .streamFlush t).host.params[0] = 0 := by
  decide

/-- R152: sequence 11.2, step 4: page 9 with 64 words and FLUSHED clear is returned in PARAM0–PARAM4. -/
theorem test_pageOpen :
    let c : ClosedPage := { page := 9, seq := 12, words := 64, records := 16, flushed := false }
    let t := after .pageOpen (streaming { emptyStream with full := [c] })
    t.host.params = #v[9, 12, 64, 16, 0, 0] ∧ t.streams.streams[0].host = some c := by
  decide

theorem test_pageRelease :
    let s := streaming { emptyStream with host := some (closed 4 64) }
    (after .pageRelease s).streams.pool.getLast? = some 4 ∧ resultOf .pageRelease .reset = .noPage := by
  decide

/-- R153: past the last word a read returns 0 and sets READ_PAST. -/
theorem test_strmdataRead :
    let s :=
      { streaming { emptyStream with host := some (closed 1 2), readPointer := 1 } with
        streams :=
          { (streaming { emptyStream with host := some (closed 1 2), readPointer := 1 }).streams with
            memory := [(65, 0x1234)] } }
    let t := after (.strmdataRead 0) s
    t.host.data = 0x1234 ∧ t.streams.streams[0].readPast = false ∧
      (after (.strmdataRead 0) t).host.data = 0 ∧
      (after (.strmdataRead 0) t).streams.streams[0].readPast = true := by
  decide

theorem test_flushExpiry :
    let s :=
      streaming { Stream.fresh { StreamConfig.default with flush := 1 } true with filling := some (fillingPage 5 2) }
    (after (.flushExpiry 0) { s with triggers := { s.triggers with time := 1000 } }).streams.streams[0].full =
        [closed 5 2] ∧
      (after (.flushExpiry 0) { s with triggers := { s.triggers with time := 999 } }).streams.streams[0].full =
        [] := by
  decide

theorem witness_StreamWriteEnableDisable :
    Taking (named 3) ∧ 4 ≤ (named 4).host.params[0].toNat ∧ Named (named 3) (3 : Fin 4) ∧
      (named 3).streams.streams[3].enabled = false ∧ emptyStream.enabled = true ∧
      HoldsStream #v[3, 128, 0x4000, 0, 0, 0]
        { quota := 128, policy := .dropNew, timestamps := false, flush := 0, threshold := 64 } ∧
      (∀ c, HoldsStream #v[3, 0, 0x0100, 0, 0, 0] c →
        ¬ (1 ≤ c.quota ∧ c.quota ≤ 128 ∧ 1 ≤ c.threshold ∧ c.threshold ≤ 64)) ∧
      StreamConfig.default.threshold ≤ StreamConfig.default.quota ∧
      (let s := withStream 0 emptyStream (setIn .armed)
       s.sets[0].state ≠ .disabled ∧ s.sets[0].desc.stream = 0) ∧
      ∀ j : Fin 8, (streaming emptyStream).sets[j].state ≠ .disabled →
        (streaming emptyStream).sets[j].desc.stream ≠ 0 := by
  refine ⟨⟨rfl, by decide⟩, by decide, rfl, rfl, rfl, ?_, ?_, by decide, ⟨by decide, rfl⟩, by decide⟩
  · simp [HoldsStream]
  · rintro c ⟨h, -⟩
    simp at h
    omega

theorem witness_FlushClosesFillingPage :
    let x := { Stream.fresh { StreamConfig.default with flush := 1 } true with filling := some (fillingPage 5 2) }
    Taking (streaming x) ∧ 4 ≤ (named 4).host.params[0].toNat ∧ Named (streaming x) (0 : Fin 4) ∧
      State.reset.streams.streams[0].filling = none ∧ x.filling = some (fillingPage 5 2) ∧
      x.config.flush ≠ 0 ∧ 1000 * x.config.flush.toNat ≤ ((1000 : Time) - 0).toNat ∧
      ((999 : Time) - 0).toNat < 1000 * x.config.flush.toNat := by
  refine ⟨⟨rfl, by decide⟩, by decide, rfl, rfl, rfl, ?_, ?_, ?_⟩ <;> decide

theorem witness_HostPageOpenReadRelease :
    Taking (named 3) ∧ 4 ≤ (named 4).host.params[0].toNat ∧ Named (named 3) (3 : Fin 4) ∧
      State.reset.streams.streams[3].enabled = false ∧ State.reset.streams.streams[3].host = none ∧
      (let x := { emptyStream with full := [closed 9 64] }
       x.enabled = true ∧ x.host = none ∧ x.full = closed 9 64 :: []) ∧
      emptyStream.full = [] ∧
      (let x := { emptyStream with host := some (closed 1 2), readPointer := 1 }
       x.host = some (closed 1 2) ∧ x.readPointer < (closed 1 2).words) ∧
      ∀ c, ({ emptyStream with host := some (closed 1 2), readPointer := 2 } : Stream).host = some c →
        c.words ≤ 2 := by
  refine ⟨⟨rfl, by decide⟩, by decide, rfl, rfl, rfl, ⟨rfl, rfl, rfl⟩, rfl, ⟨rfl, by decide⟩, ?_⟩
  rintro c h
  cases h
  decide

/-- A page with room for exactly one record, the pool at the quota's edge, and a stream at its quota. -/
theorem witness_RecordHandedToStream :
    Memory.wf [] = true ∧ (∀ (m : StreamManager) k r now, ∃ n events, m.handOff k r now = (n, events)) ∧
      (let x := { emptyStream with filling := some (fillingPage 5 62) }
       x.filling = some (fillingPage 5 62) ∧ x.loss = 0 ∧ 62 + recordLength x.config.timestamps ≤ 64) ∧
      (let x := { Stream.fresh { StreamConfig.default with quota := 2 } true with full := [closed 1 64] }
       x.filling = none ∧ State.reset.streams.pool = 0 :: State.reset.streams.pool.tail ∧
         x.full.length + x.host.toList.length < x.config.quota) ∧
      let x :=
        { Stream.fresh { StreamConfig.default with quota := 1, policy := .reclaimOldest } true with
          full := [closed 1 64] }
      x.filling = none ∧ x.config.quota ≤ x.full.length + x.host.toList.length ∧
        x.config.policy = .reclaimOldest ∧ x.full = closed 1 64 :: [] := by
  refine ⟨rfl, fun m k r now => ⟨_, _, rfl⟩, ⟨rfl, rfl, ?_⟩, ⟨rfl, rfl, ?_⟩, rfl, ?_, rfl, rfl⟩ <;> decide

/-! ### Events and registers -/

/-- R163: a pop with a lost count appends EVENTS_LOST with the count. -/
theorem test_eventPop :
    let s :=
      { State.reset with
        events := { State.reset.events with records := [{ body := .linkUp, time := 0 }], lost := 3 } }
    (after .eventPop s).events.records.map EventRecord.body = [.eventsLost 3] ∧
      (after .eventPop s).events.lost = 0 ∧ resultOf .eventPop .reset = .noEvent := by
  decide

/-- R182: a soft reset of a part IN_PROGRESS ends ABANDONED with command 24. -/
theorem test_softReset :
    (after .softReset inProgress).read 0x02 = 0x1892 ∧ (after .softReset .reset).read 0x02 = 0x1802 := by
  decide

theorem test_unknownCommand :
    (after (.unknownCommand 25) .reset).read 0x02 = 0x0022 ∧
      (after (.unknownCommand 0) inProgress).read 0x02 = 0x0821 := by
  decide

theorem test_paramWrite : (after (.paramWrite 5 0xABCD) .reset).read 0x08 = 0xABCD := by decide

theorem test_intenableWrite : (after (.intenableWrite 0xFFFF) .reset).read 0x0A = 0x0007 := by decide

theorem test_evmaskWrite : (after (.evmaskWrite 0xFFFF) .reset).read 0x2B = 0x3FFE := by decide

theorem test_intcauseWrite :
    let s := { State.reset with host := { State.reset.host with commandDone := true } }
    s.read 0x09 = 4 ∧ (after (.intcauseWrite 4) s).read 0x09 = 0 ∧ (after (.intcauseWrite 3) s).read 0x09 = 4 := by
  decide

/-- R111: 0300h written to LINKSTAT clears both flags. -/
theorem test_linkstatWrite :
    let s := { State.reset with link := { Link.default with straySeen := true, protocolError := true } }
    s.read 0x0D = 0x0300 ∧ (after (.linkstatWrite 0x0300) s).read 0x0D = 0 ∧
      (after (.linkstatWrite 0x0100) s).read 0x0D = 0x0200 := by
  decide

theorem test_ignoredRegisterWrite : exec (.ignoredRegisterWrite 0x02 0xFFFF) .reset = .next .reset := rfl

theorem test_deviceReset :
    (after .deviceReset inProgress).resetAsserted = true ∧ (after .deviceReset inProgress).read 0x00 = 0 := by
  decide

/-- R55: the release samples the lines. -/
theorem test_resetRelease :
    (after (.resetRelease true false) asserted).read 0x2A = 1 ∧
      (after (.resetRelease true false) asserted).resetAsserted = false := by
  decide

theorem witness_StepTakesFrontCommand : State.reset.pending = [] := rfl

theorem witness_WellFormedCommandsComplete :
    Instr.start.wellFormed = true ∧ (Instr.unknownCommand 25).wellFormed = true ∧
      (Instr.unknownCommand 24).wellFormed = false := by
  decide

theorem witness_RefusedCommandChangesCmdstatAlone :
    Instr.entryWrite.code? = some 1 ∧ (1 : Fin 25) ≠ 24 ∧ Taking State.reset :=
  ⟨rfl, by decide, rfl, by decide⟩

theorem witness_BusyAndUnknownCommands :
    inProgress.resetAsserted = false ∧ inProgress.host.port.state = .inProgress ∧
      State.reset.host.port.state ≠ .inProgress ∧ Instr.eventPop.code? = some 23 ∧
      (0 : Word).toNat = 0 ∧ 25 ≤ (25 : Word).toNat := by
  refine ⟨rfl, rfl, ?_, rfl, rfl, ?_⟩ <;> decide

theorem witness_AssertedResetHoldsEverything :
    asserted.resetAsserted = true ∧ Instr.start.wellFormed = true ∧ Instr.start ≠ .deviceReset ∧
      (∀ e0 e1, Instr.start ≠ .resetRelease e0 e1) ∧ Instr.start ≠ .timeloRead ∧
      ∀ k, Instr.start ≠ .strmdataRead k := by
  refine ⟨rfl, rfl, ?_, ?_, ?_, ?_⟩ <;> simp

theorem witness_TimeCounterOnlyAdvances : ∃ t, exec .timeCounterAdvance .reset = .next t := ⟨_, rfl⟩

theorem witness_IdentReads2416h : State.reset.resetAsserted = false ∧ State.reset.read 0x00 = 0x2416 := ⟨rfl, rfl⟩

/-- A queue one short of full, and a full one. -/
theorem witness_EventPostAndPop :
    let e : EventRecord := { body := .linkUp, time := 0 }
    EventBody.linkUp.kind ≤ 13 ∧ (0 : Word).getLsbD EventBody.linkUp.kind = false ∧
      (EventBody.eventsLost 1).kind = 14 ∧ State.reset.events.mask.getLsbD EventBody.linkUp.kind = true ∧
      (List.replicate 31 e).length < 32 ∧ 32 ≤ (List.replicate 32 e).length ∧ Taking State.reset ∧
      State.reset.events.records = [] ∧
      (inProgress.resetAsserted = false ∧ inProgress.host.port.state = .inProgress) := by
  refine ⟨?_, ?_, rfl, ?_, ?_, ?_, ⟨rfl, ?_⟩, rfl, rfl, rfl⟩ <;> decide

theorem witness_StatusRegistersAndInt :
    State.reset.resetAsserted = false ∧ State.reset.link.failures ≤ 15 ∧
      (∀ k : Fin 4, State.reset.streams.streams[k].full.length ≤ 128) ∧
      State.reset.events.records.length ≤ 32 ∧ State.reset.arbiter.queue = [] ∧
      State.reset.engine.held = none ∧ State.reset.events.records = [] ∧
      (awaiting .default).engine.held = some (execution .default .converting) ∧
      (awaiting .default).sets[0].cursor ≤ 31 ∧ (shown (.eventsLost 0xFFFF)).detail ≤ 65535 ∧
      let r : Request := { set := 0, priority := 0, stamp := 0, kind := .new }
      ({ State.reset with arbiter := { queue := r :: List.replicate 7 r, issued := 8 } } : State).arbiter.queue =
        r :: List.replicate 7 r ∧ (List.replicate 7 r).length ≤ 7 := by
  refine ⟨rfl, ?_, ?_, ?_, rfl, rfl, rfl, rfl, ?_, ?_, rfl, ?_⟩ <;> decide

/-- R189: LIMIT_ABOVE with set 2, entry 9 and value 812 reads 04A1h and 032Ch. -/
theorem test_eventHead :
    let e : EventRecord := { body := .limitAbove 2 9 812, time := 0x00012345 }
    let s := { State.reset with events := { State.reset.events with records := [e] } }
    [0x20, 0x21, 0x22, 0x23].map s.read = [0x04A1, 0x032C, 0x2345, 0x0001] := by
  decide

/-- R190: the header words of the manual's examples. -/
theorem test_record_headers :
    Record.header { kind := .result, status := .clipped, set := 3, entry := 17, mark := true, value := 0 } true =
        0x2B91 ∧
      Record.header { kind := .stop, status := .ok, set := 3, entry := 53, mark := false, value := 0x0303 } false =
        0x8335 ∧
      Record.header { kind := .loss, status := .ok, set := 0, entry := 0, mark := false, value := 2 } false =
        0x4000 := by
  decide

theorem witness_RegisterAccesses :
    State.reset.resetAsserted = false ∧ (4 : Word).getLsbD 2 = true ∧ (3 : Word).getLsbD 2 = false ∧
      (0x0B : BitVec 6).toNat = 0x0B ∧ (0x3F : BitVec 6).toNat ≠ 0x2B ∧ 0x2C ≤ (0x2C : BitVec 6).toNat ∧
      ¬ 0x2C ≤ (0x2B : BitVec 6).toNat := by
  refine ⟨rfl, ?_, ?_, ?_, ?_, ?_, ?_⟩ <;> decide

theorem witness_SoftResetOutcome : inProgress.resetAsserted = false := rfl

/-! ### A state that meets each invariant, with a step before it -/

/-- The state after reset with a microsecond waiting. -/
def ticking : State := { State.reset with pending := [.timeCounterAdvance] }

theorem witness_step : ∃ t, step ticking = .next t := ⟨_, rfl⟩

theorem witness_StepKeepsMemoryCanonical : MemoryCanonical ticking := rfl

theorem witness_StepKeepsPagesInOnePlace : PagesInOnePlace ticking := by
  unfold PagesInOnePlace
  decide +kernel

theorem witness_StepKeepsEventQueueBounded : EventQueueBounded ticking := by
  unfold EventQueueBounded
  decide

theorem witness_StepKeepsTimersSound : TimersSound ticking := by
  constructor
  · intro t
    constructor <;> simp [ticking, State.reset, TriggerUnit.default, Timer.default, TimerUnit.micros]
  · simp [ticking, State.reset]

theorem witness_StepKeepsEntriesSound : EntriesSound ticking := by
  constructor <;>
    simp [ticking, State.reset, Entry.default, EntryFields.default, EntryFields.consistent, Engine.default]

theorem witness_StepKeepsQueueOrdered : QueueOrdered ticking := by
  constructor <;> simp [ticking, State.reset, Arbiter.default, Engine.default]

theorem witness_StepKeepsRequestsPlaced : RequestsPlaced ticking := by
  constructor <;> simp [ticking, State.reset, Arbiter.default, Engine.default, ScanSet.fresh]

theorem witness_StepKeepsSetsAndStreamsSound : SetsAndStreamsSound ticking := by
  constructor
  · constructor <;> simp [ticking, State.reset, Arbiter.default, Engine.default, ScanSet.fresh]
  · intro k
    constructor <;> simp [ticking, State.reset, ScanSet.fresh, Descriptor.default]
  · intro k
    constructor <;>
      simp [ticking, State.reset, StreamManager.default, Stream.fresh, StreamConfig.default, Stream.pages,
        Stream.InSequence, Stream.sequences]
  · simp [ticking, State.reset, StreamManager.default]
  · simp [ticking, State.reset, Engine.default]

theorem witness_StepKeepsLinkAndEngineInRange : LinkInRange ticking ∧ EngineInRange ticking := by
  refine ⟨?_, by simp [EngineInRange, ticking, State.reset, Engine.default]⟩
  constructor <;> simp [ticking, State.reset, Link.default]

theorem witness_StepKeepsLinkMatchesEngine : LinkMatchesEngine ticking := by
  constructor <;> simp [ticking, State.reset, Link.default, Engine.default]

theorem witness_StepKeepsPortMatchesEngine : PortMatchesEngine ticking := by
  constructor <;> simp [ticking, State.reset, HostInterface.default, Engine.default, Engine.drain?]

end Sys2Proof.Tests
end

