-- ==== Sys2Proof/Proofs/EntryWrite.lean ====
section
/-! PROOFS. ENTRY_WRITE: the fields PARAM1–PARAM5 hold, the checks across them, and the command's four ends. -/

namespace Sys2Proof.Proofs

open Sys2Proof.Machine Sys2Proof.Statements

/-! ### The codes an entry's fields are read from -/

/-- R8: a code names the output mode whose code it is. -/
theorem outputMode_ofCode?_eq_some {c : BitVec 2} {m : OutputMode} :
    OutputMode.ofCode? c = some m ↔ c = m.code := by
  cases m <;> revert c <;> decide

/-- R7: a code names the limit action whose code it is. -/
theorem limitAction_ofCode?_eq_some {c : BitVec 2} {a : LimitAction} :
    LimitAction.ofCode? c = some a ↔ c = a.code := by
  cases a <;> revert c <;> decide

/-- R5: a code names the reduction whose code it is. -/
theorem reduction_ofCode_eq {c : BitVec 2} {r : Reduction} : Reduction.ofCode c = r ↔ c = r.code := by
  cases r <;> revert c <;> decide

/-- R4: an oversample field within range is the code it holds. -/
theorem oversample?_eq_some {c : BitVec 3} {v : Fin 7} : oversample? c = some v ↔ c.toNat = v.val := by
  unfold oversample?
  split
  · simp [Fin.ext_iff]
  · have := v.isLt
    simp only [reduceCtorEq, false_iff]
    omega

/-! ### Fields of a parameter word, read as numbers -/

/-- A field of a word is the number that stands at its place. -/
theorem extractLsb'_eq_iff {w : Word} {start len : Nat} {v : BitVec len} :
    w.extractLsb' start len = v ↔ w.toNat / 2 ^ start % 2 ^ len = v.toNat := by
  rw [← BitVec.toNat_inj, BitVec.extractLsb'_toNat, Nat.shiftRight_eq_div_pow]

/-- A bit of a word is the number that stands at its place. -/
theorem getLsbD_eq_iff {w : Word} {i : Nat} {b : Bool} :
    w.getLsbD i = b ↔ (w.toNat / 2 ^ i % 2 = 1 ↔ b = true) := by
  rw [BitVec.getLsbD, Nat.testBit_eq_decide_div_mod_eq]
  cases b <;> simp

/-- A field at the top of a word needs no remainder. -/
theorem div_mod_of_top (w : Word) {start len : Nat} (h : start + len = 16) :
    w.toNat / 2 ^ start % 2 ^ len = w.toNat / 2 ^ start := by
  apply Nat.mod_eq_of_lt
  rw [Nat.div_lt_iff_lt_mul (by positivity), ← pow_add, Nat.add_comm, h]
  exact w.isLt

/-- R1: a word holds a hysteresis when it is within range and its low 12 bits are the hysteresis. -/
theorem hysteresis_eq_iff {w : Word} {h : BitVec 12} :
    (w.toNat ≤ 4095 ∧ w.extractLsb' 0 12 = h) ↔ w.toNat = h.toNat := by
  have := h.isLt
  rw [extractLsb'_eq_iff]
  omega

/-- R184: ENTRY_WRITE unpacks `f` when each part of the parameter words is the field of `f` that has its place. -/
theorem unpackEntry?_eq_some_fields {p : Vector Word 6} {f : EntryFields} :
    unpackEntry? p = some f ↔
      (p[1].extractLsb' 0 5 = f.channel ∧ p[1].extractLsb' 5 2 = f.gain ∧ p[1].extractLsb' 8 8 = f.settle) ∧
      (oversample? (p[2].extractLsb' 0 3) = some f.oversample ∧ p[2].getLsbD 3 = f.window ∧
        Reduction.ofCode (p[2].extractLsb' 4 2) = f.reduction ∧
        LimitAction.ofCode? (p[2].extractLsb' 8 2) = some f.action ∧
        (p[2].extractLsb' 10 3).toFin = f.target ∧
        OutputMode.ofCode? (p[2].extractLsb' 14 2) = some f.output) ∧
      p[3] = f.low ∧ p[4] = f.high ∧ p[5].toNat ≤ 4095 ∧ p[5].extractLsb' 0 12 = f.hysteresis := by
  obtain ⟨⟩ := f
  unfold unpackEntry?
  split
  · next houtput haction hoversample =>
    simp only [houtput, haction, hoversample]
    split
    · next inRange =>
      simp only [Option.some.injEq, EntryFields.mk.injEq, inRange, true_and]
      tauto
    · next outOfRange => simp [outOfRange]
  · next hnone =>
    simp only [reduceCtorEq, false_iff]
    rintro ⟨-, ⟨hoversample, -, -, haction, -, houtput⟩, -⟩
    exact hnone _ _ _ houtput haction hoversample

/-- R184: what ENTRY_WRITE unpacks is what the parameter words hold. -/
theorem unpackEntry?_eq_some {p : Vector Word 6} {f : EntryFields} :
    unpackEntry? p = some f ↔ HoldsEntry p f := by
  have settle : p[1].extractLsb' 8 8 = f.settle ↔ p[1].toNat / 256 = f.settle.toNat := by
    rw [extractLsb'_eq_iff, div_mod_of_top _ rfl]; norm_num
  have output : p[2].extractLsb' 14 2 = f.output.code ↔ p[2].toNat / 16384 = f.output.code.toNat := by
    rw [extractLsb'_eq_iff, div_mod_of_top _ rfl]; norm_num
  have target : (p[2].extractLsb' 10 3).toFin = f.target ↔ p[2].toNat / 1024 % 8 = f.target.val := by
    simp [Fin.ext_iff, Nat.shiftRight_eq_div_pow]
  rw [unpackEntry?_eq_some_fields, outputMode_ofCode?_eq_some, limitAction_ofCode?_eq_some, reduction_ofCode_eq,
    oversample?_eq_some, hysteresis_eq_iff, settle, output, target, getLsbD_eq_iff]
  simp [HoldsEntry, extractLsb'_eq_iff, Nat.shiftRight_eq_div_pow]

/-- R11: the checks across fields are the model's. -/
theorem consistent_iff {f : EntryFields} : f.consistent = true ↔ EntryCommits f := by
  unfold EntryFields.consistent EntryCommits
  cases f.window <;> simp

/-! ### The command -/

/-- The dispatch of ENTRY_WRITE. -/
theorem exec_entryWrite (s : State) : exec .entryWrite s = execEntryWrite s := rfl

/-- R178: a refusal changes CMDSTAT alone. -/
theorem settle_refuse (c : Fin 25) (r : Result) (s : State) : (Reply.refuse r).settle c s = ended c r s := rfl

/-- R175: an immediate acceptance ends OK in the state it leaves. -/
theorem settle_accept (c : Fin 25) (s t : State) : (Reply.accept t).settle c s = ended c .ok t := rfl

/-- R177, R180: ENTRY_WRITE ends as its own checks answer when it reaches them. -/
theorem exec_entryWrite_taken {s : State} (taking : Taking s) :
    exec .entryWrite s = .next ((entryWriteReply s).settle 1 s) := by
  obtain ⟨released, free⟩ := taking
  rw [exec_entryWrite, execEntryWrite, hostCommand_taken s released free]

/-- R11: an index out of range. -/
theorem entryWriteReply_badIndex {s : State} (outOfRange : 128 ≤ s.host.params[0].toNat) :
    entryWriteReply s = .refuse .badIndex := by
  simp only [entryWriteReply, State.index, index?_eq_none.mpr outOfRange]

/-- R11: the entry in progress. -/
theorem entryWriteReply_inUse {s : State} {i : Fin 128} (named : Named s i)
    (executing : s.engine.held.map Execution.entry = some i) : entryWriteReply s = .refuse .inUse := by
  simp [entryWriteReply, State.index, index?_eq_some.mpr named, State.entryInProgress, executing]

/-- R11: an entry not in progress, and parameters with a field out of range. -/
theorem entryWriteReply_of_unpack_none {s : State} {i : Fin 128} (named : Named s i)
    (notExecuting : s.engine.held.map Execution.entry ≠ some i) (unpacked : unpackEntry? s.host.params = none) :
    entryWriteReply s = .refuse .badConfig := by
  simp [entryWriteReply, State.index, index?_eq_some.mpr named, State.entryInProgress, notExecuting, unpacked]

/-- R11, R12: an entry not in progress, and parameters that hold fields in range. -/
theorem entryWriteReply_of_holds {s : State} {i : Fin 128} {f : EntryFields} (named : Named s i)
    (notExecuting : s.engine.held.map Execution.entry ≠ some i) (holds : HoldsEntry s.host.params f) :
    entryWriteReply s =
      if f.consistent then .accept { s with entries := put s.entries i { fields := f, zone := .unknown } }
      else .refuse .badConfig := by
  simp [entryWriteReply, State.index, index?_eq_some.mpr named, State.entryInProgress, notExecuting,
    unpackEntry?_eq_some.mpr holds]

/-- R11: no fields in range that pass the checks across fields. -/
theorem entryWriteReply_badConfig {s : State} {i : Fin 128} (named : Named s i)
    (notExecuting : s.engine.held.map Execution.entry ≠ some i)
    (fails : ∀ f, HoldsEntry s.host.params f → ¬ EntryCommits f) :
    entryWriteReply s = .refuse .badConfig := by
  cases unpacked : unpackEntry? s.host.params with
  | none => exact entryWriteReply_of_unpack_none named notExecuting unpacked
  | some f =>
    have holds := unpackEntry?_eq_some.mp unpacked
    rw [entryWriteReply_of_holds named notExecuting holds, if_neg (mt consistent_iff.mp (fails f holds))]

/-- Settles O11: the command ends as its own checks answer, R11's in their order and then R12's effect. -/
theorem entryWriteOutcome : Obligations.EntryWriteOutcome := by
  intro s taking
  rw [exec_entryWrite_taken taking]
  refine ⟨fun outOfRange => ?_, fun i named => ⟨fun executing => ?_, fun notExecuting =>
    ⟨fun f holds commits => ?_, fun fails => ?_⟩⟩⟩
  · rw [entryWriteReply_badIndex outOfRange, settle_refuse]
  · rw [entryWriteReply_inUse named executing, settle_refuse]
  · rw [entryWriteReply_of_holds named notExecuting holds, if_pos (consistent_iff.mpr commits), settle_accept]
  · rw [entryWriteReply_badConfig named notExecuting fails, settle_refuse]

end Sys2Proof.Proofs
end

