-- ==== Sys2Proof/Proofs/ScanSets.lean ====
section
/-! PROOFS. SET_WRITE, SET_ENABLE and SET_CLEAR, and the commands that read an entry, a set or a stream: the packing of
section 10.5 in both directions, and each command's ends. -/

namespace Sys2Proof.Proofs

open Sys2Proof.Machine Sys2Proof.Statements

section

variable {s : State}

/-! ### Host commands with an index in PARAM0 -/

/-- R177, R180: a host command that reaches its own checks and is refused by them. -/
theorem exec_refused {i : Instr} {c : Fin 25} {body : State → Reply} {r : Result}
    (dispatch : exec i s = .next (hostCommand c body s)) (taking : Taking s) (answer : body s = .refuse r) :
    exec i s = .next (ended c r s) := by
  obtain ⟨released, free⟩ := taking
  rw [dispatch, hostCommand_taken s released free, answer, settle_refuse]

/-- R177, R180: a host command that reaches its own checks and is accepted by them at once. -/
theorem exec_accepted {i : Instr} {c : Fin 25} {body : State → Reply} {t : State}
    (dispatch : exec i s = .next (hostCommand c body s)) (taking : Taking s) (answer : body s = .accept t) :
    exec i s = .next (ended c .ok t) := by
  obtain ⟨released, free⟩ := taking
  rw [dispatch, hostCommand_taken s released free, answer, settle_accept]

/-- R177, check 3: PARAM0 names a member of the family. -/
theorem index_of_named {n : Nat} {i : Fin n} (named : Named s i) : s.index n = some i := index?_eq_some.mpr named

/-- R177, check 3: PARAM0 is out of range. -/
theorem index_of_outOfRange {n : Nat} (outOfRange : n ≤ s.host.params[0].toNat) : s.index n = none :=
  index?_eq_none.mpr outOfRange

/-! ### Words joined of fields, as numbers -/

/-- A field joined below another adds its number to the other's, shifted by its width. -/
theorem toNat_append_eq_add {m n : Nat} (x : BitVec m) (y : BitVec n) :
    (x ++ y).toNat = x.toNat * 2 ^ n + y.toNat := by
  rw [BitVec.toNat_append, ← Nat.shiftLeft_add_eq_or_of_lt y.isLt, Nat.shiftLeft_eq]

theorem bit_toNat (b : Bool) : (bit b).toNat = b.toNat := BitVec.toNat_ofBool b

theorem overrunPolicy_bit_toNat_eq_one {o : OverrunPolicy} : o.bit.toNat = 1 ↔ o = .defer := by
  cases o <;> simp [OverrunPolicy.bit]

theorem faultPolicy_bit_toNat_eq_one {f : FaultPolicy} : f.bit.toNat = 1 ↔ f = .halt := by
  cases f <;> simp [FaultPolicy.bit]

theorem overflowPolicy_bit_toNat_eq_one {o : OverflowPolicy} : o.bit.toNat = 1 ↔ o = .reclaimOldest := by
  cases o <;> simp [OverflowPolicy.bit]

/-- PARAM1–PARAM5 replaced one after another, PARAM0 kept. -/
theorem put_params (p : Vector Word 6) (a b c d e : Word) :
    put (put (put (put (put p 1 a) 2 b) 3 c) 4 d) 5 e = #v[p[0], a, b, c, d, e] := by
  apply family_ext
  intro j
  fin_cases j <;> simp [put]

/-! ### ENTRY_READ's packing -/

/-- R184: what ENTRY_READ returns, word by word. -/
theorem entry_pack_eq (e : Entry) (p : Vector Word 6) :
    e.pack p =
      #v[p[0], e.fields.param1, e.param2, e.fields.low, e.fields.high, e.fields.hysteresis.setWidth 16] :=
  put_params ..

/-- R184: PARAM1 of an entry, as a number. -/
theorem entryFields_param1_toNat (f : EntryFields) :
    f.param1.toNat = f.settle.toNat * 256 + f.gain.toNat * 32 + f.channel.toNat := by
  simp only [EntryFields.param1, toNat_append_eq_add, BitVec.toNat_ofNat]
  omega

/-- R184: PARAM2 of an entry, as a number. -/
theorem entry_param2_toNat (e : Entry) :
    e.param2.toNat =
      e.fields.output.code.toNat * 16384 + e.fields.target.val * 1024 + e.fields.action.code.toNat * 256 +
        e.zone.code.toNat * 64 + e.fields.reduction.code.toNat * 16 + e.fields.window.toNat * 8 +
        e.fields.oversample.val := by
  have := e.fields.oversample.isLt
  simp only [Entry.param2, toNat_append_eq_add, BitVec.toNat_ofNat, BitVec.toNat_ofFin, bit_toNat]
  omega

/-- R184: PARAM1 of an entry holds channel, gain and settle, and its unused bit is 0. -/
theorem entryFields_param1_fields (f : EntryFields) :
    f.param1.toNat % 32 = f.channel.toNat ∧ f.param1.toNat / 32 % 4 = f.gain.toNat ∧
      f.param1.toNat / 256 = f.settle.toNat ∧ f.param1.toNat / 128 % 2 = 0 := by
  have := f.channel.isLt
  have := f.gain.isLt
  rw [entryFields_param1_toNat]
  omega

/-- R184: PARAM2 of an entry holds its seven fields, the zone among them, and its unused bit is 0. -/
theorem entry_param2_fields (e : Entry) :
    e.param2.toNat % 8 = e.fields.oversample.val ∧ (e.param2.toNat / 8 % 2 = 1 ↔ e.fields.window = true) ∧
      e.param2.toNat / 16 % 4 = e.fields.reduction.code.toNat ∧
      e.param2.toNat / 256 % 4 = e.fields.action.code.toNat ∧
      e.param2.toNat / 1024 % 8 = e.fields.target.val ∧
      e.param2.toNat / 16384 = e.fields.output.code.toNat ∧ e.param2.toNat / 64 % 4 = e.zone.code.toNat ∧
      e.param2.toNat / 8192 % 2 = 0 := by
  have := e.fields.oversample.isLt
  have := e.fields.window.toNat_lt
  have := e.fields.reduction.code.isLt
  have := e.zone.code.isLt
  have := e.fields.action.code.isLt
  have := e.fields.target.isLt
  rw [entry_param2_toNat, ← Bool.toNat_eq_one]
  omega

/-- R14: what ENTRY_READ returns holds the entry's fields. -/
theorem entry_pack_holds (e : Entry) (p : Vector Word 6) : HoldsEntry (e.pack p) e.fields := by
  obtain ⟨channel, gain, settle, -⟩ := entryFields_param1_fields e.fields
  obtain ⟨oversample, window, reduction, action, target, output, -⟩ := entry_param2_fields e
  have hysteresis : (e.fields.hysteresis.setWidth 16).toNat = e.fields.hysteresis.toNat :=
    BitVec.toNat_setWidth_of_le (by decide)
  rw [entry_pack_eq]
  exact ⟨⟨channel, gain, settle⟩, ⟨oversample, window, reduction, action, target, output⟩, rfl, rfl, hysteresis⟩

/-! ### SET_READ's packing -/

/-- R185: what SET_READ returns, word by word. -/
theorem scanSet_pack_eq (x : ScanSet) (p : Vector Word 6) :
    x.pack p = #v[p[0], x.desc.param1, x.desc.param2, x.desc.param3, x.overruns, x.completed] :=
  put_params ..

/-- R185: PARAM1 of a descriptor, as a number. -/
theorem descriptor_param1_toNat {d : Descriptor} (count : d.count ≤ 32) :
    d.param1.toNat = d.count * 256 + d.first.val := by
  simp only [Descriptor.param1, toNat_append_eq_add, BitVec.toNat_ofNat, BitVec.toNat_ofFin]
  omega

/-- R185: PARAM2 of a descriptor, as a number. -/
theorem descriptor_param2_toNat (d : Descriptor) :
    d.param2.toNat =
      d.passes.toNat * 256 + d.preemptible.toNat * 128 + d.overrun.bit.toNat * 64 + d.priority.val * 16 +
        d.source.code.toNat := by
  simp only [Descriptor.param2, toNat_append_eq_add, BitVec.toNat_ofNat, BitVec.toNat_ofFin, bit_toNat]
  omega

/-- R185: PARAM3 of a descriptor, as a number. -/
theorem descriptor_param3_toNat (d : Descriptor) :
    d.param3.toNat =
      d.fault.bit.toNat * 64 + d.stream.val * 16 + d.chainPresent.toNat * 8 + d.chainTarget.val := by
  simp only [Descriptor.param3, toNat_append_eq_add, BitVec.toNat_ofNat, BitVec.toNat_ofFin, bit_toNat]
  omega

/-- R185: PARAM1 of a descriptor holds the run, and its unused bits are 0. -/
theorem descriptor_param1_fields {d : Descriptor} (count : d.count ≤ 32) :
    d.param1.toNat / 256 % 64 = d.count ∧ d.param1.toNat % 128 = d.first.val ∧
      d.param1.toNat / 128 % 2 = 0 ∧ d.param1.toNat / 16384 = 0 := by
  have := d.first.isLt
  rw [descriptor_param1_toNat count]
  omega

/-- R185: PARAM2 of a descriptor holds its five fields, and its unused bit is 0. -/
theorem descriptor_param2_fields (d : Descriptor) :
    d.param2.toNat / 256 = d.passes.toNat ∧ (d.param2.toNat / 128 % 2 = 1 ↔ d.preemptible = true) ∧
      (d.param2.toNat / 64 % 2 = 1 ↔ d.overrun = .defer) ∧ d.param2.toNat / 16 % 4 = d.priority.val ∧
      d.param2.toNat % 8 = d.source.code.toNat ∧ d.param2.toNat / 8 % 2 = 0 := by
  have := d.preemptible.toNat_lt
  have := d.overrun.bit.toNat_lt
  have := d.priority.isLt
  have := d.source.code.isLt
  rw [descriptor_param2_toNat, ← Bool.toNat_eq_one, ← overrunPolicy_bit_toNat_eq_one]
  omega

/-- R185: PARAM3 of a descriptor holds its four fields, and its unused bits are 0. -/
theorem descriptor_param3_fields (d : Descriptor) :
    (d.param3.toNat / 64 % 2 = 1 ↔ d.fault = .halt) ∧ d.param3.toNat / 16 % 4 = d.stream.val ∧
      (d.param3.toNat / 8 % 2 = 1 ↔ d.chainPresent = true) ∧ d.param3.toNat % 8 = d.chainTarget.val ∧
      d.param3.toNat / 128 = 0 := by
  have := d.fault.bit.toNat_lt
  have := d.stream.isLt
  have := d.chainPresent.toNat_lt
  have := d.chainTarget.isLt
  rw [descriptor_param3_toNat, ← Bool.toNat_eq_one, ← faultPolicy_bit_toNat_eq_one]
  omega

/-- R22: what SET_READ returns holds the set's descriptor. -/
theorem scanSet_pack_holds {x : ScanSet} (count : x.desc.count ≤ 32) (p : Vector Word 6) :
    HoldsDescriptor (x.pack p) x.desc := by
  obtain ⟨run, first, -⟩ := descriptor_param1_fields count
  obtain ⟨passes, preemptible, overrun, priority, source, -⟩ := descriptor_param2_fields x.desc
  obtain ⟨fault, stream, chainPresent, chainTarget, -⟩ := descriptor_param3_fields x.desc
  rw [scanSet_pack_eq]
  exact ⟨⟨run, first⟩, ⟨passes, preemptible, overrun, priority, source⟩, fault, stream, chainPresent, chainTarget⟩

/-! ### STREAM_READ's packing -/

/-- R186: what STREAM_READ returns, word by word. -/
theorem stream_pack_eq (x : Stream) (p : Vector Word 6) :
    x.pack p = #v[p[0], wordOf x.config.quota, x.param2, x.config.flush, x.nextSeq, x.written] :=
  put_params ..

/-- R186: PARAM2 of a stream, as a number. -/
theorem stream_param2_toNat {x : Stream} (threshold : x.config.threshold ≤ 64) :
    x.param2.toNat =
      x.enabled.toNat * 32768 + x.config.threshold * 256 + x.config.timestamps.toNat * 2 +
        x.config.policy.bit.toNat := by
  simp only [Stream.param2, toNat_append_eq_add, BitVec.toNat_ofNat, bit_toNat]
  omega

/-- R186: PARAM2 of a stream holds its four fields, and its unused bits are 0. -/
theorem stream_param2_fields {x : Stream} (threshold : x.config.threshold ≤ 64) :
    x.param2.toNat / 256 % 128 = x.config.threshold ∧
      (x.param2.toNat / 2 % 2 = 1 ↔ x.config.timestamps = true) ∧
      (x.param2.toNat % 2 = 1 ↔ x.config.policy = .reclaimOldest) ∧
      (x.param2.toNat / 32768 = 1 ↔ x.enabled = true) ∧ x.param2.toNat / 4 % 64 = 0 := by
  have := x.config.timestamps.toNat_lt
  have := x.config.policy.bit.toNat_lt
  rw [stream_param2_toNat threshold, ← Bool.toNat_eq_one, ← Bool.toNat_eq_one, ← overflowPolicy_bit_toNat_eq_one]
  omega

/-- R138: what STREAM_READ returns holds the stream's configuration. -/
theorem stream_pack_holds {x : Stream} (quota : x.config.quota ≤ 128) (threshold : x.config.threshold ≤ 64)
    (p : Vector Word 6) : HoldsStream (x.pack p) x.config := by
  obtain ⟨pageReady, timestamps, policy, -⟩ := stream_param2_fields threshold
  have quotaWord : (wordOf x.config.quota).toNat = x.config.quota :=
    (BitVec.toNat_ofNat ..).trans (Nat.mod_eq_of_lt (by omega))
  rw [stream_pack_eq]
  exact ⟨quotaWord, pageReady, timestamps, policy, rfl⟩

/-! ### The reading commands -/

theorem entryReadReply_badIndex (outOfRange : 128 ≤ s.host.params[0].toNat) :
    entryReadReply s = .refuse .badIndex := by
  simp only [entryReadReply, index_of_outOfRange outOfRange]

theorem setReadReply_badIndex (outOfRange : 8 ≤ s.host.params[0].toNat) :
    setReadReply s = .refuse .badIndex := by
  simp only [setReadReply, index_of_outOfRange outOfRange]

theorem streamReadReply_badIndex (outOfRange : 4 ≤ s.host.params[0].toNat) :
    streamReadReply s = .refuse .badIndex := by
  simp only [streamReadReply, index_of_outOfRange outOfRange]

/-- R14: the named entry, packed, over the parameter registers. -/
theorem entryReadReply_named {i : Fin 128} (named : Named s i) :
    entryReadReply s = .accept (returning (s.entries[i].pack s.host.params) s) := by
  simp only [entryReadReply, index_of_named named, State.withParams, returning]

/-- R22: the named set, packed, over the parameter registers. -/
theorem setReadReply_named {k : Fin 8} (named : Named s k) :
    setReadReply s = .accept (returning (s.sets[k].pack s.host.params) s) := by
  simp only [setReadReply, index_of_named named, State.withParams, returning]

/-- R138: the named stream, packed, over the parameter registers. -/
theorem streamReadReply_named {k : Fin 4} (named : Named s k) :
    streamReadReply s = .accept (returning (s.streams.streams[k].pack s.host.params) s) := by
  simp only [streamReadReply, index_of_named named, State.withParams, returning]

/-! ### SET_WRITE's parameters -/

/-- R18: a code names the trigger source whose code it is. -/
theorem triggerSource_ofCode?_eq_some {c : BitVec 3} {x : TriggerSource} :
    TriggerSource.ofCode? c = some x ↔ c = x.code := by
  cases x with
  | none => revert c; decide
  | timer t => revert t c; decide
  | ext line => revert line c; decide

theorem overrunPolicy_ofBit_eq_iff {b : Bool} {o : OverrunPolicy} :
    OverrunPolicy.ofBit b = o ↔ (b = true ↔ o = .defer) := by
  revert b; cases o <;> decide

theorem faultPolicy_ofBit_eq_iff {b : Bool} {f : FaultPolicy} :
    FaultPolicy.ofBit b = f ↔ (b = true ↔ f = .halt) := by
  revert b; cases f <;> decide

/-- A field of a word, read as a number, is the number that stands at its place. -/
theorem extractLsb'_toNat_eq {w : Word} {start len : Nat} :
    (w.extractLsb' start len).toNat = w.toNat / 2 ^ start % 2 ^ len := by
  rw [BitVec.extractLsb'_toNat, Nat.shiftRight_eq_div_pow]

/-- R185: SET_WRITE unpacks `d` when its count is within range and each part of the parameter words is the field of `d`
that has its place. -/
theorem unpackDescriptor?_eq_some_fields {p : Vector Word 6} {d : Descriptor} :
    unpackDescriptor? p = some d ↔
      (1 ≤ d.count ∧ d.count ≤ 32) ∧
      ((p[1].extractLsb' 8 6).toNat = d.count ∧ (p[1].extractLsb' 0 7).toFin = d.first) ∧
      (p[2].extractLsb' 8 8 = d.passes ∧ p[2].getLsbD 7 = d.preemptible ∧
        OverrunPolicy.ofBit (p[2].getLsbD 6) = d.overrun ∧ (p[2].extractLsb' 4 2).toFin = d.priority ∧
        TriggerSource.ofCode? (p[2].extractLsb' 0 3) = some d.source) ∧
      FaultPolicy.ofBit (p[3].getLsbD 6) = d.fault ∧ (p[3].extractLsb' 4 2).toFin = d.stream ∧
      p[3].getLsbD 3 = d.chainPresent ∧ (p[3].extractLsb' 0 3).toFin = d.chainTarget := by
  obtain ⟨⟩ := d
  unfold unpackDescriptor?
  split
  · next noSource => simp [noSource]
  · next source hsource =>
    simp only [hsource]
    split
    · next inRange =>
      simp only [Option.some.injEq, Descriptor.mk.injEq]
      constructor
      · rintro ⟨rfl, rfl, rfl, rfl, rfl, rfl, rfl, rfl, rfl, rfl, rfl⟩
        exact ⟨inRange, ⟨rfl, rfl⟩, ⟨rfl, rfl, rfl, rfl, rfl⟩, rfl, rfl, rfl, rfl⟩
      · tauto
    · next outOfRange =>
      simp only [reduceCtorEq, false_iff]
      rintro ⟨range, ⟨rfl, -⟩, -⟩
      exact outOfRange range

/-- R21, R185: what SET_WRITE unpacks is what the parameter words hold, with an entry count within range. -/
theorem unpackDescriptor?_eq_some {p : Vector Word 6} {d : Descriptor} :
    unpackDescriptor? p = some d ↔ HoldsDescriptor p d ∧ 1 ≤ d.count ∧ d.count ≤ 32 := by
  have passes : p[2].extractLsb' 8 8 = d.passes ↔ p[2].toNat / 256 = d.passes.toNat := by
    rw [extractLsb'_eq_iff, div_mod_of_top _ rfl]; norm_num
  rw [unpackDescriptor?_eq_some_fields, and_comm, triggerSource_ofCode?_eq_some, overrunPolicy_ofBit_eq_iff,
    faultPolicy_ofBit_eq_iff, passes]
  simp only [HoldsDescriptor, Fin.ext_iff, BitVec.val_toFin, extractLsb'_eq_iff, extractLsb'_toNat_eq, getLsbD_eq_iff,
    iff_true, pow_zero, Nat.div_one, Nat.reducePow]

/-- R21: SET_WRITE unpacks nothing from parameters that hold no descriptor in range. -/
theorem unpackDescriptor?_eq_none_of_forall_not {p : Vector Word 6}
    (fails : ∀ d, HoldsDescriptor p d → ¬ (1 ≤ d.count ∧ d.count ≤ 32)) :
    unpackDescriptor? p = none := by
  rw [Option.eq_none_iff_forall_ne_some]
  intro d unpacked
  obtain ⟨holds, inRange⟩ := unpackDescriptor?_eq_some.mp unpacked
  exact fails d holds inRange

/-! ### SET_WRITE, SET_ENABLE and SET_CLEAR -/

theorem setWriteReply_badIndex (outOfRange : 8 ≤ s.host.params[0].toNat) :
    setWriteReply s = .refuse .badIndex := by
  simp only [setWriteReply, index_of_outOfRange outOfRange]

/-- R21: a set that is not DISABLED. -/
theorem setWriteReply_badState {k : Fin 8} (named : Named s k) (notDisabled : s.sets[k].state ≠ .disabled) :
    setWriteReply s = .refuse .badState := by
  simp only [setWriteReply, index_of_named named, if_pos notDisabled]

/-- R21: a DISABLED set, and parameters with a field out of range. -/
theorem setWriteReply_of_unpack_none {k : Fin 8} (named : Named s k) (disabled : s.sets[k].state = .disabled)
    (unpacked : unpackDescriptor? s.host.params = none) : setWriteReply s = .refuse .badConfig := by
  simp only [setWriteReply, index_of_named named, if_neg (not_not.mpr disabled), unpacked]

/-- R21: a DISABLED set, and parameters that hold a descriptor in range. -/
theorem setWriteReply_of_unpack_some {k : Fin 8} {d : Descriptor} (named : Named s k)
    (disabled : s.sets[k].state = .disabled) (unpacked : unpackDescriptor? s.host.params = some d) :
    setWriteReply s = .accept (withSet k { s.sets[k] with desc := d } s) := by
  simp only [setWriteReply, index_of_named named, if_neg (not_not.mpr disabled), unpacked]
  rfl

theorem setEnableReply_badIndex (outOfRange : 8 ≤ s.host.params[0].toNat) :
    setEnableReply s = .refuse .badIndex := by
  simp only [setEnableReply, index_of_outOfRange outOfRange]

/-- R23: a set that is not DISABLED. -/
theorem setEnableReply_badState {k : Fin 8} (named : Named s k) (notDisabled : s.sets[k].state ≠ .disabled) :
    setEnableReply s = .refuse .badState := by
  simp only [setEnableReply, index_of_named named, if_pos notDisabled]

/-- R23: a DISABLED set is armed, with a fresh run context, when its run and its stream allow it. -/
theorem setEnableReply_disabled {k : Fin 8} (named : Named s k) (disabled : s.sets[k].state = .disabled) :
    setEnableReply s =
      if s.canEnable k then .accept (withSet k { ScanSet.fresh s.sets[k].desc with state := .armed } s)
      else .refuse .badConfig := by
  simp only [setEnableReply, index_of_named named, if_neg (not_not.mpr disabled)]
  rfl

/-- R23: what SET_ENABLE asks of the run and the stream. -/
theorem canEnable_iff {k : Fin 8} :
    s.canEnable k = true ↔
      s.sets[k].desc.first.val + s.sets[k].desc.count ≤ 128 ∧
        s.streams.streams[s.sets[k].desc.stream].enabled = true := by
  simp only [State.canEnable, Bool.and_eq_true, decide_eq_true_eq]

theorem setClearReply_badIndex (outOfRange : 8 ≤ s.host.params[0].toNat) :
    setClearReply s = .refuse .badIndex := by
  simp only [setClearReply, index_of_outOfRange outOfRange]

/-- R40: a set that is not HALTED. -/
theorem setClearReply_badState {k : Fin 8} (named : Named s k) (notHalted : s.sets[k].state ≠ .halted) :
    setClearReply s = .refuse .badState := by
  simp only [setClearReply, index_of_named named, if_neg notHalted]

/-- R40: a HALTED set is armed and keeps its run context. -/
theorem setClearReply_halted {k : Fin 8} (named : Named s k) (halted : s.sets[k].state = .halted) :
    setClearReply s = .accept (withSet k { s.sets[k] with state := .armed } s) := by
  simp only [setClearReply, index_of_named named, if_pos halted]
  rfl

end

/-! ### The commands' ends -/

/-- Settles O12: each command returns the packing of what PARAM0 names, whose fields are read off word by word. -/
theorem readCommandsReturnData : Obligations.ReadCommandsReturnData := by
  intro s taking
  refine ⟨⟨fun outOfRange => ?_, fun i named => ⟨s.entries[i].pack s.host.params, ?_⟩⟩,
    ⟨fun outOfRange => ?_, fun k named count => ⟨s.sets[k].pack s.host.params, ?_⟩⟩,
    fun outOfRange => ?_, fun k named quota threshold => ⟨s.streams.streams[k].pack s.host.params, ?_⟩⟩
  · exact exec_refused rfl taking (entryReadReply_badIndex outOfRange)
  · have holds := entry_pack_holds s.entries[i] s.host.params
    obtain ⟨-, -, -, unused1⟩ := entryFields_param1_fields s.entries[i].fields
    obtain ⟨-, -, -, -, -, -, zone, unused2⟩ := entry_param2_fields s.entries[i]
    refine ⟨exec_accepted rfl taking (entryReadReply_named named), ?_⟩
    rw [entry_pack_eq] at holds ⊢
    exact ⟨rfl, holds, zone, unused1, unused2⟩
  · exact exec_refused rfl taking (setReadReply_badIndex outOfRange)
  · have holds := scanSet_pack_holds count s.host.params
    obtain ⟨-, -, unused1, top1⟩ := descriptor_param1_fields count
    obtain ⟨-, -, -, -, -, unused2⟩ := descriptor_param2_fields s.sets[k].desc
    obtain ⟨-, -, -, -, unused3⟩ := descriptor_param3_fields s.sets[k].desc
    refine ⟨exec_accepted rfl taking (setReadReply_named named), ?_⟩
    rw [scanSet_pack_eq] at holds ⊢
    exact ⟨rfl, holds, rfl, rfl, unused1, top1, unused2, unused3⟩
  · exact exec_refused rfl taking (streamReadReply_badIndex outOfRange)
  · have holds := stream_pack_holds quota threshold s.host.params
    obtain ⟨-, -, -, enabled, unused2⟩ := stream_param2_fields threshold
    refine ⟨exec_accepted rfl taking (streamReadReply_named named), ?_⟩
    rw [stream_pack_eq] at holds ⊢
    exact ⟨rfl, holds, enabled, rfl, rfl, unused2⟩

/-- Settles O13: the command ends as its own checks answer, R21's in their order and then its effect. -/
theorem setWriteOutcome : Obligations.SetWriteOutcome := by
  intro s taking
  refine ⟨fun outOfRange => ?_, fun k named => ⟨fun notDisabled => ?_, fun disabled =>
    ⟨fun d holds inRange => ?_, fun fails => ?_⟩⟩⟩
  · exact exec_refused rfl taking (setWriteReply_badIndex outOfRange)
  · exact exec_refused rfl taking (setWriteReply_badState named notDisabled)
  · have unpacked := unpackDescriptor?_eq_some.mpr ⟨holds, inRange⟩
    exact exec_accepted rfl taking (setWriteReply_of_unpack_some named disabled unpacked)
  · have unpacked := unpackDescriptor?_eq_none_of_forall_not fails
    exact exec_refused rfl taking (setWriteReply_of_unpack_none named disabled unpacked)

/-- Settles O14: the two commands end as their own checks answer, R23's in their order and R40's. -/
theorem setEnableAndClear : Obligations.SetEnableAndClear := by
  intro s taking
  refine ⟨fun outOfRange => ⟨?_, ?_⟩, fun k named => ⟨fun notDisabled => ?_, fun disabled misfit => ?_,
    fun disabled fits enabled => ?_, fun notHalted => ?_, fun halted => ?_⟩⟩
  · exact exec_refused rfl taking (setEnableReply_badIndex outOfRange)
  · exact exec_refused rfl taking (setClearReply_badIndex outOfRange)
  · exact exec_refused rfl taking (setEnableReply_badState named notDisabled)
  · have cannot : ¬ s.canEnable k = true := by
      rw [canEnable_iff, not_and_or, Bool.not_eq_true, not_le]
      exact misfit
    exact exec_refused rfl taking ((setEnableReply_disabled named disabled).trans (if_neg cannot))
  · have can := canEnable_iff.mpr ⟨fits, enabled⟩
    exact exec_accepted rfl taking ((setEnableReply_disabled named disabled).trans (if_pos can))
  · exact exec_refused rfl taking (setClearReply_badState named notHalted)
  · exact exec_accepted rfl taking (setClearReply_halted named halted)

end Sys2Proof.Proofs
end

