-- ==== Sys2Proof/Proofs/Reduction.lean ====
section
/-! PROOFS. The accumulator of an execution summarizes the samples folded into it (R85), and so its reductions are
those of the list of samples (R86). -/

namespace Sys2Proof.Proofs

open Sys2Proof.Machine Sys2Proof.Statements

/-! ### The lowest and the highest of a list with one more value at its end -/

theorem min?_append_singleton (values : List Int) (v : Int) :
    (values ++ [v]).min? = some (values.min?.elim v (min · v)) := by
  cases values with
  | nil => rfl
  | cons first others => rw [List.cons_append, List.min?_cons', List.min?_cons', List.foldl_append]; rfl

theorem max?_append_singleton (values : List Int) (v : Int) :
    (values ++ [v]).max? = some (values.max?.elim v (max · v)) := by
  cases values with
  | nil => rfl
  | cons first others => rw [List.cons_append, List.max?_cons', List.max?_cons', List.foldl_append]; rfl

/-! ### The accumulator after one more sample -/

theorem folded_acc_minimum (x : Execution) (overRange : Bool) (value : Word) :
    (folded x overRange value).acc.minimum = some (x.acc.minimum.elim value.toInt (min · value.toInt)) := by
  unfold folded
  cases x.acc.minimum <;> rfl

theorem folded_acc_maximum (x : Execution) (overRange : Bool) (value : Word) :
    (folded x overRange value).acc.maximum = some (x.acc.maximum.elim value.toInt (max · value.toInt)) := by
  unfold folded
  cases x.acc.maximum <;> rfl

/-! ### The accumulator as a summary of the samples taken -/

/-- R85: `x` has taken exactly `values`; with none taken the accumulator is empty. -/
structure Summarizes (x : Execution) (values : List Int) : Prop where
  samples : x.samples = values.length
  sum : x.acc.sum = values.sum
  minimum : x.acc.minimum = values.min?
  maximum : x.acc.maximum = values.max?

theorem summarizes_nil {x : Execution} (samples : x.samples = 0)
    (acc : x.acc = { sum := 0, minimum := none, maximum := none }) : Summarizes x [] := by
  constructor <;> simp [samples, acc]

theorem summarizes_folded {x : Execution} {values : List Int} (h : Summarizes x values) (overRange : Bool)
    (value : Word) : Summarizes (folded x overRange value) (values ++ [value.toInt]) where
  samples := by simp [folded, h.samples]
  sum := by simp [folded, h.sum]
  minimum := by rw [folded_acc_minimum, min?_append_singleton, h.minimum]
  maximum := by rw [folded_acc_maximum, max?_append_singleton, h.maximum]

theorem summarizes_foldl_folded {x : Execution} {values : List Int} (h : Summarizes x values)
    (arrivals : List (Bool × Word)) :
    Summarizes (arrivals.foldl (fun z p => folded z p.1 p.2) x)
      (values ++ arrivals.map (fun p => p.2.toInt)) := by
  induction arrivals generalizing x values with
  | nil => simpa using h
  | cons p rest ih => simpa using ih (summarizes_folded h p.1 p.2)

/-! ### The reductions of a summary -/

section

variable {x : Execution} {values : List Int} {lowest highest : Int}

/-- R86: MEAN is the floor of the exact quotient. -/
theorem reduceSamples_mean (h : Summarizes x values) :
    reduceSamples .mean x.acc x.samples = Int.floor ((values.sum : ℚ) / values.length) := by
  rw [Rat.floor_intCast_div_natCast, ← h.sum, ← h.samples]
  rfl

theorem reduceSamples_min (h : Summarizes x values) (least : values.min? = some lowest) :
    reduceSamples .min x.acc x.samples = lowest := by
  simp [reduceSamples, h.minimum, least]

theorem reduceSamples_max (h : Summarizes x values) (greatest : values.max? = some highest) :
    reduceSamples .max x.acc x.samples = highest := by
  simp [reduceSamples, h.maximum, greatest]

theorem reduceSamples_span (h : Summarizes x values) (least : values.min? = some lowest)
    (greatest : values.max? = some highest) :
    reduceSamples .span x.acc x.samples = if highest - lowest > 32767 then 32767 else highest - lowest := by
  simp only [reduceSamples, h.minimum, h.maximum, least, greatest, Option.getD_some]
  split <;> omega

end

/-- R86: rounded toward minus infinity, the mean of a nonempty list stays between any bounds of the list. -/
theorem floor_mean_mem_bounds {values : List Int} {low high : Int} (nonempty : values ≠ [])
    (bounds : ∀ v ∈ values, low ≤ v ∧ v ≤ high) :
    low ≤ Int.floor ((values.sum : ℚ) / values.length) ∧
      Int.floor ((values.sum : ℚ) / values.length) ≤ high := by
  have positive : (0 : Int) < values.length := by exact_mod_cast List.length_pos_of_ne_nil nonempty
  have atLeast : values.length • low ≤ values.sum := values.card_nsmul_le_sum low fun v hv => (bounds v hv).1
  have atMost : values.sum ≤ values.length • high := values.sum_le_card_nsmul high fun v hv => (bounds v hv).2
  rw [nsmul_eq_mul, mul_comm] at atLeast atMost
  rw [Rat.floor_intCast_div_natCast]
  exact ⟨(Int.le_ediv_iff_mul_le positive).mpr atLeast, Int.ediv_le_of_le_mul positive atMost⟩

/-- Settles O39: folding keeps the accumulator a summary of the samples so far, from the empty one on, and the
reductions are read off the summary. -/
theorem reductionFollowsTable : Obligations.ReductionFollowsTable := by
  rintro x first others samples acc y values hvalues rfl
  have summary := summarizes_foldl_folded (summarizes_folded (summarizes_nil samples acc) false first) others
  rw [List.nil_append, List.singleton_append, ← hvalues] at summary
  have nonempty : values ≠ [] := hvalues ▸ List.cons_ne_nil _ _
  obtain ⟨lowest, least⟩ := Option.isSome_iff_exists.mp (List.isSome_min?_of_ne_nil nonempty)
  obtain ⟨highest, greatest⟩ := Option.isSome_iff_exists.mp (List.isSome_max?_of_ne_nil nonempty)
  obtain ⟨lowest_mem, lowest_le⟩ := List.min?_eq_some_iff.mp least
  obtain ⟨highest_mem, le_highest⟩ := List.max?_eq_some_iff.mp greatest
  have bounds : ∀ v ∈ values, lowest ≤ v ∧ v ≤ highest := fun v hv => ⟨lowest_le v hv, le_highest v hv⟩
  have mean := reduceSamples_mean summary
  obtain ⟨lowest_le_mean, mean_le_highest⟩ := mean ▸ floor_mean_mem_bounds nonempty bounds
  exact ⟨lowest, highest, lowest_mem, highest_mem, bounds, summary.samples, mean, lowest_le_mean,
    mean_le_highest, reduceSamples_min summary least, reduceSamples_max summary greatest,
    reduceSamples_span summary least greatest⟩

end Sys2Proof.Proofs
end

