-- ==== Sys2Proof/Proofs/Zones.lean ====
section
/-! PROOFS. The zone an evaluation of the Limit Monitor finds: one row of R122's table for each zone read. -/

namespace Sys2Proof.Proofs

open Sys2Proof.Machine Sys2Proof.Statements

section

variable (v low high hysteresis : Int)

/-- R122: the rows of UNKNOWN and INSIDE place a value by the thresholds alone. -/
theorem nextZone_without_hysteresis {z : Zone} (read : z = .unknown ∨ z = .inside) :
    nextZone z v low high hysteresis = if v > high then .above else if v < low then .below else .inside := by
  obtain rfl | rfl := read <;> rfl

/-- R122: the row of ABOVE, which is left below the high threshold less the hysteresis. -/
theorem nextZone_above :
    nextZone .above v low high hysteresis =
      if v < low then .below else if v < high - hysteresis then .inside else .above := rfl

/-- R122: the row of BELOW, which is left above the low threshold and the hysteresis. -/
theorem nextZone_below :
    nextZone .below v low high hysteresis =
      if v > high then .above else if v > low + hysteresis then .inside else .below := rfl

/-- R122: no row of the table holds UNKNOWN as the new zone. -/
theorem nextZone_ne_unknown (z : Zone) : nextZone z v low high hysteresis ≠ .unknown := by
  cases z with
  | unknown | inside => rw [nextZone_without_hysteresis _ _ _ _ (by decide)]; split_ifs <;> decide
  | above => rw [nextZone_above]; split_ifs <;> decide
  | below => rw [nextZone_below]; split_ifs <;> decide

end

/-- Settles O40, row by row of R122's table. The order of the tests within a row does not matter, because the margins
lie between the thresholds: L ≤ L + h ≤ H − h ≤ H. -/
theorem zoneFollowsTable : Obligations.ZoneFollowsTable := by
  rintro v low high hysteresis L H h - - hysteresis_eq thresholds margins
  have hysteresis_nonneg : 0 ≤ h := hysteresis_eq ▸ Int.natCast_nonneg _
  have low_le_margin : L ≤ H - h := by omega
  have margin_le_high : L + h ≤ H := by omega
  refine ⟨fun z read => ?withoutHysteresis, ?withHysteresis⟩
  case withoutHysteresis =>
    rw [nextZone_without_hysteresis v L H h read]
    refine ⟨fun above => if_pos above, fun below => ?_, fun ⟨atLeast, atMost⟩ => ?_⟩
    · rw [if_neg (by omega), if_pos below]
    · rw [if_neg atMost.not_gt, if_neg atLeast.not_gt]
  case withHysteresis =>
    rw [nextZone_above, nextZone_below]
    refine ⟨fun below => if_pos below, fun ⟨atLeast, inside⟩ => ?_, fun stays => ?_, fun above => if_pos above,
      fun ⟨inside, atMost⟩ => ?_, fun stays => ?_, nextZone_ne_unknown v L H h⟩
    · rw [if_neg atLeast.not_gt, if_pos inside]
    · rw [if_neg (low_le_margin.trans stays).not_gt, if_neg stays.not_gt]
    · rw [if_neg atMost.not_gt, if_pos inside]
    · rw [if_neg (stays.trans margin_le_high).not_gt, if_neg stays.not_gt]

end Sys2Proof.Proofs
end

