-- ==== Sys2Proof/Proofs/StreamCommands.lean ====
section
/-! PROOFS. STREAM_WRITE, STREAM_ENABLE and STREAM_DISABLE: the configuration PARAM1–PARAM3 hold, the sets that name a
stream, and each command's ends. -/

namespace Sys2Proof.Proofs

open Sys2Proof.Machine Sys2Proof.Statements

/-! ### STREAM_WRITE's parameters -/

/-- R137: the quota and the page-ready threshold STREAM_WRITE accepts. -/
def StreamConfigInRange (c : StreamConfig) : Prop :=
  1 ≤ c.quota ∧ c.quota ≤ 128 ∧ 1 ≤ c.threshold ∧ c.threshold ≤ 64

theorem overflowPolicy_ofBit_eq_iff {b : Bool} {o : OverflowPolicy} :
    OverflowPolicy.ofBit b = o ↔ (b = true ↔ o = .reclaimOldest) := by
  revert b; cases o <;> decide

/-- R186: STREAM_WRITE unpacks `c` when `c` is within range and each part of the parameter words is the field of `c`
that has its place. -/
theorem unpackStream?_eq_some_fields {p : Vector Word 6} {c : StreamConfig} :
    unpackStream? p = some c ↔
      StreamConfigInRange c ∧ p[1].toNat = c.quota ∧ (p[2].extractLsb' 8 7).toNat = c.threshold ∧
        p[2].getLsbD 1 = c.timestamps ∧ OverflowPolicy.ofBit (p[2].getLsbD 0) = c.policy ∧ p[3] = c.flush := by
  obtain ⟨⟩ := c
  simp only [unpackStream?, StreamConfigInRange]
  split
  · next inRange =>
    simp only [Option.some.injEq, StreamConfig.mk.injEq]
    constructor
    · rintro ⟨rfl, rfl, rfl, rfl, rfl⟩
      exact ⟨inRange, rfl, rfl, rfl, rfl, rfl⟩
    · tauto
  · next outOfRange =>
    simp only [reduceCtorEq, false_iff]
    rintro ⟨range, rfl, rfl, -⟩
    exact outOfRange range

/-- R137, R186: what STREAM_WRITE unpacks is what the parameter words hold, with quota and threshold within range. -/
theorem unpackStream?_eq_some {p : Vector Word 6} {c : StreamConfig} :
    unpackStream? p = some c ↔ HoldsStream p c ∧ StreamConfigInRange c := by
  rw [unpackStream?_eq_some_fields, and_comm, overflowPolicy_ofBit_eq_iff, extractLsb'_toNat_eq]
  simp only [HoldsStream, getLsbD_eq_iff, iff_true, pow_zero, pow_one, Nat.div_one, Nat.reducePow]

/-- R137: STREAM_WRITE unpacks nothing from parameters that hold no configuration in range. -/
theorem unpackStream?_eq_none_of_forall_not {p : Vector Word 6}
    (fails : ∀ c, HoldsStream p c → ¬ StreamConfigInRange c) : unpackStream? p = none := by
  rw [Option.eq_none_iff_forall_ne_some]
  intro c unpacked
  obtain ⟨holds, inRange⟩ := unpackStream?_eq_some.mp unpacked
  exact fails c holds inRange

section

variable {s : State} {k : Fin 4}

/-! ### STREAM_WRITE -/

theorem streamWriteReply_badIndex (outOfRange : 4 ≤ s.host.params[0].toNat) :
    streamWriteReply s = .refuse .badIndex := by
  simp only [streamWriteReply, index_of_outOfRange outOfRange]

/-- R137: an enabled stream. -/
theorem streamWriteReply_badState (named : Named s k) (enabled : s.streams.streams[k].enabled = true) :
    streamWriteReply s = .refuse .badState := by
  simp only [streamWriteReply, index_of_named named, if_pos enabled]

/-- R137: a disabled stream, and parameters with a field out of range. -/
theorem streamWriteReply_of_unpack_none (named : Named s k) (disabled : s.streams.streams[k].enabled = false)
    (unpacked : unpackStream? s.host.params = none) : streamWriteReply s = .refuse .badConfig := by
  simp only [streamWriteReply, index_of_named named, if_neg (ne_true_of_eq_false disabled), unpacked]

/-- R137: a disabled stream, and parameters that hold a configuration in range. -/
theorem streamWriteReply_of_unpack_some {c : StreamConfig} (named : Named s k)
    (disabled : s.streams.streams[k].enabled = false) (unpacked : unpackStream? s.host.params = some c) :
    streamWriteReply s = .accept (withStream k { s.streams.streams[k] with config := c } s) := by
  simp only [streamWriteReply, index_of_named named, if_neg (ne_true_of_eq_false disabled), unpacked]
  rfl

/-! ### STREAM_ENABLE -/

theorem streamEnableReply_badIndex (outOfRange : 4 ≤ s.host.params[0].toNat) :
    streamEnableReply s = .refuse .badIndex := by
  simp only [streamEnableReply, index_of_outOfRange outOfRange]

/-- R139: an enabled stream. -/
theorem streamEnableReply_badState (named : Named s k) (enabled : s.streams.streams[k].enabled = true) :
    streamEnableReply s = .refuse .badState := by
  simp only [streamEnableReply, index_of_named named, if_pos enabled]

/-- R139: a disabled stream is enabled, its counts started at 0, when its threshold is within its quota. -/
theorem streamEnableReply_disabled (named : Named s k) (disabled : s.streams.streams[k].enabled = false) :
    streamEnableReply s =
      if s.streams.streams[k].config.threshold ≤ s.streams.streams[k].config.quota then
        .accept
          (withStream k { s.streams.streams[k] with enabled := true, nextSeq := 0, loss := 0, written := 0 } s)
      else .refuse .badConfig := by
  simp only [streamEnableReply, index_of_named named, if_neg (ne_true_of_eq_false disabled)]
  rfl

/-! ### STREAM_DISABLE -/

/-- R140: a set names the stream when it is not DISABLED and its descriptor has the stream's number. -/
theorem streamNamed_iff :
    s.streamNamed k = true ↔ ∃ j : Fin 8, s.sets[j].state ≠ .disabled ∧ s.sets[j].desc.stream = k := by
  simp [State.streamNamed, Vector.any_eq_true, Fin.exists_iff]

/-- R140: the stream after it is disabled, and its pages at the pool tail: the full queue oldest first, the filling
page and the host page. -/
theorem streamManager_disable_eq (m : StreamManager) (k : Fin 4) :
    m.disable k =
      { m with
        pool :=
          m.pool ++ m.streams[k].full.map ClosedPage.page ++
            (m.streams[k].filling.map FillingPage.page).toList ++ (m.streams[k].host.map ClosedPage.page).toList
        streams :=
          put m.streams k
            { m.streams[k] with
              enabled := false, filling := none, full := [], host := none, readPointer := 0, loss := 0 } } := by
  simp only [StreamManager.disable, Stream.pages, List.append_assoc]

theorem streamDisableReply_badIndex (outOfRange : 4 ≤ s.host.params[0].toNat) :
    streamDisableReply s = .refuse .badIndex := by
  simp only [streamDisableReply, index_of_outOfRange outOfRange]

/-- R140: a disabled stream. -/
theorem streamDisableReply_badState (named : Named s k) (disabled : s.streams.streams[k].enabled = false) :
    streamDisableReply s = .refuse .badState := by
  simp only [streamDisableReply, index_of_named named, disabled, Bool.not_false, if_true]

/-- R140: an enabled stream is disabled when no set in a state other than DISABLED names it. -/
theorem streamDisableReply_enabled (named : Named s k) (enabled : s.streams.streams[k].enabled = true) :
    streamDisableReply s =
      if s.streamNamed k then .refuse .inUse else .accept { s with streams := s.streams.disable k } := by
  simp only [streamDisableReply, index_of_named named, enabled, Bool.not_true, Bool.false_eq_true, if_false]

end

/-! ### The commands' ends -/

/-- Settles O41: the three commands end as their own checks answer, R137's, R139's and R140's in their order, and then
their effects. -/
theorem streamWriteEnableDisable : Obligations.StreamWriteEnableDisable := by
  intro s taking
  refine ⟨fun outOfRange => ⟨?_, ?_, ?_⟩, ?named⟩
  · exact exec_refused rfl taking (streamWriteReply_badIndex outOfRange)
  · exact exec_refused rfl taking (streamEnableReply_badIndex outOfRange)
  · exact exec_refused rfl taking (streamDisableReply_badIndex outOfRange)
  case named =>
    rintro k x named rfl
    refine ⟨fun enabled => ⟨?_, ?_⟩, fun disabled => ⟨?_,
      fun c holds quotaLow quotaHigh thresholdLow thresholdHigh => ?_, fun fails => ?_, fun fits => ?_,
      fun above => ?_⟩, fun enabled used => ?_, fun enabled unused => ?_⟩
    · exact exec_refused rfl taking (streamWriteReply_badState named enabled)
    · exact exec_refused rfl taking (streamEnableReply_badState named enabled)
    · exact exec_refused rfl taking (streamDisableReply_badState named disabled)
    · have unpacked := unpackStream?_eq_some.mpr ⟨holds, quotaLow, quotaHigh, thresholdLow, thresholdHigh⟩
      exact exec_accepted rfl taking (streamWriteReply_of_unpack_some named disabled unpacked)
    · have unpacked := unpackStream?_eq_none_of_forall_not fails
      exact exec_refused rfl taking (streamWriteReply_of_unpack_none named disabled unpacked)
    · exact exec_accepted rfl taking ((streamEnableReply_disabled named disabled).trans (if_pos fits))
    · exact exec_refused rfl taking ((streamEnableReply_disabled named disabled).trans (if_neg above.not_ge))
    · have inUse := streamNamed_iff.mpr used
      exact exec_refused rfl taking ((streamDisableReply_enabled named enabled).trans (if_pos inUse))
    · have free : ¬ s.streamNamed k = true := by
        intro inUse
        obtain ⟨j, notDisabled, names⟩ := streamNamed_iff.mp inUse
        exact unused j notDisabled names
      rw [← streamManager_disable_eq]
      exact exec_accepted rfl taking ((streamDisableReply_enabled named enabled).trans (if_neg free))

end Sys2Proof.Proofs
end

