-- ==== Sys2Proof/Proofs/EventQueue.lean ====
section
/-! PROOFS. The Event Queue: the three outcomes of a posting, and EVENT_POP's ends. -/

namespace Sys2Proof.Proofs

open Sys2Proof.Machine Sys2Proof.Statements

section

variable {s : State}

/-! ### The outcomes of a posting -/

section

variable {e : EventQueue} {b : EventBody} (now : Time)

/-- R160: EVENTS_LOST, which has no enable, and a kind whose enable is set are not masked. -/
theorem eventQueue_not_masked (kept : b.kind = 14 ∨ e.mask.getLsbD b.kind = true) : e.masked b = false := by
  refine Bool.eq_false_iff.mpr fun masked => ?_
  obtain ⟨hasEnable, clear⟩ := (e.masked_iff b).mp masked
  rcases kept with lostKind | enabled
  · omega
  · exact absurd enabled (ne_true_of_eq_false clear)

/-- R161, outcome 1. -/
theorem eventQueue_post_of_masked (masked : e.masked b = true) : e.post now b = e := by
  rcases e.post_cases now b with ⟨-, outcome⟩ | ⟨unmasked, -⟩ | ⟨unmasked, -⟩
  · exact outcome
  all_goals exact absurd masked (ne_true_of_eq_false unmasked)

/-- R161, outcome 2. -/
theorem eventQueue_post_of_room (unmasked : e.masked b = false) (room : e.records.length < 32) :
    e.post now b = { e with records := e.records ++ [{ body := b, time := now }] } := by
  rcases e.post_cases now b with ⟨masked, -⟩ | ⟨-, -, outcome⟩ | ⟨-, full, -⟩
  · exact absurd masked (ne_true_of_eq_false unmasked)
  · exact outcome
  · exact absurd room full.not_gt

/-- R161, outcome 3. -/
theorem eventQueue_post_of_full (unmasked : e.masked b = false) (full : 32 ≤ e.records.length) :
    e.post now b = { e with lost := satAdd e.lost 1 } := by
  rcases e.post_cases now b with ⟨masked, -⟩ | ⟨-, room, -⟩ | ⟨-, -, outcome⟩
  · exact absurd masked (ne_true_of_eq_false unmasked)
  · exact absurd room full.not_gt
  · exact outcome

end

/-- What a posting makes of the Event Queue, it makes of the state. -/
theorem post_of_eventQueue_post {b : EventBody} {e : EventQueue} (outcome : s.events.post s.triggers.time b = e) :
    post b s = { s with events := e } := by
  rw [post, outcome]

/-! ### EVENT_POP -/

/-- R163: the queue after its head is removed, in one form for a zero and a nonzero lost-event count. -/
theorem eventQueue_pop_cons {q : EventQueue} {e : EventRecord} {rest : List EventRecord} (now : Time)
    (records : q.records = e :: rest) :
    q.pop now =
      { q with
        lost := 0
        records := if q.lost = 0 then rest else rest ++ [{ body := .eventsLost q.lost, time := now }] } := by
  unfold EventQueue.pop
  rw [records, List.tail_cons]
  by_cases noneLost : q.lost = 0
  · rw [if_pos noneLost, if_pos noneLost, ← noneLost]
  · rw [if_neg noneLost, if_neg noneLost]

theorem eventPopReply_of_empty (empty : s.events.records = []) : eventPopReply s = .refuse .noEvent :=
  if_pos empty

theorem eventPopReply_of_cons {e : EventRecord} {rest : List EventRecord} (records : s.events.records = e :: rest) :
    eventPopReply s = .accept { s with events := s.events.pop s.triggers.time } :=
  if_neg (records ▸ List.cons_ne_nil e rest)

/-- R177, R180: a host command is refused with BUSY while the port is IN_PROGRESS. -/
theorem exec_busy {i : Instr} {c : Fin 25} {body : State → Reply} (dispatch : exec i s = .next (hostCommand c body s))
    (released : s.resetAsserted = false) (inProgress : s.host.port.state = .inProgress) :
    exec i s = .next (s.portResult .busy) := by
  rcases hostCommand_cases s c body with ⟨asserted, -⟩ | ⟨-, -, busy⟩ | ⟨-, free, -⟩
  · exact absurd asserted (ne_true_of_eq_false released)
  · rw [dispatch, busy]
  · exact absurd inProgress free

end

/-- Settles O45: a posting ends as the mask and the queue's length decide, and EVENT_POP ends as its own check
answers, or BUSY. -/
theorem eventPostAndPop : Obligations.EventPostAndPop := by
  intro s
  refine ⟨fun b => ⟨fun hasEnable clear => ?_, fun kept => ⟨fun room => ?_, fun full => ?_⟩⟩,
    fun taking => ⟨fun empty => ?_, fun e rest records => ?_⟩, fun released inProgress => ?_⟩
  · have masked := (s.events.masked_iff b).mpr ⟨hasEnable, clear⟩
    exact post_of_eventQueue_post (eventQueue_post_of_masked _ masked)
  · exact post_of_eventQueue_post (eventQueue_post_of_room _ (eventQueue_not_masked kept) room)
  · exact post_of_eventQueue_post (eventQueue_post_of_full _ (eventQueue_not_masked kept) full)
  · exact exec_refused rfl taking (eventPopReply_of_empty empty)
  · rw [← eventQueue_pop_cons s.triggers.time records]
    exact exec_accepted rfl taking (eventPopReply_of_cons records)
  · exact exec_busy rfl released inProgress

end Sys2Proof.Proofs
end

