-- ==== Sys2Proof/Proofs/Window.lean ====
section
/-! PROOFS. The register window: a read while RESET is released, a write that is not acted on, and the IDENT register
under both. -/

namespace Sys2Proof.Proofs

open Sys2Proof.Machine Sys2Proof.Statements

/-- R172: with RESET released a read returns what the register at its offset holds. -/
theorem state_read_of_released {s : State} (offset : BitVec 6) (released : s.resetAsserted = false) :
    s.read offset = s.register offset :=
  if_neg (ne_true_of_eq_false released)

/-- R172: a write to an offset whose writes do not act changes nothing. -/
theorem exec_ignoredRegisterWrite {offset : BitVec 6} (inert : writeActs offset = false) (value : Word) (s : State) :
    exec (.ignoredRegisterWrite offset value) s = .next s :=
  if_neg (ne_true_of_eq_false inert)

/-- R173: the register at offset 00h is IDENT, whatever else the state holds. -/
theorem state_register_ident (s : State) : s.register 0x00 = Config.ident := rfl

/-- R172, R173: a host write at offset 00h spells an ignored write, not a command of the directory. -/
theorem commandOfWrite_ident (value : Word) : commandOfWrite 0x00 value = .ignoredRegisterWrite 0x00 value := rfl

theorem writeActs_ident : writeActs 0x00 = false := rfl

/-- Settles O10: IDENT is read from a constant of the part, and no write reaches it. -/
theorem identReads2416h : Obligations.IdentReads2416h := by
  intro s released
  refine ⟨?_, fun value => ?_⟩
  · rw [state_read_of_released _ released, state_register_ident, Config.ident]
  · rw [commandOfWrite_ident]
    exact exec_ignoredRegisterWrite writeActs_ident value s

end Sys2Proof.Proofs
end

