-- ==== Sys2Proof/Proofs/Replies.lean ====
section
/-! PROOFS. What the checks of each host command of the directory accept, and in which state: one inversion for each
command. Proofs about what a command keeps cite these and do not open its checks again. -/

namespace Sys2Proof.Proofs

open Sys2Proof.Machine Sys2Proof.Statements

/-- R175: a command's own checks accept it, at once or as a long command, and leave `t`. -/
def Leaves (reply : Reply) (t : State) : Prop := reply = .accept t ∨ reply = .long t

@[simp] theorem not_leaves_refuse (r : Result) (t : State) : ¬ Leaves (.refuse r) t := by simp [Leaves]

@[simp] theorem leaves_accept {u t : State} : Leaves (.accept u) t ↔ u = t := by simp [Leaves]

@[simp] theorem leaves_long {u t : State} : Leaves (.long u) t ↔ u = t := by simp [Leaves]

/-- R177, R180: a property that the port alone cannot change, and that a command's own checks leave, holds after the
command. -/
theorem hostCommand_induct {P : State → Prop} {c : Fin 25} {body : State → Reply} {s : State}
    (port : ∀ t p, P t → P { t with host := { t.host with port := p } }) (before : P s)
    (leaves : s.resetAsserted = false → ∀ t, Leaves (body s) t → P t) : P (hostCommand c body s) := by
  rcases hostCommand_cases s c body with ⟨-, h⟩ | ⟨-, -, h⟩ | ⟨released, -, h⟩
  · rw [h]; exact before
  · rw [h]; exact port s _ before
  · rw [h]
    cases answer : body s with
    | refuse r => exact port s _ before
    | accept t => exact port t _ (leaves released t (.inl answer))
    | long t => exact port t _ (leaves released t (.inr answer))

section

variable {s t : State}

/-! ### Entries -/

theorem entryWriteReply_leaves (h : Leaves (entryWriteReply s) t) :
    ∃ i f, s.entryInProgress ≠ some i ∧ f.consistent = true ∧
      t = { s with entries := put s.entries i { fields := f, zone := .unknown } } := by
  unfold entryWriteReply at h
  split at h
  · simp at h
  next i _ =>
    split at h
    · simp at h
    next free =>
      split at h
      · simp at h
      next f _ =>
        split at h
        next consistent => exact ⟨i, f, free, consistent, (leaves_accept.1 h).symm⟩
        · simp at h

theorem entryReadReply_leaves (h : Leaves (entryReadReply s) t) : ∃ p, t = s.withParams p := by
  unfold entryReadReply at h
  split at h
  · simp at h
  · exact ⟨_, (leaves_accept.1 h).symm⟩

/-! ### Sets -/

theorem setWriteReply_leaves (h : Leaves (setWriteReply s) t) :
    ∃ k d, s.sets[k].state = .disabled ∧ 1 ≤ d.count ∧ d.count ≤ 32 ∧
      t = s.modSet k fun x => { x with desc := d } := by
  unfold setWriteReply at h
  split at h
  · simp at h
  next k _ =>
    split at h
    · simp at h
    next disabled =>
      split at h
      · simp at h
      next d unpacked =>
        obtain ⟨-, low, high⟩ := unpackDescriptor?_eq_some.1 unpacked
        exact ⟨k, d, not_not.1 disabled, low, high, (leaves_accept.1 h).symm⟩

theorem setReadReply_leaves (h : Leaves (setReadReply s) t) : ∃ p, t = s.withParams p := by
  unfold setReadReply at h
  split at h
  · simp at h
  · exact ⟨_, (leaves_accept.1 h).symm⟩

theorem setEnableReply_leaves (h : Leaves (setEnableReply s) t) :
    ∃ k, s.sets[k].state = .disabled ∧ s.canEnable k = true ∧
      t = s.modSet k fun x => { ScanSet.fresh x.desc with state := .armed } := by
  unfold setEnableReply at h
  split at h
  · simp at h
  next k _ =>
    split at h
    · simp at h
    next disabled =>
      split at h
      next can => exact ⟨k, not_not.1 disabled, can, (leaves_accept.1 h).symm⟩
      · simp at h

theorem setTriggerReply_leaves (h : Leaves (setTriggerReply s) t) : ∃ k, t = triggerArrival k .software s := by
  unfold setTriggerReply at h
  split at h
  · simp at h
  · exact ⟨_, (leaves_accept.1 h).symm⟩

theorem setClearReply_leaves (h : Leaves (setClearReply s) t) :
    ∃ k, s.sets[k].state = .halted ∧ t = s.modSet k fun x => { x with state := .armed } := by
  unfold setClearReply at h
  split at h
  · simp at h
  next k _ =>
    split at h
    next halted => exact ⟨k, halted, (leaves_accept.1 h).symm⟩
    · simp at h

/-- R36, R94, R95: a stop of the RUNNING set releases it, or starts a drain. -/
theorem stopRunning_leaves {k : Fin 8} {cause : DrainCause} (h : Leaves (stopRunning k cause s) t) :
    (s.engine.drain? = none ∧
        t = carryOutReset (releaseHeld k cause (s.modSet k fun x => { x with deferred := false }))) ∨
      ∃ x, s.engine.held = some x ∧ (x.phase = .selecting ∨ x.phase = .converting) ∧
        t = ((s.modSet k fun y => { y with deferred := false }).modSet k fun y =>
          { y with state := .stopping }).withHeld { x with phase := .draining cause } := by
  unfold stopRunning at h
  dsimp only at h
  split at h
  next idle => exact .inl ⟨by simp [Engine.drain?, idle], (leaves_accept.1 h).symm⟩
  next x held =>
    split at h
    next phase => exact .inr ⟨x, held, .inl phase, (leaves_long.1 h).symm⟩
    next phase => exact .inr ⟨x, held, .inr phase, (leaves_long.1 h).symm⟩
    next phase => exact .inl ⟨by simp [Engine.drain?, held, phase], (leaves_accept.1 h).symm⟩
    · simp at h

/-- R35, R36: what SET_STOP and SET_DISABLE do to a set when they are accepted. -/
theorem stopSet_leaves {k : Fin 8} {cause : DrainCause} (h : Leaves (stopSet k cause s) t) :
    s.sets[k].state = .armed ∧ t = s ∨
    (s.sets[k].state = .armed ∨ s.sets[k].state = .halted) ∧ t = s.modSet k (fun x => x.rest .disabled) ∨
    s.sets[k].state = .pending ∧ t = withdraw k cause s ∨
    s.sets[k].state = .preempted ∧ t = withdraw k cause (handHostStop k cause.stopCause s) ∨
    s.sets[k].state = .running ∧ Leaves (stopRunning k cause s) t := by
  unfold stopSet at h
  split at h
  · simp at h
  · simp at h
  next armed =>
    cases cause
    · exact .inl ⟨armed, (leaves_accept.1 h).symm⟩
    · exact .inr (.inl ⟨.inl armed, (leaves_accept.1 h).symm⟩)
  next pending => exact .inr (.inr (.inl ⟨pending, (leaves_accept.1 h).symm⟩))
  next preempted => exact .inr (.inr (.inr (.inl ⟨preempted, (leaves_accept.1 h).symm⟩)))
  next halted =>
    cases cause
    · simp at h
    · exact .inr (.inl ⟨.inr halted, (leaves_accept.1 h).symm⟩)
  next running => exact .inr (.inr (.inr (.inr ⟨running, h⟩)))

theorem stopReply_leaves {cause : DrainCause} (h : Leaves (stopReply cause s) t) :
    ∃ k, Leaves (stopSet k cause s) t := by
  unfold stopReply at h
  split at h
  · simp at h
  next k _ => exact ⟨k, h⟩

/-! ### Timers and lines -/

theorem timerWriteReply_leaves (h : Leaves (timerWriteReply s) t) :
    ∃ j p x, s.triggers.timers[j].state = .stopped ∧ unpackTimer? p = some x ∧ t = s.modTimer j fun _ => x := by
  unfold timerWriteReply at h
  split at h
  · simp at h
  next j _ =>
    split at h
    · simp at h
    next stopped =>
      split at h
      · simp at h
      next x unpacked => exact ⟨j, _, x, not_not.1 stopped, unpacked, (leaves_accept.1 h).symm⟩

theorem timerStartReply_leaves (h : Leaves (timerStartReply s) t) :
    ∃ j, s.triggers.timers[j].state = .stopped ∧
      t = s.modTimer j fun x => x.loaded (if s.triggers.gateOpen x.gate then .running else .gated) := by
  unfold timerStartReply at h
  split at h
  · simp at h
  next j _ =>
    split at h
    · simp at h
    next stopped => exact ⟨j, not_not.1 stopped, (leaves_accept.1 h).symm⟩

theorem timerStopReply_leaves (h : Leaves (timerStopReply s) t) :
    ∃ j, t = s.modTimer j fun x => x.loaded .stopped := by
  unfold timerStopReply at h
  split at h
  · simp at h
  · exact ⟨_, (leaves_accept.1 h).symm⟩

theorem extWriteReply_leaves (h : Leaves (extWriteReply s) t) :
    ∃ l e, t = { s with
      triggers := { s.triggers with lines := amend s.triggers.lines l fun x => { x with edge := e } } } := by
  unfold extWriteReply at h
  split at h
  · simp at h
  · split at h
    · simp at h
    · exact ⟨_, _, (leaves_accept.1 h).symm⟩

/-! ### The link -/

theorem linkWriteReply_leaves (h : Leaves (linkWriteReply s) t) :
    ∃ p c, unpackLink? p = some c ∧ t = { s with link := s.link.configured c } := by
  unfold linkWriteReply at h
  split at h
  · simp at h
  next c unpacked => exact ⟨_, c, unpacked, (leaves_accept.1 h).symm⟩

/-- R115: LINK_RESET starts the reset at once or leaves it pending. -/
theorem linkResetReply_leaves (h : Leaves (linkResetReply s) t) :
    (s.link.state = .down ∨ s.link.state = .up ∧ s.engine.held = none) ∧ t = enterResetting s ∨
      s.link.state = .up ∧ s.engine.held ≠ none ∧ t = { s with link := { s.link with resetPending := true } } := by
  unfold linkResetReply at h
  split at h
  · simp at h
  next down => exact .inl ⟨.inl down, (leaves_accept.1 h).symm⟩
  next up =>
    split at h
    · simp at h
    · split at h
      next idle => exact .inl ⟨.inr ⟨up, idle⟩, (leaves_accept.1 h).symm⟩
      next x held => exact .inr ⟨up, by simp [held], (leaves_accept.1 h).symm⟩

/-! ### Streams and pages -/

theorem streamWriteReply_leaves (h : Leaves (streamWriteReply s) t) :
    ∃ k c, s.streams.streams[k].enabled = false ∧ StreamConfigInRange c ∧
      t = s.modStream k fun x => { x with config := c } := by
  unfold streamWriteReply at h
  split at h
  · simp at h
  next k _ =>
    split at h
    · simp at h
    next disabled =>
      split at h
      · simp at h
      next c unpacked =>
        exact ⟨k, c, by simpa using disabled, (unpackStream?_eq_some.1 unpacked).2, (leaves_accept.1 h).symm⟩

theorem streamReadReply_leaves (h : Leaves (streamReadReply s) t) : ∃ p, t = s.withParams p := by
  unfold streamReadReply at h
  split at h
  · simp at h
  · exact ⟨_, (leaves_accept.1 h).symm⟩

theorem streamEnableReply_leaves (h : Leaves (streamEnableReply s) t) :
    ∃ k, s.streams.streams[k].enabled = false ∧
      s.streams.streams[k].config.threshold ≤ s.streams.streams[k].config.quota ∧
      t = s.modStream k fun x => { x with enabled := true, nextSeq := 0, loss := 0, written := 0 } := by
  unfold streamEnableReply at h
  split at h
  · simp at h
  next k _ =>
    split at h
    · simp at h
    next disabled =>
      split at h
      next fits => exact ⟨k, by simpa using disabled, fits, (leaves_accept.1 h).symm⟩
      · simp at h

theorem streamDisableReply_leaves (h : Leaves (streamDisableReply s) t) :
    ∃ k, s.streamNamed k = false ∧ t = { s with streams := s.streams.disable k } := by
  unfold streamDisableReply at h
  split at h
  · simp at h
  next k _ =>
    split at h
    · simp at h
    · split at h
      · simp at h
      next free => exact ⟨k, by simpa using free, (leaves_accept.1 h).symm⟩

theorem streamFlushReply_leaves (h : Leaves (streamFlushReply s) t) :
    ∃ k p, t = (s.modStream k fun x => x.close true).withParams p := by
  unfold streamFlushReply at h
  split at h
  · simp at h
  · exact ⟨_, _, (leaves_accept.1 h).symm⟩

theorem pageOpenReply_leaves (h : Leaves (pageOpenReply s) t) :
    ∃ k c rest p, s.streams.streams[k].host = none ∧ s.streams.streams[k].full = c :: rest ∧
      t = (s.modStream k fun x =>
        { x with full := rest, host := some c, readPointer := 0, readPast := false }).withParams p := by
  unfold pageOpenReply at h
  split at h
  · simp at h
  next k _ =>
    split at h
    · simp at h
    · split at h
      · simp at h
      next noHost =>
        split at h
        · simp at h
        next c rest full => exact ⟨k, c, rest, _, by simpa using noHost, full, (leaves_accept.1 h).symm⟩

theorem pageReleaseReply_leaves (h : Leaves (pageReleaseReply s) t) :
    ∃ k c, s.streams.streams[k].host = some c ∧ t = { s with streams := s.streams.release k c } := by
  unfold pageReleaseReply at h
  split at h
  · simp at h
  next k _ =>
    split at h
    · simp at h
    next c host => exact ⟨k, c, host, (leaves_accept.1 h).symm⟩

/-! ### Events -/

theorem eventPopReply_leaves (h : Leaves (eventPopReply s) t) :
    s.events.records ≠ [] ∧ t = { s with events := s.events.pop s.triggers.time } := by
  unfold eventPopReply at h
  split at h
  · simp at h
  next records => exact ⟨records, (leaves_accept.1 h).symm⟩

end

/-! ### The commands of the directory -/

/-- The checks and the effect of each command of the directory other than SOFT_RESET, which has none. -/
def replyOf : Instr → State → Reply
  | .entryWrite => entryWriteReply
  | .entryRead => entryReadReply
  | .setWrite => setWriteReply
  | .setRead => setReadReply
  | .setEnable => setEnableReply
  | .setDisable => stopReply .hostDisable
  | .setTrigger => setTriggerReply
  | .setStop => stopReply .hostStop
  | .setClear => setClearReply
  | .timerWrite => timerWriteReply
  | .timerStart => timerStartReply
  | .timerStop => timerStopReply
  | .extWrite => extWriteReply
  | .linkWrite => linkWriteReply
  | .linkReset => linkResetReply
  | .streamWrite => streamWriteReply
  | .streamRead => streamReadReply
  | .streamEnable => streamEnableReply
  | .streamDisable => streamDisableReply
  | .streamFlush => streamFlushReply
  | .pageOpen => pageOpenReply
  | .pageRelease => pageReleaseReply
  | .eventPop => eventPopReply
  | _ => .accept

/-- R177: a command of the directory is weighed by the port and then by its own checks. -/
theorem exec_of_code {c : Instr} {n : Fin 25} (code : c.code? = some n) (notSoft : c ≠ .softReset) (s : State) :
    exec c s = .next (hostCommand n (replyOf c) s) := by
  cases c <;> cases code
  case softReset => exact absurd rfl notSoft
  all_goals rfl

/-- R175–R178: what a command's own checks answer, other than a long command's. -/
def Quick (r : Reply) : Prop :=
  (∃ t, r = .accept t) ∨ ∃ code, r = .refuse code ∧ code ≠ .ok

@[simp] theorem quick_accept (t : State) : Quick (.accept t) := .inl ⟨t, rfl⟩

@[simp] theorem quick_refuse {code : Result} : Quick (.refuse code) ↔ code ≠ .ok := by simp [Quick]

/-- R175, R179: SET_STOP and SET_DISABLE alone are ever long, and a refusal has a code of its own. -/
theorem replyOf_quick (c : Instr) (notStop : c ≠ .setStop) (notDisable : c ≠ .setDisable) (s : State) :
    Quick (replyOf c s) := by
  cases c
  case setStop => exact absurd rfl notStop
  case setDisable => exact absurd rfl notDisable
  all_goals
    simp only [replyOf, entryWriteReply, entryReadReply, setWriteReply, setReadReply, setEnableReply, setTriggerReply,
      setClearReply, timerWriteReply, timerStartReply, timerStopReply, extWriteReply, linkWriteReply, linkResetReply,
      streamWriteReply, streamReadReply, streamEnableReply, streamDisableReply, streamFlushReply, pageOpenReply,
      pageReleaseReply, eventPopReply]
    repeat' split
    all_goals simp

end Sys2Proof.Proofs
end

