-- ==== Sys2Proof/Proofs/Moves.lean ====
section
/-! PROOFS. Every command, but for the microsecond of the time base and the assertion of RESET, is a chain of moves: the
smallest changes that keep the invariants of the sets, the requests, the entries, the timers, the streams and the events.
An invariant of these is proved by one case for each move. -/

namespace Sys2Proof.Proofs

open Sys2Proof.Machine Sys2Proof.Statements

/-! ### The moves -/

/-- What one command, or one arrival of the part's own time, makes of the Trigger Unit. -/
inductive TriggerMove (u : TriggerUnit) : TriggerUnit → Prop
  | latch (w : Word) : TriggerMove u { u with timeHi := w }
  | configure (j : Fin 4) (p : Vector Word 6) (x : Timer) (stopped : u.timers[j].state = .stopped)
      (unpacked : unpackTimer? p = some x) : TriggerMove u { u with timers := amend u.timers j fun _ => x }
  | start (j : Fin 4) (stopped : u.timers[j].state = .stopped) :
      TriggerMove u
        { u with
          timers := amend u.timers j fun x => x.loaded (if u.gateOpen x.gate then .running else .gated) }
  | stop (j : Fin 4) : TriggerMove u { u with timers := amend u.timers j fun x => x.loaded .stopped }
  | edge (l : Fin 2) (e : EdgeConfig) : TriggerMove u { u with lines := amend u.lines l fun x => { x with edge := e } }
  | unit (j : Fin 4) (due : u.timers[j].unitDue = true) (more : u.timers[j].remaining ≠ 1) :
      TriggerMove u
        { u with
          timers :=
            amend u.timers j fun x => { x with remaining := x.remaining - 1, unitsDue := x.unitsDue - 1 } }
  | expire (j : Fin 4) (due : u.timers[j].unitDue = true) :
      TriggerMove u { u with timers := amend u.timers j Timer.expired }
  | level (l : Fin 2) (high : Bool) :
      TriggerMove u
        { u with
          lines := amend u.lines l fun x => { x with high := high }
          timers := mapAll (fun x => x.gateChange l high) u.timers }

/-- What a command on streams and pages makes of the Stream Manager. -/
inductive StreamMove (s : State) : StreamManager → Prop
  | configure (k : Fin 4) (c : StreamConfig) (disabled : s.streams.streams[k].enabled = false)
      (inRange : StreamConfigInRange c) : StreamMove s (s.streams.amend k fun x => { x with config := c })
  | enable (k : Fin 4) (disabled : s.streams.streams[k].enabled = false)
      (fits : s.streams.streams[k].config.threshold ≤ s.streams.streams[k].config.quota) :
      StreamMove s (s.streams.amend k fun x => { x with enabled := true, nextSeq := 0, loss := 0, written := 0 })
  | disable (k : Fin 4) (free : s.streamNamed k = false) : StreamMove s (s.streams.disable k)
  | flush (k : Fin 4) : StreamMove s (s.streams.amend k fun x => x.close true)
  | openPage (k : Fin 4) (c : ClosedPage) (rest : List ClosedPage) (noHost : s.streams.streams[k].host = none)
      (full : s.streams.streams[k].full = c :: rest) :
      StreamMove s
        (s.streams.amend k fun x =>
          { x with full := rest, host := some c, readPointer := 0, readPast := false })
  | release (k : Fin 4) (c : ClosedPage) (host : s.streams.streams[k].host = some c) :
      StreamMove s (s.streams.release k c)
  | read (k : Fin 4) : StreamMove s (s.streams.amend k Stream.dataRead)

/-- What a posting, EVENT_POP or a write to EVMASK makes of the Event Queue. -/
inductive EventMove (e : EventQueue) (now : Time) : EventQueue → Prop
  | post (b : EventBody) : EventMove e now (e.post now b)
  | pop (some : e.records ≠ []) : EventMove e now (e.pop now)
  | mask (value : Word) : EventMove e now { e with mask := value &&& 0x3FFE }

/-- What becomes of set `k` when no request is made, moved or discarded. -/
inductive SetMove (s : State) (k : Fin 8) : ScanSet → Prop
  | describe (d : Descriptor) (disabled : s.sets[k].state = .disabled) (low : 1 ≤ d.count) (high : d.count ≤ 32) :
      SetMove s k { s.sets[k] with desc := d }
  | enable (disabled : s.sets[k].state = .disabled) (can : s.canEnable k = true) :
      SetMove s k { ScanSet.fresh s.sets[k].desc with state := .armed }
  | clear (halted : s.sets[k].state = .halted) : SetMove s k { s.sets[k] with state := .armed }
  | disable (resting : s.sets[k].state = .armed ∨ s.sets[k].state = .halted) : SetMove s k (s.sets[k].rest .disabled)
  | defer (busy : s.sets[k].state = .pending ∨ s.sets[k].state = .running ∨ s.sets[k].state = .preempted)
      (defers : s.sets[k].desc.overrun = .defer) : SetMove s k { s.sets[k] with deferred := true }
  | undefer : SetMove s k { s.sets[k] with deferred := false }
  | overrun (n : Word) : SetMove s k { s.sets[k] with overruns := n }

/-- Set `k` is RUNNING, or the engine holds its request: the same thing where requests are in place. -/
def Runs (s : State) (k : Fin 8) : Prop :=
  s.sets[k].state = .running ∨ ∃ x, s.engine.held = some x ∧ x.request.set = k

/-- R36, R96: a host stop lets go of the request of set `k`: from a RUNNING set, whose deferred flag is clear by then, or
at the end of the drain of the set that the engine holds. -/
def Stops (s : State) (k : Fin 8) : Prop :=
  s.sets[k].state = .running ∧ s.sets[k].deferred = false ∨
    ∃ x c, s.engine.held = some x ∧ x.request.set = k ∧ x.phase = .draining c

theorem Stops.runs {s : State} {k : Fin 8} : Stops s k → Runs s k
  | .inl ⟨running, _⟩ => .inl running
  | .inr ⟨x, _, held, set, _⟩ => .inr ⟨x, held, set⟩

/-- R28, R29: `y` is `x` after its cursor has advanced and the scan goes on. -/
inductive Advanced (x : ScanSet) : ScanSet → Prop
  | inside (more : x.cursor + 1 ≠ x.desc.count) : Advanced x { x with cursor := x.cursor + 1 }
  | passEnd (last : x.cursor + 1 = x.desc.count)
      (passes : x.desc.passes ≠ 0 → x.passCount + 1 ≠ x.desc.passes) :
      Advanced x { x with cursor := 0, passCount := x.passCount + 1, passStart := true }

/-- One move. -/
inductive Move (s : State) : State → Prop
  | host (h : HostInterface) : Move s { s with host := h }
  | link (l : Link) (sel : Option Selection) : Move s { s with link := l, engine := { s.engine with selection := sel } }
  | execution (x y : Execution) (held : s.engine.held = some x) (request : y.request = x.request)
      (entry : y.entry = x.entry) (snapshot : y.snapshot = x.snapshot)
      (notDraining : ∀ c, x.phase ≠ .draining c) (notDraining' : ∀ c, y.phase ≠ .draining c) :
      Move s (s.withHeld y)
  | triggers (u : TriggerUnit) (released : s.resetAsserted = false) (change : TriggerMove s.triggers u) :
      Move s { s with triggers := u }
  | streams (m : StreamManager) (change : StreamMove s m) : Move s { s with streams := m }
  | events (e : EventQueue) (change : EventMove s.events s.triggers.time e) : Move s { s with events := e }
  | entry (i : Fin 128) (f : EntryFields) (free : s.entryInProgress ≠ some i) (consistent : f.consistent = true) :
      Move s { s with entries := put s.entries i { fields := f, zone := .unknown } }
  | zone (x : Execution) (z : Zone) (held : s.engine.held = some x) (window : x.snapshot.window = true) :
      Move s { s with entries := amend s.entries x.entry fun e => { e with zone := z } }
  | set (k : Fin 8) (y : ScanSet) (change : SetMove s k y) : Move s (s.modSet k fun _ => y)
  | request (k : Fin 8) (armed : s.sets[k].state = .armed) : Move s (makeRequest k s)
  | withdraw (k : Fin 8) (cause : DrainCause) (pending : s.sets[k].state = .pending) : Move s (withdraw k cause s)
  | withdrawPreempted (k : Fin 8) (cause : DrainCause) (preempted : s.sets[k].state = .preempted) :
      Move s (withdraw k cause (handHostStop k cause.stopCause s))
  | drain (k : Fin 8) (cause : DrainCause) (x : Execution) (running : s.sets[k].state = .running)
      (held : s.engine.held = some x) :
      Move s
        ((s.modSet k fun y => { y with deferred := false, state := .stopping }).withHeld
          { x with phase := .draining cause })
  | record (k : Fin 8) (kind : RecordKind) (status : Status) (i : Fin 128) (value : Word) (runs : Runs s k) :
      Move s (handSetRecord k kind status i value s)
  | release (k : Fin 8) (cause : DrainCause) (stops : Stops s k) :
      Move s (dropHeld (s.modSet k fun x => x.rest cause.setState))
  | endScan (k : Fin 8) (n : Word) (runs : Runs s k) :
      Move s
        (restartOrArm k (dropHeld (s.modSet k fun x => { x with completed := n, cursor := 0, passCount := 0 })))
  | halt (k : Fin 8) (runs : Runs s k) :
      Move s
        (dropHeld (s.modSet k fun x => { x with state := .halted, cursor := 0, passCount := 0, deferred := false }))
  | back (new : Bool) (x : Execution) (y : ScanSet) (held : s.engine.held = some x)
      (notDraining : ∀ c, x.phase ≠ .draining c) (advanced : Advanced s.sets[x.request.set] y) :
      Move s (returnRequest new (s.modSet x.request.set fun _ => y))
  | next (x : Execution) (y : ScanSet) (held : s.engine.held = some x)
      (notDraining : ∀ c, x.phase ≠ .draining c) (advanced : Advanced s.sets[x.request.set] y) :
      Move s (startEntry x.request (s.modSet x.request.set fun _ => y))
  | start (can : s.canStart = true) : Move s (startHead s)
  | softReset : Move s (softReset s)
  | resetRelease (ext0 ext1 : Bool) (asserted : s.resetAsserted = true) :
      Move s
        { s with
          resetAsserted := false
          triggers :=
            { s.triggers with
              lines :=
                amend (amend s.triggers.lines 0 fun x => { x with high := ext0 }) 1 fun x =>
                  { x with high := ext1 } } }

/-- A chain of moves. -/
abbrev Moves : State → State → Prop := Relation.ReflTransGen Move

theorem Move.moves {s t : State} (h : Move s t) : Moves s t := .single h

/-- A chain of moves whose last state is written another way. -/
theorem Move.moves_of_eq {s t u : State} (h : Move s t) (eq : u = t) : Moves s u := eq ▸ h.moves

section

variable (s : State)

/-! ### The shared operations -/

theorem post_moves (b : EventBody) : Moves s (post b s) := (Move.events _ (.post b)).moves

theorem link_moves (l : Link) : Moves s { s with link := l } := (Move.link l s.engine.selection).moves

theorem triggerArrival_moves (k : Fin 8) (o : Origin) : Moves s (triggerArrival k o s) := by
  rcases triggerArrival_cases s k o with ⟨-, h⟩ | ⟨armed, h⟩ | ⟨busy, ⟨defers, -, h⟩ | ⟨-, h⟩⟩
  · rw [h]
  · rw [h]; exact (Move.request k armed).moves
  · rw [h]; exact (Move.set k _ (.defer busy defers)).moves
  · rw [h]; exact (Move.set k _ (.overrun _)).moves.trans (post_moves _ _)

theorem deliverTriggers_moves (src : TriggerSource) (o : Origin) : Moves s (deliverTriggers src o s) := by
  unfold deliverTriggers
  generalize allSets = ks
  induction ks generalizing s with
  | nil => exact .refl
  | cons k rest ih =>
    rw [List.foldl_cons]
    refine Relation.ReflTransGen.trans ?_ (ih _)
    split
    · exact triggerArrival_moves s k o
    · exact .refl

@[simp] theorem deliverTriggers_resetAsserted (src : TriggerSource) (o : Origin) :
    (deliverTriggers src o s).resetAsserted = s.resetAsserted := by
  unfold deliverTriggers
  generalize allSets = ks
  induction ks generalizing s with
  | nil => rfl
  | cons k rest ih =>
    rw [List.foldl_cons, ih]
    split <;> simp

theorem enterResetting_moves : Moves s (enterResetting s) := (Move.link _ none).moves

theorem carryOutReset_moves : Moves s (carryOutReset s) := by
  rcases carryOutReset_cases s with ⟨-, -, h⟩ | ⟨-, h⟩ <;> rw [h]
  exact enterResetting_moves s

variable {s}

/-- R33: a set's record changes of the sets the mark of its own. -/
@[simp] theorem handSetRecord_sets (k : Fin 8) (kind : RecordKind) (st : Status) (i : Fin 128) (v : Word) :
    (handSetRecord k kind st i v s).sets = amend s.sets k fun x => { x with passStart := false } := rfl

theorem handHostStop_moves {k : Fin 8} (runs : Runs s k) (cause : StopCause) : Moves s (handHostStop k cause s) :=
  (Move.record k .stop .ok _ _ runs).moves

theorem handBoundaryStop_moves {k : Fin 8} (runs : Runs s k) (cause : StopCause) :
    Moves s (handBoundaryStop k cause s) :=
  (Move.record k .stop .ok _ _ runs).moves

theorem Stops.handHostStop {k : Fin 8} (stops : Stops s k) (cause : StopCause) : Stops (handHostStop k cause s) k := by
  simpa [Stops, Machine.handHostStop] using stops

theorem releaseHeld_moves {k : Fin 8} (stops : Stops s k) (cause : DrainCause) : Moves s (releaseHeld k cause s) :=
  (handHostStop_moves stops.runs cause.stopCause).trans (Move.release k cause (stops.handHostStop _)).moves

/-- R96: the end of a drain. -/
theorem endDrain_moves {x : Execution} {cause : DrainCause} (held : s.engine.held = some x)
    (draining : x.phase = .draining cause) (keep : Bool) : Moves s (endDrain x cause keep s) := by
  have answered : Moves s
      { s with
        link := { s.link with outstanding := none }
        engine := { s.engine with selection := if keep then s.engine.selection else none } } :=
    (Move.link _ _).moves
  have released := answered.trans (releaseHeld_moves (.inr ⟨x, cause, by exact held, rfl, draining⟩) cause)
  exact (released.tail (.host _)).trans (carryOutReset_moves _)

/-- R94, R95: a stop of the RUNNING set. -/
theorem stopRunning_moves {k : Fin 8} {cause : DrainCause} {t : State} (running : s.sets[k].state = .running)
    (h : Leaves (stopRunning k cause s) t) : Moves s t := by
  rcases stopRunning_leaves h with ⟨-, rfl⟩ | ⟨x, held, -, rfl⟩
  · have undeferred : Moves s (s.modSet k fun x => { x with deferred := false }) := (Move.set k _ .undefer).moves
    refine (undeferred.trans (releaseHeld_moves (.inl ?_) cause)).trans (carryOutReset_moves _)
    simpa using running
  · refine (Move.drain k cause x running held).moves_of_eq ?_
    simp [State.modSet, State.withHeld, amend]

/-- R35, R36: SET_STOP and SET_DISABLE. -/
theorem stopSet_moves {k : Fin 8} {cause : DrainCause} {t : State} (h : Leaves (stopSet k cause s) t) : Moves s t := by
  rcases stopSet_leaves h with ⟨-, rfl⟩ | ⟨resting, rfl⟩ | ⟨pending, rfl⟩ | ⟨preempted, rfl⟩ | ⟨running, h⟩
  · exact .refl
  · exact (Move.set k _ (.disable resting)).moves
  · exact (Move.withdraw k cause pending).moves
  · exact (Move.withdrawPreempted k cause preempted).moves
  · exact stopRunning_moves running h

/-! ### The completion of an entry -/

theorem limitEvaluate_moves {x y : Execution} (held : s.engine.held = some y) (entry : x.entry = y.entry)
    (snapshot : x.snapshot = y.snapshot) (st : Status) (v : Word) : Moves s (limitEvaluate x st v s).1 := by
  rcases limitEvaluate_cases s x st v with ⟨-, h⟩ | ⟨-, -, h⟩ | ⟨-, window, new, -, h⟩
  · rw [h]
  · rw [h]
  · have moved : Moves s { s with entries := amend s.entries x.entry fun e => { e with zone := new } } := by
      rw [entry]
      exact (Move.zone y new held (snapshot ▸ window)).moves
    rw [h]
    dsimp only
    split
    · exact moved
    · exact moved.trans (post_moves _ _)

theorem handResult_moves {x y : Execution} (held : s.engine.held = some y) (request : x.request = y.request)
    (st : Status) (v : Word) : Moves s (handResult x st v s) :=
  (Move.record x.request.set .result st x.entry v (.inr ⟨y, held, by rw [request]⟩)).moves

/-- R39: a limit stop is a record, an event, and the end of the scan. -/
theorem limitStop_moves {k : Fin 8} (runs : Runs s k) : Moves s (limitStop k s) := by
  have recorded := handBoundaryStop_moves runs .limit
  have posted := recorded.trans (post_moves _ (.scanStopped k))
  refine posted.trans ((Move.endScan k (post (.scanStopped k) (handBoundaryStop k .limit s)).sets[k].completed ?_)
    |>.moves_of_eq rfl)
  simpa [Runs, handBoundaryStop] using runs

/-- R38: a halt is a record, an event, and the set HALTED. -/
theorem haltSet_moves {k : Fin 8} (runs : Runs s k) (i : Fin 128) (st : Status) : Moves s (haltSet k i st s) := by
  have recorded := handBoundaryStop_moves runs .halt
  have posted := recorded.trans (post_moves _ (.setHalted k i st))
  refine posted.tail (Move.halt k ?_)
  simpa [Runs, handBoundaryStop] using runs

/-- R30, R31: the completion of a scan, its last advance before it, is an event, the end of the scan, and the chain
trigger. -/
theorem completeScan_moves {k : Fin 8} (runs : Runs s k) :
    Moves s (completeScan k (s.modSet k fun x => { x with cursor := 0, passCount := x.passCount + 1 })) := by
  have posted := post_moves s (.scanDone k (s.sets[k].completed + 1))
  have ended : Moves s _ := posted.tail (Move.endScan k (s.sets[k].completed + 1) (by simpa [Runs] using runs))
  have chained : ∀ t, Moves t (deliverChain k t) := by
    intro t
    unfold deliverChain
    split
    · exact triggerArrival_moves t _ _
    · exact .refl
  convert ended.trans (chained _) using 1
  simp [completeScan, State.modSet, amend, post]

/-! ### The end of a completion: the arbiter, the link's count and the next entry -/

/-- R113, in the words of the statements. -/
theorem linkDown_eq (s : State) :
    linkDown s =
      if s.link.resetPending then enterResetting (returnRequest false (linkFallen s))
      else returnRequest false (linkFallen s) := rfl

theorem linkFallen_moves (s : State) : Moves s (linkFallen s) :=
  (Move.link _ none).moves.trans (post_moves _ _)

theorem returnRequest_held (new : Bool) (s : State) : (returnRequest new s).engine.held = none := by
  unfold returnRequest
  split
  next idle => exact idle
  · rfl

theorem arbiterDecision_of_idle (b : Boundary) (idle : s.engine.held = none) : arbiterDecision b s = s := by
  unfold arbiterDecision
  rw [idle]

theorem goOn_of_idle (idle : s.engine.held = none) : goOn s = carryOutReset s := by
  unfold goOn
  rw [idle]

theorem goOn_of_held {x : Execution} (held : s.engine.held = some x) : goOn s = startEntry x.request s := by
  unfold goOn
  rw [held]

/-- R73, R113: what the link's fall makes of the state when the request has been returned. -/
theorem goOn_reset_moves (pending : Bool) (idle : s.engine.held = none) :
    Moves s (goOn (if pending then enterResetting s else s)) := by
  cases pending
  · rw [if_neg Bool.false_ne_true, goOn_of_idle idle]
    exact carryOutReset_moves s
  · rw [if_pos rfl, goOn_of_idle (by simpa using idle)]
    exact (enterResetting_moves s).trans (carryOutReset_moves _)

/-- R112, R116: no request is held when the link's count is updated. -/
theorem goOn_updateCount_moves_of_idle (st : Status) (idle : s.engine.held = none) :
    Moves s (goOn (updateCount st s)) := by
  rcases updateCount_cases s st with ⟨-, h⟩ | ⟨-, -, h⟩ | ⟨-, -, h⟩
  · rw [h, goOn_of_idle (by exact idle)]
    exact (link_moves s _).trans (carryOutReset_moves _)
  · rw [h, goOn_of_idle (by exact idle)]
    exact (link_moves s _).trans (carryOutReset_moves _)
  · have fallen : (linkFallen s).engine.held = none := idle
    rw [h, linkDown_eq, returnRequest_of_idle _ _ fallen]
    exact (linkFallen_moves s).trans (goOn_reset_moves _ fallen)

theorem finishBoundary_moves_of_idle (b : Boundary) (st : Status) (idle : s.engine.held = none) :
    Moves s (finishBoundary b st s) := by
  rw [finishBoundary, arbiterDecision_of_idle b idle]
  exact goOn_updateCount_moves_of_idle st idle

section

variable {x : Execution} {y : ScanSet}

/-- R112, R73, R92: the arbiter has left the request with the engine after the cursor's advance. -/
theorem goOn_updateCount_moves_of_held (held : s.engine.held = some x) (notDraining : ∀ c, x.phase ≠ .draining c)
    (advanced : Advanced s.sets[x.request.set] y) (st : Status) :
    Moves s (goOn (updateCount st (s.modSet x.request.set fun _ => y))) := by
  rcases updateCount_cases (s.modSet x.request.set fun _ => y) st with ⟨-, h⟩ | ⟨-, -, h⟩ | ⟨-, -, h⟩
  · have cleared : Moves s (countCleared s) := link_moves s _
    rw [h, goOn_of_held (x := x) (by exact held)]
    exact cleared.tail (Move.next (s := countCleared s) x y held notDraining advanced)
  · have grown : Moves s (countGrown s) := link_moves s _
    rw [h, goOn_of_held (x := x) (by exact held)]
    exact grown.tail (Move.next (s := countGrown s) x y held notDraining advanced)
  · have returned : Moves s (returnRequest false (linkFallen (s.modSet x.request.set fun _ => y))) :=
      (linkFallen_moves s).tail (.back false x y held notDraining advanced)
    rw [h, linkDown_eq]
    exact returned.trans (goOn_reset_moves _ (returnRequest_held _ _))

/-- R69–R74, R112, R92: what follows the advance of the held set's cursor when its scan goes on. -/
theorem finishBoundary_moves_of_advanced (held : s.engine.held = some x)
    (notDraining : ∀ c, x.phase ≠ .draining c) (advanced : Advanced s.sets[x.request.set] y) (b : Boundary)
    (st : Status) : Moves s (finishBoundary b st (s.modSet x.request.set fun _ => y)) := by
  have returns : ∀ new, Moves s (goOn (updateCount st (returnRequest new (s.modSet x.request.set fun _ => y)))) :=
    fun new => (Move.back new x y held notDraining advanced).moves.trans
      (goOn_updateCount_moves_of_idle st (returnRequest_held _ _))
  rw [finishBoundary]
  rcases arbiterDecision_cases (s.modSet x.request.set fun _ => y) b with
    h | ⟨-, -, ⟨-, h⟩ | ⟨-, -, -, -, -, ⟨-, -, h⟩ | ⟨-, -, h⟩⟩⟩
  · rw [h]
    exact goOn_updateCount_moves_of_held held notDraining advanced st
  all_goals rw [h]; exact returns _

/-- R28–R31, R69–R74, R92: the cursor's advance and what follows it. -/
theorem finishBoundary_advanceCursor_moves (held : s.engine.held = some x)
    (notDraining : ∀ c, x.phase ≠ .draining c) (st : Status) :
    Moves s (finishBoundary (advanceCursor x.request.set s).2 st (advanceCursor x.request.set s).1) := by
  rcases advanceCursor_cases s x.request.set with ⟨more, h⟩ | ⟨last, ⟨-, -, h⟩ | ⟨goes, h⟩⟩
  · rw [h]
    exact finishBoundary_moves_of_advanced held notDraining (.inside more) _ st
  · rw [h]
    refine (completeScan_moves (.inr ⟨x, held, rfl⟩)).trans (finishBoundary_moves_of_idle _ st ?_)
    simp [completeScan]
  · rw [h]
    convert finishBoundary_moves_of_advanced held notDraining (.passEnd last goes) .passEnd st using 2
    simp [State.modSet, amend]

end

/-! ### The two completions -/

/-- R89, steps 1 and 2: the value evaluated, and the RESULT record handed over when one is required. -/
def resultReported (x : Execution) (st : Status) (v : Word) (s : State) : State :=
  if (limitEvaluate x st v s).2.recordRequired then handResult x st v (limitEvaluate x st v s).1
  else (limitEvaluate x st v s).1

/-- What follows the advance of the cursor of set `k`. -/
def advancedAndFinished (k : Fin 8) (st : Status) (s : State) : State :=
  finishBoundary (advanceCursor k s).2 st (advanceCursor k s).1

/-- R89, steps 3 to 7: the limit action of a crossing, by the entry's action, and what follows it. -/
theorem completeSuccess_cases (x : Execution) (st : Status) (v : Word) (s : State) :
    ((limitEvaluate x st v s).2.entered = none ∨ x.snapshot.action = .notify) ∧
      completeSuccess x st v s = advancedAndFinished x.request.set st (resultReported x st v s) ∨
    (limitEvaluate x st v s).2.entered ≠ none ∧ x.snapshot.action = .trigger ∧
      completeSuccess x st v s =
        advancedAndFinished x.request.set st
          (triggerArrival x.snapshot.target .limit (resultReported x st v s)) ∨
    (limitEvaluate x st v s).2.entered ≠ none ∧ x.snapshot.action = .stopOwn ∧
      completeSuccess x st v s =
        finishBoundary .ended st (limitStop x.request.set (resultReported x st v s)) := by
  unfold completeSuccess limitAction advancedAndFinished
  dsimp only
  cases entered : (limitEvaluate x st v s).2.entered with
  | none => exact .inl ⟨.inl rfl, rfl⟩
  | some z =>
    cases action : x.snapshot.action with
    | notify => exact .inl ⟨.inr rfl, rfl⟩
    | trigger => exact .inr (.inl ⟨by simp, rfl, rfl⟩)
    | stopOwn => exact .inr (.inr ⟨by simp, rfl, rfl⟩)

/-- R90, R91: the completion of a failed entry, by the fault policy of its set. -/
theorem completeFailure_cases (x : Execution) {st : Status} (failed : st.success = false) (s : State) :
    s.sets[x.request.set].desc.fault = .halt ∧
      completeFailure x st s =
        finishBoundary .ended st (haltSet x.request.set x.entry st (failureReported x st s)) ∨
    s.sets[x.request.set].desc.fault = .carryOn ∧
      completeFailure x st s = advancedAndFinished x.request.set st (failureReported x st s) := by
  have policy : (failureReported x st s).sets[x.request.set].desc.fault = s.sets[x.request.set].desc.fault := by
    simp [failureReported]
  unfold completeFailure limitEvaluate
  simp only [failed, Bool.false_eq_true, if_false, if_true]
  split
  next fault => exact .inl ⟨policy.symm.trans fault, rfl⟩
  next fault => exact .inr ⟨policy.symm.trans fault, rfl⟩

/-- R121–R129: what precedes the advance keeps the request with the engine. -/
theorem completeSuccess_moves {x y : Execution} (held : s.engine.held = some y) (request : x.request = y.request)
    (entry : x.entry = y.entry) (snapshot : x.snapshot = y.snapshot) (notDraining : ∀ c, y.phase ≠ .draining c)
    (st : Status) (v : Word) : Moves s (completeSuccess x st v s) := by
  have evaluated := limitEvaluate_moves held entry snapshot st v
  have stays : (resultReported x st v s).engine.held = some y := by
    unfold resultReported
    split <;> simpa using held
  have reported : Moves s (resultReported x st v s) := by
    unfold resultReported
    split
    · exact evaluated.trans (handResult_moves (y := y) (by simpa using held) request st v)
    · exact evaluated
  rcases completeSuccess_cases x st v s with ⟨-, h⟩ | ⟨-, -, h⟩ | ⟨-, -, h⟩
  · rw [h, request]
    exact reported.trans (finishBoundary_advanceCursor_moves stays notDraining st)
  · have arrived := reported.trans (triggerArrival_moves _ x.snapshot.target .limit)
    rw [h, request]
    exact arrived.trans (finishBoundary_advanceCursor_moves (by simpa using stays) notDraining st)
  · rw [h, request]
    refine (reported.trans (limitStop_moves (.inr ⟨y, stays, rfl⟩))).trans (finishBoundary_moves_of_idle _ st ?_)
    simp [limitStop]

/-- R90, R91: the completion of a failed entry. -/
theorem completeFailure_moves {x : Execution} {st : Status} (failed : st.success = false)
    (held : s.engine.held = some x) (notDraining : ∀ c, x.phase ≠ .draining c) :
    Moves s (completeFailure x st s) := by
  have deselected : Moves s { s with engine := { s.engine with selection := none } } := (Move.link s.link none).moves
  have reported : Moves s (failureReported x st s) :=
    (deselected.tail (.record x.request.set .result st x.entry 0 (.inr ⟨x, held, rfl⟩))).trans (post_moves _ _)
  have stays : (failureReported x st s).engine.held = some x := by simpa [failureReported] using held
  rcases completeFailure_cases x failed s with ⟨-, h⟩ | ⟨-, h⟩
  · rw [h]
    refine (reported.trans (haltSet_moves (.inr ⟨x, stays, rfl⟩) x.entry st)).trans
      (finishBoundary_moves_of_idle _ st ?_)
    simp [haltSet]
  · rw [h]
    exact reported.trans (finishBoundary_advanceCursor_moves stays notDraining st)

/-! ### Answers, failed attempts and the arrivals of the part's own time -/

theorem sendMessage_moves (m : Message) (s : State) : Moves s (sendMessage m s) := link_moves s _

/-- R85: the model's fold of a sample, in the words of the statements. -/
theorem accumulator_fold_eq (x : Execution) (overRange : Bool) (value : Word) :
    { x with
      acc := x.acc.fold value.toInt, samples := x.samples + 1, clipped := x.clipped || overRange } =
      folded x overRange value := by
  unfold folded Accumulator.fold
  congr 2
  · cases x.acc.minimum with
    | none => rfl
    | some m => simp only [Option.some.injEq]; omega
  · cases x.acc.maximum with
    | none => rfl
    | some m => simp only [Option.some.injEq]; omega

/-- R85: a SAMPLE ends its entry by a fault, is folded with more to come, or is the entry's last. -/
theorem takeSample_cases (x : Execution) (overRange fault : Bool) (value : Word) (s : State) :
    fault = true ∧ takeSample x overRange fault value s = completeFailure x .feFault s ∨
    fault = false ∧ x.samples + 1 < x.snapshot.conversions ∧
      takeSample x overRange fault value s = sent .convert (holding (folded x overRange value) s) ∨
    fault = false ∧ x.snapshot.conversions ≤ x.samples + 1 ∧
      takeSample x overRange fault value s =
        completeSuccess (folded x overRange value) (outcome (folded x overRange value))
          (reduced (folded x overRange value)) (holding (folded x overRange value) s) := by
  unfold takeSample
  cases fault
  · simp only [Bool.false_eq_true, if_false, accumulator_fold_eq, true_and, false_and, false_or]
    by_cases more : x.samples + 1 < x.snapshot.conversions
    · exact .inl ⟨more, if_pos more⟩
    · exact .inr ⟨by omega, by rw [if_neg more, ← accumulator_fold_eq]; rfl⟩
  · exact .inl ⟨rfl, rfl⟩

theorem takeSample_moves {x : Execution} (held : s.engine.held = some x) (notDraining : ∀ c, x.phase ≠ .draining c)
    (overRange fault : Bool) (value : Word) : Moves s (takeSample x overRange fault value s) := by
  have folds : Moves s (holding (folded x overRange value) s) :=
    (Move.execution x (folded x overRange value) held rfl rfl rfl notDraining notDraining).moves
  rcases takeSample_cases x overRange fault value s with ⟨-, h⟩ | ⟨-, -, h⟩ | ⟨-, -, h⟩
  · rw [h]
    exact completeFailure_moves rfl held notDraining
  · rw [h]
    exact folds.trans (sendMessage_moves .convert _)
  · rw [h]
    exact folds.trans (completeSuccess_moves (y := folded x overRange value) rfl rfl rfl rfl notDraining _ _)

/-- R82: the selection is acknowledged and the engine goes on to `phase`. -/
theorem selected_moves {x : Execution} (held : s.engine.held = some x) (notDraining : ∀ c, x.phase ≠ .draining c)
    (sel : Selection) {phase : Phase} (on : ∀ c, phase ≠ .draining c) :
    Moves s (holding { x with phase := phase } { s with engine := { s.engine with selection := some sel } }) := by
  have selected : Moves s { s with engine := { s.engine with selection := some sel } } :=
    (Move.link s.link (some sel)).moves
  exact selected.tail (.execution x _ held rfl rfl rfl notDraining on)

theorem takeSelection_moves {x : Execution} (held : s.engine.held = some x)
    (notDraining : ∀ c, x.phase ≠ .draining c) (sel : Selection) : Moves s (takeSelection x sel s) := by
  unfold takeSelection
  dsimp only
  split
  · exact (selected_moves held notDraining sel (by simp)).trans (sendMessage_moves .convert _)
  · exact selected_moves held notDraining sel (by simp)

theorem drain?_eq_none_of_held {x : Execution} (held : s.engine.held = some x) (noDrain : s.engine.drain? = none) :
    ∀ c, x.phase ≠ .draining c :=
  Engine.drain?_eq_none.1 noDrain x held

theorem takeAnswer_moves (noDrain : s.engine.drain? = none) (f : AnswerFrame) : Moves s (takeAnswer f s) := by
  unfold takeAnswer
  split
  next held => exact takeSelection_moves held (drain?_eq_none_of_held held noDrain) _
  next held => exact takeSample_moves held (drain?_eq_none_of_held held noDrain) _ _ _
  · exact (link_moves s _).trans (post_moves _ _)
  all_goals exact .refl

theorem attemptFailed_moves (noDrain : s.engine.drain? = none) (o : Outstanding) : Moves s (attemptFailed o s) := by
  have ended : Moves s (answered s) := link_moves s _
  rcases attemptFailed_cases s o with ⟨-, h⟩ | ⟨-, h⟩
  · rw [h]
    exact link_moves s _
  · rw [h]
    unfold transactionFailed
    dsimp only
    split
    · exact (link_moves s _).trans (post_moves _ _)
    next held =>
      exact ended.trans (completeFailure_moves rfl (by exact held) (drain?_eq_none_of_held held noDrain))
    next held =>
      exact ended.trans (completeFailure_moves rfl (by exact held) (drain?_eq_none_of_held held noDrain))
    all_goals exact ended

theorem receiveFrame_moves (tag : BitVec 2) (f : AnswerFrame) : Moves s (receiveFrame tag f s) := by
  have ended : Moves s (answered s) := link_moves s _
  have flagged : Moves s (protocolError s) := link_moves s _
  rcases receiveFrame_cases s tag f with ⟨-, h⟩ | ⟨o, -, -, ⟨-, ⟨noDrain, h⟩ | ⟨x, c, drain, h⟩⟩ |
    ⟨-, ⟨noDrain, h⟩ | ⟨x, c, drain, h⟩⟩⟩
  · rw [h]; exact link_moves s _
  · rw [h]; exact ended.trans (takeAnswer_moves (s := answered s) noDrain f)
  · obtain ⟨held, draining⟩ := Engine.drain?_eq_some.1 drain
    rw [h]; exact endDrain_moves held draining _
  · rw [h]; exact flagged.trans (attemptFailed_moves (s := protocolError s) noDrain o)
  · obtain ⟨held, draining⟩ := Engine.drain?_eq_some.1 drain
    rw [h]; exact flagged.trans (endDrain_moves (by exact held) draining _)

theorem attemptExpire_moves : Moves s (attemptExpire s) := by
  unfold attemptExpire
  split
  · exact .refl
  · split
    · split
      next drain =>
        obtain ⟨held, draining⟩ := Engine.drain?_eq_some.1 drain
        exact endDrain_moves held draining _
      next noDrain => exact attemptFailed_moves noDrain _
    · exact .refl

theorem settleExpire_moves : Moves s (settleExpire s) := by
  unfold settleExpire
  split
  · exact .refl
  next x held =>
    split
    next phase =>
      have settled : Moves s (s.withHeld { x with phase := .converting }) :=
        (Move.execution x { x with phase := .converting } held rfl rfl rfl (by simp [phase]) (by simp)).moves
      exact settled.trans (sendMessage_moves .convert _)
    · exact .refl

theorem timerExpire_moves (released : s.resetAsserted = false) (j : Fin 4) : Moves s (timerExpire j s) := by
  unfold timerExpire
  split
  next due =>
    exact (deliverTriggers_moves s _ _).tail
      (.triggers _ (by rw [deliverTriggers_resetAsserted, released]) (.expire j (by simpa using due.1)))
  · exact .refl

theorem lineSample_moves (released : s.resetAsserted = false) (l : Fin 2) (high : Bool) :
    Moves s (lineSample l high s) := by
  unfold lineSample
  split
  · exact .refl
  · have moved := (Move.triggers _ released (.level l high)).moves
    dsimp only
    split
    · exact moved.trans (deliverTriggers_moves _ _ _)
    · exact moved

theorem whenReleased_moves {f : State → State} (moves : s.resetAsserted = false → Moves s (f s)) :
    Moves s (whenReleased f s) := by
  cases released : s.resetAsserted
  · rw [whenReleased_of_released s released]
    exact moves released
  · rw [whenReleased_of_asserted s released]

end


/-! ### The commands -/

section

variable {s : State}

/-- A host command is a chain of moves when its own checks leave one. -/
theorem hostCommand_moves {c : Fin 25} {body : State → Reply}
    (leaves : s.resetAsserted = false → ∀ t, Leaves (body s) t → Moves s t) : Moves s (hostCommand c body s) :=
  hostCommand_induct (fun _ _ h => h.tail (.host _)) .refl leaves

theorem withParams_moves (p : Vector Word 6) (s : State) : Moves s (s.withParams p) := (Move.host _).moves

/-- R35–R37: SET_STOP and SET_DISABLE, whatever PARAM0 holds. -/
theorem stopReply_moves {cause : DrainCause} {t : State} (h : Leaves (stopReply cause s) t) : Moves s t := by
  obtain ⟨k, h⟩ := stopReply_leaves h
  exact stopSet_moves h

/-- A command of the directory other than SOFT_RESET is a chain of moves. -/
theorem directory_moves {c : Instr} {n : Fin 25} (code : c.code? = some n) (notSoft : c ≠ .softReset) {t : State}
    (h : exec c s = .next t) : Moves s t := by
  cases c <;> cases code
  all_goals injection h with h
  all_goals subst h
  case entryWrite =>
    refine hostCommand_moves fun _ t h => ?_
    obtain ⟨i, f, free, consistent, rfl⟩ := entryWriteReply_leaves h
    exact (Move.entry i f free consistent).moves
  case entryRead =>
    refine hostCommand_moves fun _ t h => ?_
    obtain ⟨p, rfl⟩ := entryReadReply_leaves h
    exact withParams_moves p s
  case setWrite =>
    refine hostCommand_moves fun _ t h => ?_
    obtain ⟨k, d, disabled, low, high, rfl⟩ := setWriteReply_leaves h
    exact (Move.set k _ (.describe d disabled low high)).moves
  case setRead =>
    refine hostCommand_moves fun _ t h => ?_
    obtain ⟨p, rfl⟩ := setReadReply_leaves h
    exact withParams_moves p s
  case setEnable =>
    refine hostCommand_moves fun _ t h => ?_
    obtain ⟨k, disabled, can, rfl⟩ := setEnableReply_leaves h
    exact (Move.set k _ (.enable disabled can)).moves
  case setDisable => exact hostCommand_moves fun _ t h => stopReply_moves h
  case setTrigger =>
    refine hostCommand_moves fun _ t h => ?_
    obtain ⟨k, rfl⟩ := setTriggerReply_leaves h
    exact triggerArrival_moves s k .software
  case setStop => exact hostCommand_moves fun _ t h => stopReply_moves h
  case setClear =>
    refine hostCommand_moves fun _ t h => ?_
    obtain ⟨k, halted, rfl⟩ := setClearReply_leaves h
    exact (Move.set k _ (.clear halted)).moves
  case timerWrite =>
    refine hostCommand_moves fun released t h => ?_
    obtain ⟨j, p, x, stopped, unpacked, rfl⟩ := timerWriteReply_leaves h
    exact (Move.triggers _ released (.configure j p x stopped unpacked)).moves
  case timerStart =>
    refine hostCommand_moves fun released t h => ?_
    obtain ⟨j, stopped, rfl⟩ := timerStartReply_leaves h
    exact (Move.triggers _ released (.start j stopped)).moves
  case timerStop =>
    refine hostCommand_moves fun released t h => ?_
    obtain ⟨j, rfl⟩ := timerStopReply_leaves h
    exact (Move.triggers _ released (.stop j)).moves
  case extWrite =>
    refine hostCommand_moves fun released t h => ?_
    obtain ⟨l, e, rfl⟩ := extWriteReply_leaves h
    exact (Move.triggers _ released (.edge l e)).moves
  case linkWrite =>
    refine hostCommand_moves fun _ t h => ?_
    obtain ⟨p, c, -, rfl⟩ := linkWriteReply_leaves h
    exact link_moves s _
  case linkReset =>
    refine hostCommand_moves fun _ t h => ?_
    rcases linkResetReply_leaves h with ⟨-, rfl⟩ | ⟨-, -, rfl⟩
    · exact enterResetting_moves s
    · exact link_moves s _
  case streamWrite =>
    refine hostCommand_moves fun _ t h => ?_
    obtain ⟨k, c, disabled, inRange, rfl⟩ := streamWriteReply_leaves h
    exact (Move.streams _ (.configure k c disabled inRange)).moves
  case streamRead =>
    refine hostCommand_moves fun _ t h => ?_
    obtain ⟨p, rfl⟩ := streamReadReply_leaves h
    exact withParams_moves p s
  case streamEnable =>
    refine hostCommand_moves fun _ t h => ?_
    obtain ⟨k, disabled, fits, rfl⟩ := streamEnableReply_leaves h
    exact (Move.streams _ (.enable k disabled fits)).moves
  case streamDisable =>
    refine hostCommand_moves fun _ t h => ?_
    obtain ⟨k, free, rfl⟩ := streamDisableReply_leaves h
    exact (Move.streams _ (.disable k free)).moves
  case streamFlush =>
    refine hostCommand_moves fun _ t h => ?_
    obtain ⟨k, p, rfl⟩ := streamFlushReply_leaves h
    exact (Move.streams _ (.flush k)).moves.trans (withParams_moves p _)
  case pageOpen =>
    refine hostCommand_moves fun _ t h => ?_
    obtain ⟨k, c, rest, p, noHost, full, rfl⟩ := pageOpenReply_leaves h
    exact (Move.streams _ (.openPage k c rest noHost full)).moves.trans (withParams_moves p _)
  case pageRelease =>
    refine hostCommand_moves fun _ t h => ?_
    obtain ⟨k, c, host, rfl⟩ := pageReleaseReply_leaves h
    exact (Move.streams _ (.release k c host)).moves
  case eventPop =>
    refine hostCommand_moves fun _ t h => ?_
    obtain ⟨some, rfl⟩ := eventPopReply_leaves h
    exact (Move.events _ (.pop some)).moves
  case softReset => exact absurd rfl notSoft

/-! ### Terms that can spell another command -/

theorem exec_unknownCommand_next {code : Word} {t : State} (h : exec (.unknownCommand code) s = .next t) :
    namesNoCommand code = true ∧ ∃ p, t = { s with host := { s.host with port := p } } := by
  change execUnknownCommand code s = .next t at h
  unfold execUnknownCommand at h
  split at h
  next names =>
    injection h with h
    subst h
    refine ⟨names, ?_⟩
    unfold whenReleased
    split
    · exact ⟨s.host.port, rfl⟩
    · dsimp only
      split <;> exact ⟨_, rfl⟩
  · cases h

theorem exec_otherTypeFrame_next {code : BitVec 4} {tag flags : BitVec 2} {payload : Word} {t : State}
    (h : exec (.otherTypeFrame code tag flags payload) s = .next t) :
    otherType code = true ∧ t = whenReleased (receiveFrame tag .other) s := by
  change execOtherTypeFrame code tag flags payload s = .next t at h
  unfold execOtherTypeFrame at h
  split at h
  next other => injection h with h; exact ⟨other, h.symm⟩
  · cases h

theorem exec_ignoredRegisterWrite_next {offset : BitVec 6} {value : Word} {t : State}
    (h : exec (.ignoredRegisterWrite offset value) s = .next t) : writeActs offset = false ∧ t = s := by
  change execIgnoredRegisterWrite offset value s = .next t at h
  unfold execIgnoredRegisterWrite at h
  split at h
  · cases h
  next inert => injection h with h; exact ⟨by simpa using inert, h.symm⟩

/-- An arrival that is no command of the directory is a chain of moves. -/
theorem arrival_moves {c : Instr} (code : c.code? = none) (notTick : c ≠ .timeCounterAdvance)
    (notReset : c ≠ .deviceReset) {t : State} (h : exec c s = .next t) : Moves s t := by
  cases c <;> cases code
  case unknownCommand value =>
    obtain ⟨-, p, rfl⟩ := exec_unknownCommand_next h
    exact (Move.host _).moves
  case otherTypeFrame =>
    obtain ⟨-, rfl⟩ := exec_otherTypeFrame_next h
    exact whenReleased_moves fun _ => receiveFrame_moves _ _
  case ignoredRegisterWrite =>
    obtain ⟨-, rfl⟩ := exec_ignoredRegisterWrite_next h
    exact .refl
  all_goals injection h with h
  all_goals subst h
  case deviceReset => exact absurd rfl notReset
  case timeCounterAdvance => exact absurd rfl notTick
  case paramWrite n value => exact whenReleased_moves fun _ => (Move.host _).moves
  case intenableWrite value => exact whenReleased_moves fun _ => (Move.host _).moves
  case evmaskWrite value => exact whenReleased_moves fun _ => (Move.events _ (.mask value)).moves
  case intcauseWrite value => exact whenReleased_moves fun _ => (Move.host _).moves
  case linkstatWrite value => exact whenReleased_moves fun _ => link_moves s _
  case timeloRead =>
    split
    · exact (Move.host _).moves
    next released =>
      have latched := Move.triggers _ (by simpa using released) (.latch (highHalf s.triggers.time))
      exact latched.moves.tail (.host _)
  case strmdataRead k =>
    split
    · exact (Move.host _).moves
    · exact (Move.streams _ (.read k)).moves.tail (.host _)
  case resetRelease ext0 ext1 =>
    split
    next asserted => exact (Move.resetRelease ext0 ext1 asserted).moves
    · exact .refl
  case extLevelChange l high => exact whenReleased_moves fun released => lineSample_moves released l high
  case timerUnitComplete j =>
    refine whenReleased_moves fun released => ?_
    unfold unitComplete
    split
    next due => exact (Move.triggers _ released (.unit j due.1 due.2)).moves
    · exact .refl
  case timerExpiry j => exact whenReleased_moves fun released => timerExpire_moves released j
  case settleExpiry => exact whenReleased_moves fun _ => settleExpire_moves
  case attemptTimeout => exact whenReleased_moves fun _ => attemptExpire_moves
  case flushExpiry k =>
    refine whenReleased_moves fun _ => ?_
    split
    · exact (Move.streams _ (.flush k)).moves
    · exact .refl
  case selectAck => exact whenReleased_moves fun _ => receiveFrame_moves _ _
  case sample => exact whenReleased_moves fun _ => receiveFrame_moves _ _
  case resetAck => exact whenReleased_moves fun _ => receiveFrame_moves _ _
  case start =>
    refine whenReleased_moves fun _ => ?_
    split
    next can => exact (Move.start can).moves
    · exact .refl

/-- Every command but the microsecond of the time base and the assertion of RESET is a chain of moves. -/
theorem exec_moves {c : Instr} {t : State} (h : exec c s = .next t) (notTick : c ≠ .timeCounterAdvance)
    (notReset : c ≠ .deviceReset) : Moves s t := by
  cases code : c.code? with
  | none => exact arrival_moves code notTick notReset h
  | some n =>
    by_cases soft : c = .softReset
    · subst soft
      injection h with h
      subst h
      exact whenReleased_moves fun _ => Move.softReset.moves
    · exact directory_moves code soft h

end

/-! ### What every step keeps -/

theorem Moves.keeps {P : State → Prop} (move : ∀ s t, P s → Move s t → P t) {s t : State} (h : Moves s t)
    (before : P s) : P t := by
  induction h with
  | refl => exact before
  | tail _ last ih => exact move _ _ ih last

/-- A property that the waiting commands do not touch, and that every move, the microsecond of the time base and the
assertion of RESET keep, is kept by every step. -/
theorem step_keeps {P : State → Prop} (waiting : ∀ s p, P s → P { s with pending := p })
    (move : ∀ s t, P s → Move s t → P t) (tick : ∀ s, s.resetAsserted = false → P s → P (advanceTime s))
    (reset : P { State.reset with resetAsserted := true }) (s s' : State) (before : P s) (h : step s = .next s') :
    P s' := by
  unfold step at h
  split at h
  · injection h with h
    exact h ▸ before
  next c rest _ =>
    have start : P { s with pending := rest } := waiting s rest before
    by_cases isTick : c = .timeCounterAdvance
    · subst isTick
      injection h with h
      subst h
      unfold whenReleased
      split
      · exact start
      next released => exact tick _ (by simpa using released) start
    by_cases isReset : c = .deviceReset
    · subst isReset
      injection h with h
      subst h
      exact waiting _ rest reset
    exact (exec_moves h isTick isReset).keeps move start

end Sys2Proof.Proofs
end

