-- ==== Sys2Proof/Proofs/SampleMemory.lean ====
section
/-! PROOFS. Sample memory stays in its canonical form, and each page stays in one place. Both follow from what one
hand-off and one command on pages makes of the Stream Manager. -/

namespace Sys2Proof.Proofs

open Sys2Proof.Machine Sys2Proof.Statements

/-! ### Which moves reach the Stream Manager -/

@[simp] theorem handSetRecord_streams (s : State) (k : Fin 8) (kind : RecordKind) (st : Status) (i : Fin 128)
    (v : Word) :
    (handSetRecord k kind st i v s).streams =
      (s.streams.handOff s.sets[k].desc.stream
        { kind := kind, status := st, set := k, entry := i, mark := s.sets[k].passStart, value := v }
        s.triggers.time).1 := rfl

/-- A move leaves the Stream Manager as it is, hands one record over, is a command on pages, or is a soft reset. -/
theorem move_streams {s t : State} (h : Move s t) :
    t.streams = s.streams ∨ (∃ k r, t.streams = (s.streams.handOff k r s.triggers.time).1) ∨
      StreamMove s t.streams ∨ t.streams = s.streams.softReset := by
  cases h
  case streams m change => exact .inr (.inr (.inl change))
  case record k kind st i v _ => exact .inr (.inl ⟨_, _, rfl⟩)
  case withdrawPreempted k cause _ => exact .inr (.inl ⟨_, _, rfl⟩)
  case softReset => exact .inr (.inr (.inr rfl))
  case endScan | back | next | start => exact .inl (by simp)
  all_goals exact .inl rfl

/-! ### The canonical form -/

theorem streamMove_memory {s : State} {m : StreamManager} (h : StreamMove s m) : m.memory = s.streams.memory := by
  cases h <;> rfl

theorem memoryCanonical_move (s t : State) (before : MemoryCanonical s) (h : Move s t) : MemoryCanonical t := by
  unfold MemoryCanonical at *
  rcases move_streams h with same | ⟨k, r, handed⟩ | change | soft
  · rw [same]; exact before
  · rw [handed]; exact StreamManager.handOff_wf k r _ before
  · rw [streamMove_memory change]; exact before
  · rw [soft]; exact before

/-- Settles O50: words are written by hand-offs alone, and a hand-off keeps the form. -/
theorem stepKeepsMemoryCanonical : Obligations.StepKeepsMemoryCanonical :=
  step_keeps (fun _ _ h => h) memoryCanonical_move (fun _ _ h => h) rfl


/-! ### Each page in one place -/

/-- One member of a list replaced: what a function of the members collects changes by that member's share. -/
theorem flatMap_set_perm {α β : Type} (f : α → List β) (x : α) :
    ∀ (l : List α) (i : Nat) (h : i < l.length), ((l.set i x).flatMap f ++ f l[i]).Perm (l.flatMap f ++ f x)
  | a :: rest, 0, _ => by
    simp only [List.set_cons_zero, List.flatMap_cons, List.getElem_cons_zero, List.append_assoc]
    exact List.perm_append_comm.trans ((List.perm_append_comm.append_right _).trans (by rw [List.append_assoc]))
  | a :: rest, i + 1, h => by
    simp only [List.set_cons_succ, List.flatMap_cons, List.getElem_cons_succ, List.append_assoc]
    exact (flatMap_set_perm f x rest i (by simpa using h)).append_left _

/-- A pool and one stream replaced by others that hold the same pages between them. -/
theorem allPages_put {m n : StreamManager} {k : Fin 4} {x : Stream} (streams : n.streams = put m.streams k x)
    (pages : (n.pool ++ x.pages).Perm (m.pool ++ m.streams[k].pages)) : n.allPages.Perm m.allPages := by
  have moved := flatMap_set_perm Stream.pages x m.streams.toList k.val (by simp)
  have listed : n.streams.toList = m.streams.toList.set k.val x := by rw [streams, put, Vector.toList_set]
  rw [List.perm_iff_count]
  intro page
  have moved := moved.count_eq page
  have pages := pages.count_eq page
  simp only [StreamManager.allPages, listed, List.count_append, Vector.getElem_toList, Fin.getElem_fin] at *
  omega

@[simp] theorem close_pages (x : Stream) (flushed : Bool) : (x.close flushed).pages = x.pages := by
  unfold Stream.close
  split
  · rfl
  next f filling => simp [Stream.pages, filling]

@[simp] theorem dataRead_pages (x : Stream) : x.dataRead.pages = x.pages := by
  unfold Stream.dataRead
  split <;> rfl

/-- R145: an appended record stays on its page, closed or not. -/
theorem count_pages {x : Stream} {f : FillingPage} (filling : x.filling = some f) (len : Nat) :
    (x.count f len).pages = x.pages := by
  unfold Stream.count
  dsimp only
  split <;> simp [Stream.pages, Stream.close, filling]

/-- A change of one stream that keeps the pages it holds. -/
theorem allPages_amend (m : StreamManager) (k : Fin 4) {g : Stream → Stream}
    (pages : (g m.streams[k]).pages.Perm m.streams[k].pages) : (m.amend k g).allPages.Perm m.allPages :=
  allPages_put (m := m) (n := m.amend k g) rfl (pages.append_left m.pool)

theorem append_allPages (m : StreamManager) (k : Fin 4) (r : Record) (now : Time) :
    (m.append k r now).allPages.Perm m.allPages := by
  unfold StreamManager.append
  split
  · rfl
  next f filling => exact allPages_put rfl (by rw [count_pages filling])

theorem store_allPages (m : StreamManager) (k : Fin 4) (r : Record) (now : Time) :
    (m.store k r now).allPages.Perm m.allPages := by
  unfold StreamManager.store
  split
  · exact append_allPages m k r now
  · exact (append_allPages _ k r now).trans ((allPages_amend _ k (.refl _)).trans (append_allPages m k _ now))

/-- R142, R143: the page a stream gets is the pool's or one of its own. -/
theorem obtain_allPages {m m' : StreamManager} {k : Fin 4} {now : Time} {bs : List EventBody}
    (noFilling : m.streams[k].filling = none) (h : m.obtain k now = some (m', bs)) : m'.allPages.Perm m.allPages := by
  rcases m.obtain_cases k now with ⟨page, rest, pool, -, got⟩ | ⟨-, ⟨c, rest, -, full, got⟩ | ⟨-, got⟩⟩
  · rw [got] at h
    cases h
    refine allPages_put rfl ?_
    rw [List.perm_iff_count]
    intro p
    simp only [Stream.fill, Stream.pages, pool, noFilling, List.count_append, List.count_cons, Option.map_some,
      Option.map_none, Option.toList_some, Option.toList_none, List.count_nil]
    omega
  · rw [got] at h
    cases h
    refine allPages_put rfl (List.Perm.append_left _ ?_)
    rw [List.perm_iff_count]
    intro p
    simp only [Stream.fill, Stream.pages, full, noFilling, List.count_append, List.map_cons, List.count_cons,
      Option.map_some, Option.map_none, Option.toList_some, Option.toList_none, List.count_nil]
    omega
  · rw [got] at h
    cases h

theorem handOff_allPages (m : StreamManager) (k : Fin 4) (r : Record) (now : Time) :
    (m.handOff k r now).1.allPages.Perm m.allPages := by
  rcases m.handOff_cases k r now with ⟨f, -, h⟩ | ⟨noFilling, ⟨m', bs, got, h⟩ | ⟨-, h⟩⟩
  · rw [h]; exact store_allPages m k r now
  · rw [h]; exact (store_allPages m' k r now).trans (obtain_allPages noFilling got)
  · rw [h]; exact allPages_amend m k (.refl _)

theorem streamMove_allPages {s : State} {m : StreamManager} (h : StreamMove s m) :
    m.allPages.Perm s.streams.allPages := by
  cases h with
  | configure k c _ _ => exact allPages_amend _ k (.refl _)
  | enable k _ _ => exact allPages_amend _ k (.refl _)
  | disable k _ =>
    refine allPages_put rfl ?_
    simp [StreamManager.disable, Stream.pages]
  | flush k => exact allPages_amend _ k (by rw [close_pages])
  | openPage k c rest noHost full =>
    refine allPages_amend _ k ?_
    simp only [Stream.pages, noHost, full, List.map_cons, Option.map_some, Option.map_none, Option.toList_some,
      Option.toList_none, List.append_nil]
    exact List.perm_append_comm
  | release k c host =>
    refine allPages_put rfl ?_
    simp only [StreamManager.release, Stream.pages, host, Option.map_some, Option.map_none, Option.toList_some,
      Option.toList_none, List.append_nil, List.append_assoc]
    exact List.Perm.append_left _ (List.perm_append_comm.trans (by rw [List.append_assoc]))
  | read k => exact allPages_amend _ k (by rw [dataRead_pages])

theorem softReset_allPages (m : StreamManager) : m.softReset.allPages = List.finRange 128 := by
  simp [StreamManager.allPages, StreamManager.softReset, mapAll, fullPool, Stream.pages, Stream.fresh]

theorem default_allPages : StreamManager.default.allPages = List.finRange 128 := by
  simp [StreamManager.allPages, StreamManager.default, fullPool, Stream.pages, Stream.fresh, List.replicate]

theorem pagesInOnePlace_move (s t : State) (before : PagesInOnePlace s) (h : Move s t) : PagesInOnePlace t := by
  unfold PagesInOnePlace at *
  rcases move_streams h with same | ⟨k, r, handed⟩ | change | soft
  · rw [same]; exact before
  · rw [handed]; exact (handOff_allPages _ k r _).trans before
  · exact (streamMove_allPages change).trans before
  · rw [soft, softReset_allPages]

/-- Settles O51: hand-offs and the commands on pages pass pages between the pool and one stream, or inside it, and a
soft reset puts all of them into the pool. -/
theorem stepKeepsPagesInOnePlace : Obligations.StepKeepsPagesInOnePlace :=
  step_keeps (fun _ _ h => h) pagesInOnePlace_move (fun _ _ h => h) (.of_eq default_allPages)

end Sys2Proof.Proofs
end

