-- ==== Sys2Proof/Proofs/EventsAndTimers.lean ====
section
/-! PROOFS. The Event Queue stays within its bound, and the timers' counts, states and gates stay together. -/

namespace Sys2Proof.Proofs

open Sys2Proof.Machine Sys2Proof.Statements

/-! ### The Event Queue -/

/-- `EventQueueBounded`, of the queue itself. -/
def QueueBounded (e : EventQueue) : Prop :=
  e.records.length ≤ 32 ∧ (e.records.length < 32 → e.lost = 0) ∧ e.mask &&& 0x3FFE = e.mask

theorem queueBounded_post {e : EventQueue} (now : Time) (b : EventBody) (h : QueueBounded e) :
    QueueBounded (e.post now b) := by
  obtain ⟨bound, lost, mask⟩ := h
  rcases e.post_cases now b with ⟨-, outcome⟩ | ⟨-, room, outcome⟩ | ⟨-, full, outcome⟩
  · rw [outcome]; exact ⟨bound, lost, mask⟩
  · rw [outcome]; exact ⟨by simpa using room, fun _ => lost room, mask⟩
  · rw [outcome]; exact ⟨bound, fun room => absurd room full.not_gt, mask⟩

theorem queueBounded_move {e e' : EventQueue} {now : Time} (h : QueueBounded e) (change : EventMove e now e') :
    QueueBounded e' := by
  cases change with
  | post b => exact queueBounded_post now b h
  | pop some =>
    obtain ⟨bound, -, mask⟩ := h
    obtain ⟨r, rest, records⟩ := List.exists_cons_of_ne_nil some
    rw [records, List.length_cons] at bound
    rw [eventQueue_pop_cons now records]
    refine ⟨?_, fun _ => rfl, mask⟩
    split
    · exact (Nat.le_succ _).trans bound
    · simpa using bound
  | mask value =>
    obtain ⟨bound, lost, -⟩ := h
    exact ⟨bound, lost, by rw [BitVec.and_assoc, BitVec.and_self]⟩

/-- A move posts, takes or masks events, or is a soft reset. -/
theorem move_events {s t : State} (h : Move s t) :
    (∃ bs, t.events = s.events.postAll s.triggers.time bs) ∨ EventMove s.events s.triggers.time t.events ∨
      t.events = s.events.softReset := by
  cases h
  case events e change => exact .inr (.inl change)
  case record k kind st i v _ => exact .inl ⟨_, rfl⟩
  case withdrawPreempted k cause _ => exact .inl ⟨_, rfl⟩
  case softReset => exact .inr (.inr rfl)
  case endScan | back | next | start => exact .inl ⟨[], by simp [EventQueue.postAll]⟩
  all_goals exact .inl ⟨[], rfl⟩

theorem eventQueueBounded_move (s t : State) (before : EventQueueBounded s) (h : Move s t) : EventQueueBounded t := by
  change QueueBounded t.events
  rcases move_events h with ⟨bs, posted⟩ | change | soft
  · rw [posted]
    exact EventQueue.postAll_induct s.triggers.time (fun _ b => queueBounded_post _ b) bs _ before
  · exact queueBounded_move before change
  · obtain ⟨-, -, mask⟩ := before
    rw [soft]
    exact ⟨Nat.zero_le _, fun _ => rfl, mask⟩

/-- Settles O52: a posting appends only where there is room, and counts as lost only where there is none. -/
theorem stepKeepsEventQueueBounded : Obligations.StepKeepsEventQueueBounded :=
  step_keeps (fun _ _ h => h) eventQueueBounded_move (fun _ _ h => h) ⟨Nat.zero_le _, fun _ => rfl, by simp [State.reset, EventQueue.default]⟩

/-! ### The timers -/

section

variable {u : TriggerUnit} {x : Timer}

/-- R48: what a timer holds speaks of its gate's level alone, and not of the rest of the Trigger Unit. -/
theorem timerSound_congr {u' : TriggerUnit} (h : x.Sound u) (gate : u'.gateOpen x.gate = u.gateOpen x.gate) :
    x.Sound u' where
  period := h.period
  remaining := h.remaining
  phase := h.phase
  stopped := h.stopped
  running := fun r => gate.trans (h.running r)
  gated := fun g => gate.trans (h.gated g)

/-- R48, R50: a timer loaded in a state that its gate allows. -/
theorem timerSound_loaded (h : x.Sound u) {st : TimerState} (running : st = .running → u.gateOpen x.gate = true)
    (gated : st = .gated → u.gateOpen x.gate = false) : (x.loaded st).Sound u where
  period := h.period
  remaining := ⟨h.period, le_rfl⟩
  phase := x.unit.micros_pos
  stopped := fun _ => ⟨rfl, rfl, rfl⟩
  running := running
  gated := gated

theorem timerSound_stopped (h : x.Sound u) : (x.loaded .stopped).Sound u :=
  timerSound_loaded h nofun nofun

/-- R49: what TIMER_WRITE leaves. -/
theorem timerSound_unpacked {p : Vector Word 6} (unpacked : unpackTimer? p = some x) : x.Sound u := by
  unfold unpackTimer? at unpacked
  split at unpacked
  · cases unpacked
  · split at unpacked
    · cases unpacked
    next nonzero =>
      cases unpacked
      have positive : 1 ≤ p[1].toNat := by
        have : p[1].toNat ≠ 0 := fun zero => nonzero (BitVec.eq_of_toNat_eq zero)
        omega
      exact ⟨positive, ⟨positive, le_rfl⟩, TimerUnit.micros_pos _, fun _ => ⟨rfl, rfl, rfl⟩, nofun, nofun⟩

theorem state_of_unitDue (due : x.unitDue = true) : x.state = .running := by
  simp only [Timer.unitDue, Bool.and_eq_true, decide_eq_true_eq] at due
  exact due.1

/-- R51: a unit that does not end the period. -/
theorem timerSound_unit (h : x.Sound u) (due : x.unitDue = true) (more : x.remaining ≠ 1) :
    { x with remaining := x.remaining - 1, unitsDue := x.unitsDue - 1 }.Sound u := by
  have running := state_of_unitDue due
  obtain ⟨low, high⟩ := h.remaining
  have two : x.remaining.toNat ≠ 1 := fun one => more (BitVec.eq_of_toNat_eq one)
  refine ⟨h.period, ?_, h.phase, fun st => ?_, h.running, h.gated⟩
  · dsimp only
    bv_omega
  · exact absurd (running.symm.trans st) nofun

/-- R52: expiry reloads the timer or stops it. -/
theorem timerSound_expired (h : x.Sound u) (due : x.unitDue = true) : x.expired.Sound u := by
  unfold Timer.expired
  split
  · refine ⟨h.period, ⟨h.period, le_rfl⟩, h.phase, fun st => ?_, h.running, h.gated⟩
    exact absurd ((state_of_unitDue due).symm.trans st) nofun
  · exact timerSound_stopped h

/-- R51: the microsecond. -/
theorem timerSound_tick (h : x.Sound u) : x.tick.Sound u := by
  rcases x.tick_cases with ⟨-, same⟩ | ⟨running, within, counted⟩ | ⟨running, -, counted⟩
  · rw [same]; exact h
  · rw [counted]
    refine ⟨h.period, h.remaining, within, fun st => ?_, h.running, h.gated⟩
    exact absurd (running.symm.trans st) nofun
  · rw [counted]
    refine ⟨h.period, h.remaining, TimerUnit.micros_pos _, fun st => ?_, h.running, h.gated⟩
    exact absurd (running.symm.trans st) nofun

/-- R51, R54: a gate gone low. -/
theorem timerSound_gatedNow {u' : TriggerUnit} (h : x.Sound u) (closed : u'.gateOpen x.gate = false) :
    x.gatedNow.Sound u' := by
  rcases x.gatedNow_cases with ⟨-, -, held⟩ | ⟨-, held⟩
  · rw [held]
    refine ⟨h.period, h.remaining, ?_, nofun, nofun, fun _ => closed⟩
    exact Nat.sub_lt x.unit.micros_pos Nat.one_pos
  · rw [held]
    exact ⟨h.period, h.remaining, h.phase, nofun, nofun, fun _ => closed⟩

/-- A gate is open after a line has got the level `high` by that level, when it is the line's, and as before
otherwise. -/
theorem gateOpen_level (u : TriggerUnit) (timers : Vector Timer 4) (l : Fin 2) (high : Bool) (g : Gate) :
    TriggerUnit.gateOpen
        { u with lines := amend u.lines l fun x => { x with high := high }, timers := timers } g =
      if g = .high l then high else u.gateOpen g := by
  cases g with
  | none => rfl
  | high j =>
    simp only [TriggerUnit.gateOpen, amend_get, Gate.high.injEq]
    by_cases same : l = j
    · simp [same]
    · simp [same, Ne.symm same]

/-- R51: a level of a line, and the timers it gates. -/
theorem timerSound_level (h : x.Sound u) (timers : Vector Timer 4) (l : Fin 2) (high : Bool) :
    (x.gateChange l high).Sound
      { u with lines := amend u.lines l fun x => { x with high := high }, timers := timers } := by
  have gate := gateOpen_level u timers l high x.gate
  rcases x.gateChange_cases l high with ⟨same, kept⟩ | ⟨own, gated, rfl, on⟩ | ⟨own, running, rfl, off⟩
  · rw [same]
    by_cases own : x.gate = .high l
    · rw [if_pos own] at gate
      rcases kept with other | stopped | ⟨running, rfl⟩ | ⟨gated, rfl⟩
      · exact absurd own other
      · exact ⟨h.period, h.remaining, h.phase, h.stopped, by simp [stopped], by simp [stopped]⟩
      · exact ⟨h.period, h.remaining, h.phase, h.stopped, fun _ => gate, by simp [running]⟩
      · exact ⟨h.period, h.remaining, h.phase, h.stopped, by simp [gated], fun _ => gate⟩
    · rw [if_neg own] at gate
      exact timerSound_congr h gate
  · rw [if_pos own] at gate
    rw [on]
    exact ⟨h.period, h.remaining, h.phase, nofun, fun _ => gate, nofun⟩
  · rw [if_pos own] at gate
    rw [off]
    exact timerSound_gatedNow h gate

/-- One timer changed into a sound one. -/
theorem timersSound_amend {j : Fin 4} {f : Timer → Timer} (each : ∀ t : Fin 4, u.timers[t].Sound u)
    (changed : (f u.timers[j]).Sound u) (t : Fin 4) :
    (amend u.timers j f)[t].Sound { u with timers := amend u.timers j f } := by
  rw [amend_get]
  split
  next same =>
    subst same
    exact timerSound_congr changed rfl
  · exact timerSound_congr (each t) rfl

theorem triggerMove_timersSound {u' : TriggerUnit} (change : TriggerMove u u')
    (each : ∀ t : Fin 4, u.timers[t].Sound u) (t : Fin 4) : u'.timers[t].Sound u' := by
  cases change with
  | latch w => exact timerSound_congr (each t) rfl
  | configure j p x _ unpacked => exact timersSound_amend each (timerSound_unpacked unpacked) t
  | start j _ =>
    refine timersSound_amend each (timerSound_loaded (each j) ?_ ?_) t
    all_goals split <;> simp_all
  | stop j => exact timersSound_amend each (timerSound_stopped (each j)) t
  | edge l e =>
    refine timerSound_congr (each t) ?_
    unfold TriggerUnit.gateOpen
    split
    · rfl
    · rw [amend_get]; split <;> rfl
  | unit j due more => exact timersSound_amend each (timerSound_unit (each j) due more) t
  | expire j due => exact timersSound_amend each (timerSound_expired (each j) due) t
  | level l high =>
    simp only [Fin.getElem_fin, mapAll_getElem]
    exact timerSound_level (each t) _ l high

end

/-- A move changes the Trigger Unit by one of its own, by a soft reset, or by the release of RESET. -/
theorem move_triggers {s t : State} (h : Move s t) :
    t.triggers = s.triggers ∧ t.resetAsserted = s.resetAsserted ∨
    s.resetAsserted = false ∧ t.resetAsserted = false ∧ TriggerMove s.triggers t.triggers ∨
    t.resetAsserted = s.resetAsserted ∧
      t.triggers = { s.triggers with timers := mapAll Timer.softReset s.triggers.timers } ∨
    s.resetAsserted = true ∧ t.resetAsserted = false ∧ ∃ lines, t.triggers = { s.triggers with lines := lines } := by
  cases h
  case triggers u released change => exact .inr (.inl ⟨released, released, change⟩)
  case softReset => exact .inr (.inr (.inl ⟨rfl, rfl⟩))
  case resetRelease e0 e1 asserted => exact .inr (.inr (.inr ⟨asserted, rfl, _, rfl⟩))
  case endScan | back | next | start => exact .inl (by simp)
  all_goals exact .inl ⟨rfl, rfl⟩

theorem timersSound_move (s t : State) (before : TimersSound s) (h : Move s t) : TimersSound t := by
  obtain ⟨each, asserted⟩ := before
  rcases move_triggers h with ⟨same, level⟩ | ⟨-, released, change⟩ | ⟨level, soft⟩ | ⟨held, released, lines, let_go⟩
  · exact ⟨same ▸ each, by rw [same, level]; exact asserted⟩
  · exact ⟨triggerMove_timersSound change each, by simp [released]⟩
  · have stopped : ∀ j : Fin 4, t.triggers.timers[j] = s.triggers.timers[j].loaded .stopped := by
      intro j
      simp only [soft, Fin.getElem_fin, mapAll_getElem]
      rfl
    refine ⟨fun j => ?_, fun _ j => by rw [stopped j]; rfl⟩
    rw [stopped j]
    exact timerSound_congr (timerSound_stopped (each j)) (by rw [soft]; rfl)
  · refine ⟨fun j => ?_, by simp [released]⟩
    have stopped : t.triggers.timers[j].state = .stopped := by rw [let_go]; exact asserted held j
    have sound : t.triggers.timers[j].Sound s.triggers := by rw [let_go]; exact each j
    exact ⟨sound.period, sound.remaining, sound.phase, sound.stopped,
      fun running => absurd (stopped.symm.trans running) nofun,
      fun gated => absurd (stopped.symm.trans gated) nofun⟩

theorem timersSound_tick (s : State) (released : s.resetAsserted = false) (before : TimersSound s) :
    TimersSound (advanceTime s) := by
  refine ⟨fun j => ?_, fun asserted => absurd released (ne_false_of_eq_true asserted)⟩
  simp only [advanceTime, Fin.getElem_fin, mapAll_getElem]
  exact timerSound_congr (timerSound_tick (before.each j)) rfl

theorem default_timerSound (u : TriggerUnit) : Timer.default.Sound u :=
  ⟨le_rfl, ⟨le_rfl, le_rfl⟩, Nat.one_pos, fun _ => ⟨rfl, rfl, rfl⟩, nofun, nofun⟩

theorem default_timers (j : Fin 4) : TriggerUnit.default.timers[j] = Timer.default := by
  simp [TriggerUnit.default]

/-- Settles O53: each command on a timer, its own arrivals, the levels of its gate and the microsecond keep what it
holds. -/
theorem stepKeepsTimersSound : Obligations.StepKeepsTimersSound := by
  refine step_keeps (fun _ _ h => ⟨h.each, h.asserted⟩) timersSound_move timersSound_tick ⟨fun j => ?_, fun _ j => ?_⟩
  · exact (default_timers j).symm ▸ default_timerSound _
  · exact congrArg Timer.state (default_timers j)

end Sys2Proof.Proofs
end

