-- ==== Sys2Proof/Proofs/Entries.lean ====
section
/-! PROOFS. Every entry stays valid, and the entry in progress stays equal to the engine's snapshot. -/

namespace Sys2Proof.Proofs

open Sys2Proof.Machine Sys2Proof.Statements

/-! ### What a move makes of the request the engine holds -/

/-- R80, R81: an entry's start holds the execution of the entry at the cursor, sent as a SELECT or a CONVERT. -/
theorem startEntry_held (r : Request) (s : State) :
    ∃ p, (p = .selecting ∨ p = .converting) ∧
      (startEntry r s).engine.held =
        some (fresh r (s.sets[r.set].desc.entryAt s.sets[r.set].cursor) s p) := by
  obtain ⟨entry, f, rfl, rfl, ⟨-, h⟩ | ⟨-, h⟩⟩ := startEntry_cases s r
  · exact ⟨.converting, .inr rfl, by rw [h]; rfl⟩
  · exact ⟨.selecting, .inl rfl, by rw [h]; rfl⟩

/-- R67: a start takes the head request to the engine. -/
theorem startHead_of_cons {s : State} {r : Request} {rest : List Request} (queue : s.arbiter.queue = r :: rest) :
    startHead s =
      startEntry r
        { s with
          arbiter := { s.arbiter with queue := rest }
          sets := amend s.sets r.set fun x => x.started r.kind } := by
  unfold startHead
  rw [queue]

/-- R67: the conditions of a start. -/
theorem canStart_iff {s : State} :
    s.canStart = true ↔
      s.engine.held = none ∧ s.link.state = .up ∧ s.link.resetPending = false ∧ s.arbiter.queue ≠ [] := by
  simp [State.canStart, and_assoc]

/-- What the engine executes after a move: what it did, nothing, the same entry gone on, or an entry just started. -/
theorem move_held {s t : State} (h : Move s t) :
    t.engine.held = s.engine.held ∨ t.engine.held = none ∨
    (∃ x y, s.engine.held = some x ∧ t.engine.held = some y ∧ y.request = x.request ∧ y.entry = x.entry ∧
      y.snapshot = x.snapshot) ∨
    ∃ r p, t.engine.held = some (fresh r (t.sets[r.set].desc.entryAt t.sets[r.set].cursor) t p) := by
  have started : ∀ (r : Request) (u : State),
      ∃ p, (startEntry r u).engine.held = some (fresh r
        ((startEntry r u).sets[r.set].desc.entryAt (startEntry r u).sets[r.set].cursor) (startEntry r u) p) := by
    intro r u
    obtain ⟨p, -, held⟩ := startEntry_held r u
    exact ⟨p, by rw [held]; simp [fresh]⟩
  cases h
  case execution x y held request entry snapshot _ _ =>
    exact .inr (.inr (.inl ⟨x, y, held, rfl, request, entry, snapshot⟩))
  case drain k cause x _ held => exact .inr (.inr (.inl ⟨x, _, held, rfl, rfl, rfl, rfl⟩))
  case release | halt | softReset => exact .inr (.inl rfl)
  case endScan => exact .inr (.inl (by simp))
  case back => exact .inr (.inl (returnRequest_held _ _))
  case next x y _ _ _ => exact .inr (.inr (.inr ⟨x.request, started _ _⟩))
  case start can =>
    obtain ⟨-, -, -, some⟩ := canStart_iff.1 can
    obtain ⟨r, rest, queue⟩ := List.exists_cons_of_ne_nil some
    rw [startHead_of_cons queue]
    exact .inr (.inr (.inr ⟨r, started r _⟩))
  case withdrawPreempted => exact .inl (by simp [withdraw])
  case record => exact .inl (by simp)
  all_goals exact .inl rfl

/-! ### What a move makes of the Entry Table -/

/-- A move writes one entry that is not in progress, moves the zone of the one that is, or is a soft reset. -/
theorem move_entries {s t : State} (h : Move s t) :
    t.entries = s.entries ∨
    (∃ i f, s.entryInProgress ≠ some i ∧ f.consistent = true ∧ t.engine = s.engine ∧
      t.entries = put s.entries i { fields := f, zone := .unknown }) ∨
    (∃ x z, s.engine.held = some x ∧ x.snapshot.window = true ∧ t.engine = s.engine ∧
      t.entries = amend s.entries x.entry fun e => { e with zone := z }) ∨
    t.engine.held = none ∧ t.entries = mapAll (fun e => { e with zone := .unknown }) s.entries := by
  cases h
  case entry i f free consistent => exact .inr (.inl ⟨i, f, free, consistent, rfl, rfl⟩)
  case zone x z held window => exact .inr (.inr (.inl ⟨x, z, held, window, rfl, rfl⟩))
  case softReset => exact .inr (.inr (.inr ⟨rfl, rfl⟩))
  case endScan | back | next | start => exact .inl (by simp)
  all_goals exact .inl rfl

theorem entriesSound_move (s t : State) (before : EntriesSound s) (h : Move s t) : EntriesSound t := by
  obtain ⟨consistent, zone, snapshot⟩ := before
  rcases move_entries h with same | ⟨i, f, free, valid, engine, written⟩ | ⟨x, z, held, window, engine, moved⟩ |
    ⟨idle, cleared⟩
  · refine ⟨same ▸ consistent, same ▸ zone, fun y holds => ?_⟩
    rcases move_held h with kept | idle | ⟨x, y', held, held', -, entry, frozen⟩ | ⟨r, p, started⟩
    · rw [same]; exact snapshot y (kept ▸ holds)
    · rw [idle] at holds; cases holds
    · rw [held'] at holds
      cases holds
      simp only [frozen, entry, same]
      exact snapshot x held
    · rw [started] at holds
      cases holds
      rfl
  · refine ⟨fun j => ?_, fun j => ?_, fun y holds => ?_⟩
    · rw [written, put_get]
      split
      · exact valid
      · exact consistent j
    · rw [written, put_get]
      split
      · exact fun _ => rfl
      · exact zone j
    · rw [engine] at holds
      have other : i ≠ y.entry := fun same => free (by rw [State.entryInProgress, holds, same]; rfl)
      rw [written, put_get, if_neg other]
      exact snapshot y holds
  · have fields : ∀ j : Fin 128, t.entries[j].fields = s.entries[j].fields := by
      intro j
      rw [moved, amend_get]
      split <;> rfl
    refine ⟨fun j => fields j ▸ consistent j, fun j noWindow => ?_, fun y holds => ?_⟩
    · have other : x.entry ≠ j := by
        rintro rfl
        rw [fields, ← snapshot x held, window] at noWindow
        cases noWindow
      rw [moved, amend_get, if_neg other]
      exact zone j (fields j ▸ noWindow)
    · rw [fields]
      exact snapshot y (engine ▸ holds)
  · refine ⟨fun j => ?_, fun j _ => ?_, fun y holds => ?_⟩
    · simp only [cleared, Fin.getElem_fin, mapAll_getElem]
      exact consistent j
    · simp only [cleared, Fin.getElem_fin, mapAll_getElem]
    · rw [idle] at holds; cases holds

theorem entriesSound_tick (s : State) (before : EntriesSound s) : EntriesSound (advanceTime s) := by
  obtain ⟨consistent, zone, snapshot⟩ := before
  refine ⟨consistent, zone, fun y holds => ?_⟩
  obtain ⟨x, held, rfl⟩ := Option.map_eq_some_iff.1 holds
  exact snapshot x held

theorem default_entriesSound {s : State} (entries : s.entries = .replicate 128 .default) (idle : s.engine.held = none) :
    EntriesSound s := by
  have each : ∀ i : Fin 128, s.entries[i] = .default := by simp [entries]
  exact ⟨fun i => by rw [each]; rfl, fun i _ => by rw [each]; rfl, by simp [idle]⟩

/-- Settles O54: an entry in progress is not written, a zone moves only of one whose snapshot has a window, and a
start takes its snapshot from the table. -/
theorem stepKeepsEntriesSound : Obligations.StepKeepsEntriesSound :=
  step_keeps (fun _ _ h => ⟨h.consistent, h.zone, h.snapshot⟩) entriesSound_move (fun s _ => entriesSound_tick s)
    (default_entriesSound rfl rfl)

end Sys2Proof.Proofs
end

