-- ==== Sys2Proof/Proofs/QueueOrder.lean ====
section
/-! PROOFS. The Request Queue stays in its order, and every stamp stays issued once. -/

namespace Sys2Proof.Proofs

open Sys2Proof.Machine Sys2Proof.Statements

/-! ### The order and the stamps of a queue -/

/-- R63, R64: a queue in its order, its stamps and those in `others` distinct and among the first `issued`. -/
structure Ordered (q : List Request) (others : List Nat) (issued : Nat) : Prop where
  sorted : q.Pairwise fun a b => a.precedes b = true
  distinct : (q.map Request.stamp ++ others).Nodup
  issued : ∀ n ∈ q.map Request.stamp ++ others, n < issued

/-- The stamp of the request the engine holds, if any. -/
def heldStamps (s : State) : List Nat := (s.engine.held.map fun x => x.request.stamp).toList

theorem queueOrdered_iff {s : State} : QueueOrdered s ↔ Ordered s.arbiter.queue (heldStamps s) s.arbiter.issued :=
  ⟨fun h => ⟨h.sorted, h.distinct, h.issued⟩, fun h => ⟨h.sorted, h.distinct, h.issued⟩⟩

theorem precedes_trans {a b c : Request} (ab : a.precedes b = true) (bc : b.precedes c = true) :
    a.precedes c = true := by
  rw [Request.precedes_iff] at *
  omega

theorem precedes_total {a b : Request} (distinct : a.stamp ≠ b.stamp) (not : a.precedes b = false) :
    b.precedes a = true := by
  rw [← Bool.not_eq_true, Request.precedes_iff] at not
  rw [Request.precedes_iff]
  omega

/-- R64: a request with a stamp of its own joins a queue in its order. -/
theorem pairwise_insertRequest {r : Request} : ∀ {q : List Request},
    q.Pairwise (fun a b => a.precedes b = true) → (∀ x ∈ q, r.stamp ≠ x.stamp) →
      (insertRequest r q).Pairwise fun a b => a.precedes b = true
  | [], _, _ => List.pairwise_singleton _ _
  | x :: rest, sorted, own => by
    obtain ⟨first, sorted'⟩ := List.pairwise_cons.1 sorted
    unfold insertRequest
    split
    next before =>
      refine List.pairwise_cons.2 ⟨fun y member => ?_, sorted⟩
      rcases List.mem_cons.1 member with rfl | later
      · exact before
      · exact precedes_trans before (first y later)
    next behind =>
      have after := precedes_total (own x List.mem_cons_self) (by simpa using behind)
      refine List.pairwise_cons.2
        ⟨fun y member => ?_, pairwise_insertRequest sorted' fun y later => own y (List.mem_cons_of_mem _ later)⟩
      rcases mem_insertRequest.1 member with rfl | later
      · exact after
      · exact first y later

section

variable {q : List Request} {others : List Nat} {issued : Nat}

/-- A queue in its order stays so when its stamps and the others are the same, in whatever places. -/
theorem Ordered.insert {r : Request} {others' : List Nat} {issued' : Nat} (h : Ordered q others issued)
    (same : (r.stamp :: (q.map Request.stamp ++ others')).Nodup)
    (bound : ∀ n ∈ r.stamp :: (q.map Request.stamp ++ others'), n < issued') :
    Ordered (insertRequest r q) others' issued' := by
  have places : ((insertRequest r q).map Request.stamp ++ others').Perm
      (r.stamp :: (q.map Request.stamp ++ others')) :=
    ((insertRequest_perm r q).map Request.stamp).append_right others'
  refine ⟨pairwise_insertRequest h.sorted fun x member equal => ?_, places.nodup_iff.2 same, fun n member =>
    bound n (places.mem_iff.1 member)⟩
  refine (List.nodup_cons.1 same).1 (List.mem_append_left _ ?_)
  rw [equal]
  exact List.mem_map_of_mem member

/-- R63: a request with the next stamp joins. -/
theorem Ordered.insert_new {r : Request} (h : Ordered q others issued) (stamp : r.stamp = issued) :
    Ordered (insertRequest r q) others (issued + 1) := by
  refine h.insert (List.nodup_cons.2 ⟨fun member => ?_, h.distinct⟩) fun n member => ?_
  · exact (h.issued _ member).ne stamp
  · rcases List.mem_cons.1 member with rfl | old
    · omega
    · have := h.issued n old
      omega

/-- R74: the held request joins with the stamp it has. -/
theorem Ordered.insert_held {r : Request} {n : Nat} (h : Ordered q [n] issued) (stamp : r.stamp = n) :
    Ordered (insertRequest r q) [] issued := by
  have places : (r.stamp :: (q.map Request.stamp ++ [])).Perm (q.map Request.stamp ++ [n]) := by
    rw [stamp, List.append_nil]
    exact (List.perm_append_singleton n _).symm
  exact h.insert (places.nodup_iff.2 h.distinct) fun m member => h.issued m (places.mem_iff.1 member)

/-- Requests leave the queue or the engine. -/
theorem Ordered.leave {q' : List Request} {others' : List Nat} (h : Ordered q others issued) (queue : q'.Sublist q)
    (rest : others'.Sublist others) : Ordered q' others' issued := by
  have fewer : (q'.map Request.stamp ++ others').Sublist (q.map Request.stamp ++ others) :=
    (queue.map _).append rest
  exact ⟨h.sorted.sublist queue, h.distinct.sublist fewer, fun n member => h.issued n (fewer.subset member)⟩

/-- R67: the head goes to the engine. -/
theorem Ordered.start {r : Request} (h : Ordered (r :: q) [] issued) : Ordered q [r.stamp] issued := by
  have places : (q.map Request.stamp ++ [r.stamp]).Perm ((r :: q).map Request.stamp ++ []) := by
    rw [List.append_nil, List.map_cons]
    exact List.perm_append_singleton _ _
  exact ⟨(List.pairwise_cons.1 h.sorted).2, places.nodup_iff.2 h.distinct, fun n member =>
    h.issued n (places.mem_iff.1 member)⟩

end

/-! ### The moves -/

theorem heldStamps_of_held {s : State} {x : Execution} (held : s.engine.held = some x) :
    heldStamps s = [x.request.stamp] := by
  rw [heldStamps, held]
  rfl

theorem heldStamps_of_idle {s : State} (idle : s.engine.held = none) : heldStamps s = [] := by
  rw [heldStamps, idle]
  rfl

theorem heldStamps_startEntry (r : Request) (s : State) : heldStamps (startEntry r s) = [r.stamp] := by
  obtain ⟨p, -, held⟩ := startEntry_held r s
  exact heldStamps_of_held held

/-- R31, R39: a set restarts with the next stamp, or no request is made. -/
theorem ordered_restartOrArm {s : State} (k : Fin 8)
    (h : Ordered s.arbiter.queue (heldStamps s) s.arbiter.issued) :
    Ordered (restartOrArm k s).arbiter.queue (heldStamps (restartOrArm k s)) (restartOrArm k s).arbiter.issued := by
  rcases restartOrArm_cases s k with ⟨-, r⟩ | ⟨-, r⟩
  · rw [r]
    exact h.insert_new rfl
  · rw [r]
    exact h

theorem queueOrdered_move (s t : State) (before : QueueOrdered s) (h : Move s t) : QueueOrdered t := by
  rw [queueOrdered_iff] at *
  cases h
  case execution x y held request _ _ _ _ =>
    rw [heldStamps_of_held held] at before
    rw [heldStamps_of_held (x := y) rfl, request]
    exact before
  case drain k cause x _ held =>
    rw [heldStamps_of_held held] at before
    exact before
  case request k _ => exact before.insert_new rfl
  case withdraw k cause _ => exact before.leave List.filter_sublist (.refl _)
  case withdrawPreempted k cause _ => exact before.leave List.filter_sublist (.refl _)
  case release | halt => exact before.leave (.refl _) (List.nil_sublist _)
  case endScan k n _ => exact ordered_restartOrArm k (before.leave (.refl _) (List.nil_sublist _))
  case back new x y held _ _ =>
    rw [heldStamps_of_idle (returnRequest_held _ _),
      returnRequest_of_held (s.modSet x.request.set fun _ => y) new (x := x) held]
    rw [heldStamps_of_held held] at before
    cases new
    · exact before.insert_held rfl
    · exact (before.leave (.refl _) (List.nil_sublist _)).insert_new rfl
  case next x y held _ _ =>
    rw [heldStamps_of_held held] at before
    rw [heldStamps_startEntry, startEntry_arbiter]
    exact before
  case start can =>
    obtain ⟨idle, -, -, some⟩ := canStart_iff.1 can
    obtain ⟨r, rest, queue⟩ := List.exists_cons_of_ne_nil some
    rw [heldStamps_of_idle idle, queue] at before
    rw [startHead_of_cons queue, heldStamps_startEntry, startEntry_arbiter]
    exact before.start
  case softReset => exact ⟨List.Pairwise.nil, List.nodup_nil, nofun⟩
  all_goals exact before

theorem queueOrdered_tick (s : State) (before : QueueOrdered s) : QueueOrdered (advanceTime s) := by
  rw [queueOrdered_iff] at *
  have stamps : heldStamps (advanceTime s) = heldStamps s := by
    simp only [heldStamps, advanceTime, Option.map_map]
    rfl
  rw [stamps]
  exact before

theorem default_queueOrdered {s : State} (arbiter : s.arbiter = .default) (idle : s.engine.held = none) :
    QueueOrdered s := by
  rw [queueOrdered_iff, arbiter, heldStamps_of_idle idle]
  exact ⟨List.Pairwise.nil, List.nodup_nil, nofun⟩

/-- Settles O55: a request joins at its place with a fresh stamp or with the one the engine held for it. -/
theorem stepKeepsQueueOrdered : Obligations.StepKeepsQueueOrdered :=
  step_keeps (fun _ _ h => ⟨h.sorted, h.distinct, h.issued⟩) queueOrdered_move (fun s _ => queueOrdered_tick s)
    (default_queueOrdered rfl rfl)

end Sys2Proof.Proofs
end

