-- ==== Sys2Proof/Proofs/Requests.lean ====
section
/-! PROOFS. Requests stay where the set states say they are. The invariant is read set by set: which requests of the set
stand in the queue, and whether the engine holds one of it, by the set's state. -/

namespace Sys2Proof.Proofs

open Sys2Proof.Machine Sys2Proof.Statements

/-! ### The invariant, set by set -/

/-- The requests of set `k` in a queue. -/
def ownRequests (k : Fin 8) (q : List Request) : List Request := q.filter fun r => r.set == k

/-- R79: the engine is DRAINING. -/
def drains (x : Execution) : Bool :=
  match x.phase with
  | .draining _ => true
  | .selecting | .settling _ | .converting => false

/-- The priority of the request that the engine holds for set `k`, and whether it is DRAINING. -/
def heldFor (k : Fin 8) (held : Option Execution) : Option (Fin 4 × Bool) :=
  (held.filter fun x => x.request.set == k).map fun x => (x.request.priority, drains x)

/-- R20, R62, R79: where the request of one set is, by its state. -/
def SetPlaced (x : ScanSet) (queued : List Request) (held : Option (Fin 4 × Bool)) : Prop :=
  match x.state with
  | .disabled | .armed | .halted => queued = [] ∧ held = none
  | .pending | .preempted => (∃ r, queued = [r] ∧ r.priority = x.desc.priority ∧ x.carries r.kind) ∧ held = none
  | .running => queued = [] ∧ held = some (x.desc.priority, false)
  | .stopping => queued = [] ∧ held = some (x.desc.priority, true)

/-- `RequestsPlaced`, set by set. -/
def AllPlaced (s : State) : Prop :=
  ∀ k : Fin 8, SetPlaced s.sets[k] (ownRequests k s.arbiter.queue) (heldFor k s.engine.held)

theorem mem_ownRequests {k : Fin 8} {q : List Request} {r : Request} : r ∈ ownRequests k q ↔ r ∈ q ∧ r.set = k := by
  simp [ownRequests]

theorem ownRequests_eq_nil {k : Fin 8} {q : List Request} : ownRequests k q = [] ↔ k ∉ q.map Request.set := by
  simp [ownRequests, List.filter_eq_nil_iff]

theorem length_ownRequests (k : Fin 8) (q : List Request) :
    (ownRequests k q).length = (q.map Request.set).count k := by
  rw [ownRequests, ← List.countP_eq_length_filter, List.count, List.countP_map]
  rfl

/-- R64: with at most one request for each set, the requests of a set are the one that is found. -/
theorem ownRequests_eq_singleton {k : Fin 8} {q : List Request} {r : Request} (one : (q.map Request.set).Nodup)
    (member : r ∈ q) (set : r.set = k) : ownRequests k q = [r] := by
  have atMostOne : (ownRequests k q).length ≤ 1 := by
    rw [length_ownRequests]
    exact List.nodup_iff_count_le_one.1 one k
  have found : r ∈ ownRequests k q := mem_ownRequests.2 ⟨member, set⟩
  match own : ownRequests k q with
  | [] => rw [own] at found; cases found
  | [x] => rw [own] at found; rw [List.mem_singleton.1 found]
  | x :: y :: rest => rw [own] at atMostOne; simp at atMostOne

section

variable {k : Fin 8} {x : Execution}

theorem heldFor_none : heldFor k none = none := rfl

theorem heldFor_own (set : x.request.set = k) : heldFor k (some x) = some (x.request.priority, drains x) := by
  simp [heldFor, Option.filter, set]

theorem heldFor_other (set : x.request.set ≠ k) : heldFor k (some x) = none := by
  simp [heldFor, Option.filter, set]

/-- The engine holds for a set exactly what it holds with that set. -/
theorem heldFor_eq_some {held : Option Execution} {p : Fin 4} {d : Bool} :
    heldFor k held = some (p, d) ↔
      ∃ x, held = some x ∧ x.request.set = k ∧ x.request.priority = p ∧ drains x = d := by
  cases held with
  | none => simp [heldFor_none]
  | some x =>
    by_cases set : x.request.set = k
    · simp [heldFor_own set, set]
    · simp [heldFor_other set, set]

theorem drains_eq_false : drains x = false ↔ ∀ c, x.phase ≠ .draining c := by
  unfold drains
  cases x.phase <;> simp

theorem drains_of_draining {c : DrainCause} (draining : x.phase = .draining c) : drains x = true := by
  rw [drains, draining]

theorem drain?_isSome {e : Engine} (held : e.held = some x) : e.drain?.isSome = drains x := by
  unfold Engine.drain? drains
  rw [held]
  dsimp only
  cases x.phase <;> rfl

end

theorem allPlaced_of_requestsPlaced {s : State} (h : RequestsPlaced s) : AllPlaced s := by
  intro k
  have none_queued : ¬ (s.sets[k].state = .pending ∨ s.sets[k].state = .preempted) →
      ownRequests k s.arbiter.queue = [] :=
    fun not => ownRequests_eq_nil.2 fun member => not ((h.queued k).1 member)
  have one_queued : s.sets[k].state = .pending ∨ s.sets[k].state = .preempted →
      ∃ r, ownRequests k s.arbiter.queue = [r] ∧ r.priority = s.sets[k].desc.priority ∧ s.sets[k].carries r.kind := by
    intro waits
    obtain ⟨r, member, rfl⟩ := List.mem_map.1 ((h.queued k).2 waits)
    exact ⟨r, ownRequests_eq_singleton h.one member rfl, h.carried r member⟩
  have none_held : ¬ (s.sets[k].state = .running ∨ s.sets[k].state = .stopping) →
      heldFor k s.engine.held = none := by
    intro not
    cases held : s.engine.held with
    | none => rfl
    | some x => exact heldFor_other fun set => not ((h.held k).1 (by rw [held, Option.map_some, set]))
  have one_held : s.sets[k].state = .running ∨ s.sets[k].state = .stopping →
      heldFor k s.engine.held = some (s.sets[k].desc.priority, decide (s.sets[k].state = .stopping)) := by
    intro runs
    obtain ⟨x, held, rfl⟩ := Option.map_eq_some_iff.1 ((h.held k).2 runs)
    obtain ⟨priority, draining⟩ := h.draining x held
    rw [held, heldFor_own rfl, priority, ← drain?_isSome held]
    simp only [Option.some.injEq, Prod.mk.injEq, true_and]
    rw [Bool.eq_iff_iff, draining, decide_eq_true_iff]
  unfold SetPlaced
  cases state : s.sets[k].state <;> simp only [state, reduceCtorEq, or_self, or_true, true_or, not_false_iff,
    forall_const, decide_true, decide_false, not_true_eq_false, false_imp_iff] at none_queued one_queued none_held one_held
  case disabled | armed | halted => exact ⟨none_queued, none_held⟩
  case pending | preempted => exact ⟨one_queued, none_held⟩
  case running | stopping => exact ⟨none_queued, one_held⟩


section

variable {x : ScanSet} {queued : List Request} {held : Option (Fin 4 × Bool)}

theorem setPlaced_length (h : SetPlaced x queued held) : queued.length ≤ 1 := by
  unfold SetPlaced at h
  split at h
  case h_4 | h_5 => obtain ⟨⟨r, rfl, -⟩, -⟩ := h; exact le_rfl
  all_goals obtain ⟨rfl, -⟩ := h; exact Nat.zero_le 1

/-- R20: a set has a request in the queue exactly when it is PENDING or PREEMPTED. -/
theorem setPlaced_queued (h : SetPlaced x queued held) : queued ≠ [] ↔ x.state = .pending ∨ x.state = .preempted := by
  unfold SetPlaced at h
  cases state : x.state <;> simp only [state] at h <;> simp [h.1]
  all_goals obtain ⟨⟨r, rfl, -⟩, -⟩ := h; simp

/-- R20: the engine holds the request of a set exactly when it is RUNNING or STOPPING. -/
theorem setPlaced_held (h : SetPlaced x queued held) : held ≠ none ↔ x.state = .running ∨ x.state = .stopping := by
  unfold SetPlaced at h
  cases state : x.state <;> simp only [state] at h <;> simp [h.2]

/-- R62: a queued request carries what its set says. -/
theorem setPlaced_carries (h : SetPlaced x queued held) {r : Request} (member : r ∈ queued) :
    r.priority = x.desc.priority ∧ x.carries r.kind := by
  unfold SetPlaced at h
  split at h
  case h_4 | h_5 =>
    obtain ⟨⟨r', rfl, agrees⟩, -⟩ := h
    obtain rfl := List.mem_singleton.1 member
    exact agrees
  all_goals obtain ⟨rfl, -⟩ := h; cases member

/-- R62, R79: a held request has its set's priority, and its set is STOPPING exactly while the engine drains. -/
theorem setPlaced_draining {p : Fin 4} {d : Bool} (h : SetPlaced x queued (some (p, d))) :
    p = x.desc.priority ∧ (d = true ↔ x.state = .stopping) := by
  unfold SetPlaced at h
  cases state : x.state <;> simp only [state] at h <;> simp_all

end

theorem requestsPlaced_of_allPlaced {s : State} (h : AllPlaced s) : RequestsPlaced s where
  one := List.nodup_iff_count_le_one.2 fun k => length_ownRequests k _ ▸ setPlaced_length (h k)
  queued := fun k => by rw [← setPlaced_queued (h k), ne_eq, ownRequests_eq_nil, not_not]
  carried := fun r member => setPlaced_carries (h r.set) (mem_ownRequests.2 ⟨member, rfl⟩)
  held := fun k => by
    rw [← setPlaced_held (h k)]
    cases s.engine.held with
    | none => simp [heldFor_none]
    | some x =>
      by_cases set : x.request.set = k
      · simp [heldFor_own set, set]
      · simp [heldFor_other set, set]
  draining := fun x held => by
    have placed := h x.request.set
    rw [show s.engine.held = some x from held, heldFor_own rfl] at placed
    rw [drain?_isSome held]
    exact setPlaced_draining placed

theorem requestsPlaced_iff {s : State} : RequestsPlaced s ↔ AllPlaced s :=
  ⟨allPlaced_of_requestsPlaced, requestsPlaced_of_allPlaced⟩

/-! ### The queue's requests of one set -/

theorem ownRequests_insert_other {k : Fin 8} {r : Request} (set : r.set ≠ k) (q : List Request) :
    ownRequests k (insertRequest r q) = ownRequests k q := by
  obtain ⟨front, back, rfl, inserted, -, -⟩ := insertRequest_split r q
  simp [inserted, ownRequests, set]

theorem ownRequests_insert_own {k : Fin 8} {r : Request} (set : r.set = k) {q : List Request}
    (none : ownRequests k q = []) : ownRequests k (insertRequest r q) = [r] := by
  obtain ⟨front, back, rfl, inserted, -, -⟩ := insertRequest_split r q
  rw [ownRequests, List.filter_append, List.append_eq_nil_iff] at none
  simp [inserted, ownRequests, set, none]

theorem ownRequests_remove_own (k : Fin 8) (q : List Request) : ownRequests k (removeRequest k q) = [] := by
  rw [ownRequests_eq_nil]
  simp [removeRequest]

theorem ownRequests_remove_other {j k : Fin 8} (other : j ≠ k) (q : List Request) :
    ownRequests j (removeRequest k q) = ownRequests j q := by
  rw [ownRequests, removeRequest, List.filter_filter]
  refine List.filter_congr fun r _ => ?_
  by_cases set : r.set = j
  · simp [set, other]
  · simp [set]


/-! ### One set at a time -/

section

variable {x y : ScanSet} {queued : List Request} {held : Option (Fin 4 × Bool)}

/-- What the placement of a set's request rests on. -/
theorem setPlaced_congr (h : SetPlaced x queued held) (state : y.state = x.state)
    (priority : y.desc.priority = x.desc.priority)
    (saved : x.state = .preempted → y.cursor = x.cursor ∧ y.passCount = x.passCount ∧ y.passStart = x.passStart) :
    SetPlaced y queued held := by
  unfold SetPlaced at *
  rw [state, priority]
  split at h
  case h_4 pending =>
    obtain ⟨⟨r, own, prio, carries⟩, none⟩ := h
    refine ⟨⟨r, own, prio, ?_⟩, none⟩
    unfold ScanSet.carries at *
    rw [state]
    cases kind : r.kind with
    | new => exact pending
    | resumed c p m => rw [kind, pending] at carries; exact absurd carries.1 nofun
  case h_5 preempted =>
    obtain ⟨⟨r, own, prio, carries⟩, none⟩ := h
    refine ⟨⟨r, own, prio, ?_⟩, none⟩
    obtain ⟨cursor, passCount, passStart⟩ := saved preempted
    unfold ScanSet.carries at *
    rw [state, cursor, passCount, passStart]
    exact carries
  all_goals exact h

/-- R20: a set with no request anywhere. -/
def Resting (st : SetState) : Prop := st = .disabled ∨ st = .armed ∨ st = .halted

theorem setPlaced_resting (resting : Resting x.state) : SetPlaced x queued held ↔ queued = [] ∧ held = none := by
  unfold SetPlaced
  rcases resting with state | state | state <;> rw [state]

theorem setState_resting (cause : DrainCause) : Resting cause.setState := by
  cases cause
  · exact .inr (.inl rfl)
  · exact .inl rfl

theorem setPlaced_of_waiting (waits : x.state = .pending ∨ x.state = .preempted) (h : SetPlaced x queued held) :
    held = none := by
  unfold SetPlaced at h
  rcases waits with state | state <;> rw [state] at h <;> exact h.2

theorem setPlaced_of_running (running : x.state = .running) :
    SetPlaced x queued held ↔ queued = [] ∧ held = some (x.desc.priority, false) := by
  unfold SetPlaced
  rw [running]

theorem setPlaced_of_stopping (stopping : x.state = .stopping) :
    SetPlaced x queued held ↔ queued = [] ∧ held = some (x.desc.priority, true) := by
  unfold SetPlaced
  rw [stopping]

/-- R24: a set that has just got a NEW request. -/
theorem setPlaced_new {r : Request} (pending : x.state = .pending) (priority : r.priority = x.desc.priority)
    (new : r.kind = .new) : SetPlaced x [r] none := by
  unfold SetPlaced
  rw [pending]
  refine ⟨⟨r, rfl, priority, ?_⟩, rfl⟩
  rw [new]
  exact pending

/-- R74: a set whose request has been returned with its run context saved. -/
theorem setPlaced_returned {r : Request} (stamp : Nat) (priority : r.priority = y.desc.priority) :
    SetPlaced { y with state := .preempted } [r.returned y stamp] none :=
  ⟨⟨_, rfl, priority, rfl, rfl, rfl, rfl⟩, rfl⟩

/-- R28, R29: an advance keeps the state and the descriptor of a set. -/
theorem Advanced.state (advanced : Advanced x y) : y.state = x.state := by cases advanced <;> rfl

theorem Advanced.desc (advanced : Advanced x y) : y.desc = x.desc := by cases advanced <;> rfl

/-- R18–R25, R40: what becomes of a set with its request left where it is. -/
theorem setMove_placed {s : State} {k : Fin 8} (change : SetMove s k y)
    (h : SetPlaced s.sets[k] queued held) : SetPlaced y queued held := by
  cases change with
  | describe d disabled _ _ =>
    exact (setPlaced_resting (x := { s.sets[k] with desc := d }) (.inl disabled)).2
      ((setPlaced_resting (.inl disabled)).1 h)
  | enable disabled _ => exact (setPlaced_resting (.inr (.inl rfl))).2 ((setPlaced_resting (.inl disabled)).1 h)
  | clear halted =>
    exact (setPlaced_resting (.inr (.inl rfl))).2 ((setPlaced_resting (.inr (.inr halted))).1 h)
  | disable resting => exact (setPlaced_resting (.inl rfl)).2 ((setPlaced_resting (.inr resting)).1 h)
  | defer _ _ => exact setPlaced_congr h rfl rfl fun _ => ⟨rfl, rfl, rfl⟩
  | undefer => exact setPlaced_congr h rfl rfl fun _ => ⟨rfl, rfl, rfl⟩
  | overrun n => exact setPlaced_congr h rfl rfl fun _ => ⟨rfl, rfl, rfl⟩

end

section

variable {s : State} {k : Fin 8}

/-- One set changed, with the requests of the others left where they are. -/
theorem AllPlaced.amend (before : AllPlaced s) (k : Fin 8) {f : ScanSet → ScanSet} {q : List Request}
    {held : Option Execution} (queue : ∀ j, j ≠ k → ownRequests j q = ownRequests j s.arbiter.queue)
    (engine : ∀ j, j ≠ k → heldFor j held = heldFor j s.engine.held)
    (self : SetPlaced (f s.sets[k]) (ownRequests k q) (heldFor k held)) (j : Fin 8) :
    SetPlaced (Machine.amend s.sets k f)[j] (ownRequests j q) (heldFor j held) := by
  rw [amend_get]
  split
  next same => subst same; exact self
  next other => rw [queue j (Ne.symm other), engine j (Ne.symm other)]; exact before j

/-- R20: where requests are in place, a set that `Runs` is RUNNING or STOPPING, and the engine holds its request. -/
theorem runs_placed (before : AllPlaced s) (runs : Runs s k) :
    ∃ x, s.engine.held = some x ∧ x.request.set = k ∧ ownRequests k s.arbiter.queue = [] ∧
      (s.sets[k].state = .running ∨ s.sets[k].state = .stopping) := by
  have here := before k
  have active : s.sets[k].state = .running ∨ s.sets[k].state = .stopping := by
    rcases runs with running | ⟨x, held, set⟩
    · exact .inl running
    · rw [held, heldFor_own set] at here
      exact (setPlaced_held here).1 (by simp)
  rcases active with running | stopping
  · obtain ⟨own, held⟩ := (setPlaced_of_running running).1 here
    obtain ⟨x, holds, set, -⟩ := heldFor_eq_some.1 held
    exact ⟨x, holds, set, own, .inl running⟩
  · obtain ⟨own, held⟩ := (setPlaced_of_stopping stopping).1 here
    obtain ⟨x, holds, set, -⟩ := heldFor_eq_some.1 held
    exact ⟨x, holds, set, own, .inr stopping⟩

/-- R79: the set of a request that the engine holds and does not drain is RUNNING. -/
theorem held_running {x : Execution} (before : AllPlaced s) (held : s.engine.held = some x)
    (notDraining : ∀ c, x.phase ≠ .draining c) :
    s.sets[x.request.set].state = .running ∧ ownRequests x.request.set s.arbiter.queue = [] ∧
      x.request.priority = s.sets[x.request.set].desc.priority := by
  have here := before x.request.set
  obtain ⟨-, -, -, own, active⟩ := runs_placed before (.inr ⟨x, held, rfl⟩)
  rw [held, heldFor_own rfl] at here
  obtain ⟨priority, draining⟩ := setPlaced_draining here
  refine ⟨active.resolve_right fun stopping => ?_, own, priority⟩
  exact absurd (draining.2 stopping) (by rw [drains_eq_false.2 notDraining]; exact nofun)

/-- The engine's request leaves it: no other set has one there. -/
theorem heldFor_dropped {x : Execution} (held : s.engine.held = some x) (set : x.request.set = k) (j : Fin 8)
    (other : j ≠ k) : heldFor j none = heldFor j s.engine.held := by
  rw [held, heldFor_none, heldFor_other (by rw [set]; exact other.symm)]

/-- R80: an entry's start leaves its request with the engine, which does not drain. -/
theorem heldFor_startEntry_own (r : Request) (s : State) :
    heldFor r.set (startEntry r s).engine.held = some (r.priority, false) := by
  obtain ⟨p, sends, held⟩ := startEntry_held r s
  rw [held, heldFor_own (by rfl)]
  rcases sends with rfl | rfl <;> rfl

theorem heldFor_startEntry_other {r : Request} {j : Fin 8} (other : r.set ≠ j) (s : State) :
    heldFor j (startEntry r s).engine.held = none := by
  obtain ⟨p, -, held⟩ := startEntry_held r s
  rw [held, heldFor_other (by exact other)]

/-- The set that runs lets go of its request and rests. -/
theorem AllPlaced.drop (before : AllPlaced s) (runs : Runs s k) {f : ScanSet → ScanSet}
    (resting : Resting (f s.sets[k]).state) (j : Fin 8) :
    SetPlaced (Machine.amend s.sets k f)[j] (ownRequests j s.arbiter.queue) (heldFor j none) := by
  obtain ⟨x, held, set, own, -⟩ := runs_placed before runs
  exact before.amend k (fun _ _ => rfl) (heldFor_dropped held set) ((setPlaced_resting resting).2 ⟨own, rfl⟩) j

/-- R35: a waiting request is withdrawn and its set rests. -/
theorem AllPlaced.withdraw (before : AllPlaced s) (waits : s.sets[k].state = .pending ∨ s.sets[k].state = .preempted)
    {f : ScanSet → ScanSet} (resting : Resting (f s.sets[k]).state) (j : Fin 8) :
    SetPlaced (Machine.amend s.sets k f)[j] (ownRequests j (removeRequest k s.arbiter.queue))
      (heldFor j s.engine.held) :=
  before.amend k (fun _ other => ownRequests_remove_other other _) (fun _ _ => rfl)
    ((setPlaced_resting resting).2 ⟨ownRequests_remove_own k _, setPlaced_of_waiting waits (before k)⟩) j

theorem amend_amend {α : Type} {n : Nat} (v : Vector α n) (i : Fin n) (f g : α → α) :
    amend (amend v i f) i g = amend v i fun x => g (f x) := by
  simp [amend]

/-- A set gets a NEW request and is PENDING; its request has left the engine, or it had none. -/
theorem AllPlaced.request (before : AllPlaced s) {f : ScanSet → ScanSet} {held : Option Execution} {r : Request}
    (engine : ∀ j, j ≠ k → heldFor j held = heldFor j s.engine.held)
    (own : ownRequests k s.arbiter.queue = []) (none : heldFor k held = none) (set : r.set = k)
    (pending : (f s.sets[k]).state = .pending) (priority : r.priority = (f s.sets[k]).desc.priority)
    (new : r.kind = .new) (j : Fin 8) :
    SetPlaced (Machine.amend s.sets k f)[j] (ownRequests j (insertRequest r s.arbiter.queue)) (heldFor j held) := by
  refine before.amend k (fun j other => ownRequests_insert_other (by rw [set]; exact other.symm) _) engine ?_ j
  rw [ownRequests_insert_own set own, none]
  exact setPlaced_new pending priority new

theorem allPlaced_endScan (before : AllPlaced s) (runs : Runs s k) (n : Word) :
    AllPlaced
      (restartOrArm k (dropHeld (s.modSet k fun x => { x with completed := n, cursor := 0, passCount := 0 }))) := by
  intro j
  rcases restartOrArm_cases (dropHeld (s.modSet k fun x => { x with completed := n, cursor := 0, passCount := 0 })) k
    with ⟨-, restarted⟩ | ⟨-, armed⟩
  · obtain ⟨x, held, set, own, -⟩ := runs_placed before runs
    rw [restarted]
    simp only [makeRequest_sets, modSet_sets, dropHeld_sets, amend_amend, makeRequest_arbiter, makeRequest_engine,
      modSet_arbiter, modSet_engine, dropHeld_arbiter, dropHeld_engine]
    refine before.request (heldFor_dropped held set) own rfl rfl rfl ?_ rfl j
    simp
  · rw [armed]
    simp only [modSet_sets, dropHeld_sets, amend_amend, modSet_arbiter, modSet_engine, dropHeld_arbiter,
      dropHeld_engine]
    exact before.drop runs (.inr (.inl rfl)) j

/-- R74: the held request goes back to the queue. -/
theorem allPlaced_back {x : Execution} {y : ScanSet} (before : AllPlaced s) (held : s.engine.held = some x)
    (notDraining : ∀ c, x.phase ≠ .draining c) (advanced : Advanced s.sets[x.request.set] y) (new : Bool) :
    AllPlaced (returnRequest new (s.modSet x.request.set fun _ => y)) := by
  obtain ⟨running, own, priority⟩ := held_running before held notDraining
  intro j
  rw [returnRequest_of_held (s.modSet x.request.set fun _ => y) new (x := x) held]
  simp only [modSet_sets, dropHeld_sets, amend_amend, modSet_arbiter, dropHeld_arbiter, dropHeld_engine]
  refine before.amend x.request.set (fun j other => ownRequests_insert_other (by exact other.symm) _)
    (heldFor_dropped held rfl) ?_ j
  rw [ownRequests_insert_own (by rfl) own, amend_get, if_pos rfl]
  exact setPlaced_returned _ (by rw [priority, advanced.desc])

/-- R67: the head request goes to the engine, and its set is RUNNING. -/
theorem allPlaced_start {r : Request} {rest : List Request} (before : AllPlaced s)
    (queue : s.arbiter.queue = r :: rest) (idle : s.engine.held = none) : AllPlaced (startHead s) := by
  have own : r ∈ ownRequests r.set s.arbiter.queue := mem_ownRequests.2 ⟨by rw [queue]; exact List.mem_cons_self, rfl⟩
  have priority := (setPlaced_carries (before r.set) own).1
  have alone : ownRequests r.set rest = [] := by
    have short := setPlaced_length (before r.set)
    rw [queue, ownRequests, List.filter_cons, if_pos (by simp), List.length_cons] at short
    exact List.length_eq_zero_iff.1 (Nat.le_zero.1 (Nat.le_of_succ_le_succ short))
  intro j
  rw [startHead_of_cons queue, startEntry_sets, startEntry_arbiter]
  refine before.amend r.set (fun j other => ?_) (fun j other => ?_) ?_ j
  · rw [queue, ownRequests, ownRequests, List.filter_cons, if_neg (by simpa using other.symm)]
  · rw [idle, heldFor_startEntry_other other.symm, heldFor_none]
  · rw [alone, heldFor_startEntry_own]
    refine (setPlaced_of_running ?_).2 ⟨rfl, ?_⟩
    · cases r.kind <;> rfl
    · rw [priority]
      cases r.kind <;> rfl

theorem allPlaced_of_idle (queue : s.arbiter.queue = []) (idle : s.engine.held = none)
    (resting : ∀ j : Fin 8, Resting s.sets[j].state) : AllPlaced s := fun j => by
  rw [queue, idle]
  exact (setPlaced_resting (resting j)).2 ⟨rfl, rfl⟩

end

section

variable {s t : State}

/-- An execution that goes on with the same request, draining or not as before. -/
theorem heldFor_same {x y : Execution} (request : y.request = x.request) (drain : drains y = drains x) (j : Fin 8) :
    heldFor j (some y) = heldFor j (some x) := by
  simp only [heldFor, Option.filter, request]
  split <;> simp [request, drain]

/-- R67, R92: the next entry of the set that runs starts. -/
theorem allPlaced_next {x : Execution} {y : ScanSet} (before : AllPlaced s) (held : s.engine.held = some x)
    (notDraining : ∀ c, x.phase ≠ .draining c) (advanced : Advanced s.sets[x.request.set] y) :
    AllPlaced (startEntry x.request (s.modSet x.request.set fun _ => y)) := by
  obtain ⟨running, own, priority⟩ := held_running before held notDraining
  intro j
  rw [startEntry_sets, startEntry_arbiter]
  refine before.amend x.request.set (fun _ _ => rfl) (fun j other => ?_) ?_ j
  · rw [held, heldFor_startEntry_other other.symm, heldFor_other other.symm]
  · rw [own, heldFor_startEntry_own]
    exact (setPlaced_of_running (advanced.state.trans running)).2 ⟨rfl, by rw [advanced.desc, priority]⟩

theorem allPlaced_drain {k : Fin 8} {cause : DrainCause} {x : Execution} (before : AllPlaced s)
    (running : s.sets[k].state = .running) (held : s.engine.held = some x) :
    AllPlaced ((s.modSet k fun y => { y with deferred := false, state := .stopping }).withHeld
      { x with phase := .draining cause }) := by
  obtain ⟨x', held', set, own, -⟩ := runs_placed before (.inl running)
  obtain rfl : x = x' := Option.some.inj (held.symm.trans held')
  obtain ⟨-, holds⟩ := (setPlaced_of_running running).1 (before k)
  rw [held, heldFor_own set, Option.some.injEq, Prod.mk.injEq] at holds
  intro j
  refine before.amend k (fun _ _ => rfl) (fun j other => ?_) ?_ j
  · rw [held, heldFor_other (by rw [set]; exact other.symm)]
    exact heldFor_other (by exact set ▸ other.symm)
  · rw [State.withHeld, heldFor_own (by exact set), drains_of_draining rfl]
    exact (setPlaced_of_stopping rfl).2 ⟨own, by rw [holds.1]⟩

theorem requestsPlaced_move (s t : State) (before : RequestsPlaced s) (h : Move s t) : RequestsPlaced t := by
  rw [requestsPlaced_iff] at *
  cases h
  case execution x y held request _ _ notDraining notDraining' =>
    intro j
    rw [State.withHeld, heldFor_same request
      ((drains_eq_false.2 notDraining').trans (drains_eq_false.2 notDraining).symm) j, ← held]
    exact before j
  case set k y change =>
    exact before.amend k (fun _ _ => rfl) (fun _ _ => rfl) (setMove_placed change (before k))
  case request k armed =>
    obtain ⟨own, none⟩ := (setPlaced_resting (.inr (.inl armed))).1 (before k)
    exact before.request (fun _ _ => rfl) own none rfl rfl rfl rfl
  case withdraw k cause pending => exact before.withdraw (.inl pending) (setState_resting cause)
  case withdrawPreempted k cause preempted =>
    intro j
    simp only [withdraw, handHostStop, handSetRecord_sets, amend_amend]
    exact before.withdraw (.inr preempted) (setState_resting cause) j
  case drain k cause x running held => exact allPlaced_drain before running held
  case record k kind st i v runs =>
    obtain ⟨x, -, -, -, active⟩ := runs_placed before runs
    refine before.amend k (fun _ _ => rfl) (fun _ _ => rfl) (setPlaced_congr (before k) rfl rfl fun preempted => ?_)
    rcases active with running | stopping
    · rw [running] at preempted; cases preempted
    · rw [stopping] at preempted; cases preempted
  case release k cause stops => exact before.drop stops.runs (setState_resting cause)
  case endScan k n runs => exact allPlaced_endScan before runs n
  case halt k runs => exact before.drop runs (.inr (.inr rfl))
  case back new x y held notDraining advanced => exact allPlaced_back before held notDraining advanced new
  case next x y held notDraining advanced => exact allPlaced_next before held notDraining advanced
  case start can =>
    obtain ⟨idle, -, -, some⟩ := canStart_iff.1 can
    obtain ⟨r, rest, queue⟩ := List.exists_cons_of_ne_nil some
    exact allPlaced_start before queue idle
  case softReset => exact allPlaced_of_idle rfl rfl fun j => by simp [softReset, Resting, ScanSet.fresh]
  all_goals exact before

theorem requestsPlaced_tick (s : State) (before : RequestsPlaced s) : RequestsPlaced (advanceTime s) := by
  rw [requestsPlaced_iff] at *
  intro j
  have same : heldFor j (advanceTime s).engine.held = heldFor j s.engine.held := by
    cases held : s.engine.held with
    | none => simp [advanceTime, held]
    | some x =>
      simp only [advanceTime, held, Option.map_some]
      refine heldFor_same (x := x) (y := { x with phase := x.phase.tick }) rfl ?_ j
      unfold drains
      cases phase : x.phase <;> simp [Phase.tick]
  rw [same]
  exact before j

theorem default_requestsPlaced (arbiter : s.arbiter = .default) (idle : s.engine.held = none)
    (sets : s.sets = .replicate 8 (.fresh .default)) : RequestsPlaced s := by
  rw [requestsPlaced_iff]
  refine allPlaced_of_idle (by rw [arbiter]; rfl) idle fun j => ?_
  rw [sets]
  exact .inl (by simp [ScanSet.fresh])

/-- Settles O56: each move takes the request of one set from one place to the place its new state gives. -/
theorem stepKeepsRequestsPlaced : Obligations.StepKeepsRequestsPlaced :=
  step_keeps (fun _ _ h => ⟨h.one, h.queued, h.carried, h.held, h.draining⟩) requestsPlaced_move
    (fun s _ => requestsPlaced_tick s) (default_requestsPlaced rfl rfl rfl)

end

end Sys2Proof.Proofs
end

