-- ==== Sys2Proof/Proofs/StreamRules.lean ====
section
/-! PROOFS. What one stream holds, through a hand-off and through each command on streams and pages. -/

namespace Sys2Proof.Proofs

open Sys2Proof.Machine Sys2Proof.Statements

/-! ### The sequences of the full queue and the filling page -/

/-- R148: sequences one after another, oldest first, up to the one before `next`. -/
def InOrder (l : List Word) (next : Word) : Prop :=
  ∀ i, (h : i < l.length) → l[i] + BitVec.ofNat 16 (l.length - i) = next

section

variable {l : List Word} {next : Word}

theorem inOrder_nil : InOrder [] next := nofun

/-- The next sequence is issued. -/
theorem InOrder.push (h : InOrder l next) : InOrder (l ++ [next]) (next + 1) := by
  intro i bound
  rw [List.length_append, List.length_singleton] at bound ⊢
  by_cases last : i < l.length
  · rw [List.getElem_append_left last, ← h i last, show l.length + 1 - i = l.length - i + 1 by omega,
      BitVec.ofNat_add, BitVec.add_assoc]
    rfl
  · obtain rfl : i = l.length := by omega
    simp

/-- The oldest page leaves. -/
theorem InOrder.tail {w : Word} (h : InOrder (w :: l) next) : InOrder l next := by
  intro i bound
  have := h (i + 1) (by simpa using bound)
  simpa [Nat.add_sub_add_right] using this

end

/-! ### Pages and their counts -/

theorem recordLength_cases (ts : Bool) : recordLength ts = 2 ∨ recordLength ts = 4 := by
  cases ts
  · exact .inl rfl
  · exact .inr rfl

theorem words_length (r : Record) (ts : Bool) (now : Time) : (r.words ts now).length = recordLength ts := by
  cases ts <;> rfl

/-- R145: a page of whole records that is not full has room for one more. -/
theorem room_for_record {ts : Bool} {words records : Nat} (whole : words = records * recordLength ts)
    (below : words < 64) : words + recordLength ts ≤ 64 := by
  rcases recordLength_cases ts with len | len <;> rw [len] at whole ⊢ <;> omega

/-- R148, R152: a closed page. -/
def ClosedSound (ts : Bool) (c : ClosedPage) : Prop :=
  countsFit ts c.words c.records ∧ (c.flushed = false ↔ c.words = Config.pageWords)

/-- What a stream holds besides its filling page and its loss count. -/
structure Held (x : Stream) : Prop where
  ranges : StreamConfigInRange x.config
  reachable : x.enabled = true → x.config.threshold ≤ x.config.quota
  quota : x.pages.length ≤ x.config.quota
  idle : x.enabled = false → x.pages = []
  full : ∀ c ∈ x.full, ClosedSound x.config.timestamps c
  host : ∀ c ∈ x.host, ClosedSound x.config.timestamps c ∧ x.readPointer ≤ c.words
  noHost : x.host = none → x.readPointer = 0
  sequence : InOrder x.sequences x.nextSeq

/-- A stream with a filling page of whole records that is not full; it need not hold one yet. -/
structure Opened (x : Stream) (f : FillingPage) : Prop where
  held : Held x
  filling : x.filling = some f
  whole : f.words = f.records * recordLength x.config.timestamps
  below : f.words < 64

section

variable {x : Stream} {f : FillingPage}

theorem held_of_sound (h : x.Sound) : Held x :=
  ⟨h.ranges, h.reachable, h.quota, h.idle, h.full,
    fun c member => ⟨⟨(h.host c member).1, (h.host c member).2.1⟩, (h.host c member).2.2⟩, h.noHost, h.sequence⟩

theorem opened_of_sound (h : x.Sound) (filling : x.filling = some f) : Opened x f :=
  ⟨held_of_sound h, filling, (h.filling f filling).1.2.1, (h.filling f filling).2⟩

/-- A stream with no filling page. -/
theorem Held.sound_of_none (h : Held x) (filling : x.filling = none) : x.Sound where
  ranges := h.ranges
  reachable := h.reachable
  quota := h.quota
  idle := h.idle
  filling := by simp [filling]
  full := h.full
  host := fun c member => ⟨(h.host c member).1.1, (h.host c member).1.2, (h.host c member).2⟩
  noHost := h.noHost
  lossWritten := by simp [filling]
  sequence := h.sequence

/-- A stream whose filling page holds a record. -/
theorem Opened.sound (h : Opened x f) (some : 1 ≤ f.records) (written : x.loss = 0) : x.Sound where
  ranges := h.held.ranges
  reachable := h.held.reachable
  quota := h.held.quota
  idle := h.held.idle
  filling := by
    intro g filling
    obtain rfl : f = g := Option.some.inj (h.filling.symm.trans filling)
    exact ⟨⟨some, h.whole, h.below.le⟩, h.below⟩
  full := h.held.full
  host := fun c member => ⟨(h.held.host c member).1.1, (h.held.host c member).1.2, (h.held.host c member).2⟩
  noHost := h.held.noHost
  lossWritten := fun _ => written
  sequence := h.held.sequence

/-- R148: a page that holds a record, flushed or full, is closed. -/
theorem Held.close {flushed : Bool} (h : Held x) (filling : x.filling = some f)
    (counts : countsFit x.config.timestamps f.words f.records) (full : flushed = false ↔ f.words = 64) :
    (x.close flushed).Sound := by
  have pages : (x.close flushed).pages = x.pages := close_pages x flushed
  have closed : x.close flushed =
      { x with
        filling := none
        full := x.full ++
          [{ page := f.page, seq := f.seq, words := f.words, records := f.records, flushed := flushed }] } := by
    simp [Stream.close, filling]
  rw [closed] at pages ⊢
  refine Held.sound_of_none ⟨h.ranges, h.reachable, pages ▸ h.quota, pages ▸ h.idle, fun c member => ?_, h.host,
    h.noHost, ?_⟩ rfl
  · rcases List.mem_append.1 member with old | new
    · exact h.full c old
    · obtain rfl := List.mem_singleton.1 new
      exact ⟨counts, full⟩
  · have := h.sequence
    simpa [Stream.sequences, filling] using this

/-- R145: a record on the filling page, which does not fill it. -/
theorem Opened.count_open (h : Opened x f) (room : f.words + recordLength x.config.timestamps ≠ 64) (loss : Word) :
    Opened { x.count f (recordLength x.config.timestamps) with loss := loss }
      { f with words := f.words + recordLength x.config.timestamps, records := f.records + 1 } := by
  have fits := room_for_record h.whole h.below
  have pages := count_pages h.filling (recordLength x.config.timestamps)
  have counted : x.count f (recordLength x.config.timestamps) =
      { x with
        filling := some { f with words := f.words + recordLength x.config.timestamps, records := f.records + 1 }
        written := x.written + 1 } := by
    simp [Stream.count, room]
  rw [counted] at pages ⊢
  refine ⟨⟨h.held.ranges, h.held.reachable, ?_, ?_, h.held.full, h.held.host, h.held.noHost, ?_⟩, rfl, ?_, ?_⟩
  · exact pages ▸ h.held.quota
  · exact fun disabled => pages.trans (h.held.idle disabled)
  · have := h.held.sequence
    rw [Stream.sequences, h.filling] at this
    exact this
  · simp only [h.whole, Nat.succ_mul]
  · simp only; omega

/-- R145: a record on the filling page, which closes it when it is full. -/
theorem Opened.count_sound (h : Opened x f) (written : x.loss = 0) :
    (x.count f (recordLength x.config.timestamps)).Sound := by
  by_cases room : f.words + recordLength x.config.timestamps = 64
  · have counts : Stream.count x f (recordLength x.config.timestamps) = Stream.close
        { x with
          filling := some { f with words := f.words + recordLength x.config.timestamps, records := f.records + 1 }
          written := x.written + 1 } false := by
      simp [Stream.count, room]
    rw [counts]
    refine Held.close
      (f := { f with words := f.words + recordLength x.config.timestamps, records := f.records + 1 })
      ⟨h.held.ranges, h.held.reachable, ?_, ?_, h.held.full, h.held.host, h.held.noHost, ?_⟩ rfl
      ⟨Nat.succ_pos _, ?_, room.le⟩ (iff_of_true rfl room)
    · have := h.held.quota
      simpa [Stream.pages, h.filling] using this
    · have := h.held.idle
      simpa [Stream.pages, h.filling] using this
    · have := h.held.sequence
      rw [Stream.sequences, h.filling] at this
      exact this
    · simp only [h.whole, Nat.succ_mul]
  · have stays : { x.count f (recordLength x.config.timestamps) with loss := x.loss } =
        x.count f (recordLength x.config.timestamps) := by
      simp [Stream.count, room]
    exact stays ▸ (h.count_open room x.loss).sound (Nat.succ_pos _) (by exact written)

/-! ### Where a filling page comes from -/

/-- R142: a page of the pool. -/
theorem Held.fill (h : Held x) (enabled : x.enabled = true) (filling : x.filling = none)
    (room : x.pages.length < x.config.quota) (page : Fin 128) (now : Time) :
    Opened (x.fill page now) { page := page, seq := x.nextSeq, words := 0, records := 0, openTime := now } where
  held := by
    refine ⟨h.ranges, h.reachable, ?_, fun disabled => ?_, h.full, h.host, h.noHost, ?_⟩
    · simp only [Stream.pages, filling, Stream.fill, Option.map_none, Option.toList_none, Option.map_some,
        Option.toList_some, List.length_append, List.length_nil, List.length_singleton] at room ⊢
      omega
    · exact absurd (enabled.symm.trans disabled) nofun
    · have := h.sequence
      rw [Stream.sequences, filling, Option.map_none, Option.toList_none, List.append_nil] at this
      exact this.push
  filling := rfl
  whole := (Nat.zero_mul _).symm
  below := Nat.succ_pos _

/-- R143: the oldest full page, its records counted as lost. -/
theorem Held.reclaim {c : ClosedPage} {rest : List ClosedPage} (h : Held x) (enabled : x.enabled = true)
    (filling : x.filling = none) (full : x.full = c :: rest) (loss : Word) (now : Time) :
    Opened (Stream.fill { x with full := rest, loss := loss } c.page now)
      { page := c.page, seq := x.nextSeq, words := 0, records := 0, openTime := now } where
  held := by
    refine ⟨h.ranges, h.reachable, ?_, fun disabled => ?_, fun d member => ?_, h.host, h.noHost, ?_⟩
    · have := h.quota
      simp only [Stream.pages, filling, full, Stream.fill, List.map_cons, Option.map_none, Option.toList_none,
        Option.map_some, Option.toList_some, List.length_append, List.length_nil, List.length_cons] at this ⊢
      omega
    · exact absurd (enabled.symm.trans disabled) nofun
    · exact h.full d (by rw [full]; exact List.mem_cons_of_mem c member)
    · have := h.sequence
      rw [Stream.sequences, filling, full, Option.map_none, Option.toList_none, List.append_nil,
        List.map_cons] at this
      exact this.tail.push
  filling := rfl
  whole := (Nat.zero_mul _).symm
  below := Nat.succ_pos _

end

/-! ### A hand-off -/

/-- R134–R149: every stream is sound, and no word lies beyond sample memory. -/
def ManagerSound (m : StreamManager) : Prop :=
  (∀ k : Fin 4, m.streams[k].Sound) ∧ ∀ c ∈ m.memory, c.1 < 8192

theorem mem_memory_write {a : Nat} {w : Word} {c : Nat × Word} :
    ∀ {m : Memory}, c ∈ m.write a w → c.1 = a ∨ c ∈ m := by
  have cell : ∀ {rest : Memory}, c ∈ Memory.cell a w rest → c.1 = a ∨ c ∈ rest := by
    intro rest member
    unfold Memory.cell at member
    split at member
    · exact .inr member
    · rcases List.mem_cons.1 member with rfl | old
      · exact .inl rfl
      · exact .inr old
  intro m
  induction m with
  | nil => exact cell
  | cons b rest ih =>
    intro member
    unfold Memory.write at member
    split at member
    · exact cell member
    · split at member
      · exact (cell member).imp_right (List.mem_cons_of_mem b)
      · rcases List.mem_cons.1 member with rfl | later
        · exact .inr List.mem_cons_self
        · exact (ih later).imp_right (List.mem_cons_of_mem b)

theorem memory_writeList_below {bound : Nat} : ∀ (ws : List Word) (a : Nat) {m : Memory},
    a + ws.length ≤ bound → (∀ c ∈ m, c.1 < bound) → ∀ c ∈ m.writeList a ws, c.1 < bound
  | [], _, _, _, before => before
  | w :: ws, a, m, fits, before => by
    rw [List.length_cons] at fits
    refine memory_writeList_below ws (a + 1) (by omega) fun c member => ?_
    rcases mem_memory_write member with new | old
    · omega
    · exact before c old

section

variable {m : StreamManager} {k : Fin 4} {f : FillingPage}

theorem append_of_filling (filling : m.streams[k].filling = some f) (r : Record) (now : Time) :
    m.append k r now =
      { m with
        memory := m.memory.writeList (pageBase f.page + f.words) (r.words m.streams[k].config.timestamps now)
        streams := put m.streams k (m.streams[k].count f (recordLength m.streams[k].config.timestamps)) } := by
  unfold StreamManager.append
  rw [filling]

/-- R134: a record on a page that is not full stays within sample memory. -/
theorem append_memory_below (opened : Opened m.streams[k] f) (before : ∀ c ∈ m.memory, c.1 < 8192) (r : Record)
    (now : Time) : ∀ c ∈ (m.append k r now).memory, c.1 < 8192 := by
  have room := room_for_record opened.whole opened.below
  have page := f.page.isLt
  rw [append_of_filling opened.filling]
  refine memory_writeList_below _ _ ?_ before
  rw [words_length]
  simp only [pageBase, Config.pageWords]
  omega

theorem ManagerSound.put {n : StreamManager} {x : Stream} (others : ∀ j, j ≠ k → m.streams[j].Sound)
    (streams : n.streams = Machine.put m.streams k x) (sound : x.Sound) (memory : ∀ c ∈ n.memory, c.1 < 8192) :
    ManagerSound n := by
  refine ⟨fun j => ?_, memory⟩
  rw [streams, put_get]
  split
  · exact sound
  next other => exact others j (Ne.symm other)

/-- R146, R147: a record stored on a page that has just been got, or on one whose loss count is written out. -/
theorem store_sound (opened : Opened m.streams[k] f) (others : ∀ j, j ≠ k → m.streams[j].Sound)
    (memory : ∀ c ∈ m.memory, c.1 < 8192) (room : m.streams[k].loss ≠ 0 → f.words = 0) (r : Record) (now : Time) :
    ManagerSound (m.store k r now) := by
  unfold StreamManager.store
  split
  next written =>
    exact .put others (by rw [append_of_filling opened.filling]) (opened.count_sound written)
      (append_memory_below opened memory r now)
  next lost =>
    have empty := room lost
    have short : f.words + recordLength m.streams[k].config.timestamps ≠ 64 := by
      rcases recordLength_cases m.streams[k].config.timestamps with len | len <;> omega
    have again := opened.count_open short 0
    have first := append_memory_below opened memory (lossRecord m.streams[k].loss) now
    rw [append_of_filling opened.filling] at first ⊢
    generalize written : ({ m with
      memory := m.memory.writeList (pageBase f.page + f.words)
        ((lossRecord m.streams[k].loss).words m.streams[k].config.timestamps now)
      streams := Machine.put m.streams k
        (m.streams[k].count f (recordLength m.streams[k].config.timestamps)) } : StreamManager) = n at first ⊢
    have here : (n.amend k fun x => { x with loss := 0 }).streams[k] =
        { m.streams[k].count f (recordLength m.streams[k].config.timestamps) with loss := 0 } := by
      rw [← written]
      simp [StreamManager.amend]
    rw [← here] at again
    refine .put (fun j other => ?_) (by rw [append_of_filling again.filling]) (again.count_sound (by rw [here]))
      (append_memory_below again first r now)
    rw [← written, StreamManager.amend, amend_get, if_neg (Ne.symm other), put_get, if_neg (Ne.symm other)]
    exact others j other

/-- R147: a record handed to an enabled stream. -/
theorem handOff_sound (before : ManagerSound m) (enabled : m.streams[k].enabled = true) (r : Record) (now : Time) :
    ManagerSound (m.handOff k r now).1 := by
  obtain ⟨sound, memory⟩ := before
  rcases m.handOff_cases k r now with ⟨f, filling, h⟩ | ⟨noFilling, ⟨m', bs, got, h⟩ | ⟨-, h⟩⟩
  · rw [h]
    refine store_sound (opened_of_sound (sound k) filling) (fun j _ => sound j) memory (fun lost => ?_) r now
    exact absurd ((sound k).lossWritten (by rw [filling]; rfl)) lost
  · rw [h]
    rcases m.obtain_cases k now with ⟨page, rest, -, room, eq⟩ | ⟨-, ⟨c, rest, -, full, eq⟩ | ⟨-, eq⟩⟩
    all_goals rw [eq] at got
    all_goals cases got
    · have opened := (held_of_sound (sound k)).fill enabled noFilling room page now
      exact store_sound (m := { m with pool := rest, streams := Machine.put m.streams k (m.streams[k].fill page now) })
        (by simpa using opened) (fun j other => by rw [put_get, if_neg (Ne.symm other)]; exact sound j) memory
        (fun _ => rfl) r now
    · have opened := (held_of_sound (sound k)).reclaim enabled noFilling full
        (satAdd m.streams[k].loss c.records) now
      exact store_sound
        (m := { m with
          streams := Machine.put m.streams k
            (Stream.fill { m.streams[k] with full := rest, loss := satAdd m.streams[k].loss c.records } c.page now) })
        (by simpa using opened) (fun j other => by rw [put_get, if_neg (Ne.symm other)]; exact sound j) memory
        (fun _ => rfl) r now
  · rw [h]
    refine .put (fun j _ => sound j) rfl (Held.sound_of_none ?_ noFilling) memory
    have held := held_of_sound (sound k)
    exact ⟨held.ranges, held.reachable, held.quota, held.idle, held.full, held.host, held.noHost, held.sequence⟩

end

/-! ### What a hand-off leaves of the other streams and of the enabled flags -/

section

variable {m : StreamManager} (k : Fin 4) (r : Record) (now : Time)

/-- The enabled flag of each stream. -/
def enabledFlags (m : StreamManager) (j : Fin 4) : Bool := m.streams[j].enabled

theorem enabledFlags_put {n : StreamManager} {x : Stream} (streams : n.streams = put m.streams k x)
    (enabled : x.enabled = m.streams[k].enabled) : enabledFlags n = enabledFlags m := by
  funext j
  unfold enabledFlags
  rw [streams, put_get]
  split
  next same => rw [enabled, same]
  · rfl

theorem enabledFlags_amend (m : StreamManager) {g : Stream → Stream} (enabled : ∀ x, (g x).enabled = x.enabled) :
    enabledFlags (m.amend k g) = enabledFlags m :=
  enabledFlags_put k rfl (enabled _)

theorem count_enabled (x : Stream) (f : FillingPage) (len : Nat) : (x.count f len).enabled = x.enabled := by
  unfold Stream.count
  dsimp only
  split <;> rfl

theorem append_enabledFlags : enabledFlags (m.append k r now) = enabledFlags m := by
  unfold StreamManager.append
  split
  · rfl
  · exact enabledFlags_put k rfl (count_enabled _ _ _)

theorem store_enabledFlags : enabledFlags (m.store k r now) = enabledFlags m := by
  unfold StreamManager.store
  split
  · exact append_enabledFlags k r now
  · exact (append_enabledFlags k r now).trans ((enabledFlags_amend k _ (by exact fun _ => rfl)).trans (append_enabledFlags k _ now))

theorem handOff_enabledFlags : enabledFlags (m.handOff k r now).1 = enabledFlags m := by
  rcases m.handOff_cases k r now with ⟨f, -, h⟩ | ⟨-, ⟨m', bs, got, h⟩ | ⟨-, h⟩⟩
  · rw [h]; exact store_enabledFlags k r now
  · rw [h]
    refine (store_enabledFlags k r now).trans ?_
    rcases m.obtain_cases k now with ⟨page, rest, -, -, eq⟩ | ⟨-, ⟨c, rest, -, -, eq⟩ | ⟨-, eq⟩⟩
    all_goals rw [eq] at got
    all_goals cases got
    · exact enabledFlags_put k rfl rfl
    · exact enabledFlags_put k rfl rfl
  · rw [h]; exact enabledFlags_put k rfl rfl

end

/-! ### The commands on streams and pages -/

theorem pages_eq_nil {x : Stream} : x.pages = [] ↔ x.filling = none ∧ x.full = [] ∧ x.host = none := by
  simp only [Stream.pages, List.append_eq_nil_iff, List.map_eq_nil_iff]
  cases x.filling <;> cases x.host <;> simp

theorem close_of_none {x : Stream} {flushed : Bool} (filling : x.filling = none) : x.close flushed = x := by
  unfold Stream.close
  rw [filling]

/-- A stream that holds no page. -/
theorem sound_of_no_page {x : Stream} (pages : x.pages = []) (ranges : StreamConfigInRange x.config)
    (reachable : x.enabled = true → x.config.threshold ≤ x.config.quota) (pointer : x.readPointer = 0) : x.Sound := by
  obtain ⟨filling, full, host⟩ := pages_eq_nil.1 pages
  refine Held.sound_of_none ⟨ranges, reachable, by simp [pages], fun _ => pages, ?_, ?_, fun _ => pointer, ?_⟩ filling
  · simp [full]
  · simp [host]
  · simp [Stream.sequences, full, filling, inOrder_nil]

/-- R153: a read moves the pointer within the host page. -/
theorem dataRead_sound {x : Stream} (h : x.Sound) : x.dataRead.Sound := by
  unfold Stream.dataRead
  split
  next word =>
    refine ⟨h.ranges, h.reachable, h.quota, h.idle, h.filling, h.full, fun c host => ?_, fun host => ?_,
      h.lossWritten, h.sequence⟩
    · obtain ⟨counts, full, -⟩ := h.host c host
      rw [Stream.hasWord, show x.host = some c from host] at word
      exact ⟨counts, full, by simpa using word⟩
    · rw [Stream.hasWord, show x.host = none from host] at word
      cases word
  · exact ⟨h.ranges, h.reachable, h.quota, h.idle, h.filling, h.full, h.host, h.noHost, h.lossWritten, h.sequence⟩

/-- R137–R154: a command on streams and pages keeps every stream sound. -/
theorem streamMove_sound {s : State} {m : StreamManager} (before : ManagerSound s.streams) (h : StreamMove s m) :
    ManagerSound m := by
  obtain ⟨sound, memory⟩ := before
  have others : ∀ k : Fin 4, ∀ j, j ≠ k → s.streams.streams[j].Sound := fun _ j _ => sound j
  cases h with
  | configure k c disabled inRange =>
    refine .put (others k) rfl ?_ memory
    obtain ⟨-, -, host⟩ := pages_eq_nil.1 ((sound k).idle disabled)
    exact sound_of_no_page ((sound k).idle disabled) inRange (fun enabled => absurd (disabled.symm.trans enabled) nofun)
      ((sound k).noHost host)
  | enable k disabled fits =>
    refine .put (others k) rfl ?_ memory
    obtain ⟨-, -, host⟩ := pages_eq_nil.1 ((sound k).idle disabled)
    exact sound_of_no_page ((sound k).idle disabled) (sound k).ranges (fun _ => fits) ((sound k).noHost host)
  | disable k _ =>
    exact .put (others k) rfl (sound_of_no_page (by simp [Stream.pages]) (sound k).ranges nofun rfl) memory
  | flush k =>
    refine .put (others k) rfl (?_ : (s.streams.streams[k].close true).Sound) memory
    cases filling : s.streams.streams[k].filling with
    | none => rw [close_of_none filling]; exact sound k
    | some f =>
      obtain ⟨counts, below⟩ := (sound k).filling f filling
      exact (held_of_sound (sound k)).close filling counts (iff_of_false nofun below.ne)
  | openPage k c rest noHost full =>
    refine .put (others k) rfl ?_ memory
    have held := held_of_sound (sound k)
    have member : c ∈ s.streams.streams[k].full := by rw [full]; exact List.mem_cons_self
    have pages : (s.streams.streams[k].pages).Perm
        (Stream.pages
          { s.streams.streams[k] with full := rest, host := some c, readPointer := 0, readPast := false }) := by
      simp only [Stream.pages, full, noHost, List.map_cons, Option.map_none, Option.toList_none, List.append_nil,
        Option.map_some, Option.toList_some, List.cons_append]
      exact (List.perm_append_singleton _ _).symm
    refine ⟨held.ranges, held.reachable, pages.length_eq ▸ held.quota, fun disabled => ?_, (sound k).filling,
      fun d later => held.full d (by rw [full]; exact List.mem_cons_of_mem c later), fun d host => ?_, nofun,
      (sound k).lossWritten, ?_⟩
    · have none := held.idle disabled
      rw [pages_eq_nil, full] at none
      exact absurd none.2.1 nofun
    · cases host
      exact ⟨(held.full c member).1, (held.full c member).2, Nat.zero_le _⟩
    · have := held.sequence
      rw [Stream.sequences, full, List.map_cons, List.cons_append] at this
      exact this.tail
  | release k c host =>
    refine .put (others k) rfl ?_ memory
    have held := sound k
    refine ⟨held.ranges, held.reachable, ?_, fun disabled => ?_, held.filling, held.full, nofun, fun _ => rfl,
      held.lossWritten, held.sequence⟩
    · have := held.quota
      simp only [Stream.pages, host, List.length_append, Option.map_some, Option.toList_some, List.length_singleton,
        Option.map_none, Option.toList_none, List.length_nil] at this ⊢
      omega
    · have none := held.idle disabled
      rw [pages_eq_nil, host] at none
      exact absurd none.2.2 nofun
  | read k => exact .put (others k) rfl (dataRead_sound (sound k)) memory

theorem softReset_managerSound {m : StreamManager} (before : ManagerSound m) : ManagerSound m.softReset := by
  refine ⟨fun k => ?_, before.2⟩
  have each : m.softReset.streams[k] = .fresh m.streams[k].config m.streams[k].enabled := by
    simp [StreamManager.softReset]
  rw [each]
  exact sound_of_no_page rfl (before.1 k).ranges (before.1 k).reachable rfl

theorem default_managerSound : ManagerSound .default := by
  refine ⟨fun k => ?_, nofun⟩
  have each : StreamManager.default.streams[k] = .fresh .default false := by simp [StreamManager.default]
  rw [each]
  refine sound_of_no_page rfl ?_ nofun rfl
  simp [StreamConfigInRange, Stream.fresh, StreamConfig.default]

end Sys2Proof.Proofs
end

