-- ==== Sys2Proof/Proofs/SetRules.lean ====
section
/-! PROOFS. Run contexts, streams and pages stay within their rules, and the entry in progress is the one at the held
set's cursor. -/

namespace Sys2Proof.Proofs

open Sys2Proof.Machine Sys2Proof.Statements

/-! ### One set -/

section

variable {s : State} {k : Fin 8} {x y : ScanSet} {enabled : Bool}

/-- A set that is neither PENDING nor RUNNING nor PREEMPTED has no deferred trigger. -/
theorem deferred_eq_false (h : x.Sound enabled) (idle : x.state ≠ .pending ∧ x.state ≠ .running ∧ x.state ≠ .preempted) :
    x.deferred = false := by
  cases deferred : x.deferred
  · rfl
  · rcases (h.deferred deferred).2 with state | state | state
    · exact absurd state idle.1
    · exact absurd state idle.2.1
    · exact absurd state idle.2.2

/-- R30: no pass has been completed of a limited number. -/
theorem passes_pos {n : BitVec 8} (limited : n ≠ 0) : (0 : BitVec 8).toNat < n.toNat :=
  Nat.pos_of_ne_zero fun zero => limited (BitVec.eq_of_toNat_eq zero)

/-- R19, R35–R40: a set whose cursor and pass count are 0. -/
theorem sound_of_start (h : x.Sound enabled) (desc : y.desc = x.desc) (cursor : y.cursor = 0)
    (passCount : y.passCount = 0) (active : y.state ≠ .disabled → x.state ≠ .disabled)
    (deferred : y.deferred = true → y.desc.overrun = .defer ∧
      (y.state = .pending ∨ y.state = .running ∨ y.state = .preempted)) : y.Sound enabled where
  count := desc ▸ h.count
  cursor := by rw [cursor, desc]; exact h.count.1
  passes := by rw [passCount]; exact passes_pos
  rest := fun _ _ _ => ⟨cursor, passCount⟩
  run := fun on => desc ▸ h.run (active on)
  stream := fun on => h.stream (active on)
  deferred := deferred

/-- A change that leaves the descriptor and the run where they are. -/
theorem sound_congr (h : x.Sound enabled) (desc : y.desc = x.desc) (state : y.state = x.state)
    (cursor : y.cursor = x.cursor) (passCount : y.passCount = x.passCount)
    (deferred : y.deferred = true → y.desc.overrun = .defer ∧
      (y.state = .pending ∨ y.state = .running ∨ y.state = .preempted)) : y.Sound enabled where
  count := desc ▸ h.count
  cursor := by rw [cursor, desc]; exact h.cursor
  passes := by rw [desc, passCount]; exact h.passes
  rest := by rw [state, cursor, passCount]; exact h.rest
  run := by rw [state, desc]; exact h.run
  stream := by rw [state]; exact h.stream
  deferred := deferred

/-- A set that runs on, STOPPING or PREEMPTED with its run context as it stands. -/
theorem sound_of_state {st : SetState} {c : Bool} (h : x.Sound enabled) (on : x.state ≠ .disabled)
    (busy : st = .running ∨ st = .preempted ∨ st = .stopping ∧ c = false) (kept : c = true → x.deferred = true) :
    ScanSet.Sound { x with state := st, deferred := c } enabled where
  count := h.count
  cursor := h.cursor
  passes := h.passes
  rest := by
    intro running preempted stopping
    rcases busy with state | state | ⟨state, -⟩
    · exact absurd state running
    · exact absurd state preempted
    · exact absurd state stopping
  run := fun _ => h.run on
  stream := fun _ => h.stream on
  deferred := by
    intro deferred
    refine ⟨(h.deferred (kept deferred)).1, ?_⟩
    rcases busy with state | state | ⟨-, clear⟩
    · exact .inr (.inl state)
    · exact .inr (.inr state)
    · exact absurd (clear.symm.trans deferred) nofun

/-- R28, R29: an advance that does not end the scan. -/
theorem Advanced.sound (advanced : Advanced x y) (h : x.Sound enabled) (running : x.state = .running) :
    y.Sound enabled := by
  have notRest : ∀ {p : Prop}, x.state ≠ .running → p := fun not => absurd running not
  cases advanced with
  | inside more =>
    exact ⟨h.count, lt_of_le_of_ne h.cursor more, h.passes, notRest, h.run, h.stream, h.deferred⟩
  | passEnd last passes =>
    refine ⟨h.count, h.count.1, fun limited => ?_, notRest, h.run, h.stream, h.deferred⟩
    have below := h.passes limited
    have other : (x.passCount + 1).toNat ≠ x.desc.passes.toNat := fun eq => passes limited (BitVec.eq_of_toNat_eq eq)
    have bound := x.desc.passes.isLt
    rw [BitVec.toNat_add, show BitVec.toNat 1 = 1 from rfl, Nat.mod_eq_of_lt (by omega)] at other
    simp only [BitVec.toNat_add, show BitVec.toNat (1 : BitVec 8) = 1 from rfl]
    omega

/-- R18–R25, R40. -/
theorem setMove_sound (change : SetMove s k y)
    (h : s.sets[k].Sound (enabledFlags s.streams s.sets[k].desc.stream)) :
    y.Sound (enabledFlags s.streams y.desc.stream) := by
  cases change with
  | describe d disabled low high =>
    obtain ⟨cursor, passCount⟩ := h.rest (by rw [disabled]; exact nofun) (by rw [disabled]; exact nofun)
      (by rw [disabled]; exact nofun)
    have idle := deferred_eq_false h (by rw [disabled]; exact ⟨nofun, nofun, nofun⟩)
    refine ⟨⟨low, high⟩, by simp only [cursor]; exact low, by simp only [passCount]; exact passes_pos, fun _ _ _ => ⟨cursor, passCount⟩,
      fun on => absurd disabled on, fun on => absurd disabled on, fun deferred => absurd (idle.symm.trans deferred) nofun⟩
  | enable disabled can =>
    simp only [State.canEnable, Bool.and_eq_true, decide_eq_true_eq] at can
    exact ⟨h.count, h.count.1, passes_pos, fun _ _ _ => ⟨rfl, rfl⟩, fun _ => can.1, fun _ => can.2, nofun⟩
  | clear halted =>
    obtain ⟨cursor, passCount⟩ := h.rest (by rw [halted]; exact nofun) (by rw [halted]; exact nofun)
      (by rw [halted]; exact nofun)
    have idle := deferred_eq_false h (by rw [halted]; exact ⟨nofun, nofun, nofun⟩)
    exact sound_of_start (y := { s.sets[k] with state := .armed }) h rfl cursor passCount
      (fun _ => by rw [halted]; exact nofun) fun deferred => absurd (idle.symm.trans deferred) nofun
  | disable resting =>
    have idle := deferred_eq_false h (by
      rcases resting with state | state <;> rw [state] <;> exact ⟨nofun, nofun, nofun⟩)
    exact sound_of_start (y := s.sets[k].rest .disabled) h rfl rfl rfl (fun on => absurd rfl on)
      fun deferred => absurd (idle.symm.trans deferred) nofun
  | defer busy defers => exact sound_congr h rfl rfl rfl rfl fun _ => ⟨defers, busy⟩
  | undefer => exact sound_congr h rfl rfl rfl rfl nofun
  | overrun n => exact sound_congr h rfl rfl rfl rfl h.deferred

/-- R23, R21: a set keeps its run while the engine can hold its request. -/
theorem setMove_run (change : SetMove s k y) (active : s.sets[k].state = .running ∨ s.sets[k].state = .stopping) :
    y.desc.first = s.sets[k].desc.first ∧ y.cursor = s.sets[k].cursor := by
  have rests : ∀ {p : Prop} {st : SetState}, s.sets[k].state = st → st ≠ .running → st ≠ .stopping → p := by
    intro p st state running stopping
    rcases active with now | now
    · exact absurd (state.symm.trans now) running
    · exact absurd (state.symm.trans now) stopping
  cases change with
  | describe d disabled _ _ => exact rests disabled nofun nofun
  | enable disabled _ => exact rests disabled nofun nofun
  | clear halted => exact rests halted nofun nofun
  | disable resting =>
    rcases resting with state | state
    · exact rests state nofun nofun
    · exact rests state nofun nofun
  | defer _ _ | undefer | overrun _ => exact ⟨rfl, rfl⟩

end

/-! ### Every set -/

/-- The run contexts of a state's sets, over given streams. -/
def AllSound (sets : Vector ScanSet 8) (m : StreamManager) : Prop :=
  ∀ k : Fin 8, sets[k].Sound (enabledFlags m sets[k].desc.stream)

/-- The entry in progress is the one at the held set's cursor. -/
def EntryAtCursor (s : State) : Prop :=
  ∀ x ∈ s.engine.held,
    x.entry.val = s.sets[x.request.set].desc.first.val + s.sets[x.request.set].cursor

theorem AllSound.amend {sets : Vector ScanSet 8} {m : StreamManager} (before : AllSound sets m) (k : Fin 8)
    {f : ScanSet → ScanSet} (sound : (f sets[k]).Sound (enabledFlags m (f sets[k]).desc.stream)) :
    AllSound (amend sets k f) m := by
  intro j
  rw [amend_get]
  split
  next same => subst same; exact sound
  · exact before j

theorem AllSound.streams {sets : Vector ScanSet 8} {m n : StreamManager} (before : AllSound sets m)
    (same : enabledFlags n = enabledFlags m) : AllSound sets n := by
  intro j
  rw [same]
  exact before j

theorem setsAndStreamsSound_iff {s : State} :
    SetsAndStreamsSound s ↔ RequestsPlaced s ∧ AllSound s.sets s.streams ∧ ManagerSound s.streams ∧ EntryAtCursor s :=
  ⟨fun h => ⟨h.requests, h.sets, ⟨h.streams, h.memory⟩, h.entry⟩,
    fun ⟨requests, sets, ⟨streams, memory⟩, entry⟩ => ⟨requests, sets, streams, memory, entry⟩⟩

section

variable {s t : State}

/-- R20: a set whose request the engine holds, or that is RUNNING, is not at rest. -/
theorem runs_active (requests : RequestsPlaced s) {k : Fin 8} (runs : Runs s k) :
    s.sets[k].state = .running ∨ s.sets[k].state = .stopping := by
  obtain ⟨-, -, -, -, active⟩ := runs_placed (requestsPlaced_iff.1 requests) runs
  exact active

theorem runs_notDisabled (requests : RequestsPlaced s) {k : Fin 8} (runs : Runs s k) :
    s.sets[k].state ≠ .disabled := by
  rcases runs_active requests runs with state | state <;> rw [state] <;> exact nofun

/-! ### The streams -/

theorem streamMove_flags {m : StreamManager} (change : StreamMove s m) (sets : AllSound s.sets s.streams) :
    AllSound s.sets m := by
  intro j
  have flag : ∀ {k : Fin 4} {x : Stream}, m.streams = put s.streams.streams k x →
      (s.sets[j].state ≠ .disabled → s.sets[j].desc.stream = k → s.streams.streams[k].enabled = true →
        x.enabled = true) → s.sets[j].Sound (enabledFlags m s.sets[j].desc.stream) := by
    intro k x streams stays
    refine ⟨(sets j).count, (sets j).cursor, (sets j).passes, (sets j).rest, (sets j).run, fun on => ?_,
      (sets j).deferred⟩
    have enabled : s.streams.streams[s.sets[j].desc.stream].enabled = true := (sets j).stream on
    rw [enabledFlags, streams, put_get]
    split
    next names => exact stays on names.symm (names ▸ enabled)
    · exact enabled
  cases change with
  | configure k c disabled _ => exact flag rfl fun _ _ enabled => enabled
  | enable k _ _ => exact flag rfl fun _ _ _ => rfl
  | disable k free =>
    refine flag rfl fun on names _ => ?_
    rw [streamNamed_iff.2 ⟨j, on, names⟩] at free
    cases free
  | flush k =>
    refine flag (x := s.streams.streams[k].close true) rfl fun _ _ enabled => ?_
    unfold Stream.close
    split <;> exact enabled
  | openPage k c rest _ _ => exact flag rfl fun _ _ enabled => enabled
  | release k c _ => exact flag rfl fun _ _ enabled => enabled
  | read k =>
    refine flag (x := s.streams.streams[k].dataRead) rfl fun _ _ enabled => ?_
    unfold Stream.dataRead
    split <;> exact enabled

/-- R33: a set's record goes to an enabled stream. -/
theorem handSetRecord_sound (sets : AllSound s.sets s.streams) (streams : ManagerSound s.streams) {k : Fin 8}
    (on : s.sets[k].state ≠ .disabled) (kind : RecordKind) (st : Status) (i : Fin 128) (v : Word) :
    AllSound (handSetRecord k kind st i v s).sets (handSetRecord k kind st i v s).streams ∧
      ManagerSound (handSetRecord k kind st i v s).streams := by
  refine ⟨(AllSound.amend sets k ?_).streams (handOff_enabledFlags _ _ _), handOff_sound streams ((sets k).stream on) _ _⟩
  exact sound_congr (sets k) rfl rfl rfl rfl (sets k).deferred

theorem softReset_sound (sets : AllSound s.sets s.streams) : AllSound (softReset s).sets (softReset s).streams := by
  intro k
  have fresh : (softReset s).sets[k] = .fresh s.sets[k].desc := by simp [softReset]
  rw [fresh]
  exact ⟨(sets k).count, (sets k).count.1, passes_pos, fun _ _ _ => ⟨rfl, rfl⟩, fun on => absurd rfl on,
    fun on => absurd rfl on, nofun⟩

end

/-! ### The entry in progress -/

section

variable {s t : State}

theorem entryAtCursor_of_idle (idle : s.engine.held = none) : EntryAtCursor s := by
  intro x held
  rw [idle] at held
  cases held

/-- The engine goes on with the same request, and its set keeps its run. -/
theorem EntryAtCursor.kept (before : EntryAtCursor s)
    (held : ∀ y ∈ t.engine.held, ∃ x ∈ s.engine.held, y.request = x.request ∧ y.entry = x.entry ∧
      t.sets[x.request.set].desc.first = s.sets[x.request.set].desc.first ∧
      t.sets[x.request.set].cursor = s.sets[x.request.set].cursor) : EntryAtCursor t := by
  intro y now
  obtain ⟨x, was, request, entry, first, cursor⟩ := held y now
  simp only [request, entry, first, cursor]
  exact before x was

/-- R80: an entry's start takes the one at the cursor. -/
theorem entryAtCursor_startEntry (r : Request) (sets : AllSound s.sets s.streams)
    (on : s.sets[r.set].state ≠ .disabled) : EntryAtCursor (startEntry r s) := by
  intro y now
  obtain ⟨p, -, held⟩ := startEntry_held r s
  rw [held] at now
  cases now
  have run := (sets r.set).run on
  have cursor := (sets r.set).cursor
  rw [startEntry_sets]
  exact Nat.mod_eq_of_lt (by omega)

/-! ### The moves -/

/-- R31, R39: the set that ran has ended its scan. -/
theorem endScan_sound (sets : AllSound s.sets s.streams) {k : Fin 8} (on : s.sets[k].state ≠ .disabled) (n : Word) :
    AllSound
      (restartOrArm k (dropHeld (s.modSet k fun x => { x with completed := n, cursor := 0, passCount := 0 }))).sets
      s.streams := by
  rcases restartOrArm_cases (dropHeld (s.modSet k fun x => { x with completed := n, cursor := 0, passCount := 0 })) k
    with ⟨-, h⟩ | ⟨idle, h⟩
  · rw [h]
    simp only [makeRequest_sets, modSet_sets, dropHeld_sets, amend_amend]
    exact sets.amend k (sound_of_start (sets k) rfl rfl rfl (fun _ => on) nofun)
  · rw [h]
    simp only [modSet_sets, dropHeld_sets, amend_amend]
    refine sets.amend k (sound_of_start (sets k) rfl rfl rfl (fun _ => on) fun deferred => ?_)
    simp only [dropHeld_sets, modSet_sets, Fin.getElem_fin, amend_getElem_self] at idle
    exact absurd (idle.symm.trans deferred) nofun

/-- R67: the set of the head request runs with the context its request carries. -/
theorem started_sound {x : ScanSet} {enabled : Bool} {kind : RequestKind} (h : x.Sound enabled)
    (carries : x.carries kind) : (x.started kind).Sound enabled := by
  cases kind with
  | new =>
    have on : x.state ≠ .disabled := by rw [show x.state = .pending from carries]; exact nofun
    exact sound_of_start h rfl rfl rfl (fun _ => on) fun deferred => ⟨(h.deferred deferred).1, .inr (.inl rfl)⟩
  | resumed c p m =>
    obtain ⟨state, rfl, rfl, rfl⟩ := carries
    exact sound_of_state h (by rw [state]; exact nofun) (.inl rfl) id

/-- R35: what a withdrawn request leaves of its set. -/
theorem withdrawn_sound {x : ScanSet} {enabled : Bool} (h : x.Sound enabled) (on : x.state ≠ .disabled)
    (cause : DrainCause) : ScanSet.Sound { x.rest cause.setState with deferred := false } enabled :=
  sound_of_start h rfl rfl rfl (fun _ => on) nofun

/-- R36, R96: what a host stop leaves of the set that the engine held. -/
theorem released_sound (requests : RequestsPlaced s) (sets : AllSound s.sets s.streams) {k : Fin 8}
    (stops : Stops s k) (cause : DrainCause) :
    (s.sets[k].rest cause.setState).Sound (enabledFlags s.streams s.sets[k].desc.stream) := by
  have clear : s.sets[k].deferred = false := by
    rcases stops with ⟨-, clear⟩ | ⟨x, c, held, rfl, draining⟩
    · exact clear
    · have stopping := ((requests.draining x held).2.1 (by
        rw [Engine.drain?_eq_some.2 ⟨held, draining⟩]
        rfl))
      exact deferred_eq_false (sets _) (by rw [stopping]; exact ⟨nofun, nofun, nofun⟩)
  exact sound_of_start (sets k) rfl rfl rfl (fun _ => runs_notDisabled requests stops.runs)
    fun deferred => absurd (clear.symm.trans deferred) nofun

/-- R28, R29: the held set after its cursor's advance. -/
theorem advanced_sound (requests : RequestsPlaced s) (sets : AllSound s.sets s.streams) {x : Execution} {y : ScanSet}
    (held : s.engine.held = some x) (notDraining : ∀ c, x.phase ≠ .draining c)
    (advanced : Advanced s.sets[x.request.set] y) :
    AllSound (amend s.sets x.request.set fun _ => y) s.streams := by
  obtain ⟨running, -, -⟩ := held_running (requestsPlaced_iff.1 requests) held notDraining
  have sound := advanced.sound (sets x.request.set) running
  rw [← advanced.desc] at sound
  exact sets.amend x.request.set sound

/-- R67: the head request's set after a start. -/
theorem start_sound (requests : RequestsPlaced s) (sets : AllSound s.sets s.streams) (can : s.canStart = true) :
    ∃ r rest, s.arbiter.queue = r :: rest ∧ AllSound (amend s.sets r.set fun x => x.started r.kind) s.streams := by
  obtain ⟨-, -, -, some⟩ := canStart_iff.1 can
  obtain ⟨r, rest, queue⟩ := List.exists_cons_of_ne_nil some
  obtain ⟨-, carries⟩ := requests.carried r (by rw [queue]; exact List.mem_cons_self)
  have same : (s.sets[r.set].started r.kind).desc = s.sets[r.set].desc := by cases r.kind <;> rfl
  exact ⟨r, rest, queue, sets.amend r.set (by rw [same]; exact started_sound (sets r.set) carries)⟩

theorem move_setsSound (requests : RequestsPlaced s) (sets : AllSound s.sets s.streams)
    (streams : ManagerSound s.streams) (h : Move s t) : AllSound t.sets t.streams ∧ ManagerSound t.streams := by
  cases h
  case streams m change => exact ⟨streamMove_flags (s := s) change sets, streamMove_sound streams change⟩
  case set k y change => exact ⟨sets.amend k (setMove_sound change (sets k)), streams⟩
  case request k armed =>
    have idle := deferred_eq_false (sets k) (by rw [armed]; exact ⟨nofun, nofun, nofun⟩)
    exact ⟨sets.amend k (sound_of_start (sets k) rfl rfl rfl (fun _ => by rw [armed]; exact nofun)
      fun deferred => absurd (idle.symm.trans deferred) nofun), streams⟩
  case withdraw k cause pending =>
    exact ⟨sets.amend k (withdrawn_sound (sets k) (by rw [pending]; exact nofun) cause), streams⟩
  case withdrawPreempted k cause preempted =>
    have on : s.sets[k].state ≠ .disabled := by rw [preempted]; exact nofun
    obtain ⟨handed, sound⟩ := handSetRecord_sound sets streams on .stop .ok
      (s.sets[k].desc.entryAt s.sets[k].cursor) (cause.stopCause.code ++ BitVec.ofNat 8 s.sets[k].cursor)
    exact ⟨handed.amend k (withdrawn_sound (handed k) (by simpa using on) cause), sound⟩
  case drain k cause x running held =>
    exact ⟨sets.amend k (sound_of_state (sets k) (by rw [running]; exact nofun) (.inr (.inr ⟨rfl, rfl⟩)) nofun),
      streams⟩
  case record k kind st i v runs =>
    exact handSetRecord_sound sets streams (runs_notDisabled requests runs) kind st i v
  case release k cause stops => exact ⟨sets.amend k (released_sound requests sets stops cause), streams⟩
  case endScan k n runs => exact ⟨by simpa using endScan_sound sets (runs_notDisabled requests runs) n, by simpa using streams⟩
  case halt k runs =>
    exact ⟨sets.amend k (sound_of_start (sets k) rfl rfl rfl (fun _ => runs_notDisabled requests runs) nofun), streams⟩
  case back new x y held notDraining advanced =>
    obtain ⟨running, -, -⟩ := held_running (requestsPlaced_iff.1 requests) held notDraining
    have sound := advanced.sound (sets x.request.set) running
    have on : y.state ≠ .disabled := by rw [advanced.state, running]; exact nofun
    rw [returnRequest_of_held (s.modSet x.request.set fun _ => y) new (x := x) held]
    simp only [modSet_sets, dropHeld_sets, amend_amend, modSet_streams, dropHeld_streams]
    rw [← advanced.desc] at sound
    exact ⟨sets.amend x.request.set (sound_of_state sound on (.inr (.inl rfl)) id), streams⟩
  case next x y held notDraining advanced =>
    rw [startEntry_sets, startEntry_streams]
    exact ⟨advanced_sound requests sets held notDraining advanced, streams⟩
  case start can =>
    obtain ⟨r, rest, queue, sound⟩ := start_sound requests sets can
    rw [startHead_of_cons queue, startEntry_sets, startEntry_streams]
    exact ⟨sound, streams⟩
  case softReset => exact ⟨softReset_sound sets, softReset_managerSound streams⟩
  all_goals exact ⟨sets, streams⟩

/-- One set changed, the engine's request left as it is. -/
theorem EntryAtCursor.amend (before : EntryAtCursor s) (k : Fin 8) {f : ScanSet → ScanSet}
    (held : ∀ y ∈ t.engine.held, ∃ x ∈ s.engine.held, y.request = x.request ∧ y.entry = x.entry)
    (sets : t.sets = Machine.amend s.sets k f)
    (run : ∀ x ∈ s.engine.held, x.request.set = k →
      (f s.sets[k]).desc.first = s.sets[k].desc.first ∧ (f s.sets[k]).cursor = s.sets[k].cursor) :
    EntryAtCursor t := by
  refine before.kept fun y now => ?_
  obtain ⟨x, was, request, entry⟩ := held y now
  refine ⟨x, was, request, entry, ?_⟩
  rw [sets, amend_get]
  split
  next same => subst same; exact run x was rfl
  · exact ⟨rfl, rfl⟩

/-- R20: a set at none of RUNNING and STOPPING is not the one whose request the engine holds. -/
theorem held_other (requests : RequestsPlaced s) {x : Execution} (held : s.engine.held = some x) {k : Fin 8}
    {st : SetState} (state : s.sets[k].state = st) (running : st ≠ .running) (stopping : st ≠ .stopping) :
    x.request.set ≠ k := by
  intro set
  rcases runs_active requests (.inr ⟨x, held, set⟩) with now | now
  · exact running (state.symm.trans now)
  · exact stopping (state.symm.trans now)

theorem move_entryAtCursor (requests : RequestsPlaced s) (sets : AllSound s.sets s.streams)
    (before : EntryAtCursor s) (h : Move s t) : EntryAtCursor t := by
  have same : ∀ y ∈ s.engine.held, ∃ x ∈ s.engine.held, y.request = x.request ∧ y.entry = x.entry :=
    fun y now => ⟨y, now, rfl, rfl⟩
  cases h
  case execution x y held request entry _ _ _ =>
    refine before.kept fun z now => ?_
    cases now
    exact ⟨x, held, request, entry, rfl, rfl⟩
  case set k y change =>
    exact before.amend k (f := fun _ => y) same rfl fun x held set => setMove_run change (runs_active requests (.inr ⟨x, held, set⟩))
  case request k armed =>
    exact before.amend k same (makeRequest_sets s k) fun x held set => absurd set (held_other requests held armed nofun nofun)
  case withdraw k cause pending =>
    exact before.amend k (f := fun x => { x.rest cause.setState with deferred := false }) same rfl
      fun x held set => absurd set (held_other requests held pending nofun nofun)
  case withdrawPreempted k cause preempted =>
    refine before.amend k same (by simp only [withdraw, handHostStop, handSetRecord_sets, amend_amend]; rfl)
      fun x held set => absurd set (held_other requests held preempted nofun nofun)
  case drain k cause x running held =>
    refine before.amend k (f := fun y => { y with deferred := false, state := .stopping }) (fun y now => ?_) rfl fun _ _ _ => ⟨rfl, rfl⟩
    cases now
    exact ⟨x, held, rfl, rfl⟩
  case record k kind st i v runs => 
    exact before.amend k (f := fun x => { x with passStart := false }) same rfl fun _ _ _ => ⟨rfl, rfl⟩
  case release | halt | softReset => exact entryAtCursor_of_idle rfl
  case endScan => exact entryAtCursor_of_idle (by simp)
  case back => exact entryAtCursor_of_idle (returnRequest_held _ _)
  case next x y held notDraining advanced =>
    obtain ⟨running, -, -⟩ := held_running (requestsPlaced_iff.1 requests) held notDraining
    refine entryAtCursor_startEntry x.request (advanced_sound requests sets held notDraining advanced) ?_
    rw [modSet_sets, amend_get, if_pos rfl, advanced.state, running]
    exact nofun
  case start can =>
    obtain ⟨r, rest, queue, sound⟩ := start_sound requests sets can
    rw [startHead_of_cons queue]
    refine entryAtCursor_startEntry r (by exact sound) ?_
    rw [amend_get, if_pos rfl]
    cases r.kind <;> exact nofun
  all_goals exact before

theorem setsAndStreamsSound_move (s t : State) (before : SetsAndStreamsSound s) (h : Move s t) :
    SetsAndStreamsSound t := by
  rw [setsAndStreamsSound_iff] at *
  obtain ⟨requests, sets, streams, entry⟩ := before
  obtain ⟨sets', streams'⟩ := move_setsSound requests sets streams h
  exact ⟨requestsPlaced_move s t requests h, sets', streams', move_entryAtCursor requests sets entry h⟩

theorem setsAndStreamsSound_tick (s : State) (before : SetsAndStreamsSound s) :
    SetsAndStreamsSound (advanceTime s) := by
  rw [setsAndStreamsSound_iff] at *
  obtain ⟨requests, sets, streams, entry⟩ := before
  refine ⟨requestsPlaced_tick s requests, sets, streams, entry.kept fun y now => ?_⟩
  obtain ⟨x, held, rfl⟩ := Option.map_eq_some_iff.1 now
  exact ⟨x, held, rfl, rfl, rfl, rfl⟩

theorem default_setsAndStreamsSound (arbiter : s.arbiter = .default) (idle : s.engine.held = none)
    (sets : s.sets = .replicate 8 (.fresh .default)) (streams : s.streams = .default) : SetsAndStreamsSound s := by
  rw [setsAndStreamsSound_iff, streams]
  refine ⟨default_requestsPlaced arbiter idle sets, fun k => ?_, default_managerSound, entryAtCursor_of_idle idle⟩
  have each : s.sets[k] = .fresh .default := by rw [sets]; simp
  rw [each]
  exact ⟨⟨le_rfl, Nat.le_add_left 1 31⟩, Nat.one_pos, passes_pos, fun _ _ _ => ⟨rfl, rfl⟩,
    fun on => absurd rfl on, fun on => absurd rfl on, nofun⟩

/-- Settles O57: records go to the streams of sets that are not DISABLED, a run context is set to its start, saved or
advanced within its run, and an entry starts at the cursor. -/
theorem stepKeepsSetsAndStreamsSound : Obligations.StepKeepsSetsAndStreamsSound :=
  step_keeps (fun _ _ h => ⟨⟨h.requests.one, h.requests.queued, h.requests.carried, h.requests.held,
      h.requests.draining⟩, h.sets, h.streams, h.memory, h.entry⟩)
    setsAndStreamsSound_move (fun s _ => setsAndStreamsSound_tick s) (default_setsAndStreamsSound rfl rfl rfl rfl)

end

end Sys2Proof.Proofs
end

