-- ==== Sys2Proof/Proofs/Control.lean ====
section
/-! PROOFS. What every command makes of the engine, the link and the command port. An invariant of these is proved by one
case for each way they can change. -/

namespace Sys2Proof.Proofs

open Sys2Proof.Machine Sys2Proof.Statements

/-! ### The ways the engine and the link change -/

/-- R117: the link once it has entered RESETTING. -/
def resetLink (l : Link) : Link :=
  Link.send { l with state := .resetting, resetPending := false, failures := 0 } .resetFe

/-- R116: a pending reset is carried out when the engine is IDLE. -/
inductive Carried (e : Engine) (l : Link) : Engine → Link → Prop
  | reset (pending : l.resetPending = true) (idle : e.held = none) :
      Carried e l { e with selection := none } (resetLink l)
  | stays (clear : l.resetPending = true → e.held ≠ none) : Carried e l e l

/-- R80: an execution at its start. -/
def Begun (x : Execution) : Prop := x.samples = 0 ∧ x.acc.minimum = none ∧ x.acc.maximum = none

/-- R80–R82: an entry's start, by the current selection `sel`. -/
inductive Started (sel : Option Selection) (l : Link) : Engine → Link → Prop
  | convert (x : Execution) (begun : Begun x) (phase : x.phase = .converting)
      (selected : sel = some { channel := x.snapshot.channel, gain := x.snapshot.gain }) :
      Started sel l { held := some x, selection := sel } (l.send .convert)
  | select (x : Execution) (begun : Begun x) (phase : x.phase = .selecting) :
      Started sel l { held := some x, selection := none }
        (l.send (.select { channel := x.snapshot.channel, gain := x.snapshot.gain }))

/-- R92, R112, R113, R116: what the completion of an entry makes of the engine and of the link `l`, with `sel` the current
selection. -/
inductive Finished (sel : Option Selection) (l : Link) : Engine → Link → Prop
  | goesOn {n : Nat} {e' : Engine} {l' : Link} (count : n = 0 ∨ n < l.threshold) (clear : l.resetPending = false)
      (started : Started sel { l with failures := n } e' l') : Finished sel l e' l'
  | ends {n : Nat} {e' : Engine} {l' : Link} (count : n = 0 ∨ n < l.threshold)
      (carried : Carried { held := none, selection := sel } { l with failures := n } e' l') : Finished sel l e' l'
  | falls :
      Finished sel l { held := none, selection := none } { l with state := .down, resetPending := false, failures := 0 }

/-- What a command makes of the engine `e` and the link `l` when it neither starts nor ends a drain and is no reset. -/
inductive EngineStep (e : Engine) (l : Link) : Engine → Link → Prop
  | same : EngineStep e l e l
  | tick :
      EngineStep e l { e with held := e.held.map fun x => { x with phase := x.phase.tick } }
        { l with outstanding := l.outstanding.map fun o => { o with left := o.left - 1 } }
  | flags (stray error : Bool) : EngineStep e l e { l with straySeen := stray, protocolError := error }
  | configure (p : Vector Word 6) (c : LinkConfig) (unpacked : unpackLink? p = some c) :
      EngineStep e l e (l.configured c)
  | pend (up : l.state = .up) (held : e.held ≠ none) : EngineStep e l e { l with resetPending := true }
  | reset (idle : l.state = .down ∨ l.state = .up ∧ e.held = none) :
      EngineStep e l { e with selection := none } (resetLink l)
  | release {e' : Engine} {l' : Link} (settling : ∀ x ∈ e.held, ∃ n, x.phase = .settling n)
      (carried : Carried { e with held := none } l e' l') : EngineStep e l e' l'
  | start {e' : Engine} {l' : Link} (idle : e.held = none) (up : l.state = .up) (clear : l.resetPending = false)
      (started : Started e.selection l e' l') : EngineStep e l e' l'
  | settled (x : Execution) (held : e.held = some x) (phase : x.phase = .settling 0) :
      EngineStep e l { e with held := some { x with phase := .converting } } (l.send .convert)
  | resend (o : Outstanding) (outstanding : l.outstanding = some o) (retries : o.retries < l.retryLimit)
      (error : Bool) : EngineStep e l e (Link.resend { l with protocolError := error } o)
  | linkUp (o : Outstanding) (outstanding : l.outstanding = some o) (message : o.message = .resetFe) :
      EngineStep e l e { l with outstanding := none, state := .up, failures := 0 }
  | resetFailed (o : Outstanding) (outstanding : l.outstanding = some o) (message : o.message = .resetFe)
      (error : Bool) :
      EngineStep e l e { l with outstanding := none, protocolError := error, state := .down }
  | unclaimed (o : Outstanding) (outstanding : l.outstanding = some o) (message : o.message ≠ .resetFe)
      (idle : e.held = none) (error : Bool) :
      EngineStep e l e { l with outstanding := none, protocolError := error }
  | select (x : Execution) (o : Outstanding) (sel : Selection) (held : e.held = some x)
      (notDraining : ∀ c, x.phase ≠ .draining c) (outstanding : l.outstanding = some o)
      (message : o.message = .select sel) :
      EngineStep e l { held := some { x with phase := .converting }, selection := some sel }
        (Link.send { l with outstanding := none } .convert)
  | settle (x : Execution) (o : Outstanding) (sel : Selection) (n : Nat) (held : e.held = some x)
      (notDraining : ∀ c, x.phase ≠ .draining c) (outstanding : l.outstanding = some o)
      (message : o.message = .select sel) :
      EngineStep e l { held := some { x with phase := .settling n }, selection := some sel }
        { l with outstanding := none }
  | fold (x : Execution) (o : Outstanding) (overRange : Bool) (value : Word) (held : e.held = some x)
      (notDraining : ∀ c, x.phase ≠ .draining c) (outstanding : l.outstanding = some o)
      (message : o.message = .convert) (more : x.samples + 1 < x.snapshot.conversions) :
      EngineStep e l { e with held := some (folded x overRange value) }
        (Link.send { l with outstanding := none } .convert)
  | complete {e' : Engine} {l' : Link} (x : Execution) (o : Outstanding) (held : e.held = some x)
      (notDraining : ∀ c, x.phase ≠ .draining c) (outstanding : l.outstanding = some o)
      (finished : Finished e.selection { l with outstanding := none } e' l') : EngineStep e l e' l'
  | fail {e' : Engine} {l' : Link} (x : Execution) (o : Outstanding) (error : Bool) (held : e.held = some x)
      (notDraining : ∀ c, x.phase ≠ .draining c) (outstanding : l.outstanding = some o)
      (finished : Finished none { l with outstanding := none, protocolError := error } e' l') :
      EngineStep e l e' l'

/-- R168, R169, R177, R180: a host interface whose port no long command starts or ends on, and whose COMMAND_DONE is not
set. -/
structure Quiet (h h' : HostInterface) : Prop where
  state : h'.port.state = .inProgress ↔ h.port.state = .inProgress
  command : h.port.state = .inProgress → h'.port.command = h.port.command
  idle : h'.port.state = .idle → h'.port = h.port
  intenable : h'.intenable = h.intenable ∨ ∃ value : Word, h'.intenable = value &&& 0x0007
  commandDone : h'.commandDone = true → h.commandDone = true

/-- What a command other than a reset makes of the engine, the link and the host interface. -/
inductive Control (s : State) (e : Engine) (l : Link) (h : HostInterface) : Prop
  | quiet (step : EngineStep s.engine s.link e l) (host : Quiet s.host h)
  | drain (x : Execution) (cause : DrainCause) (held : s.engine.held = some x)
      (phase : x.phase = .selecting ∨ x.phase = .converting)
      (engine : e = { s.engine with held := some { x with phase := .draining cause } }) (link : l = s.link)
      (free : s.host.port.state ≠ .inProgress) (c : Fin 25) (code : c = 6 ∨ c = 8)
      (host : h = { s.host with port := { state := .inProgress, result := .ok, command := c } })
  | drainEnd (x : Execution) (cause : DrainCause) (keep error : Bool) (held : s.engine.held = some x)
      (phase : x.phase = .draining cause)
      (carried : Carried { held := none, selection := if keep then s.engine.selection else none }
        { s.link with outstanding := none, protocolError := error } e l)
      (host : h = { s.host with port := { s.host.port with state := .done, result := .ok }, commandDone := true })

/-! ### The completion of an entry -/

section

variable (s : State)

theorem carryOutReset_carried : Carried s.engine s.link (carryOutReset s).engine (carryOutReset s).link := by
  rcases carryOutReset_cases s with ⟨pending, idle, h⟩ | ⟨clear, h⟩
  · rw [h]; exact .reset pending idle
  · rw [h]; exact .stays clear

theorem startEntry_started (r : Request) :
    Started s.engine.selection s.link (startEntry r s).engine (startEntry r s).link := by
  obtain ⟨entry, f, -, rfl, ⟨selected, h⟩ | ⟨-, h⟩⟩ := startEntry_cases s r
  · rw [h]; exact .convert _ ⟨rfl, rfl, rfl⟩ rfl selected
  · rw [h]; exact .select (.begin r entry s.entries[entry].fields .selecting) ⟨rfl, rfl, rfl⟩ rfl

@[simp] theorem returnRequest_link (new : Bool) : (returnRequest new s).link = s.link := by
  unfold returnRequest
  split <;> rfl

@[simp] theorem returnRequest_selection (new : Bool) : (returnRequest new s).engine.selection = s.engine.selection := by
  unfold returnRequest
  split <;> rfl

theorem engine_eq_of_idle {e : Engine} {sel : Option Selection} (idle : e.held = none) (selection : e.selection = sel) :
    e = { held := none, selection := sel } := by
  cases e
  simp only at idle selection
  rw [idle, selection]

variable {s}

theorem carryOutReset_of_clear (clear : s.link.resetPending = false) : carryOutReset s = s := by
  rcases carryOutReset_cases s with ⟨pending, -, -⟩ | ⟨-, h⟩
  · exact absurd (clear.symm.trans pending) nofun
  · exact h

/-- R113: the link has gone DOWN, with no request held. -/
theorem goOn_linkDown_finished (s : State) (sel : Option Selection) :
    Finished sel s.link (goOn (linkDown s)).engine (goOn (linkDown s)).link := by
  generalize fallen : returnRequest false (linkFallen s) = u
  have held : u.engine.held = none := fallen ▸ returnRequest_held _ _
  have engine : u.engine = { held := none, selection := none } :=
    engine_eq_of_idle held (by rw [← fallen, returnRequest_selection]; rfl)
  have link : u.link = { s.link with state := .down, resetPending := false, failures := 0 } := by
    rw [← fallen, returnRequest_link]
    rfl
  rw [linkDown_eq, fallen]
  cases pending : s.link.resetPending
  · rw [if_neg Bool.false_ne_true, goOn_of_idle held, carryOutReset_of_clear (by rw [link]), engine, link]
    exact .falls
  · rw [if_pos rfl, goOn_of_idle (by simpa using held), carryOutReset_of_clear (by rfl)]
    have reset := Carried.reset (e := { held := none, selection := sel }) (l := { s.link with failures := 0 })
      pending rfl
    have same : (enterResetting u).engine = { held := none, selection := none } := by
      simp [enterResetting, sendMessage, engine]
    have sends : (enterResetting u).link = resetLink { s.link with failures := 0 } := by
      simp [enterResetting, sendMessage, resetLink, link]
    rw [same, sends]
    exact .ends (.inl rfl) reset

/-- R112, R113, R92, R116: the link's count after the arbiter's decision, and what follows it. A request stays with the
engine only when no reset is pending. -/
theorem goOn_updateCount_finished (st : Status) (stays : s.engine.held ≠ none → s.link.resetPending = false) :
    Finished s.engine.selection s.link (goOn (updateCount st s)).engine (goOn (updateCount st s)).link := by
  have counted : ∀ n, n = 0 ∨ n < s.link.threshold →
      Finished s.engine.selection s.link (goOn { s with link := { s.link with failures := n } }).engine
        (goOn { s with link := { s.link with failures := n } }).link := by
    intro n count
    rcases goOn_cases { s with link := { s.link with failures := n } } with ⟨x, held, h⟩ | ⟨idle, h⟩
    · rw [h]
      exact .goesOn count (stays (by rw [show s.engine.held = some x from held]; exact nofun))
        (startEntry_started { s with link := { s.link with failures := n } } _)
    · rw [h]
      have carried := carryOutReset_carried { s with link := { s.link with failures := n } }
      have here : s.engine = { held := none, selection := s.engine.selection } := engine_eq_of_idle idle rfl
      refine .ends count ?_
      rw [← here]
      exact carried
  rcases updateCount_cases s st with ⟨-, h⟩ | ⟨-, below, h⟩ | ⟨-, -, h⟩
  · rw [h]; exact counted 0 (.inl rfl)
  · rw [h]; exact counted _ (.inr below)
  · rw [h]; exact goOn_linkDown_finished s _

theorem arbiterDecision_of_pending {x : Execution} (b : Boundary) (held : s.engine.held = some x)
    (pending : s.link.resetPending = true) : arbiterDecision b s = returnRequest false s := by
  unfold arbiterDecision
  rw [held]
  exact if_pos pending

/-- R69–R74: the arbiter leaves the link and the selection, and leaves the request only when no reset is pending. -/
theorem arbiterDecision_keeps (b : Boundary) (s : State) :
    (arbiterDecision b s).link = s.link ∧ (arbiterDecision b s).engine.selection = s.engine.selection ∧
      ((arbiterDecision b s).engine.held ≠ none → s.link.resetPending = false) := by
  rcases arbiterDecision_cases s b with h | ⟨x, -, ⟨-, h⟩ | ⟨-, -, q, rest, -, ⟨-, -, h⟩ | ⟨-, -, h⟩⟩⟩
  · refine ⟨by rw [h], by rw [h], fun stays => Bool.eq_false_iff.2 fun pending => ?_⟩
    obtain ⟨x, held⟩ := Option.ne_none_iff_exists'.1 (h ▸ stays)
    rw [arbiterDecision_of_pending b held pending] at stays
    exact stays (returnRequest_held _ _)
  all_goals
    rw [h]
    exact ⟨returnRequest_link _ _, returnRequest_selection _ _, fun stays => absurd (returnRequest_held _ _) stays⟩

/-- R69–R74, R112, R113, R92, R116: steps 5 to 7 of a completion. -/
theorem finishBoundary_finished (b : Boundary) (st : Status) (s : State) :
    Finished s.engine.selection s.link (finishBoundary b st s).engine (finishBoundary b st s).link := by
  obtain ⟨link, selection, stays⟩ := arbiterDecision_keeps b s
  have finished := goOn_updateCount_finished (s := arbiterDecision b s) st (by rw [link]; exact stays)
  rw [link, selection] at finished
  exact finished

theorem advanceCursor_link (k : Fin 8) (s : State) :
    (advanceCursor k s).1.link = s.link ∧ (advanceCursor k s).1.engine.selection = s.engine.selection := by
  rcases advanceCursor_cases s k with ⟨-, h⟩ | ⟨-, ⟨-, -, h⟩ | ⟨-, h⟩⟩
  · rw [h]; exact ⟨rfl, rfl⟩
  · rw [h]; simp [completeScan]
  · rw [h]; exact ⟨rfl, rfl⟩

theorem advancedAndFinished_finished (k : Fin 8) (st : Status) (s : State) :
    Finished s.engine.selection s.link (advancedAndFinished k st s).engine (advancedAndFinished k st s).link := by
  obtain ⟨link, selection⟩ := advanceCursor_link k s
  have finished := finishBoundary_finished (advanceCursor k s).2 st (advanceCursor k s).1
  rw [link, selection] at finished
  exact finished

theorem resultReported_link (x : Execution) (st : Status) (v : Word) (s : State) :
    (resultReported x st v s).link = s.link ∧ (resultReported x st v s).engine = s.engine := by
  unfold resultReported
  split <;> simp [handResult]

/-- R89: the completion of an entry that ends OK or CLIPPED. -/
theorem completeSuccess_finished (x : Execution) (st : Status) (v : Word) (s : State) :
    Finished s.engine.selection s.link (completeSuccess x st v s).engine (completeSuccess x st v s).link := by
  obtain ⟨link, engine⟩ := resultReported_link x st v s
  rcases completeSuccess_cases x st v s with ⟨-, h⟩ | ⟨-, -, h⟩ | ⟨-, -, h⟩
  · have finished := advancedAndFinished_finished x.request.set st (resultReported x st v s)
    rw [link, engine] at finished
    exact h ▸ finished
  · have finished := advancedAndFinished_finished x.request.set st
      (triggerArrival x.snapshot.target .limit (resultReported x st v s))
    simp only [triggerArrival_link, triggerArrival_engine, link, engine] at finished
    exact h ▸ finished
  · have finished := finishBoundary_finished .ended st (limitStop x.request.set (resultReported x st v s))
    simp only [limitStop, restartOrArm_link, restartOrArm_engine, dropHeld_link, dropHeld_engine, modSet_link,
      modSet_engine, post_link, post_engine, handBoundaryStop_link, handBoundaryStop_engine, link, engine] at finished
    exact h ▸ finished

/-- R90: the completion of an entry that ends NO_RESPONSE or FE_FAULT. -/
theorem completeFailure_finished (x : Execution) {st : Status} (failed : st.success = false) (s : State) :
    Finished none s.link (completeFailure x st s).engine (completeFailure x st s).link := by
  rcases completeFailure_cases x failed s with ⟨-, h⟩ | ⟨-, h⟩
  · have finished := finishBoundary_finished .ended st (haltSet x.request.set x.entry st (failureReported x st s))
    simp only [haltSet, failureReported, dropHeld_link, dropHeld_engine, modSet_link, modSet_engine, post_link,
      post_engine, handBoundaryStop_link, handBoundaryStop_engine, handSetRecord_link, handSetRecord_engine] at finished
    exact h ▸ finished
  · have finished := advancedAndFinished_finished x.request.set st (failureReported x st s)
    simp only [failureReported, post_link, post_engine, handSetRecord_link, handSetRecord_engine] at finished
    exact h ▸ finished

/-! ### Answers and failed attempts -/

variable {o : Outstanding}

theorem answeredBy_selectAck {m : Message} {sel : Selection} :
    m.answeredBy (.selectAck sel) = true ↔ m = .select sel := by
  cases m <;> simp [Message.answeredBy]

theorem answeredBy_sample {m : Message} {overRange fault : Bool} {value : Word} :
    m.answeredBy (.sample overRange fault value) = true ↔ m = .convert := by
  cases m <;> simp [Message.answeredBy]

theorem answeredBy_resetAck {m : Message} : m.answeredBy .resetAck = true ↔ m = .resetFe := by
  cases m <;> simp [Message.answeredBy]

theorem not_answeredBy_other {m : Message} : ¬ m.answeredBy .other = true := by
  cases m <;> simp [Message.answeredBy]

theorem takeSample_step {x : Execution} (held : s.engine.held = some x) (notDraining : ∀ c, x.phase ≠ .draining c)
    (outstanding : s.link.outstanding = some o) (message : o.message = .convert) (overRange fault : Bool)
    (value : Word) :
    EngineStep s.engine s.link (takeSample x overRange fault value (answered s)).engine
      (takeSample x overRange fault value (answered s)).link := by
  rcases takeSample_cases x overRange fault value (answered s) with ⟨-, h⟩ | ⟨-, more, h⟩ | ⟨-, -, h⟩
  · have finished := completeFailure_finished x (st := .feFault) rfl (answered s)
    exact .fail x o s.link.protocolError held notDraining outstanding (h ▸ finished)
  · rw [h]
    exact .fold x o overRange value held notDraining outstanding message more
  · have finished := completeSuccess_finished (folded x overRange value) (outcome (folded x overRange value))
      (reduced (folded x overRange value)) (holding (folded x overRange value) (answered s))
    exact .complete x o held notDraining outstanding (h ▸ finished)

theorem takeSelection_step {x : Execution} (held : s.engine.held = some x) (notDraining : ∀ c, x.phase ≠ .draining c)
    (outstanding : s.link.outstanding = some o) {sel : Selection} (message : o.message = .select sel) :
    EngineStep s.engine s.link (takeSelection x sel (answered s)).engine (takeSelection x sel (answered s)).link := by
  unfold takeSelection
  dsimp only
  split
  · exact .select x o sel held notDraining outstanding message
  · exact .settle x o sel _ held notDraining outstanding message

/-- R107: a suitable answer outside a drain. -/
theorem takeAnswer_step (noDrain : s.engine.drain? = none) (outstanding : s.link.outstanding = some o) (f : AnswerFrame)
    (suitable : o.message.answeredBy f = true) :
    EngineStep s.engine s.link (takeAnswer f (answered s)).engine (takeAnswer f (answered s)).link := by
  unfold takeAnswer
  split
  next sel x held =>
    exact takeSelection_step (s := s) held (drain?_eq_none_of_held held noDrain) outstanding
      (answeredBy_selectAck.1 suitable)
  next overRange fault value x held =>
    exact takeSample_step (s := s) held (drain?_eq_none_of_held held noDrain) outstanding
      (answeredBy_sample.1 suitable) overRange fault value
  · exact .linkUp o outstanding (answeredBy_resetAck.1 suitable)
  next idle =>
    exact .unclaimed o outstanding (by rw [answeredBy_selectAck.1 suitable]; exact nofun) idle s.link.protocolError
  next idle =>
    exact .unclaimed o outstanding (by rw [answeredBy_sample.1 suitable]; exact nofun) idle s.link.protocolError
  · exact absurd suitable not_answeredBy_other

/-- R108: a failed attempt outside a drain, PROTOCOL_ERROR set or as it was. -/
theorem attemptFailed_step (noDrain : s.engine.drain? = none) (outstanding : s.link.outstanding = some o)
    (error : Bool) :
    EngineStep s.engine s.link (attemptFailed o { s with link := { s.link with protocolError := error } }).engine
      (attemptFailed o { s with link := { s.link with protocolError := error } }).link := by
  have failed := fun x => completeFailure_finished x (st := .noResponse) rfl
    { s with link := { s.link with outstanding := none, protocolError := error } }
  rcases attemptFailed_cases { s with link := { s.link with protocolError := error } } o with ⟨retries, h⟩ | ⟨-, h⟩
  · rw [h]
    exact .resend o outstanding retries error
  · rw [h]
    unfold transactionFailed
    dsimp only
    split
    next message => exact .resetFailed o outstanding message error
    next x message held =>
      exact .fail x o error held (drain?_eq_none_of_held held noDrain) outstanding (failed x)
    next x message held =>
      exact .fail x o error held (drain?_eq_none_of_held held noDrain) outstanding (failed x)
    next message idle => exact .unclaimed o outstanding (by rw [message]; exact nofun) idle error
    next message idle => exact .unclaimed o outstanding (by rw [message]; exact nofun) idle error

theorem quiet_refl (h : HostInterface) : Quiet h h := ⟨.rfl, fun _ => rfl, fun _ => rfl, .inl rfl, id⟩

/-- What a command that leaves the port alone makes of a state. -/
theorem Control.of_step {t : State} (step : EngineStep s.engine s.link t.engine t.link) (host : t.host = s.host) :
    Control s t.engine t.link t.host :=
  .quiet step (host ▸ quiet_refl _)

theorem endDrain_control {x : Execution} {cause : DrainCause} (held : s.engine.held = some x)
    (phase : x.phase = .draining cause) (keep error : Bool) :
    Control s (endDrain x cause keep { s with link := { s.link with protocolError := error } }).engine
      (endDrain x cause keep { s with link := { s.link with protocolError := error } }).link
      (endDrain x cause keep { s with link := { s.link with protocolError := error } }).host := by
  refine .drainEnd x cause keep error held phase ?_ (by simp [endDrain, completeLong])
  exact carryOutReset_carried
    (completeLong
      (releaseHeld x.request.set cause
        { s with
          link := { s.link with outstanding := none, protocolError := error }
          engine := { s.engine with selection := if keep then s.engine.selection else none } }))

theorem receiveFrame_control (tag : BitVec 2) (f : AnswerFrame) :
    Control s (receiveFrame tag f s).engine (receiveFrame tag f s).link (receiveFrame tag f s).host := by
  rcases receiveFrame_cases s tag f with ⟨-, h⟩ | ⟨o, outstanding, -, ⟨suitable, ⟨noDrain, h⟩ | ⟨x, c, drain, h⟩⟩ |
    ⟨-, ⟨noDrain, h⟩ | ⟨x, c, drain, h⟩⟩⟩
  · rw [h]; exact .of_step (.flags true s.link.protocolError) rfl
  · rw [h]; exact .of_step (takeAnswer_step noDrain outstanding f suitable) (by simp)
  · obtain ⟨held, phase⟩ := Engine.drain?_eq_some.1 drain
    rw [h]; exact endDrain_control held phase _ s.link.protocolError
  · rw [h]; exact .of_step (attemptFailed_step noDrain outstanding true) (by simp)
  · obtain ⟨held, phase⟩ := Engine.drain?_eq_some.1 drain
    rw [h]; exact endDrain_control held phase _ true

theorem attemptExpire_control :
    Control s (attemptExpire s).engine (attemptExpire s).link (attemptExpire s).host := by
  unfold attemptExpire
  split
  · exact .of_step .same rfl
  next o outstanding =>
    split
    · split
      next x cause drain =>
        obtain ⟨held, phase⟩ := Engine.drain?_eq_some.1 drain
        exact endDrain_control held phase false s.link.protocolError
      next noDrain => exact .of_step (attemptFailed_step noDrain outstanding s.link.protocolError) (by simp)
    · exact .of_step .same rfl

theorem settleExpire_control : Control s (settleExpire s).engine (settleExpire s).link (settleExpire s).host := by
  unfold settleExpire
  split
  · exact .of_step .same rfl
  next x held =>
    split
    next phase => exact .of_step (.settled x held phase) rfl
    · exact .of_step .same rfl

theorem start_control (can : s.canStart = true) :
    Control s (startHead s).engine (startHead s).link (startHead s).host := by
  obtain ⟨idle, up, clear, some⟩ := canStart_iff.1 can
  obtain ⟨r, rest, queue⟩ := List.exists_cons_of_ne_nil some
  have started := startEntry_started
    { s with
      arbiter := { s.arbiter with queue := rest }
      sets := amend s.sets r.set fun x => x.started r.kind } r
  refine .of_step (.start idle up clear ?_) (startHead_host s)
  rw [startHead_of_cons queue]
  exact started

/-! ### The host's commands -/

/-- The port after a command's own checks, which have found it not IN_PROGRESS. -/
theorem quiet_done {h h' : HostInterface} (free : h.port.state ≠ .inProgress) (done : h'.port.state = .done)
    (intenable : h'.intenable = h.intenable) (commandDone : h'.commandDone = h.commandDone) : Quiet h h' :=
  ⟨iff_of_false (by rw [done]; exact nofun) free, fun busy => absurd busy free, by rw [done]; exact nofun,
    .inl intenable, fun set => commandDone ▸ set⟩

theorem portResult_quiet {h : HostInterface} (busy : h.port.state = .inProgress) (r : Result) :
    Quiet h { h with port := { h.port with result := r } } :=
  ⟨.rfl, fun _ => rfl, fun now => absurd (busy.symm.trans now) nofun, .inl rfl, id⟩

/-- R177, R180: a command that is never long, by what its own checks leave of the engine and the link. -/
theorem hostCommand_control {c : Fin 25} {body : State → Reply} (quick : Quick (body s))
    (leaves : s.resetAsserted = false → ∀ t, Leaves (body s) t → EngineStep s.engine s.link t.engine t.link ∧
      t.host.intenable = s.host.intenable ∧ t.host.commandDone = s.host.commandDone) :
    Control s (hostCommand c body s).engine (hostCommand c body s).link (hostCommand c body s).host := by
  rcases hostCommand_cases s c body with ⟨-, h⟩ | ⟨-, busy, h⟩ | ⟨released, free, h⟩
  · rw [h]; exact .of_step .same rfl
  · rw [h]; exact .quiet .same (portResult_quiet busy _)
  · rw [h]
    rcases quick with ⟨t, accepted⟩ | ⟨code, refused, -⟩
    · rw [accepted]
      obtain ⟨step, intenable, commandDone⟩ := leaves released t (.inl accepted)
      exact .quiet step (quiet_done free rfl intenable commandDone)
    · rw [refused]
      exact .quiet .same (quiet_done free rfl rfl rfl)

/-- R36: a host stop that the engine takes. -/
theorem stopRunning_control {c : Fin 25} {k : Fin 8} {cause : DrainCause} (code : c = 6 ∨ c = 8)
    (free : s.host.port.state ≠ .inProgress) :
    Control s ((stopRunning k cause s).settle c s).engine ((stopRunning k cause s).settle c s).link
      ((stopRunning k cause s).settle c s).host := by
  have released : ∀ u, u.engine = s.engine → u.link = s.link →
      Carried { s.engine with held := none } s.link (carryOutReset (releaseHeld k cause u)).engine
        (carryOutReset (releaseHeld k cause u)).link := by
    intro u engine link
    have carried := carryOutReset_carried (releaseHeld k cause u)
    rw [show (releaseHeld k cause u).engine = { u.engine with held := none } from rfl,
      show (releaseHeld k cause u).link = u.link from rfl, engine, link] at carried
    exact carried
  have host : ∀ u : State, u.host = s.host →
      (carryOutReset (releaseHeld k cause u)).host.intenable = s.host.intenable ∧
        (carryOutReset (releaseHeld k cause u)).host.commandDone = s.host.commandDone := by
    intro u same
    rw [carryOutReset_host, releaseHeld_host, same]
    exact ⟨rfl, rfl⟩
  obtain ⟨intenable, commandDone⟩ := host (s.modSet k fun x => { x with deferred := false }) rfl
  unfold stopRunning
  dsimp only
  split
  next idle =>
    refine .quiet (.release (by simp [idle]) ?_) (quiet_done free rfl intenable commandDone)
    exact released _ rfl rfl
  next x held =>
    split
    next phase => exact .drain x cause held (.inl phase) rfl rfl free c code rfl
    next phase => exact .drain x cause held (.inr phase) rfl rfl free c code rfl
    next n phase =>
      refine .quiet (.release (fun y now => ?_) ?_) (quiet_done free rfl intenable commandDone)
      · rw [held] at now
        cases now
        exact ⟨n, phase⟩
      · exact released _ rfl rfl
    · exact .quiet .same (quiet_done free rfl rfl rfl)

/-- R35, R36: SET_STOP and SET_DISABLE. -/
theorem stopReply_control {c : Fin 25} {cause : DrainCause} (code : c = 6 ∨ c = 8) :
    Control s (hostCommand c (stopReply cause) s).engine (hostCommand c (stopReply cause) s).link
      (hostCommand c (stopReply cause) s).host := by
  rcases hostCommand_cases s c (stopReply cause) with ⟨-, h⟩ | ⟨-, busy, h⟩ | ⟨-, free, h⟩
  · rw [h]; exact .of_step .same rfl
  · rw [h]; exact .quiet .same (portResult_quiet busy _)
  · have done : ∀ {u : State}, u.engine = s.engine → u.link = s.link → u.host.port.state = .done →
        u.host.intenable = s.host.intenable → u.host.commandDone = s.host.commandDone →
        Control s u.engine u.link u.host := by
      intro u engine link port intenable commandDone
      rw [engine, link]
      exact .quiet .same (quiet_done free port intenable commandDone)
    rw [h]
    unfold stopReply
    split
    · exact done rfl rfl rfl rfl rfl
    · unfold stopSet
      split
      case h_7 => exact stopRunning_control code free
      case h_3 | h_6 => split <;> exact done rfl rfl rfl rfl rfl
      all_goals exact done rfl rfl rfl rfl rfl

/-- R114, R115: what an accepted command other than a host stop makes of the engine and the link. -/
theorem replyOf_step {c : Instr} (notStop : c ≠ .setStop) (notDisable : c ≠ .setDisable) {t : State}
    (h : Leaves (replyOf c s) t) :
    EngineStep s.engine s.link t.engine t.link ∧ t.host.intenable = s.host.intenable ∧
      t.host.commandDone = s.host.commandDone := by
  have same : ∀ {u : State}, u.engine = s.engine → u.link = s.link → u.host.intenable = s.host.intenable →
      u.host.commandDone = s.host.commandDone → EngineStep s.engine s.link u.engine u.link ∧
        u.host.intenable = s.host.intenable ∧ u.host.commandDone = s.host.commandDone := by
    intro u engine link intenable commandDone
    rw [engine, link]
    exact ⟨.same, intenable, commandDone⟩
  cases c
  case setStop => exact absurd rfl notStop
  case setDisable => exact absurd rfl notDisable
  case entryWrite => obtain ⟨i, f, -, -, rfl⟩ := entryWriteReply_leaves h; exact same rfl rfl rfl rfl
  case entryRead => obtain ⟨p, rfl⟩ := entryReadReply_leaves h; exact same rfl rfl rfl rfl
  case setWrite => obtain ⟨k, d, -, -, -, rfl⟩ := setWriteReply_leaves h; exact same rfl rfl rfl rfl
  case setRead => obtain ⟨p, rfl⟩ := setReadReply_leaves h; exact same rfl rfl rfl rfl
  case setEnable => obtain ⟨k, -, -, rfl⟩ := setEnableReply_leaves h; exact same rfl rfl rfl rfl
  case setTrigger => obtain ⟨k, rfl⟩ := setTriggerReply_leaves h; exact same (by simp) (by simp) (by simp) (by simp)
  case setClear => obtain ⟨k, -, rfl⟩ := setClearReply_leaves h; exact same rfl rfl rfl rfl
  case timerWrite => obtain ⟨j, p, x, -, -, rfl⟩ := timerWriteReply_leaves h; exact same rfl rfl rfl rfl
  case timerStart => obtain ⟨j, -, rfl⟩ := timerStartReply_leaves h; exact same rfl rfl rfl rfl
  case timerStop => obtain ⟨j, rfl⟩ := timerStopReply_leaves h; exact same rfl rfl rfl rfl
  case extWrite => obtain ⟨l, edge, rfl⟩ := extWriteReply_leaves h; exact same rfl rfl rfl rfl
  case linkWrite => obtain ⟨p, l, unpacked, rfl⟩ := linkWriteReply_leaves h; exact ⟨.configure p l unpacked, rfl, rfl⟩
  case linkReset =>
    rcases linkResetReply_leaves h with ⟨idle, rfl⟩ | ⟨up, held, rfl⟩
    · exact ⟨.reset idle, by simp, by simp⟩
    · exact ⟨.pend up held, rfl, rfl⟩
  case streamWrite => obtain ⟨k, l, -, -, rfl⟩ := streamWriteReply_leaves h; exact same rfl rfl rfl rfl
  case streamRead => obtain ⟨p, rfl⟩ := streamReadReply_leaves h; exact same rfl rfl rfl rfl
  case streamEnable => obtain ⟨k, -, -, rfl⟩ := streamEnableReply_leaves h; exact same rfl rfl rfl rfl
  case streamDisable => obtain ⟨k, -, rfl⟩ := streamDisableReply_leaves h; exact same rfl rfl rfl rfl
  case streamFlush => obtain ⟨k, p, rfl⟩ := streamFlushReply_leaves h; exact same rfl rfl rfl rfl
  case pageOpen => obtain ⟨k, l, rest, p, -, -, rfl⟩ := pageOpenReply_leaves h; exact same rfl rfl rfl rfl
  case pageRelease => obtain ⟨k, l, -, rfl⟩ := pageReleaseReply_leaves h; exact same rfl rfl rfl rfl
  case eventPop => obtain ⟨-, rfl⟩ := eventPopReply_leaves h; exact same rfl rfl rfl rfl
  all_goals
    obtain rfl := leaves_accept.1 h
    exact same rfl rfl rfl rfl

theorem directory_control {c : Instr} {n : Fin 25} (code : c.code? = some n) (notSoft : c ≠ .softReset) {t : State}
    (h : exec c s = .next t) : Control s t.engine t.link t.host := by
  rw [exec_of_code code notSoft] at h
  injection h with h
  subst h
  by_cases notStop : c = .setStop
  · subst notStop
    cases code
    exact stopReply_control (.inr rfl)
  by_cases notDisable : c = .setDisable
  · subst notDisable
    cases code
    exact stopReply_control (.inl rfl)
  exact hostCommand_control (replyOf_quick c notStop notDisable s) fun _ t leaves =>
    replyOf_step notStop notDisable leaves

/-! ### The arrivals -/

theorem deliverTriggers_control (src : TriggerSource) (o : Origin) (s : State) :
    (deliverTriggers src o s).engine = s.engine ∧ (deliverTriggers src o s).link = s.link ∧
      (deliverTriggers src o s).host = s.host := by
  unfold deliverTriggers
  generalize allSets = ks
  induction ks generalizing s with
  | nil => exact ⟨rfl, rfl, rfl⟩
  | cons k rest ih =>
    rw [List.foldl_cons]
    obtain ⟨engine, link, host⟩ := ih (if s.sets[k].desc.source = src then triggerArrival k o s else s)
    rw [engine, link, host]
    split <;> simp

/-- A command that leaves the engine, the link and the port alone. -/
theorem Control.of_same {t : State} (engine : t.engine = s.engine) (link : t.link = s.link)
    (host : t.host = s.host) : Control s t.engine t.link t.host := by
  rw [engine, link, host]
  exact .quiet .same (quiet_refl _)

/-- A host interface with the same port: its other registers are free of what the part does. -/
theorem quiet_registers {h h' : HostInterface} (port : h'.port = h.port)
    (intenable : h'.intenable = h.intenable ∨ ∃ value : Word, h'.intenable = value &&& 0x0007)
    (commandDone : h'.commandDone = true → h.commandDone = true) : Quiet h h' :=
  ⟨by rw [port], fun _ => by rw [port], fun _ => port, intenable, commandDone⟩

theorem whenReleased_control {f : State → State}
    (control : Control s (f s).engine (f s).link (f s).host) :
    Control s (whenReleased f s).engine (whenReleased f s).link (whenReleased f s).host := by
  unfold whenReleased
  split
  · exact .of_same rfl rfl rfl
  · exact control

theorem lineSample_control (l : Fin 2) (high : Bool) :
    Control s (lineSample l high s).engine (lineSample l high s).link (lineSample l high s).host := by
  have keeps := deliverTriggers_control
  unfold lineSample
  split
  · exact .of_same rfl rfl rfl
  · dsimp only
    split
    · obtain ⟨engine, link, host⟩ := keeps (.ext l) (.ext l) _
      exact .of_same engine link host
    · exact .of_same rfl rfl rfl

theorem timerExpire_control (j : Fin 4) :
    Control s (timerExpire j s).engine (timerExpire j s).link (timerExpire j s).host := by
  unfold timerExpire
  split
  · obtain ⟨engine, link, host⟩ := deliverTriggers_control (.timer j) (.timer j) s
    refine .of_same ?_ ?_ ?_
    · rw [modTimer_engine, engine]
    · rw [modTimer_link, link]
    · rw [modTimer_host, host]
  · exact .of_same rfl rfl rfl

/-- R180: an unknown command code. -/
theorem unknownCommand_control {code : Word} {t : State} (h : exec (.unknownCommand code) s = .next t) :
    Control s t.engine t.link t.host := by
  change execUnknownCommand code s = .next t at h
  unfold execUnknownCommand at h
  split at h
  · injection h with h
    subst h
    refine whenReleased_control ?_
    split
    next busy => exact .quiet .same (portResult_quiet busy _)
    next free => exact .quiet .same (quiet_done (by rw [free]; exact nofun) rfl rfl rfl)
    next free => exact .quiet .same (quiet_done (by rw [free]; exact nofun) rfl rfl rfl)
  · cases h

/-- An arrival that is no command of the directory. -/
theorem arrival_control {c : Instr} (code : c.code? = none) (notReset : c ≠ .deviceReset) {t : State}
    (h : exec c s = .next t) : Control s t.engine t.link t.host := by
  cases c <;> cases code
  case unknownCommand value => exact unknownCommand_control h
  case otherTypeFrame =>
    obtain ⟨-, rfl⟩ := exec_otherTypeFrame_next h
    exact whenReleased_control (receiveFrame_control _ _)
  case ignoredRegisterWrite =>
    obtain ⟨-, rfl⟩ := exec_ignoredRegisterWrite_next h
    exact .of_same rfl rfl rfl
  all_goals injection h with h
  all_goals subst h
  case deviceReset => exact absurd rfl notReset
  case timeCounterAdvance => exact whenReleased_control (.of_step .tick rfl)
  case linkstatWrite value => exact whenReleased_control (.of_step (.flags _ _) rfl)
  case timeloRead | strmdataRead => split <;> exact .quiet .same (quiet_registers rfl (.inl rfl) id)
  case resetRelease => split <;> exact .of_same rfl rfl rfl
  case extLevelChange l high =>
    exact whenReleased_control (lineSample_control l high)
  case timerUnitComplete j =>
    refine whenReleased_control ?_
    unfold unitComplete
    split <;> exact .of_same rfl rfl rfl
  case timerExpiry j =>
    exact whenReleased_control (timerExpire_control j)
  case settleExpiry => exact whenReleased_control settleExpire_control
  case attemptTimeout => exact whenReleased_control attemptExpire_control
  case flushExpiry k =>
    refine whenReleased_control ?_
    split <;> exact .of_same rfl rfl rfl
  case selectAck | sample | resetAck => exact whenReleased_control (receiveFrame_control _ _)
  case start =>
    refine whenReleased_control ?_
    split
    next can => exact start_control can
    · exact .of_same rfl rfl rfl
  case paramWrite => exact whenReleased_control (.quiet .same (quiet_registers rfl (.inl rfl) id))
  case intenableWrite value =>
    exact whenReleased_control (.quiet .same (quiet_registers rfl (.inr ⟨value, rfl⟩) id))
  case evmaskWrite => exact whenReleased_control (.of_same rfl rfl rfl)
  case intcauseWrite =>
    refine whenReleased_control (.quiet .same (quiet_registers rfl (.inl rfl) fun set => ?_))
    exact (Bool.and_eq_true_iff.1 set).1

/-- What every command but a reset makes of the engine, the link and the port. -/
theorem exec_control {c : Instr} (notSoft : c ≠ .softReset) (notReset : c ≠ .deviceReset) {t : State}
    (h : exec c s = .next t) : Control s t.engine t.link t.host := by
  cases code : c.code? with
  | none => exact arrival_control code notReset h
  | some n => exact directory_control code notSoft h

end

end Sys2Proof.Proofs
end

