-- ==== Sys2Proof/Proofs/EngineRules.lean ====
section
/-! PROOFS. The link record and the samples taken stay in their ranges; the link, the engine and the outstanding message
stay together; and so do the port and the engine's drain. -/

namespace Sys2Proof.Proofs

open Sys2Proof.Machine Sys2Proof.Statements

/-! ### The link record in its ranges -/

/-- R104, R112, of a link. -/
structure LinkRanges (l : Link) : Prop where
  timeouts : 1 ≤ l.selectTimeout ∧ l.selectTimeout ≤ 255 ∧ 1 ≤ l.conversionTimeout ∧ l.conversionTimeout ≤ 255
  retryLimit : l.retryLimit ≤ 3
  threshold : 1 ≤ l.threshold ∧ l.threshold ≤ 15
  failures : l.failures < l.threshold
  attempt : ∀ o ∈ l.outstanding, o.left ≤ 255 ∧ o.retries ≤ 3

theorem linkInRange_iff {s : State} : LinkInRange s ↔ LinkRanges s.link :=
  ⟨fun h => ⟨h.timeouts, h.retryLimit, h.threshold, h.failures, h.attempt⟩,
    fun h => ⟨h.timeouts, h.retryLimit, h.threshold, h.failures, h.attempt⟩⟩

section

variable {l l' : Link} {e e' : Engine} {sel : Option Selection}

theorem LinkRanges.timeoutOf (h : LinkRanges l) (m : Message) : l.timeoutOf m ≤ 255 := by
  cases m
  · exact h.timeouts.2.1
  · exact h.timeouts.2.2.2
  · exact h.timeouts.2.1

/-- A link with the same configuration. -/
theorem LinkRanges.of_configuration (h : LinkRanges l) (select : l'.selectTimeout = l.selectTimeout)
    (conversion : l'.conversionTimeout = l.conversionTimeout) (limit : l'.retryLimit = l.retryLimit)
    (threshold : l'.threshold = l.threshold) (failures : l'.failures = 0 ∨ l'.failures < l.threshold)
    (attempt : ∀ o ∈ l'.outstanding, o.left ≤ 255 ∧ o.retries ≤ 3) : LinkRanges l' where
  timeouts := by rw [select, conversion]; exact h.timeouts
  retryLimit := limit ▸ h.retryLimit
  threshold := threshold ▸ h.threshold
  failures := by
    rw [threshold]
    rcases failures with zero | below
    · rw [zero]; exact h.threshold.1
    · exact below
  attempt := attempt

theorem LinkRanges.send (h : LinkRanges l) (m : Message) : LinkRanges (l.send m) := by
  refine h.of_configuration rfl rfl rfl rfl (.inr h.failures) fun o now => ?_
  cases now
  exact ⟨h.timeoutOf m, Nat.zero_le 3⟩

theorem LinkRanges.counted (h : LinkRanges l) {n : Nat} (count : n = 0 ∨ n < l.threshold) :
    LinkRanges { l with failures := n } :=
  h.of_configuration rfl rfl rfl rfl count h.attempt

theorem LinkRanges.answered (h : LinkRanges l) (error : Bool) :
    LinkRanges { l with outstanding := none, protocolError := error } :=
  h.of_configuration rfl rfl rfl rfl (.inr h.failures) nofun

theorem LinkRanges.reset (h : LinkRanges l) : LinkRanges (resetLink l) :=
  LinkRanges.send (l := { l with state := .resetting, resetPending := false, failures := 0 })
    (h.of_configuration rfl rfl rfl rfl (.inl rfl) h.attempt) _

theorem Carried.linkRanges (h : Carried e l e' l') (before : LinkRanges l) : LinkRanges l' := by
  cases h with
  | reset _ _ => exact before.reset
  | stays _ => exact before

theorem Started.linkRanges (h : Started sel l e' l') (before : LinkRanges l) : LinkRanges l' := by
  cases h with
  | convert _ _ _ _ => exact before.send _
  | select _ _ _ => exact before.send _

theorem Finished.linkRanges (h : Finished sel l e' l') (before : LinkRanges l) : LinkRanges l' := by
  cases h with
  | goesOn count _ started => exact started.linkRanges (before.counted count)
  | ends count carried => exact carried.linkRanges (before.counted count)
  | falls => exact before.of_configuration rfl rfl rfl rfl (.inl rfl) before.attempt

/-- R114: LINK_WRITE accepts the four values in their ranges alone. -/
theorem unpackLink?_inRange {p : Vector Word 6} {c : LinkConfig} (unpacked : unpackLink? p = some c) :
    (1 ≤ c.selectTimeout ∧ c.selectTimeout ≤ 255 ∧ 1 ≤ c.conversionTimeout ∧ c.conversionTimeout ≤ 255) ∧
      c.retryLimit ≤ 3 ∧ 1 ≤ c.threshold ∧ c.threshold ≤ 15 := by
  unfold unpackLink? at unpacked
  split at unpacked
  next inRange =>
    cases unpacked
    obtain ⟨selectLow, selectHigh, conversionLow, conversionHigh, limit, low, high⟩ := inRange
    exact ⟨⟨selectLow, selectHigh, conversionLow, conversionHigh⟩, limit, low, high⟩
  · cases unpacked

theorem EngineStep.linkRanges (h : EngineStep e l e' l') (before : LinkRanges l) : LinkRanges l' := by
  have answered := before.answered l.protocolError
  cases h with
  | same | flags _ _ | pend _ _ =>
    exact before.of_configuration rfl rfl rfl rfl (.inr before.failures) before.attempt
  | tick =>
    refine before.of_configuration rfl rfl rfl rfl (.inr before.failures) fun o now => ?_
    obtain ⟨old, was, rfl⟩ := Option.map_eq_some_iff.1 now
    obtain ⟨left, retries⟩ := before.attempt old was
    exact ⟨(Nat.sub_le _ _).trans left, retries⟩
  | configure p c unpacked =>
    obtain ⟨timeouts, limit, low, high⟩ := unpackLink?_inRange unpacked
    refine ⟨timeouts, limit, ⟨low, high⟩, ?_, before.attempt⟩
    dsimp only [Link.configured]
    split <;> omega
  | reset _ => exact before.reset
  | release _ carried => exact carried.linkRanges before
  | start _ _ _ started => exact started.linkRanges before
  | settled _ _ _ => exact before.send _
  | resend o outstanding retries error =>
    have limit := before.retryLimit
    refine before.of_configuration rfl rfl rfl rfl (.inr before.failures) fun again now => ?_
    cases now
    exact ⟨before.timeoutOf o.message, by simp only; omega⟩
  | linkUp _ _ _ => exact before.of_configuration rfl rfl rfl rfl (.inl rfl) nofun
  | resetFailed _ _ _ _ => exact before.of_configuration rfl rfl rfl rfl (.inr before.failures) nofun
  | unclaimed _ _ _ _ error => exact before.answered error
  | select _ _ _ _ _ _ _ => exact answered.send _
  | settle _ _ _ _ _ _ _ _ => exact answered
  | fold _ _ _ _ _ _ _ _ _ => exact answered.send _
  | complete _ _ _ _ _ finished => exact finished.linkRanges answered
  | fail _ _ error _ _ _ finished => exact finished.linkRanges (before.answered error)

/-! ### The samples taken -/

/-- R78, R85, of an execution. -/
def SamplesInRange (x : Execution) : Prop :=
  x.samples < x.snapshot.conversions ∧
    (x.acc.minimum.isSome = true ↔ 0 < x.samples) ∧ (x.acc.maximum.isSome = true ↔ 0 < x.samples)

theorem samplesInRange_begun {x : Execution} (begun : Begun x) : SamplesInRange x := by
  obtain ⟨samples, minimum, maximum⟩ := begun
  unfold SamplesInRange
  rw [samples, minimum, maximum]
  exact ⟨Nat.two_pow_pos _, by simp, by simp⟩

/-- R78, R85, of the engine. -/
def EngineRanges (e : Engine) : Prop := ∀ x ∈ e.held, SamplesInRange x

theorem engineRanges_idle (idle : e.held = none) : EngineRanges e := by
  intro x held
  rw [idle] at held
  cases held

theorem engineRanges_some {x : Execution} (inRange : SamplesInRange x) : EngineRanges { held := some x, selection := sel } := by
  intro y held
  cases held
  exact inRange

theorem Carried.engineRanges (h : Carried e l e' l') (before : EngineRanges e) : EngineRanges e' := by
  cases h with
  | reset _ _ => exact before
  | stays _ => exact before

theorem Started.engineRanges (h : Started sel l e' l') : EngineRanges e' := by
  cases h with
  | convert x begun _ _ => exact engineRanges_some (samplesInRange_begun begun)
  | select x begun _ => exact engineRanges_some (samplesInRange_begun begun)

theorem Finished.engineRanges (h : Finished sel l e' l') : EngineRanges e' := by
  cases h with
  | goesOn _ _ started => exact started.engineRanges
  | ends _ carried => exact carried.engineRanges (engineRanges_idle rfl)
  | falls => exact engineRanges_idle rfl

theorem EngineStep.engineRanges (h : EngineStep e l e' l') (before : EngineRanges e) : EngineRanges e' := by
  cases h with
  | same | flags _ _ | configure _ _ _ | pend _ _ | reset _ | resend _ _ _ _ | linkUp _ _ _ | resetFailed _ _ _ _
  | unclaimed _ _ _ _ _ => exact before
  | tick =>
    intro y now
    obtain ⟨x, held, rfl⟩ := Option.map_eq_some_iff.1 now
    exact before x held
  | release _ carried => exact carried.engineRanges (engineRanges_idle rfl)
  | start _ _ _ started => exact started.engineRanges
  | settled x held _ => exact engineRanges_some (x := { x with phase := .converting }) (before x held)
  | select x _ _ held _ _ _ => exact engineRanges_some (x := { x with phase := .converting }) (before x held)
  | settle x _ _ n held _ _ _ => exact engineRanges_some (x := { x with phase := .settling n }) (before x held)
  | fold x _ overRange value _ _ _ _ more =>
    refine engineRanges_some (x := folded x overRange value) ⟨more, ?_, ?_⟩
    · exact iff_of_true rfl (Nat.succ_pos _)
    · exact iff_of_true rfl (Nat.succ_pos _)
  | complete _ _ _ _ _ finished => exact finished.engineRanges
  | fail _ _ _ _ _ _ finished => exact finished.engineRanges

theorem control_ranges {s : State} {p : HostInterface} (h : Control s e l p) (link : LinkRanges s.link)
    (engine : EngineRanges s.engine) : LinkRanges l ∧ EngineRanges e := by
  cases h with
  | quiet step _ => exact ⟨step.linkRanges link, step.engineRanges engine⟩
  | drain x cause held _ engine' link' _ _ _ =>
    rw [engine', link']
    exact ⟨link, engineRanges_some (x := { x with phase := .draining cause }) (engine x held)⟩
  | drainEnd _ _ _ error _ _ carried _ =>
    exact ⟨carried.linkRanges (link.answered error), carried.engineRanges (engineRanges_idle rfl)⟩

end

/-! ### What every step keeps of the engine, the link and the host interface -/

/-- A property that the waiting commands do not touch, and that every change of the engine, the link and the host
interface, a soft reset and the assertion of RESET keep, is kept by every step. -/
theorem step_control_keeps {P : State → Prop} (waiting : ∀ s p, P s → P { s with pending := p })
    (control : ∀ s t, P s → Control s t.engine t.link t.host → P t) (soft : ∀ s, P s → P (softReset s))
    (reset : P { State.reset with resetAsserted := true }) (s s' : State) (before : P s) (h : step s = .next s') :
    P s' := by
  unfold step at h
  split at h
  · injection h with h
    exact h ▸ before
  next c rest _ =>
    have start : P { s with pending := rest } := waiting s rest before
    by_cases isSoft : c = .softReset
    · subst isSoft
      injection h with h
      subst h
      unfold whenReleased
      split
      · exact start
      · exact soft _ start
    by_cases isReset : c = .deviceReset
    · subst isReset
      injection h with h
      subst h
      exact waiting _ rest reset
    exact control _ _ start (exec_control isSoft isReset h)

theorem default_ranges : LinkRanges .default ∧ EngineRanges .default := by
  refine ⟨⟨?_, ?_, ?_, ?_, nofun⟩, engineRanges_idle rfl⟩ <;> simp [Link.default]

/-- Settles O58: every message is sent with a timeout in range and few enough retries, the count is kept below the
threshold, and an entry completes when its last sample is folded. -/
theorem stepKeepsLinkAndEngineInRange : Obligations.StepKeepsLinkAndEngineInRange := by
  have keeps := step_control_keeps (P := fun s => LinkRanges s.link ∧ EngineRanges s.engine) (fun _ _ h => h)
    (fun s t before h => control_ranges h before.1 before.2)
    (fun s before =>
      ⟨before.1.of_configuration rfl rfl rfl rfl (.inl rfl) nofun, engineRanges_idle rfl⟩)
    default_ranges
  intro s s' before h
  obtain ⟨link, engine⟩ := keeps s s' ⟨linkInRange_iff.1 before.1, before.2⟩ h
  exact ⟨linkInRange_iff.2 link, engine⟩

/-! ### The link, the engine and the outstanding message -/

/-- R79, R82, R93: the selection in each phase of the engine. -/
def Selected (x : Execution) (sel : Option Selection) : Prop :=
  match x.phase with
  | .selecting => sel = none
  | .settling _ | .converting => sel = some { channel := x.snapshot.channel, gain := x.snapshot.gain }
  | .draining _ => True

/-- R79, R93, R105, of an engine and a link. -/
structure Matches (e : Engine) (l : Link) : Prop where
  up : l.state ≠ .up → e.held = none ∧ e.selection = none
  down : l.state = .down → l.outstanding = none
  resetting : l.state = .resetting → l.outstanding.map Outstanding.message = some .resetFe
  idle : l.state = .up → e.held = none → l.outstanding = none
  sends : ∀ x ∈ e.held, x.sends (l.outstanding.map Outstanding.message)
  pendingReset : l.resetPending = true → l.state = .up ∧ e.held.isSome = true
  selection : ∀ x ∈ e.held, Selected x e.selection

theorem linkMatchesEngine_iff {s : State} : LinkMatchesEngine s ↔ Matches s.engine s.link :=
  ⟨fun h => ⟨h.up, h.down, h.resetting, h.idle, h.sends, h.pendingReset, h.selection⟩,
    fun h => ⟨h.up, h.down, h.resetting, h.idle, h.sends, h.pendingReset, h.selection⟩⟩

/-- A link that is UP with nothing outstanding, as a completion finds it. -/
def Free (l : Link) : Prop := l.state = .up ∧ l.outstanding = none

section

variable {l l' : Link} {e e' : Engine} {sel : Option Selection} {x : Execution} {o : Outstanding}

theorem Matches.congr (h : Matches e l) (state : l'.state = l.state) (pending : l'.resetPending = l.resetPending)
    (message : l'.outstanding.map Outstanding.message = l.outstanding.map Outstanding.message) : Matches e l' := by
  have absent : l'.outstanding = none ↔ l.outstanding = none := by
    rw [← Option.map_eq_none_iff, message, Option.map_eq_none_iff]
  refine ⟨?_, ?_, ?_, ?_, ?_, ?_, h.selection⟩
  · rw [state]; exact h.up
  · rw [state, absent]; exact h.down
  · rw [state, message]; exact h.resetting
  · rw [state, absent]; exact h.idle
  · rw [message]; exact h.sends
  · rw [state, pending]; exact h.pendingReset

theorem Matches.up_of_held (h : Matches e l) (held : e.held = some x) : l.state = .up := by
  by_contra down
  have idle := (h.up down).1
  rw [held] at idle
  cases idle

theorem Matches.free_of_held (h : Matches e l) (held : e.held = some x) (error : Bool) :
    Free { l with outstanding := none, protocolError := error } :=
  ⟨h.up_of_held held, rfl⟩

/-- R79: what is outstanding while the engine does not drain says which phase it is in. -/
theorem Matches.phase_of_select (h : Matches e l) (held : e.held = some x) (notDraining : ∀ c, x.phase ≠ .draining c)
    (outstanding : l.outstanding = some o) {sel : Selection} (message : o.message = .select sel) :
    x.phase = .selecting ∧ sel = { channel := x.snapshot.channel, gain := x.snapshot.gain } := by
  have sends := h.sends x held
  rw [outstanding, Option.map_some, message] at sends
  unfold Execution.sends at sends
  cases phase : x.phase with
  | selecting => simp_all
  | settling n => simp [phase] at sends
  | converting => simp [phase] at sends
  | draining c => exact absurd phase (notDraining c)

theorem Matches.phase_of_convert (h : Matches e l) (held : e.held = some x)
    (notDraining : ∀ c, x.phase ≠ .draining c) (outstanding : l.outstanding = some o) (message : o.message = .convert) :
    x.phase = .converting := by
  have sends := h.sends x held
  rw [outstanding, Option.map_some, message] at sends
  unfold Execution.sends at sends
  cases phase : x.phase with
  | selecting => simp [phase] at sends
  | settling n => simp [phase] at sends
  | converting => rfl
  | draining c => exact absurd phase (notDraining c)

theorem Matches.idle_of_resetFe (h : Matches e l) (outstanding : l.outstanding = some o)
    (message : o.message = .resetFe) : e.held = none ∧ l.state ≠ .up := by
  have idle : e.held = none := by
    cases held : e.held with
    | none => rfl
    | some x =>
      have sends := h.sends x held
      rw [outstanding, Option.map_some, message] at sends
      unfold Execution.sends at sends
      split at sends <;> simp at sends
  refine ⟨idle, fun up => ?_⟩
  rw [h.idle up idle] at outstanding
  cases outstanding

/-- The engine holds `x`, whose message has been sent on a link that is UP. -/
theorem matches_held (up : l.state = .up) (sends : x.sends (l.outstanding.map Outstanding.message))
    (selected : Selected x sel) : Matches { held := some x, selection := sel } l where
  up := fun not => absurd up not
  down := fun down => absurd (up.symm.trans down) nofun
  resetting := fun resetting => absurd (up.symm.trans resetting) nofun
  idle := fun _ idle => nomatch idle
  sends := fun y held => by cases held; exact sends
  pendingReset := fun _ => ⟨up, rfl⟩
  selection := fun y held => by cases held; exact selected

theorem matches_idle (free : Free l) (clear : l.resetPending = false) : Matches { held := none, selection := sel } l where
  up := fun not => absurd free.1 not
  down := fun _ => free.2
  resetting := fun resetting => absurd (free.1.symm.trans resetting) nofun
  idle := fun _ _ => free.2
  sends := by simp
  pendingReset := fun pending => absurd (clear.symm.trans pending) nofun
  selection := by simp

theorem matches_down (idle : e.held = none) (absent : e.selection = none) (down : l.state = .down)
    (outstanding : l.outstanding = none) (clear : l.resetPending = false) : Matches e l where
  up := fun _ => ⟨idle, absent⟩
  down := fun _ => outstanding
  resetting := fun resetting => absurd (down.symm.trans resetting) nofun
  idle := fun _ _ => outstanding
  sends := by simp [idle]
  pendingReset := fun pending => absurd (clear.symm.trans pending) nofun
  selection := by simp [idle]

/-- R93, R105, R117. -/
theorem matches_resetLink (idle : e.held = none) (l : Link) : Matches { e with selection := none } (resetLink l) where
  up := fun _ => ⟨idle, rfl⟩
  down := nofun
  resetting := fun _ => rfl
  idle := nofun
  sends := by simp [idle]
  pendingReset := nofun
  selection := by simp [idle]

theorem Carried.matches (h : Carried { held := none, selection := sel } l e' l') (free : Free l) : Matches e' l' := by
  cases h with
  | reset _ _ => exact matches_resetLink (e := { held := none, selection := sel }) rfl l
  | stays clear => exact matches_idle free (Bool.eq_false_iff.2 fun pending => clear pending rfl)

theorem Started.matches (h : Started sel l e' l') (free : Free l) : Matches e' l' := by
  cases h with
  | convert x _ phase selected =>
    exact matches_held free.1 (by simp [Execution.sends, phase, Link.send]) (by simp [Selected, phase, selected])
  | select x _ phase =>
    exact matches_held free.1 (by simp [Execution.sends, phase, Link.send]) (by simp [Selected, phase])

theorem Finished.matches (h : Finished sel l e' l') (free : Free l) : Matches e' l' := by
  cases h with
  | goesOn _ _ started => exact started.matches free
  | ends _ carried => exact carried.matches free
  | falls => exact matches_down rfl rfl rfl free.2 rfl

theorem tick_sends (x : Execution) (m : Option Message) :
    Execution.sends { x with phase := x.phase.tick } m ↔ x.sends m := by
  unfold Execution.sends
  cases x.phase <;> rfl

theorem tick_selected (x : Execution) (sel : Option Selection) :
    Selected { x with phase := x.phase.tick } sel ↔ Selected x sel := by
  unfold Selected
  cases x.phase <;> rfl

theorem EngineStep.matches (h : EngineStep e l e' l') (before : Matches e l) : Matches e' l' := by
  cases h with
  | same => exact before
  | tick =>
    refine ⟨fun not => ?_, fun down => ?_, fun resetting => ?_, fun up idle => ?_, fun y now => ?_, fun pending => ?_,
      fun y now => ?_⟩
    · obtain ⟨idle, absent⟩ := before.up not
      exact ⟨by simp [idle], absent⟩
    · simp [before.down down]
    · rw [← before.resetting resetting, Option.map_map]
      rfl
    · simp [before.idle up (Option.map_eq_none_iff.1 idle)]
    · obtain ⟨x, held, rfl⟩ := Option.map_eq_some_iff.1 now
      rw [Option.map_map]
      exact (tick_sends x _).2 (before.sends x held)
    · obtain ⟨up, held⟩ := before.pendingReset pending
      exact ⟨up, by simpa using held⟩
    · obtain ⟨x, held, rfl⟩ := Option.map_eq_some_iff.1 now
      exact (tick_selected x _).2 (before.selection x held)
  | flags _ _ | configure _ _ _ => exact before.congr rfl rfl rfl
  | pend up held =>
    exact ⟨before.up, before.down, before.resetting, before.idle, before.sends,
      fun _ => ⟨up, Option.isSome_iff_ne_none.2 held⟩, before.selection⟩
  | reset idle =>
    refine matches_resetLink ?_ l
    rcases idle with down | ⟨-, idle⟩
    · exact (before.up (by rw [down]; exact nofun)).1
    · exact idle
  | release settling carried =>
    cases held : e.held with
    | none =>
      have same : ({ e with held := none } : Engine) = e := by rw [← held]
      rw [same] at carried
      cases carried with
      | reset pending _ =>
        have := (before.pendingReset pending).2
        rw [held] at this
        cases this
      | stays _ => exact before
    | some x =>
      obtain ⟨n, phase⟩ := settling x held
      have sends := before.sends x held
      rw [Execution.sends, phase] at sends
      exact carried.matches ⟨before.up_of_held held, by simpa using sends⟩
  | start idle up _ started => exact started.matches ⟨up, before.idle up idle⟩
  | settled x held phase =>
    have selected := before.selection x held
    rw [Selected, phase] at selected
    exact matches_held (x := { x with phase := .converting }) (before.up_of_held held) rfl selected
  | resend o outstanding _ error => exact before.congr rfl rfl (by rw [outstanding]; rfl)
  | linkUp o outstanding message =>
    obtain ⟨idle, notUp⟩ := before.idle_of_resetFe outstanding message
    have here : e = { held := none, selection := e.selection } := engine_eq_of_idle idle rfl
    rw [here]
    refine matches_idle ⟨rfl, rfl⟩ (Bool.eq_false_iff.2 fun pending => notUp (before.pendingReset pending).1)
  | resetFailed o outstanding message error =>
    obtain ⟨idle, notUp⟩ := before.idle_of_resetFe outstanding message
    exact matches_down idle (before.up notUp).2 rfl rfl
      (Bool.eq_false_iff.2 fun pending => notUp (before.pendingReset pending).1)
  | unclaimed o outstanding message idle error =>
    cases state : l.state with
    | up => exact absurd (outstanding.symm.trans (before.idle state idle)) nofun
    | down => exact absurd (outstanding.symm.trans (before.down state)) nofun
    | resetting =>
      have sent := before.resetting state
      rw [outstanding, Option.map_some, Option.some.injEq] at sent
      exact absurd sent message
  | select x o sel held notDraining outstanding message =>
    obtain ⟨-, rfl⟩ := before.phase_of_select held notDraining outstanding message
    exact matches_held (x := { x with phase := .converting }) (before.up_of_held held) rfl rfl
  | settle x o sel n held notDraining outstanding message =>
    obtain ⟨-, rfl⟩ := before.phase_of_select held notDraining outstanding message
    exact matches_held (x := { x with phase := .settling n }) (before.up_of_held held) rfl rfl
  | fold x o overRange value held notDraining outstanding message _ =>
    have phase := before.phase_of_convert held notDraining outstanding message
    have selected := before.selection x held
    exact matches_held (x := folded x overRange value) (before.up_of_held held)
      (by simp [Execution.sends, folded, phase, Link.send]) selected
  | complete x _ held _ _ finished => exact finished.matches (before.free_of_held held l.protocolError)
  | fail x _ error held _ _ finished => exact finished.matches (before.free_of_held held error)

theorem control_matches {s : State} {h : HostInterface} (control : Control s e l h) (before : Matches s.engine s.link) :
    Matches e l := by
  cases control with
  | quiet step _ => exact step.matches before
  | drain x cause held phase engine link _ _ _ _ =>
    rw [engine, link]
    refine matches_held (x := { x with phase := .draining cause }) (before.up_of_held held) ?_ trivial
    have sends := before.sends x held
    unfold Execution.sends at *
    rcases phase with phase | phase <;> rw [phase] at sends
    · exact .inl sends
    · exact .inr sends
  | drainEnd x cause keep error held _ carried _ => exact carried.matches (before.free_of_held held error)

/-- Settles O59: a message is sent when the engine enters the phase that awaits its answer, and each completion, drain end
and reset leaves the engine and the link as their states say. -/
theorem stepKeepsLinkMatchesEngine : Obligations.StepKeepsLinkMatchesEngine := by
  have keeps := step_control_keeps (P := fun s => Matches s.engine s.link) (fun _ _ h => h)
    (fun s t before h => control_matches h before) (fun s _ => matches_down rfl rfl rfl rfl rfl)
    (matches_down rfl rfl rfl rfl rfl)
  intro s s' before h
  exact linkMatchesEngine_iff.2 (keeps s s' (linkMatchesEngine_iff.1 before) h)

end

/-! ### The port and the engine's drain -/

section

variable {l l' : Link} {e e' : Engine} {sel : Option Selection} {x : Execution}

theorem drain?_of_idle (idle : e.held = none) : e.drain? = none := by
  simp [Engine.drain?_eq_none, idle]

theorem drain?_of_held (held : e.held = some x) (notDraining : ∀ c, x.phase ≠ .draining c) : e.drain? = none := by
  rw [Engine.drain?_eq_none, held]
  intro y now
  cases now
  exact notDraining

theorem Carried.held (h : Carried e l e' l') : e'.held = e.held := by
  cases h with
  | reset _ _ => rfl
  | stays _ => rfl

theorem Carried.drain? (h : Carried e l e' l') (idle : e.held = none) : e'.drain? = none :=
  drain?_of_idle (h.held.trans idle)

theorem Started.drain? (h : Started sel l e' l') : e'.drain? = none := by
  cases h with
  | convert x _ phase _ => exact drain?_of_held rfl (by rw [phase]; exact nofun)
  | select x _ phase => exact drain?_of_held rfl (by rw [phase]; exact nofun)

theorem Finished.drain? (h : Finished sel l e' l') : e'.drain? = none := by
  cases h with
  | goesOn _ _ started => exact started.drain?
  | ends _ carried => exact carried.drain? rfl
  | falls => exact drain?_of_idle rfl

/-- R95, R96: no other change starts or ends a drain. -/
theorem EngineStep.drain? (h : EngineStep e l e' l') : e'.drain?.isSome = e.drain?.isSome := by
  have none_none : e'.drain? = none → e.drain? = none → e'.drain?.isSome = e.drain?.isSome := fun after before => by
    rw [after, before]
  cases h with
  | same | flags _ _ | configure _ _ _ | pend _ _ | reset _ | resend _ _ _ _ | linkUp _ _ _ | resetFailed _ _ _ _
  | unclaimed _ _ _ _ _ => rfl
  | tick =>
    cases held : e.held with
    | none =>
      rw [drain?_of_idle held, drain?_of_idle (by rfl)]
    | some x =>
      rw [drain?_isSome held, drain?_isSome (x := { x with phase := x.phase.tick }) (by simp)]
      unfold drains
      cases phase : x.phase <;> simp [Phase.tick]
  | release settling carried =>
    refine none_none (carried.drain? rfl) (Engine.drain?_eq_none.2 fun x held => ?_)
    obtain ⟨n, phase⟩ := settling x held
    rw [phase]
    exact nofun
  | start idle _ _ started => exact none_none started.drain? (drain?_of_idle idle)
  | settled x held phase =>
    exact none_none (drain?_of_held rfl nofun) (drain?_of_held held (by rw [phase]; exact nofun))
  | select x _ _ held notDraining _ _ => exact none_none (drain?_of_held rfl nofun) (drain?_of_held held notDraining)
  | settle x _ _ _ held notDraining _ _ => exact none_none (drain?_of_held rfl nofun) (drain?_of_held held notDraining)
  | fold x _ _ _ held notDraining _ _ _ =>
    exact none_none (drain?_of_held rfl notDraining) (drain?_of_held held notDraining)
  | complete x _ held notDraining _ finished => exact none_none finished.drain? (drain?_of_held held notDraining)
  | fail x _ _ held notDraining _ finished => exact none_none finished.drain? (drain?_of_held held notDraining)

theorem intenable_masked {a b : Word} (before : a &&& 0x0007 = a) (h : b = a ∨ ∃ value : Word, b = value &&& 0x0007) :
    b &&& 0x0007 = b := by
  rcases h with rfl | ⟨value, rfl⟩
  · exact before
  · rw [BitVec.and_assoc, BitVec.and_self]

theorem control_port {s t : State} (control : Control s t.engine t.link t.host) (before : PortMatchesEngine s) :
    PortMatchesEngine t := by
  obtain ⟨long, command, idle, intenable⟩ := before
  cases control with
  | quiet step host =>
    refine ⟨?_, fun busy => ?_, fun now => ?_, intenable_masked intenable host.intenable⟩
    · rw [host.state, long, step.drain?]
    · rw [host.command (host.state.1 busy)]
      exact command (host.state.1 busy)
    · have same := host.idle now
      rw [same] at now ⊢
      exact idle now
  | drain x cause held phase engine link free c code host =>
    have draining : t.engine.drain?.isSome = true := by
      rw [engine, drain?_isSome (x := { x with phase := .draining cause }) rfl]
      rfl
    refine ⟨?_, ?_, ?_, ?_⟩ <;> rw [host]
    · exact iff_of_true rfl draining
    · exact fun _ => code
    · exact nofun
    · exact intenable
  | drainEnd x cause keep error held phase carried host =>
    have ended := carried.drain? rfl
    refine ⟨?_, ?_, ?_, ?_⟩ <;> rw [host]
    · rw [ended]
      exact iff_of_false nofun nofun
    · exact nofun
    · exact nofun
    · exact intenable

theorem default_port {s : State} (idle : s.engine.held = none) (host : s.host = .default) : PortMatchesEngine s := by
  refine ⟨?_, ?_, ?_, ?_⟩ <;> rw [host]
  · rw [drain?_of_idle idle]
    exact iff_of_false nofun nofun
  · exact nofun
  · exact fun _ => ⟨rfl, rfl⟩
  · simp [HostInterface.default]

/-- Settles O60: only the long command's own drain takes the port IN_PROGRESS, and only the drain's end takes it out. -/
theorem stepKeepsPortMatchesEngine : Obligations.StepKeepsPortMatchesEngine := by
  refine step_control_keeps (fun _ _ h => ⟨h.long, h.command, h.idle, h.intenable⟩)
    (fun s t before control => control_port control before) (fun s before => ?_) (default_port rfl rfl)
  exact ⟨iff_of_false nofun (by rw [drain?_of_idle rfl]; exact nofun), nofun, nofun, before.intenable⟩

/-- Settles O8: of all that changes the host interface, the end of a drain alone sets COMMAND_DONE. -/
theorem commandDoneSetOnlyByDrainEnd : Obligations.CommandDoneSetOnlyByDrainEnd := by
  intro c s t h clear set
  by_cases isSoft : c = .softReset
  · subst isSoft
    injection h with h
    subst h
    unfold whenReleased at set
    split at set
    · exact absurd (clear.symm.trans set) nofun
    · cases set
  by_cases isReset : c = .deviceReset
  · subst isReset
    injection h with h
    subst h
    cases set
  cases exec_control isSoft isReset h with
  | quiet _ host => exact absurd (clear.symm.trans (host.commandDone set)) nofun
  | drain _ _ _ _ _ _ _ _ _ host =>
    rw [host] at set
    exact absurd (clear.symm.trans set) nofun
  | drainEnd x cause keep error held phase carried host =>
    refine ⟨⟨x, cause, held, phase⟩, carried.held, by rw [host], by rw [host], by rw [host]⟩

/-- Settles O49: the reset state is each invariant's base case. -/
theorem resetMeetsInvariants : Obligations.ResetMeetsInvariants := by
  refine ⟨rfl, .of_eq default_allPages, ⟨Nat.zero_le _, fun _ => rfl, by simp [State.reset, EventQueue.default]⟩,
    ⟨fun j => ?_, nofun⟩, default_entriesSound rfl rfl, default_queueOrdered rfl rfl,
    default_requestsPlaced rfl rfl rfl, default_setsAndStreamsSound rfl rfl rfl rfl, linkInRange_iff.2 default_ranges.1,
    default_ranges.2, linkMatchesEngine_iff.2 (matches_down rfl rfl rfl rfl rfl), default_port rfl rfl⟩
  rw [show State.reset.triggers.timers[j] = Timer.default from default_timers j]
  exact default_timerSound _

end

end Sys2Proof.Proofs
end

