-- ==== Sys2Proof/Proofs/Taking.lean ====
section
/-! PROOFS. How a command is taken: the waiting queue, the terms that are no command, the port's answers, and RESET. -/

namespace Sys2Proof.Proofs

open Sys2Proof.Machine Sys2Proof.Statements

/-- Settles O1: a step's definition, with a command waiting and with none. -/
theorem stepTakesFrontCommand : Obligations.StepTakesFrontCommand := by
  refine ⟨fun c s => rfl, fun s none => ?_⟩
  unfold step
  rw [none]

/-! ### The commands that are taken and the terms that are not -/

section

variable {s t : State}

theorem move_pending (h : Move s t) : t.pending = s.pending := by
  cases h
  case endScan | back | next | start => simp
  all_goals rfl

/-- Log entries 1 and 15: no command touches the commands that wait behind it. -/
theorem exec_pending {c : Instr} (h : exec c s = .next t) : t.pending = s.pending := by
  by_cases isTick : c = .timeCounterAdvance
  · subst isTick
    injection h with h
    subst h
    unfold whenReleased
    split <;> rfl
  by_cases isReset : c = .deviceReset
  · subst isReset
    injection h with h
    subst h
    rfl
  exact (exec_moves h isTick isReset).keeps (P := fun u => u.pending = s.pending)
    (fun _ _ before move => (move_pending move).trans before) rfl

theorem exec_unknownCommand_of_names {code : Word} (names : namesNoCommand code = true) (s : State) :
    exec (.unknownCommand code) s =
      .next
        (whenReleased
          (fun s =>
            match s.host.port.state with
            | .inProgress => s.portResult .unknownCommand
            | .idle | .done => s.withPort .done .unknownCommand 0)
          s) :=
  if_pos names

/-- R102, R172, R174: a term that is a command is taken. -/
theorem exec_of_wellFormed {c : Instr} (command : c.wellFormed = true) (s : State) : ∃ t, exec c s = .next t := by
  cases c
  case unknownCommand code => exact ⟨_, exec_unknownCommand_of_names command s⟩
  case ignoredRegisterWrite offset value =>
    exact ⟨s, exec_ignoredRegisterWrite (by simpa [Instr.wellFormed] using command) value s⟩
  case otherTypeFrame code tag flags payload => exact ⟨_, if_pos command⟩
  all_goals exact ⟨_, rfl⟩

/-- Log entry 11: a term that spells another command is refused. -/
theorem exec_of_notWellFormed {c : Instr} (other : c.wellFormed = false) (s : State) :
    exec c s = .refused .namesAnotherCommand := by
  cases c
  case unknownCommand code => exact if_neg (by rw [show namesNoCommand code = false from other]; exact nofun)
  case ignoredRegisterWrite offset value => exact if_pos (by simpa [Instr.wellFormed] using other)
  case otherTypeFrame code tag flags payload =>
    exact if_neg (by rw [show otherType code = false from other]; exact nofun)
  all_goals cases other

/-- Settles O2. -/
theorem wellFormedCommandsComplete : Obligations.WellFormedCommandsComplete := by
  refine fun c s => ⟨fun command => ?_, fun other => exec_of_notWellFormed other s⟩
  obtain ⟨t, h⟩ := exec_of_wellFormed command s
  exact ⟨t, h, exec_pending h⟩

/-! ### The time counter -/

theorem triggerMove_time {u v : TriggerUnit} (h : TriggerMove u v) : v.time = u.time := by
  cases h <;> rfl

theorem move_time (h : Move s t) : t.triggers.time = s.triggers.time := by
  rcases move_triggers h with ⟨same, -⟩ | ⟨-, -, change⟩ | ⟨-, soft⟩ | ⟨-, -, lines, released⟩
  · rw [same]
  · exact triggerMove_time change
  · rw [soft]
  · rw [released]

/-- Settles O9: no other move of the part reaches the counter. -/
theorem timeCounterOnlyAdvances : Obligations.TimeCounterOnlyAdvances := by
  intro c s t h
  by_cases isTick : c = .timeCounterAdvance
  · subst isTick
    injection h with h
    subst h
    unfold whenReleased
    split
    · exact .inl rfl
    · exact .inr (.inl ⟨rfl, rfl⟩)
  by_cases isReset : c = .deviceReset
  · subst isReset
    injection h with h
    subst h
    exact .inr (.inr ⟨rfl, rfl⟩)
  exact .inl ((exec_moves h isTick isReset).keeps (P := fun u => u.triggers.time = s.triggers.time)
    (fun _ _ before move => (move_time move).trans before) rfl)

/-! ### The port's answers -/

theorem not_softReset_of_code {c : Instr} {n : Fin 25} (code : c.code? = some n) (notSoft : n ≠ 24) :
    c ≠ .softReset := by
  rintro rfl
  cases code
  exact notSoft rfl

/-- R176: a host stop is refused with BAD_INDEX or BAD_STATE. -/
theorem stopReply_refuse {cause : DrainCause} {r : Result} (h : stopReply cause s = .refuse r) : r ≠ .ok := by
  have codes : ∀ {x : Reply}, x = .refuse .badState ∨ (∃ u, x = .accept u) ∨ (∃ u, x = .long u) → x = .refuse r →
      r ≠ .ok := by
    rintro x (rfl | ⟨u, rfl⟩ | ⟨u, rfl⟩) refused
    · cases refused; exact nofun
    · cases refused
    · cases refused
  unfold stopReply at h
  split at h
  · cases h; exact nofun
  · refine codes ?_ h
    unfold stopSet
    split
    case h_7 =>
      unfold stopRunning
      dsimp only
      split
      · exact .inr (.inl ⟨_, rfl⟩)
      · split
        · exact .inr (.inr ⟨_, rfl⟩)
        · exact .inr (.inr ⟨_, rfl⟩)
        · exact .inr (.inl ⟨_, rfl⟩)
        · exact .inl rfl
    all_goals
      cases cause
      all_goals simp

/-- R176, R178: a refusal of a command's own checks has a code other than OK. -/
theorem replyOf_refuse {c : Instr} {r : Result} (h : replyOf c s = .refuse r) : r ≠ .ok := by
  by_cases notStop : c = .setStop
  · subst notStop; exact stopReply_refuse h
  by_cases notDisable : c = .setDisable
  · subst notDisable; exact stopReply_refuse h
  rcases replyOf_quick c notStop notDisable s with ⟨t, accepted⟩ | ⟨code, refused, other⟩
  · rw [accepted] at h; cases h
  · rw [refused] at h; cases h; exact other

/-- R175, R179: only SET_STOP and SET_DISABLE are ever long. -/
theorem replyOf_long {c : Instr} (h : replyOf c s = .long t) : c = .setStop ∨ c = .setDisable := by
  by_contra neither
  rw [not_or] at neither
  rcases replyOf_quick c neither.1 neither.2 s with ⟨u, accepted⟩ | ⟨code, refused, -⟩
  · rw [accepted] at h; cases h
  · rw [refused] at h; cases h

/-- Settles O5, by what the command's own checks answer. -/
theorem refusedCommandChangesCmdstatAlone : Obligations.RefusedCommandChangesCmdstatAlone := by
  rintro c n s code notSoft ⟨released, free⟩
  rw [exec_of_code code (not_softReset_of_code code notSoft), hostCommand_taken s released free]
  refine ⟨_, rfl, ?_⟩
  cases answer : replyOf c s with
  | refuse r => exact ⟨rfl, .inr (.inr ⟨r, replyOf_refuse answer, rfl⟩)⟩
  | accept t => exact ⟨rfl, .inl ⟨rfl, rfl⟩⟩
  | long t => exact ⟨rfl, .inr (.inl ⟨rfl, rfl, replyOf_long answer⟩)⟩

theorem namesNoCommand_iff {code : Word} : namesNoCommand code = true ↔ code.toNat = 0 ∨ 25 ≤ code.toNat := by
  simp only [namesNoCommand, Bool.or_eq_true, beq_iff_eq, decide_eq_true_eq, ← BitVec.toNat_inj]
  rfl

/-- Settles O6: the port is looked at before a command's own checks. -/
theorem busyAndUnknownCommands : Obligations.BusyAndUnknownCommands := by
  refine fun s released => ⟨fun busy => ⟨fun c n code notSoft => ?_, fun code names => ?_⟩, fun free code names => ?_⟩
  · exact exec_busy (exec_of_code code (not_softReset_of_code code notSoft) s) released busy
  · rw [exec_unknownCommand_of_names (namesNoCommand_iff.2 names), whenReleased_of_released s released, busy]
    rfl
  · rw [exec_unknownCommand_of_names (namesNoCommand_iff.2 names), whenReleased_of_released s released]
    cases state : s.host.port.state with
    | inProgress => exact absurd state free
    | idle => rfl
    | done => rfl

/-! ### RESET asserted -/

theorem hostCommand_of_asserted {c : Fin 25} {body : State → Reply} (asserted : s.resetAsserted = true) :
    hostCommand c body s = s := by
  rcases hostCommand_cases s c body with ⟨-, h⟩ | ⟨released, -, -⟩ | ⟨released, -, -⟩
  · exact h
  · exact absurd (asserted.symm.trans released) nofun
  · exact absurd (asserted.symm.trans released) nofun

/-- R172: a command that acts only with RESET released. -/
theorem next_whenReleased_of_asserted {f : State → State} (asserted : s.resetAsserted = true) :
    (Host.Outcome.next (whenReleased f s) : Answer) = .next s := by
  rw [whenReleased_of_asserted s asserted]

/-- R172: an arrival that is no command of the directory, while RESET is asserted. -/
theorem arrival_of_asserted (asserted : s.resetAsserted = true) {c : Instr} (code : c.code? = none)
    (command : c.wellFormed = true) (notReset : c ≠ .deviceReset) (notRelease : ∀ e0 e1, c ≠ .resetRelease e0 e1)
    (notTime : c ≠ .timeloRead) (notData : ∀ k, c ≠ .strmdataRead k) : exec c s = .next s := by
  cases c <;> cases code
  case deviceReset => exact absurd rfl notReset
  case resetRelease e0 e1 => exact absurd rfl (notRelease e0 e1)
  case timeloRead => exact absurd rfl notTime
  case strmdataRead k => exact absurd rfl (notData k)
  case ignoredRegisterWrite offset value =>
    exact exec_ignoredRegisterWrite (by simpa [Instr.wellFormed] using command) value s
  case unknownCommand value =>
    rw [exec_unknownCommand_of_names command]
    exact next_whenReleased_of_asserted asserted
  case otherTypeFrame value tag flags payload =>
    exact (if_pos command).trans (next_whenReleased_of_asserted asserted)
  all_goals exact next_whenReleased_of_asserted asserted

/-- R172: what is taken while RESET is asserted changes nothing. -/
theorem exec_of_asserted (asserted : s.resetAsserted = true) {c : Instr} (command : c.wellFormed = true)
    (notReset : c ≠ .deviceReset) (notRelease : ∀ e0 e1, c ≠ .resetRelease e0 e1) (notTime : c ≠ .timeloRead)
    (notData : ∀ k, c ≠ .strmdataRead k) : exec c s = .next s := by
  cases code : c.code? with
  | none => exact arrival_of_asserted asserted code command notReset notRelease notTime notData
  | some n =>
    by_cases soft : c = .softReset
    · subst soft
      exact next_whenReleased_of_asserted asserted
    · rw [exec_of_code code soft, hostCommand_of_asserted asserted]

theorem state_read_of_asserted (asserted : s.resetAsserted = true) (offset : BitVec 6) : s.read offset = 0 :=
  if_pos asserted

theorem int_of_asserted (asserted : s.resetAsserted = true) : s.int = false := by
  simp [State.int, asserted]

/-- Settles O7. -/
theorem assertedResetHoldsEverything : Obligations.AssertedResetHoldsEverything := by
  intro s asserted
  refine ⟨state_read_of_asserted asserted, int_of_asserted asserted, fun k => ?_, ?_, fun c command notReset
    notRelease notTime notData => exec_of_asserted asserted command notReset notRelease notTime notData⟩
  · exact congrArg Host.Outcome.next (if_pos asserted)
  · exact congrArg Host.Outcome.next (if_pos asserted)

end

end Sys2Proof.Proofs
end

