-- ==== Sys2Proof/Proofs/TimerCommands.lean ====
section
/-! PROOFS. TIMER_WRITE, TIMER_START, TIMER_STOP and EXT_WRITE, the timers' own arrivals, the microsecond of the time base
and the samples of the lines. -/

namespace Sys2Proof.Proofs

open Sys2Proof.Machine Sys2Proof.Statements

/-! ### TIMER_WRITE's parameters -/

theorem timerUnit_ofCode_eq_iff {c : BitVec 2} {u : TimerUnit} : TimerUnit.ofCode c = u ↔ 10 ^ c.toNat = u.micros := by
  revert c
  cases u <;> decide

theorem timerMode_ofBit_eq_iff {b : Bool} {m : TimerMode} : TimerMode.ofBit b = m ↔ (b = true ↔ m = .oneShot) := by
  cases b <;> cases m <;> simp [TimerMode.ofBit]

/-- R48: the code of a gate. -/
def gateCode : Gate → Nat
  | .none => 0
  | .high l => 1 + l.val

theorem gate_ofCode?_eq_some_iff {c : BitVec 2} {g : Gate} : Gate.ofCode? c = some g ↔ c.toNat = gateCode g := by
  rcases g with _ | l
  · revert c
    decide
  · revert c l
    decide

theorem holdsTimer_iff {p : Vector Word 6} {x : Timer} :
    HoldsTimer p x ↔
      p[1] = x.period ∧ 10 ^ (p[2].toNat % 4) = x.unit.micros ∧ (p[2].toNat / 16 % 2 = 1 ↔ x.mode = .oneShot) ∧
        p[2].toNat / 256 % 4 = gateCode x.gate := by
  obtain ⟨period, unit, mode, gate, state, remaining, phase, unitsDue⟩ := x
  cases gate <;> exact .rfl

/-- R49: a timer as TIMER_WRITE leaves it. -/
def Configured (x : Timer) : Prop :=
  x.period ≠ 0 ∧ x.state = .stopped ∧ x.remaining = x.period ∧ x.phase = 0 ∧ x.unitsDue = 0

theorem unpackTimer?_eq_some_fields {p : Vector Word 6} {x : Timer} :
    unpackTimer? p = some x ↔
      (p[1] = x.period ∧ TimerUnit.ofCode (p[2].extractLsb' 0 2) = x.unit ∧
        TimerMode.ofBit (p[2].getLsbD 4) = x.mode ∧ Gate.ofCode? (p[2].extractLsb' 8 2) = some x.gate) ∧
        Configured x := by
  obtain ⟨⟩ := x
  unfold unpackTimer? Configured
  split
  · next noGate => simp [noGate]
  · next gate hgate =>
    simp only [hgate]
    split
    · next zero =>
      simp only [reduceCtorEq, false_iff]
      rintro ⟨⟨period, -⟩, some, -⟩
      exact some (period.symm.trans zero)
    · next some =>
      simp only [Option.some.injEq, Timer.mk.injEq]
      constructor
      · rintro ⟨rfl, rfl, rfl, rfl, rfl, rfl, rfl, rfl⟩
        exact ⟨⟨rfl, rfl, rfl, rfl⟩, some, rfl, rfl, rfl, rfl⟩
      · rintro ⟨⟨rfl, rfl, rfl, rfl⟩, -, rfl, rfl, rfl, rfl⟩
        exact ⟨rfl, rfl, rfl, rfl, rfl, rfl, rfl, rfl⟩

/-- R49, R186: what TIMER_WRITE unpacks is what the parameter words hold, with a period from 1. -/
theorem unpackTimer?_eq_some {p : Vector Word 6} {x : Timer} :
    unpackTimer? p = some x ↔ HoldsTimer p x ∧ Configured x := by
  rw [unpackTimer?_eq_some_fields, timerUnit_ofCode_eq_iff, timerMode_ofBit_eq_iff, gate_ofCode?_eq_some_iff,
    holdsTimer_iff]
  simp only [extractLsb'_toNat_eq, getLsbD_eq_iff, iff_true, pow_zero, Nat.div_one, Nat.reducePow]

theorem unpackTimer?_eq_none {p : Vector Word 6} (fails : ∀ x, HoldsTimer p x → x.period = 0) :
    unpackTimer? p = none := by
  rw [Option.eq_none_iff_forall_ne_some]
  intro x unpacked
  obtain ⟨holds, some, -⟩ := unpackTimer?_eq_some.1 unpacked
  exact some (fails x holds)

/-! ### The commands -/

section

variable {s : State}

theorem timerWriteReply_badIndex (outOfRange : 4 ≤ s.host.params[0].toNat) :
    timerWriteReply s = .refuse .badIndex := by
  simp only [timerWriteReply, index_of_outOfRange outOfRange]

theorem timerStartReply_badIndex (outOfRange : 4 ≤ s.host.params[0].toNat) :
    timerStartReply s = .refuse .badIndex := by
  simp only [timerStartReply, index_of_outOfRange outOfRange]

theorem timerWriteReply_badState {j : Fin 4} (named : Named s j) (active : s.triggers.timers[j].state ≠ .stopped) :
    timerWriteReply s = .refuse .badState := by
  simp only [timerWriteReply, index_of_named named, if_pos active]

theorem timerStartReply_badState {j : Fin 4} (named : Named s j) (active : s.triggers.timers[j].state ≠ .stopped) :
    timerStartReply s = .refuse .badState := by
  simp only [timerStartReply, index_of_named named, if_pos active]

theorem timerWriteReply_badConfig {j : Fin 4} (named : Named s j) (stopped : s.triggers.timers[j].state = .stopped)
    (unpacked : unpackTimer? s.host.params = none) : timerWriteReply s = .refuse .badConfig := by
  simp only [timerWriteReply, index_of_named named, if_neg (not_not.2 stopped), unpacked]

theorem timerWriteReply_accept {j : Fin 4} {x : Timer} (named : Named s j)
    (stopped : s.triggers.timers[j].state = .stopped) (unpacked : unpackTimer? s.host.params = some x) :
    timerWriteReply s = .accept (withTimer j x s) := by
  simp only [timerWriteReply, index_of_named named, if_neg (not_not.2 stopped), unpacked]
  rfl

theorem timerStartReply_accept {j : Fin 4} (named : Named s j) (stopped : s.triggers.timers[j].state = .stopped) :
    timerStartReply s =
      .accept
        (withTimer j
          (s.triggers.timers[j].loaded (if s.triggers.gateOpen s.triggers.timers[j].gate then .running else .gated))
          s) := by
  simp only [timerStartReply, index_of_named named, if_neg (not_not.2 stopped)]
  rfl

/-- Settles O18, by the checks of the two commands in their order. -/
theorem timerWriteAndStart : Obligations.TimerWriteAndStart := by
  intro s taking
  refine ⟨fun outOfRange => ⟨exec_refused rfl taking (timerWriteReply_badIndex outOfRange),
    exec_refused rfl taking (timerStartReply_badIndex outOfRange)⟩, fun j named => ⟨fun active =>
    ⟨exec_refused rfl taking (timerWriteReply_badState named active),
      exec_refused rfl taking (timerStartReply_badState named active)⟩, fun stopped => ⟨?_, ?_, ?_⟩⟩⟩
  · intro x holds period state remaining phase due
    have unpacked := unpackTimer?_eq_some.2 ⟨holds, period, state, remaining, phase, due⟩
    exact exec_accepted rfl taking (timerWriteReply_accept named stopped unpacked)
  · intro fails
    exact exec_refused rfl taking (timerWriteReply_badConfig named stopped (unpackTimer?_eq_none fails))
  · rw [exec_accepted (c := 11) rfl taking (timerStartReply_accept named stopped)]
    cases gate : s.triggers.timers[j].gate <;> rfl

/-- Settles O19. -/
theorem timerStopDiscardsCount : Obligations.TimerStopDiscardsCount := by
  refine fun s taking => ⟨fun outOfRange => ?_, fun j named => ?_⟩
  · exact exec_refused rfl taking (by simp only [timerStopReply, index_of_outOfRange outOfRange])
  · refine exec_accepted rfl taking ?_
    simp only [timerStopReply, index_of_named named]
    rfl

/-- R56: a code names the edge configuration whose code it is. -/
theorem edgeConfig_ofWord?_of_code {w : Word} {e : EdgeConfig} (code : w.toNat = e.code.toNat) :
    EdgeConfig.ofWord? w = some e := by
  cases e
  all_goals
    simp only [EdgeConfig.ofWord?, code]
    rfl

theorem edgeConfig_ofWord?_eq_none {w : Word} (above : 2 < w.toNat) : EdgeConfig.ofWord? w = none := by
  unfold EdgeConfig.ofWord?
  split
  · omega
  · omega
  · omega
  · rfl

/-- Settles O20. -/
theorem extWriteOutcome : Obligations.ExtWriteOutcome := by
  refine fun s taking => ⟨fun outOfRange => ?_, fun l named => ⟨fun e code => ?_, fun above => ?_⟩⟩
  · exact exec_refused rfl taking (by simp only [extWriteReply, index_of_outOfRange outOfRange])
  · refine exec_accepted rfl taking ?_
    simp only [extWriteReply, index_of_named named, edgeConfig_ofWord?_of_code code]
    rfl
  · exact exec_refused rfl taking
      (by simp only [extWriteReply, index_of_named named, edgeConfig_ofWord?_eq_none above])

/-! ### The timers' own arrivals -/

/-- R172: a command that acts only with RESET released. -/
theorem next_whenReleased {f : State → State} (released : s.resetAsserted = false) :
    (Host.Outcome.next (whenReleased f s) : Answer) = .next (f s) := by
  rw [whenReleased_of_released s released]

theorem unitDue_iff {x : Timer} : x.unitDue = true ↔ UnitReached x := by
  simp [Timer.unitDue, UnitReached]

theorem unitComplete_of_due {j : Fin 4} (due : UnitReached s.triggers.timers[j])
    (more : s.triggers.timers[j].remaining ≠ 1) :
    unitComplete j s =
      withTimer j
        { s.triggers.timers[j] with
          remaining := s.triggers.timers[j].remaining - 1, unitsDue := s.triggers.timers[j].unitsDue - 1 } s :=
  if_pos ⟨unitDue_iff.2 due, more⟩

theorem unitComplete_of_not {j : Fin 4}
    (not : ¬ (UnitReached s.triggers.timers[j] ∧ s.triggers.timers[j].remaining ≠ 1)) : unitComplete j s = s :=
  if_neg fun ⟨due, more⟩ => not ⟨unitDue_iff.1 due, more⟩

theorem timerExpire_of_due {j : Fin 4} (due : UnitReached s.triggers.timers[j])
    (last : s.triggers.timers[j].remaining = 1) :
    timerExpire j s = (deliverTriggers (.timer j) (.timer j) s).modTimer j Timer.expired :=
  if_pos ⟨unitDue_iff.2 due, last⟩

theorem timerExpire_of_not {j : Fin 4}
    (not : ¬ (UnitReached s.triggers.timers[j] ∧ s.triggers.timers[j].remaining = 1)) : timerExpire j s = s :=
  if_neg fun ⟨due, last⟩ => not ⟨unitDue_iff.1 due, last⟩

/-- Settles O23, by whether a unit is due and whether it ends the period. -/
theorem timerUnitAndExpiry : Obligations.TimerUnitAndExpiry := by
  intro s j released
  have unit : exec (.timerUnitComplete j) s = .next (unitComplete j s) := next_whenReleased released
  have expiry : exec (.timerExpiry j) s = .next (timerExpire j s) := next_whenReleased released
  rw [unit, expiry]
  refine ⟨fun none => ⟨?_, ?_⟩, fun due more => ⟨?_, ?_⟩, fun due last => ⟨?_, ?_⟩⟩
  · rw [unitComplete_of_not fun due => none due.1]
  · rw [timerExpire_of_not fun due => none due.1]
  · rw [unitComplete_of_due due more]
  · rw [timerExpire_of_not fun last => more last.2]
  · rw [unitComplete_of_not fun more => more.2 last]
  · rw [timerExpire_of_due due last, State.modTimer, amend_eq_put, withTimer, deliverTriggers_triggers, Timer.expired]
    generalize s.triggers.timers[j] = x
    obtain ⟨period, unit, mode, gate, state, remaining, phase, unitsDue⟩ := x
    cases mode <;> rfl

theorem tick_eq_ticked (x : Timer) : x.tick = ticked x := by
  unfold Timer.tick ticked
  cases x.state <;> rfl

/-- Settles O24. -/
theorem timeAdvances : Obligations.TimeAdvances := by
  intro s released
  refine ⟨mapAll Timer.tick s.triggers.timers, fun j => by simp [tick_eq_ticked], advanceTime s,
    next_whenReleased released, rfl, rfl, rfl, fun idle => by simp [advanceTime, idle], fun x held => ⟨?_, ?_⟩, rfl, rfl⟩
  · intro left phase
    simp [advanceTime, held, phase, Phase.tick]
  · intro other
    have stays : x.phase.tick = x.phase := by
      cases phase : x.phase with
      | settling left => exact absurd phase (other left)
      | selecting | converting | draining c => rfl
    simp [advanceTime, held, stays]

/-! ### The samples of the lines -/

theorem qualifies_iff {e : EdgeConfig} {high : Bool} : e.qualifies high = true ↔ Qualifies e high := by
  cases e <;> simp [EdgeConfig.qualifies, Qualifies]

/-- R51, R54: a change of the gate's level, in the words of the statements. -/
theorem gateChange_of_gate {x : Timer} {l : Fin 2} (gate : x.gate = .high l) (high : Bool) :
    x.gateChange l high = gateMoved x high := by
  unfold Timer.gateChange gateMoved
  rw [if_pos gate]
  cases x.state <;> cases high <;> rfl

theorem gateChange_of_other {x : Timer} {l : Fin 2} (gate : x.gate ≠ .high l) (high : Bool) :
    x.gateChange l high = x :=
  if_neg gate

/-- Settles O21, by whether the sample differs from the held level and whether the change qualifies. -/
theorem levelChangeOutcome : Obligations.LevelChangeOutcome := by
  intro s l high released
  have sampled : exec (.extLevelChange l high) s = .next (lineSample l high s) := next_whenReleased released
  rw [sampled]
  refine ⟨fun same => ?_, fun differs => ⟨mapAll (fun x => x.gateChange l high) s.triggers.timers, fun j => ?_, ?_⟩⟩
  · rw [lineSample, if_pos same]
  · simp only [Fin.getElem_fin, mapAll_getElem]
    split
    next gate => exact gateChange_of_gate gate high
    next other => exact gateChange_of_other other high
  · rintro t rfl
    refine ⟨fun qualifies => ?_, fun not => ?_⟩
    · rw [lineSample, if_neg differs]
      exact congrArg Host.Outcome.next (if_pos (qualifies_iff.2 qualifies))
    · rw [lineSample, if_neg differs]
      exact congrArg Host.Outcome.next (if_neg fun qualifies => not (qualifies_iff.1 qualifies))

end

end Sys2Proof.Proofs
end

