-- ==== Sys2Proof/Proofs/LinkFrames.lean ====
section
/-! PROOFS. LINK_WRITE and LINK_RESET, the frames from the front end, the attempt timeout, the settle expiry and the start. -/

namespace Sys2Proof.Proofs

open Sys2Proof.Machine Sys2Proof.Statements

/-! ### The link's operations in the words of the statements -/

section

variable {s : State}

theorem sendMessage_eq_sent (m : Message) (s : State) : sendMessage m s = sent m s := by
  cases m <;> rfl

theorem resend_eq_sentAgain (o : Outstanding) (s : State) :
    { s with link := s.link.resend o } = sentAgain o s := by
  obtain ⟨m, tag, left, retries⟩ := o
  cases m <;> rfl

theorem enterResetting_eq_resetting (s : State) : enterResetting s = resetting s := rfl

/-- R116: with no request held, a reset that is pending is carried out. -/
theorem carryOutReset_of_idle (idle : s.engine.held = none) : carryOutReset s = resettingIfPending s := by
  rcases carryOutReset_cases s with ⟨pending, -, h⟩ | ⟨clear, h⟩
  · rw [h, resettingIfPending, if_pos pending, enterResetting_eq_resetting]
  · rw [h, resettingIfPending, if_neg fun pending => clear pending idle]

/-- R80–R82: the start of the entry at the cursor. -/
theorem startEntry_eq_entryStarted (r : Request) (s : State) :
    startEntry r s =
      entryStarted r (Fin.ofNat 128 (s.sets[r.set].desc.first.val + s.sets[r.set].cursor)) s := by
  unfold startEntry entryStarted
  simp only [sendMessage_eq_sent]
  rfl

/-! ### LINK_WRITE and LINK_RESET -/

/-- Settles O25, by R114's ranges. -/
theorem linkWriteOutcome : Obligations.LinkWriteOutcome := by
  rintro s sel conv retry thr taking rfl rfl rfl rfl
  refine ⟨fun outside => exec_refused rfl taking ?_, fun h1 h2 h3 h4 h5 h6 h7 => exec_accepted rfl taking ?_⟩
  · have refused : unpackLink? s.host.params = none := if_neg (by omega)
    simp only [linkWriteReply, refused]
  · have unpacked : unpackLink? s.host.params = some
        { selectTimeout := s.host.params[0].toNat, conversionTimeout := s.host.params[1].toNat,
          retryLimit := s.host.params[2].toNat, threshold := s.host.params[3].toNat } :=
      if_pos ⟨h1, h2, h3, h4, h5, h6, h7⟩
    simp only [linkWriteReply, unpacked, Link.configured]

/-- Settles O26, by R115's table. -/
theorem linkResetOutcome : Obligations.LinkResetOutcome := by
  refine fun s taking => ⟨?_, ?_, fun up clear held => exec_accepted rfl taking ?_⟩
  · rintro (resetting | ⟨up, pending⟩)
    · exact exec_refused rfl taking (by simp only [linkResetReply, resetting])
    · exact exec_refused rfl taking (by simp only [linkResetReply, up, if_pos pending])
  · rintro (down | ⟨up, clear, idle⟩)
    · exact exec_accepted rfl taking (by simp only [linkResetReply, down, enterResetting_eq_resetting])
    · exact exec_accepted rfl taking (by simp [linkResetReply, up, clear, idle, enterResetting_eq_resetting])
  · obtain ⟨x, held⟩ := Option.ne_none_iff_exists'.1 held
    simp [linkResetReply, up, clear, held]

/-! ### Frames -/

theorem notDraining_iff : NotDraining s ↔ s.engine.drain? = none := Engine.drain?_eq_none.symm

theorem otherType_iff {code : BitVec 4} : otherType code = true ↔ code ≠ 0x9 ∧ code ≠ 0xA ∧ code ≠ 0xB := by
  simp [otherType, and_assoc]

/-- R191: the channel and the gain that a SELECT_ACK echoes. -/
theorem echo_eq_iff {payload : Word} {sel : Selection} :
    echo payload = sel ↔
      payload.toNat % 32 = sel.channel.toNat ∧ payload.toNat / 256 % 4 = sel.gain.toNat := by
  obtain ⟨channel, gain⟩ := sel
  simp [echo, extractLsb'_eq_iff]

theorem exec_otherTypeFrame_of_otherType {code : BitVec 4} (other : code ≠ 0x9 ∧ code ≠ 0xA ∧ code ≠ 0xB)
    (tag flags : BitVec 2) (payload : Word) :
    exec (.otherTypeFrame code tag flags payload) s = .next (whenReleased (receiveFrame tag .other) s) :=
  if_pos (otherType_iff.2 other)

section

variable {o : Outstanding} {x : Execution} {cause : DrainCause} {f : AnswerFrame}

/-- R106, R111. -/
theorem receiveFrame_of_stray {tag : BitVec 2} (stray : ∀ o, s.link.outstanding = some o → o.tag ≠ tag) :
    receiveFrame tag f s = { s with link := { s.link with straySeen := true } } := by
  rcases receiveFrame_cases s tag f with ⟨-, h⟩ | ⟨o, outstanding, same, -⟩
  · exact h
  · exact absurd same (stray o outstanding)

/-- R106, R107: a suitable answer outside a drain. -/
theorem receiveFrame_of_suitable (outstanding : s.link.outstanding = some o) (suitable : o.message.answeredBy f = true)
    (noDrain : s.engine.drain? = none) : receiveFrame o.tag f s = takeAnswer f (answered s) := by
  simp [receiveFrame, classify, Link.flag, outstanding, suitable, noDrain, answered]

/-- R106, R108: an unsuitable answer outside a drain. -/
theorem receiveFrame_of_unsuitable (outstanding : s.link.outstanding = some o)
    (unsuitable : o.message.answeredBy f = false) (noDrain : s.engine.drain? = none) :
    receiveFrame o.tag f s = attemptFailed o (protocolError s) := by
  simp [receiveFrame, classify, Link.flag, outstanding, unsuitable, noDrain, protocolError]

/-- R96: a suitable answer in a drain. -/
theorem receiveFrame_of_suitable_drain (outstanding : s.link.outstanding = some o)
    (suitable : o.message.answeredBy f = true) (drain : s.engine.drain? = some (x, cause)) :
    receiveFrame o.tag f s = endDrain x cause (drainKeeps o.message f) s := by
  simp [receiveFrame, classify, Link.flag, outstanding, suitable, drain]

/-- R96: an unsuitable answer in a drain. -/
theorem receiveFrame_of_unsuitable_drain (outstanding : s.link.outstanding = some o)
    (unsuitable : o.message.answeredBy f = false) (drain : s.engine.drain? = some (x, cause)) :
    receiveFrame o.tag f s = endDrain x cause (drainKeeps o.message f) (protocolError s) := by
  simp [receiveFrame, classify, Link.flag, outstanding, unsuitable, drain, protocolError]

theorem drainKeeps_of_unsuitable (unsuitable : o.message.answeredBy f = false) : drainKeeps o.message f = false := by
  cases message : o.message with
  | convert =>
    cases f with
    | sample => rw [message] at unsuitable; exact absurd unsuitable nofun
    | selectAck | resetAck | other => rfl
  | select | resetFe => rfl

theorem attemptExpire_of_due (outstanding : s.link.outstanding = some o) (due : o.left = 0)
    (noDrain : s.engine.drain? = none) : attemptExpire s = attemptFailed o s := by
  simp only [attemptExpire, outstanding, if_pos due, noDrain]

theorem attemptExpire_of_due_drain (outstanding : s.link.outstanding = some o) (due : o.left = 0)
    (drain : s.engine.drain? = some (x, cause)) : attemptExpire s = endDrain x cause false s := by
  simp only [attemptExpire, outstanding, if_pos due, drain]

theorem attemptExpire_of_not_due (outstanding : s.link.outstanding = some o) (notDue : o.left ≠ 0) :
    attemptExpire s = s := by
  simp only [attemptExpire, outstanding, if_neg notDue]

theorem answeredBy_selectAck_eq_false {m : Message} {payload : Word}
    (other : ∀ sel, m = .select sel →
      payload.toNat % 32 ≠ sel.channel.toNat ∨ payload.toNat / 256 % 4 ≠ sel.gain.toNat) :
    m.answeredBy (.selectAck (echo payload)) = false := by
  rw [Bool.eq_false_iff]
  intro suitable
  obtain ⟨channel, gain⟩ := (echo_eq_iff (payload := payload)).1 rfl
  rcases other _ (answeredBy_selectAck.1 suitable) with h | h
  · exact h channel
  · exact h gain

/-- R106: an unsuitable answer is a frame with the tag of the outstanding message that does not answer it. -/
theorem exec_of_unsuitable (released : s.resetAsserted = false) {c : Instr} (h : Unsuitable o c) :
    ∃ f, o.message.answeredBy f = false ∧ exec c s = .next (receiveFrame o.tag f s) := by
  rcases h with ⟨code, flags, payload, rfl, other⟩ | ⟨flags, payload, rfl, other⟩ |
    ⟨overRange, fault, value, rfl, other⟩ | ⟨flags, payload, rfl, other⟩
  · refine ⟨.other, Bool.eq_false_iff.2 not_answeredBy_other, ?_⟩
    rw [exec_otherTypeFrame_of_otherType other, whenReleased_of_released s released]
  · exact ⟨_, answeredBy_selectAck_eq_false other, next_whenReleased released⟩
  · exact ⟨_, Bool.eq_false_iff.2 fun suitable => other (answeredBy_sample.1 suitable), next_whenReleased released⟩
  · exact ⟨_, Bool.eq_false_iff.2 fun suitable => other (answeredBy_resetAck.1 suitable), next_whenReleased released⟩

/-- R108: an unsuitable answer outside a drain fails the attempt. -/
theorem exec_of_unsuitable_noDrain (released : s.resetAsserted = false) (noDrain : s.engine.drain? = none)
    (outstanding : s.link.outstanding = some o) {c : Instr} (h : Unsuitable o c) :
    exec c s = .next (attemptFailed o (protocolError s)) := by
  obtain ⟨f, unsuitable, taken⟩ := exec_of_unsuitable released h
  rw [taken, receiveFrame_of_unsuitable outstanding unsuitable noDrain]

end

/-- Settles O29: each kind of frame is classified before it is looked at. -/
theorem strayFrameSetsStraySeen : Obligations.StrayFrameSetsStraySeen := by
  have received : ∀ {f s} {tag : BitVec 2}, s.resetAsserted = false →
      (∀ o, s.link.outstanding = some o → o.tag ≠ tag) →
      (Host.Outcome.next (whenReleased (receiveFrame tag f) s) : Answer) =
        .next { s with link := { s.link with straySeen := true } } := fun released stray => by
    rw [next_whenReleased released, receiveFrame_of_stray stray]
  rintro s tag released stray c (⟨flags, payload, rfl⟩ | ⟨overRange, fault, value, rfl⟩ | ⟨flags, payload, rfl⟩ |
    ⟨code, flags, payload, rfl, other⟩)
  · exact received released stray
  · exact received released stray
  · exact received released stray
  · rw [exec_otherTypeFrame_of_otherType other]
    exact received released stray

/-- R108: a failed attempt with a retry left. -/
theorem attemptFailed_of_retry {o : Outstanding} (retry : o.retries < s.link.retryLimit) :
    attemptFailed o s = sentAgain o s := by
  rw [attemptFailed, if_pos retry, resend_eq_sentAgain]

theorem attemptFailed_of_last {o : Outstanding} (last : s.link.retryLimit ≤ o.retries) :
    attemptFailed o s = transactionFailed o s :=
  if_neg (by omega)

/-- Settles O28: each of the frames is an unsuitable answer. -/
theorem failedAttemptResent : Obligations.FailedAttemptResent := by
  intro s o released notDraining outstanding retry
  have noDrain := notDraining_iff.1 notDraining
  have expiry : exec .attemptTimeout s = .next (attemptExpire s) := next_whenReleased released
  have resent : ∀ c, Unsuitable o c → exec c s = .next (sentAgain o (protocolError s)) := fun c h => by
    rw [exec_of_unsuitable_noDrain released noDrain outstanding h, attemptFailed_of_retry (s := protocolError s) retry]
  refine ⟨fun due => ?_, fun notDue => ?_, fun code flags payload h9 hA hB => resent _ ?_,
    fun flags payload other => resent _ ?_, fun overRange fault value other => resent _ ?_,
    fun flags payload other => resent _ ?_⟩
  · rw [expiry, attemptExpire_of_due outstanding due noDrain, attemptFailed_of_retry retry]
  · rw [expiry, attemptExpire_of_not_due outstanding notDue]
  · exact .inl ⟨code, flags, payload, rfl, h9, hA, hB⟩
  · exact .inr (.inl ⟨flags, payload, rfl, other⟩)
  · exact .inr (.inr (.inl ⟨overRange, fault, value, rfl, other⟩))
  · exact .inr (.inr (.inr ⟨flags, payload, rfl, other⟩))

/-! ### Transactions that fail -/

theorem transactionFailed_of_reset {o : Outstanding} (message : o.message = .resetFe) :
    transactionFailed o s =
      post .linkResetFailed { answered s with link := { (answered s).link with state := .down } } := by
  unfold transactionFailed
  rw [message]
  rfl

theorem transactionFailed_of_held {o : Outstanding} {x : Execution} (message : o.message ≠ .resetFe)
    (held : s.engine.held = some x) : transactionFailed o s = completeFailure x .noResponse (answered s) := by
  unfold transactionFailed
  cases kind : o.message with
  | resetFe => exact absurd kind message
  | select sel => rw [held]; rfl
  | convert => rw [held]; rfl

/-- R108: the failure of a last attempt is the failure of its transaction, in the state before the outstanding message
leaves. -/
theorem exec_of_lastAttemptFails (released : s.resetAsserted = false) (noDrain : s.engine.drain? = none)
    {o : Outstanding} {c : Instr} {u : State} (h : LastAttemptFails s o c u) :
    ∃ v, exec c s = .next (transactionFailed o v) ∧ v.engine = s.engine ∧ v.sets = s.sets ∧ u = answered v := by
  obtain ⟨outstanding, last, ⟨rfl, due, rfl⟩ | ⟨unsuitable, rfl⟩⟩ := h
  · have expiry : exec .attemptTimeout s = .next (attemptExpire s) := next_whenReleased released
    refine ⟨s, ?_, rfl, rfl, rfl⟩
    rw [expiry, attemptExpire_of_due outstanding due noDrain, attemptFailed_of_last last]
  · refine ⟨protocolError s, ?_, rfl, rfl, rfl⟩
    rw [exec_of_unsuitable_noDrain released noDrain outstanding unsuitable,
      attemptFailed_of_last (s := protocolError s) last]

/-- Settles O27: a suitable answer, or the failure of the last attempt, with no request held. -/
theorem resetTransactionEnds : Obligations.ResetTransactionEnds := by
  intro s o released idle outstanding message
  have noDrain := drain?_of_idle idle
  refine ⟨fun flags payload => ?_, fun c u fails => ?_⟩
  · have received : exec (.resetAck o.tag flags payload) s = .next (receiveFrame o.tag .resetAck s) :=
      next_whenReleased released
    rw [received, receiveFrame_of_suitable outstanding (answeredBy_resetAck.2 message) noDrain]
    rfl
  · obtain ⟨v, failed, -, -, rfl⟩ := exec_of_lastAttemptFails released noDrain fails
    rw [failed, transactionFailed_of_reset message]

theorem takeAnswer_sample {x : Execution} (held : s.engine.held = some x) (overRange fault : Bool) (value : Word) :
    takeAnswer (.sample overRange fault value) s = takeSample x overRange fault value s := by
  simp only [takeAnswer, held]

theorem takeAnswer_selectAck {x : Execution} (held : s.engine.held = some x) (sel : Selection) :
    takeAnswer (.selectAck sel) s = takeSelection x sel s := by
  simp only [takeAnswer, held]

/-- R85: a SAMPLE that is awaited. -/
theorem exec_sample_of_awaits {x : Execution} {tag : BitVec 2} (h : Awaits s x tag) (overRange fault : Bool)
    (value : Word) :
    exec (.sample tag overRange fault value) s = .next (takeSample x overRange fault value (answered s)) := by
  obtain ⟨released, held, phase, o, outstanding, message, rfl⟩ := h
  have noDrain : s.engine.drain? = none := drain?_of_held held (by rw [phase]; exact nofun)
  refine (next_whenReleased released).trans ?_
  rw [receiveFrame_of_suitable outstanding (answeredBy_sample.2 message) noDrain, takeAnswer_sample (by exact held)]

/-- R85, R88: the failure of an entry is the failed completion of what the engine executes. -/
theorem exec_of_entryFails {x : Execution} {status : Status} {c : Instr} {u : State} (h : EntryFails s x status c u) :
    exec c s = .next (completeFailure x status u) ∧ status.success = false ∧ u.engine.held = some x ∧
      u.sets = s.sets := by
  rcases h with ⟨tag, overRange, value, awaits, rfl, rfl, rfl⟩ | ⟨o, released, held, doing, rfl, fails⟩
  · obtain ⟨-, held, -⟩ := id awaits
    exact ⟨(exec_sample_of_awaits awaits overRange true value).trans rfl, rfl, held, rfl⟩
  · have noDrain : s.engine.drain? = none :=
      drain?_of_held held (by rcases doing with ⟨phase, -⟩ | ⟨phase, -⟩ <;> rw [phase] <;> exact nofun)
    have message : o.message ≠ .resetFe := by
      rcases doing with ⟨-, message⟩ | ⟨-, sel, message⟩ <;> rw [message] <;> exact nofun
    obtain ⟨v, failed, engine, sets, rfl⟩ := exec_of_lastAttemptFails released noDrain fails
    have heldThen : v.engine.held = some x := by rw [engine, held]
    exact ⟨by rw [failed, transactionFailed_of_held message heldThen], rfl, heldThen, sets⟩

/-! ### The end of a drain -/

/-- R96: the state in which a drain ends, by whether the selection survives. -/
theorem endDrain_eq (x : Execution) (drain : DrainCause) (keep : Bool) (s : State) :
    endDrain x drain keep s =
      resettingIfPending
        { stopped x.request.set drain.stopCause drain.setState
            { answered s with
              engine := { s.engine with selection := if keep = true then s.engine.selection else none } } with
          host := { s.host with commandDone := true, port := { s.host.port with state := .done, result := .ok } } } := by
  unfold endDrain
  rw [carryOutReset_of_idle rfl]
  rfl

/-- Settles O30: each frame with the outstanding tag, and the attempt's timeout, ends the drain. -/
theorem drainEnds : Obligations.DrainEnds := by
  rintro s x drain cause st o released held phase outstanding causes finish rfl
  obtain ⟨rfl, rfl⟩ : drain.stopCause = cause ∧ drain.setState = st := by
    rcases causes with ⟨rfl, rfl, rfl⟩ | ⟨rfl, rfl, rfl⟩ <;> exact ⟨rfl, rfl⟩
  have draining : s.engine.drain? = some (x, drain) := Engine.drain?_eq_some.2 ⟨held, phase⟩
  have suitable : ∀ {f}, o.message.answeredBy f = true →
      (Host.Outcome.next (whenReleased (receiveFrame o.tag f) s) : Answer) =
        .next (endDrain x drain (drainKeeps o.message f) s) := fun suits => by
    rw [next_whenReleased released, receiveFrame_of_suitable_drain outstanding suits draining]
  have unsuitable : ∀ c, Unsuitable o c → exec c s = .next (endDrain x drain false (protocolError s)) := fun c h => by
    obtain ⟨f, other, taken⟩ := exec_of_unsuitable released h
    rw [taken, receiveFrame_of_unsuitable_drain outstanding other draining, drainKeeps_of_unsuitable other]
  refine ⟨fun due => ?_, fun overRange fault value message => ?_, fun overRange fault value other => ?_,
    fun flags payload sel message channel gain => ?_, fun flags payload other => ?_, fun flags payload other => ?_,
    fun code flags payload h9 hA hB => ?_⟩
  · have expiry : exec .attemptTimeout s = .next (attemptExpire s) := next_whenReleased released
    rw [expiry, attemptExpire_of_due_drain outstanding due draining, endDrain_eq]
    rfl
  · refine (suitable (answeredBy_sample.2 message)).trans ?_
    rw [endDrain_eq, message]
    rfl
  · rw [unsuitable _ (.inr (.inr (.inl ⟨overRange, fault, value, rfl, other⟩))), endDrain_eq]
    rfl
  · refine (suitable (f := .selectAck (echo payload)) ?_).trans ?_
    · rw [answeredBy_selectAck, message, echo_eq_iff.2 ⟨channel, gain⟩]
    · rw [endDrain_eq, message]
      rfl
  · rw [unsuitable _ (.inr (.inl ⟨flags, payload, rfl, other⟩)), endDrain_eq]
    rfl
  · rw [unsuitable _ (.inr (.inr (.inr ⟨flags, payload, rfl, other⟩))), endDrain_eq]
    rfl
  · rw [unsuitable _ (.inl ⟨code, flags, payload, rfl, h9, hA, hB⟩), endDrain_eq]
    rfl

/-! ### Answers to the engine, the settle timer and the start -/

/-- Settles O31, by the settle of the snapshot. -/
theorem selectAckSettlesOrConverts : Obligations.SelectAckSettlesOrConverts := by
  rintro s x o sel flags payload released held phase outstanding message channel gain u rfl
  have noDrain : s.engine.drain? = none := drain?_of_held held (by rw [phase]; exact nofun)
  have suitable : o.message.answeredBy (.selectAck (echo payload)) = true := by
    rw [answeredBy_selectAck, message, echo_eq_iff.2 ⟨channel, gain⟩]
  have received : exec (.selectAck o.tag flags payload) s =
      .next (takeSelection x sel (answered s)) := by
    refine (next_whenReleased released).trans ?_
    rw [receiveFrame_of_suitable outstanding suitable noDrain, echo_eq_iff.2 ⟨channel, gain⟩,
      takeAnswer_selectAck (by exact held)]
  rw [received, takeSelection]
  refine ⟨fun none => ?_, fun some => ?_⟩
  · rw [if_pos none, sendMessage_eq_sent]
    rfl
  · rw [if_neg some]
    rfl

/-- Settles O33: the sample is folded and is not the last. -/
theorem sampleFoldsAndConvertsAgain : Obligations.SampleFoldsAndConvertsAgain := by
  intro s x tag overRange value awaits more
  rw [exec_sample_of_awaits awaits]
  rcases takeSample_cases x overRange false value (answered s) with ⟨fault, -⟩ | ⟨-, -, h⟩ | ⟨-, last, -⟩
  · exact absurd fault nofun
  · rw [h]
    rfl
  · exact absurd last (Nat.not_le.2 more)

/-- Settles O32, by the conditions of each arrival. -/
theorem settleExpiryAndStart : Obligations.SettleExpiryAndStart := by
  intro s released
  have expiry : exec .settleExpiry s = .next (settleExpire s) := next_whenReleased released
  have start : exec .start s = .next (if s.canStart then startHead s else s) := next_whenReleased released
  rw [expiry, start]
  refine ⟨fun x held phase => ?_, fun other => ?_, fun cannot => ?_,
    fun r rest queue idle up clear cursor passes mark kind => ?_⟩
  · simp only [settleExpire, held, if_pos phase, sendMessage_eq_sent]
    rfl
  · unfold settleExpire
    split
    · rfl
    next x held => rw [if_neg (other x held)]
  · rw [if_neg]
    rw [canStart_iff]
    rintro ⟨idle, up, clear, some⟩
    rcases cannot with held | link | pending | none
    · exact held idle
    · exact link up
    · exact absurd (clear.symm.trans pending) nofun
    · exact some none
  · have started : s.sets[r.set].started r.kind =
        { s.sets[r.set] with state := .running, cursor := cursor, passCount := passes, passStart := mark } := by
      rcases kind with ⟨kind, rfl, rfl, rfl⟩ | kind <;> rw [kind] <;> rfl
    rw [if_pos (canStart_iff.2 ⟨idle, up, clear, by rw [queue]; exact nofun⟩), startHead_of_cons queue,
      startEntry_eq_entryStarted, amend_eq_put, started, put_get, if_pos rfl]
    rfl

end

end Sys2Proof.Proofs
end

