-- ==== Sys2Proof/Proofs/Arrivals.lean ====
section
/-! PROOFS. SET_TRIGGER, SET_STOP and SET_DISABLE, and the delivery of an expiry's or an edge's triggers. -/

namespace Sys2Proof.Proofs

open Sys2Proof.Machine Sys2Proof.Statements

section

variable {s : State}

/-! ### The operations on sets and requests in the words of the statements -/

theorem modSet_eq_withSet (s : State) (k : Fin 8) (f : ScanSet → ScanSet) :
    s.modSet k f = withSet k (f s.sets[k]) s := rfl

/-- R64: a request joins the queue at its place. -/
theorem placed_insertRequest (r : Request) (q : List Request) : Placed r q (insertRequest r q) := by
  obtain ⟨front, back, split, inserted, behind, before⟩ := insertRequest_split r q
  refine ⟨front, back, split, inserted, fun x here now => ?_, fun x here => ?_⟩
  · exact absurd ((Request.precedes_iff r x).2 now) (by rw [behind x here]; exact nofun)
  · exact (Request.precedes_iff r x).1 (before x here)

/-- R24, R63: a NEW request. -/
theorem makeRequest_eq (k : Fin 8) (s : State) :
    makeRequest k s =
      withSet k { s.sets[k] with state := .pending, cursor := 0, passCount := 0, passStart := true }
        { s with
          arbiter :=
            { queue := insertRequest (newRequest s k) s.arbiter.queue, issued := s.arbiter.issued + 1 } } := rfl

/-- R24: an arrival at set `k`. -/
theorem arrives_triggerArrival (k : Fin 8) (o : Origin) (s : State) : Arrives k o s (triggerArrival k o s) := by
  unfold Arrives
  rcases triggerArrival_cases s k o with ⟨resting, h⟩ | ⟨armed, h⟩ | ⟨busy, outcome⟩
  · rcases resting with state | state | state <;> rw [state] <;> exact h
  · rw [armed]
    exact ⟨_, placed_insertRequest _ _, h⟩
  · have deferredOrOverrun :
        if s.sets[k].desc.overrun = .defer ∧ s.sets[k].deferred = false then
          triggerArrival k o s = withSet k { s.sets[k] with deferred := true } s
        else
          triggerArrival k o s =
            post (.triggerOverrun k o)
              (withSet k
                { s.sets[k] with overruns := BitVec.ofNat 16 (min (s.sets[k].overruns.toNat + 1) 65535) } s) := by
      rcases outcome with ⟨defers, clear, h⟩ | ⟨counts, h⟩
      · rw [if_pos ⟨defers, clear⟩]; exact h
      · rw [if_neg (fun both => by rw [counts both.1] at both; exact absurd both.2 nofun)]; exact h
    rcases busy with state | state | state <;> rw [state] <;> exact deferredOrOverrun

/-- R31, R39: the end of a scan of set `k`. -/
theorem restarts_restartOrArm (k : Fin 8) (s : State) : Restarts k s (restartOrArm k s) := by
  unfold Restarts
  rcases restartOrArm_cases s k with ⟨deferred, h⟩ | ⟨clear, h⟩
  · rw [if_pos deferred]
    refine ⟨_, placed_insertRequest _ _, ?_⟩
    rw [h, makeRequest_eq, modSet_eq_withSet]
    simp [withSet, newRequest]
  · rw [if_neg (by rw [clear]; exact nofun)]
    exact h

/-! ### SET_TRIGGER -/

/-- Settles O15: the arrival is R24's, whatever the state of the set. -/
theorem setTriggerDeliversArrival : Obligations.SetTriggerDeliversArrival := by
  refine fun s taking => ⟨fun outOfRange => exec_refused rfl taking ?_, fun k named =>
    ⟨triggerArrival k .software s, arrives_triggerArrival k .software s, exec_accepted rfl taking ?_⟩⟩
  · simp only [setTriggerReply, index_of_outOfRange outOfRange]
  · simp only [setTriggerReply, index_of_named named]

/-! ### SET_STOP and SET_DISABLE -/

theorem stopReply_badIndex (cause : DrainCause) (outOfRange : 8 ≤ s.host.params[0].toNat) :
    stopReply cause s = .refuse .badIndex := by
  simp only [stopReply, index_of_outOfRange outOfRange]

theorem stopReply_of_named (cause : DrainCause) {k : Fin 8} (named : Named s k) :
    stopReply cause s = stopSet k cause s := by
  simp only [stopReply, index_of_named named]

theorem stopSet_badState (cause : DrainCause) {k : Fin 8}
    (state : s.sets[k].state = .disabled ∨ s.sets[k].state = .stopping) :
    stopSet k cause s = .refuse .badState := by
  rcases state with state | state <;> simp only [stopSet, state]

theorem stopSet_disable_of_resting {k : Fin 8} (state : s.sets[k].state = .armed ∨ s.sets[k].state = .halted) :
    stopSet k .hostDisable s = .accept (withSet k (s.sets[k].rest .disabled) s) := by
  rcases state with state | state <;> simp only [stopSet, state, modSet_eq_withSet]

/-- R35, R66: the withdrawal of a request that waits, its STOP record handed over before when it was PREEMPTED. -/
theorem stopSet_of_waiting (cause : DrainCause) {k : Fin 8} {t : State}
    (waits : s.sets[k].state = .pending ∧ t = s ∨
      s.sets[k].state = .preempted ∧ t = handHostStop k cause.stopCause s) :
    stopSet k cause s = .accept (withdraw k cause t) := by
  rcases waits with ⟨state, rfl⟩ | ⟨state, rfl⟩ <;> simp only [stopSet, state]

theorem stopSet_of_running (cause : DrainCause) {k : Fin 8} (running : s.sets[k].state = .running) :
    stopSet k cause s = stopRunning k cause s := by
  simp only [stopSet, running]

/-- A host stop: its command, and its cause as the engine's drain and as the STOP record have it. -/
theorem exec_hostStop {c : Instr} {n : Fin 25} {cause : DrainCause}
    (command : c = .setStop ∧ n = 8 ∧ cause = .hostStop ∨ c = .setDisable ∧ n = 6 ∧ cause = .hostDisable) :
    exec c s = .next (hostCommand n (stopReply cause) s) := by
  rcases command with ⟨rfl, rfl, rfl⟩ | ⟨rfl, rfl, rfl⟩ <;> rfl

/-- Settles O16, by R35's table. -/
theorem stopOfSetNotRunning : Obligations.StopOfSetNotRunning := by
  refine fun s taking => ⟨fun outOfRange => ⟨?_, ?_⟩, fun k named => ?_⟩
  · exact exec_refused rfl taking (stopReply_badIndex .hostStop outOfRange)
  · exact exec_refused rfl taking (stopReply_badIndex .hostDisable outOfRange)
  have stop := stopReply_of_named .hostStop named
  have disable := stopReply_of_named .hostDisable named
  refine ⟨fun state => ⟨?_, ?_⟩, fun armed => ?_, fun halted => ?_, fun resting => ?_, ?_⟩
  · exact exec_refused rfl taking (stop.trans (stopSet_badState .hostStop state))
  · exact exec_refused rfl taking (disable.trans (stopSet_badState .hostDisable state))
  · exact exec_accepted rfl taking (stop.trans (by simp only [stopSet, armed]))
  · exact exec_refused rfl taking (stop.trans (by simp only [stopSet, halted]))
  · exact exec_accepted rfl taking (disable.trans (stopSet_disable_of_resting resting))
  · rintro c n cause st (⟨rfl, rfl, rfl, rfl⟩ | ⟨rfl, rfl, rfl, rfl⟩) t waits
    · exact exec_accepted rfl taking (stop.trans (stopSet_of_waiting .hostStop waits))
    · exact exec_accepted rfl taking (disable.trans (stopSet_of_waiting .hostDisable waits))

/-- R36, R94: the release of a RUNNING set's request from SETTLING. -/
theorem stopRunning_of_settling {k : Fin 8} (cause : DrainCause) {x : Execution} {left : Nat}
    (held : s.engine.held = some x) (phase : x.phase = .settling left) :
    stopRunning k cause s =
      .accept
        (resettingIfPending
          (stopped k cause.stopCause cause.setState (withSet k { s.sets[k] with deferred := false } s))) := by
  rw [← carryOutReset_of_idle (by rfl)]
  simp only [stopRunning, held, phase]
  rfl

/-- R95: the start of a drain. -/
theorem stopRunning_of_outstanding {k : Fin 8} (cause : DrainCause) {x : Execution} (held : s.engine.held = some x)
    (phase : x.phase = .selecting ∨ x.phase = .converting) :
    stopRunning k cause s =
      .long
        (holding { x with phase := .draining cause }
          (withSet k { s.sets[k] with deferred := false, state := .stopping } s)) := by
  rcases phase with phase | phase <;>
  · simp only [stopRunning, held, phase, modSet_eq_withSet]
    simp [withSet, holding, State.withHeld]

/-- Settles O17, by the engine's phase. -/
theorem stopOfRunningSet : Obligations.StopOfRunningSet := by
  rintro s k x taking named running held - c n drain cause st causes
  have command : exec c s = .next (hostCommand n (stopReply drain) s) :=
    exec_hostStop (by rcases causes with ⟨hc, hn, hd, -⟩ | ⟨hc, hn, hd, -⟩ <;> simp [hc, hn, hd])
  obtain ⟨rfl, rfl⟩ : drain.stopCause = cause ∧ drain.setState = st := by
    rcases causes with ⟨-, -, rfl, rfl, rfl⟩ | ⟨-, -, rfl, rfl, rfl⟩ <;> exact ⟨rfl, rfl⟩
  have reply : stopReply drain s = stopRunning k drain s :=
    (stopReply_of_named drain named).trans (stopSet_of_running drain running)
  refine ⟨fun left phase => ?_, fun phase => ?_⟩
  · exact exec_accepted command taking (reply.trans (stopRunning_of_settling drain held phase))
  · obtain ⟨released, free⟩ := taking
    rw [command, hostCommand_taken s released free, reply, stopRunning_of_outstanding drain held phase]
    rfl

/-! ### The delivery of triggers -/

/-- R24: a set after an arrival. -/
def arrived (x : ScanSet) : ScanSet :=
  match x.state with
  | .disabled | .halted | .stopping => x
  | .armed => { x with state := .pending, cursor := 0, passCount := 0, passStart := true }
  | .pending | .running | .preempted =>
    if x.desc.overrun = .defer ∧ x.deferred = false then { x with deferred := true }
    else { x with overruns := BitVec.ofNat 16 (min (x.overruns.toNat + 1) 65535) }

/-- R24: an arrival makes a request. -/
def makesRequest (x : ScanSet) : Bool := decide (x.state = .armed)

/-- R24: an arrival is an overrun. -/
def overrunsAt (x : ScanSet) : Bool :=
  decide (x.state = .pending ∨ x.state = .running ∨ x.state = .preempted) &&
    !decide (x.desc.overrun = .defer ∧ x.deferred = false)

theorem arrived_of_resting {x : ScanSet} (resting : x.state = .disabled ∨ x.state = .halted ∨ x.state = .stopping) :
    arrived x = x ∧ makesRequest x = false ∧ overrunsAt x = false := by
  rcases resting with state | state | state <;> simp [arrived, makesRequest, overrunsAt, state]

theorem arrived_of_armed {x : ScanSet} (armed : x.state = .armed) :
    arrived x = { x with state := .pending, cursor := 0, passCount := 0, passStart := true } ∧
      makesRequest x = true ∧ overrunsAt x = false := by
  simp [arrived, makesRequest, overrunsAt, armed]

theorem arrived_of_defers {x : ScanSet} (busy : x.state = .pending ∨ x.state = .running ∨ x.state = .preempted)
    (defers : x.desc.overrun = .defer) (clear : x.deferred = false) :
    arrived x = { x with deferred := true } ∧ makesRequest x = false ∧ overrunsAt x = false := by
  rcases busy with state | state | state <;> simp [arrived, makesRequest, overrunsAt, state, defers, clear]

theorem arrived_of_counts {x : ScanSet} (busy : x.state = .pending ∨ x.state = .running ∨ x.state = .preempted)
    (counts : x.desc.overrun = .defer → x.deferred = true) :
    arrived x = { x with overruns := satAdd x.overruns 1 } ∧ makesRequest x = false ∧ overrunsAt x = true := by
  have notBoth : ¬ (x.desc.overrun = .defer ∧ x.deferred = false) := fun both => by
    rw [counts both.1] at both
    exact absurd both.2 nofun
  unfold arrived makesRequest overrunsAt satAdd
  rw [decide_eq_false notBoth]
  rcases busy with state | state | state <;> exact ⟨by simp only [state, if_neg notBoth], by simp [state], by simp [state]⟩

/-- R24: all that an arrival changes, in one equation. -/
theorem triggerArrival_eq (k : Fin 8) (o : Origin) (s : State) :
    triggerArrival k o s =
      { s with
        sets := put s.sets k (arrived s.sets[k])
        arbiter :=
          if makesRequest s.sets[k] = true then
            { queue := insertRequest (newRequest s k) s.arbiter.queue, issued := s.arbiter.issued + 1 }
          else s.arbiter
        events :=
          if overrunsAt s.sets[k] = true then s.events.post s.triggers.time (.triggerOverrun k o)
          else s.events } := by
  rcases triggerArrival_cases s k o with ⟨resting, h⟩ | ⟨armed, h⟩ | ⟨busy, ⟨defers, clear, h⟩ | ⟨counts, h⟩⟩
  · obtain ⟨set, request, overrun⟩ := arrived_of_resting resting
    rw [h, set, request, overrun, put_member]
    rfl
  · obtain ⟨set, request, overrun⟩ := arrived_of_armed armed
    rw [h, set, request, overrun]
    rfl
  · obtain ⟨set, request, overrun⟩ := arrived_of_defers busy defers clear
    rw [h, set, request, overrun]
    rfl
  · obtain ⟨set, request, overrun⟩ := arrived_of_counts busy counts
    rw [h, set, request, overrun]
    rfl

/-- R25: the sets of `ks` that name `src` and of which `p` holds. -/
def naming (src : TriggerSource) (p : ScanSet → Bool) (s : State) (ks : List (Fin 8)) : List (Fin 8) :=
  ks.filter fun k => decide (s.sets[k].desc.source = src) && p s.sets[k]

/-- R63: the request of set `k`, one of `ks`, each of which takes a stamp in ascending order. -/
def stamped (s : State) (ks : List (Fin 8)) (k : Fin 8) : Request :=
  { newRequest s k with stamp := s.arbiter.issued + (ks.filter fun j => decide (j < k)).length }

/-- R25: what the sets of `ks` that name `src` have made of `s`. -/
structure Delivered (src : TriggerSource) (o : Origin) (s : State) (ks : List (Fin 8)) (t : State) : Prop where
  frame : t = { s with sets := t.sets, arbiter := t.arbiter, events := t.events }
  sets : ∀ k : Fin 8,
    t.sets[k] = if k ∈ ks ∧ s.sets[k].desc.source = src then arrived s.sets[k] else s.sets[k]
  events : t.events = ((naming src overrunsAt s ks).foldl (fun u k => post (.triggerOverrun k o) u) s).events
  issued : t.arbiter.issued = s.arbiter.issued + (naming src makesRequest s ks).length
  count : t.arbiter.queue.length = s.arbiter.queue.length + (naming src makesRequest s ks).length
  queue : ∀ r : Request,
    r ∈ t.arbiter.queue ↔
      r ∈ s.arbiter.queue ∨
        ∃ k ∈ naming src makesRequest s ks, r = stamped s (naming src makesRequest s ks) k

theorem naming_snoc (src : TriggerSource) (p : ScanSet → Bool) (s : State) (ks : List (Fin 8)) (k : Fin 8) :
    naming src p s (ks ++ [k]) =
      naming src p s ks ++ if s.sets[k].desc.source = src ∧ p s.sets[k] = true then [k] else [] := by
  unfold naming
  rw [List.filter_append, List.filter_singleton]
  simp

theorem foldl_post_triggers (ks : List (Fin 8)) (o : Origin) (s : State) :
    (ks.foldl (fun u k => post (.triggerOverrun k o) u) s).triggers = s.triggers := by
  induction ks generalizing s with
  | nil => rfl
  | cons k rest ih => rw [List.foldl_cons, ih, post_triggers]

/-- R63: a set after those that have their stamps takes the next one. -/
theorem stamped_snoc_last (s : State) {ks : List (Fin 8)} {k : Fin 8} (before : ∀ j ∈ ks, j < k) :
    stamped s (ks ++ [k]) k = { newRequest s k with stamp := s.arbiter.issued + ks.length } := by
  have all : ks.filter (fun j => decide (j < k)) = ks := List.filter_eq_self.2 fun j here => by simpa using before j here
  simp [stamped, List.filter_append, all]

theorem stamped_snoc_before (s : State) (ks : List (Fin 8)) {j k : Fin 8} (before : j < k) :
    stamped s (ks ++ [k]) j = stamped s ks j := by
  simp [stamped, List.filter_append, before.le]

/-- R25: the next set that does not name the source. -/
theorem Delivered.pass {src : TriggerSource} {o : Origin} {ks : List (Fin 8)} {k : Fin 8} {t : State}
    (h : Delivered src o s ks t) (other : s.sets[k].desc.source ≠ src) : Delivered src o s (ks ++ [k]) t := by
  have same : ∀ p, naming src p s (ks ++ [k]) = naming src p s ks := fun p => by
    rw [naming_snoc, if_neg fun both => other both.1, List.append_nil]
  refine ⟨h.frame, fun j => ?_, by rw [same]; exact h.events, by rw [same]; exact h.issued,
    by rw [same]; exact h.count, by rw [same]; exact h.queue⟩
  rw [h.sets j]
  refine if_congr ⟨fun ⟨here, names⟩ => ⟨List.mem_append_left _ here, names⟩, fun ⟨here, names⟩ => ⟨?_, names⟩⟩ rfl rfl
  rcases List.mem_append.1 here with here | now
  · exact here
  · rw [List.mem_singleton.1 now] at names
    exact absurd names other

/-- R24, R25, R63: the next set, which names the source, takes its arrival. -/
theorem Delivered.arrival {src : TriggerSource} {o : Origin} {ks : List (Fin 8)} {k : Fin 8} {t : State}
    (h : Delivered src o s ks t) (names : s.sets[k].desc.source = src) (before : ∀ j ∈ ks, j < k) :
    Delivered src o s (ks ++ [k]) (triggerArrival k o t) := by
  have untouched : t.sets[k] = s.sets[k] := by
    rw [h.sets k, if_neg fun both => absurd (before k both.1) (lt_irrefl k)]
  have time : t.triggers = s.triggers := by rw [h.frame]
  have request : newRequest t k = { newRequest s k with stamp := t.arbiter.issued } := by
    rw [newRequest, untouched]
    rfl
  rw [triggerArrival_eq, untouched]
  refine ⟨?_, fun j => ?_, ?_, ?_, ?_, fun r => ?_⟩
  · rw [h.frame]
  · simp only [put_get]
    by_cases this : k = j
    · subst this
      rw [if_pos rfl, if_pos ⟨by simp, names⟩]
    · rw [if_neg this, h.sets j]
      have : j ≠ k := fun now => this now.symm
      simp [this]
  · simp only [naming_snoc, names, true_and]
    split
    next overruns =>
      rw [List.foldl_append, List.foldl_cons, List.foldl_nil, h.events, time, post_events, foldl_post_triggers]
    · rw [List.append_nil]; exact h.events
  · simp only [naming_snoc, names, true_and]
    split
    · rw [List.length_append, List.length_singleton, ← Nat.add_assoc, ← h.issued]
    · rw [List.append_nil]; exact h.issued
  · simp only [naming_snoc, names, true_and]
    split
    · rw [List.length_append, List.length_singleton, ← Nat.add_assoc, ← h.count,
        (insertRequest_perm _ _).length_eq, List.length_cons]
    · rw [List.append_nil]; exact h.count
  · simp only [naming_snoc, names, true_and]
    have earlier : ∀ j ∈ naming src makesRequest s ks, j < k := fun j here => before j (List.mem_filter.1 here).1
    split
    next armed =>
      rw [mem_insertRequest, h.queue r, request, h.issued, ← stamped_snoc_last s earlier]
      constructor
      · rintro (rfl | old | ⟨j, here, rfl⟩)
        · exact .inr ⟨k, by simp, rfl⟩
        · exact .inl old
        · exact .inr ⟨j, by simp [here], (stamped_snoc_before s _ (earlier j here)).symm⟩
      · rintro (old | ⟨j, here, rfl⟩)
        · exact .inr (.inl old)
        · rcases List.mem_append.1 here with here | now
          · exact .inr (.inr ⟨j, here, stamped_snoc_before s _ (earlier j here)⟩)
          · rw [List.mem_singleton.1 now]; exact .inl rfl
    · rw [List.append_nil]
      exact h.queue r

/-- R25: the delivery to sets in ascending order of index. -/
theorem delivered_foldl (src : TriggerSource) (o : Origin) (s : State) (ks : List (Fin 8))
    (ascending : ks.Pairwise (· < ·)) :
    Delivered src o s ks
      (ks.foldl (fun t k => if t.sets[k].desc.source = src then triggerArrival k o t else t) s) := by
  induction ks using List.reverseRecOn with
  | nil => exact ⟨rfl, fun k => by simp, rfl, rfl, rfl, fun r => by simp [naming]⟩
  | append_singleton ks k ih =>
    obtain ⟨earlier, -, before⟩ := List.pairwise_append.1 ascending
    have here : ∀ j ∈ ks, j < k := fun j there => before j there k (List.mem_singleton.2 rfl)
    rw [List.foldl_append, List.foldl_cons, List.foldl_nil]
    generalize ks.foldl _ s = t at ih
    have delivered := ih earlier
    have untouched : t.sets[k] = s.sets[k] := by
      rw [delivered.sets k, if_neg fun both => absurd (here k both.1) (lt_irrefl k)]
    rw [untouched]
    split
    next names => exact delivered.arrival names here
    next other => exact delivered.pass other

theorem allSets_eq : allSets = List.finRange 8 := rfl

/-- Settles O22, by the delivery to the sets one after another. -/
theorem triggerReachesEachNamingSet : Obligations.TriggerReachesEachNamingSet := by
  intro s t src o armed overrun delivery armedEq overrunEq
  obtain rfl : armed = naming src makesRequest s (List.finRange 8) := armedEq
  obtain rfl : overrun = naming src overrunsAt s (List.finRange 8) := by
    simp only [overrunEq, Bool.and_assoc]
    rfl
  have delivered : Delivered src o s (List.finRange 8) t := by
    rw [delivery, deliverTriggers, allSets_eq]
    exact delivered_foldl src o s _ (List.pairwise_lt_finRange 8)
  refine ⟨delivered.frame, fun k other => ?_, fun k names => ?_, delivered.events, delivered.issued,
    delivered.count, delivered.queue⟩
  · rw [delivered.sets k, if_neg fun both => other both.2]
  · rw [delivered.sets k, if_pos ⟨List.mem_finRange k, names⟩]
    rfl

end

end Sys2Proof.Proofs
end

