-- ==== Sys2Proof/Proofs/Completions.lean ====
section
/-! PROOFS. The completion of an entry: the arbiter's decision and the link's count (R69–R74, R112, R113), the ends of a
scan (R28–R31, R38, R39) and the limit monitor's findings (R121–R129), in the words of the statements. -/

namespace Sys2Proof.Proofs

open Sys2Proof.Machine Sys2Proof.Statements

section

variable {s : State} {x : Execution} {status : Status}

/-! ### The arbiter's decision and the link's count -/

/-- R74: the held request taken back. -/
theorem returned_returnRequest (new : Bool) (held : s.engine.held = some x) :
    Returned x.request (if new then s.arbiter.issued else x.request.stamp)
      (if new then s.arbiter.issued + 1 else s.arbiter.issued) s (returnRequest new s) :=
  ⟨_, placed_insertRequest _ _, returnRequest_of_held s new held⟩

theorem updateCount_of_answered (answered : status ≠ .noResponse) (s : State) :
    updateCount status s = countCleared s := by
  rcases updateCount_cases s status with ⟨-, h⟩ | ⟨none, -, -⟩ | ⟨none, -, -⟩
  · exact h
  · exact absurd none answered
  · exact absurd none answered

theorem updateCount_of_below (below : s.link.failures + 1 < s.link.threshold) :
    updateCount .noResponse s = countGrown s :=
  if_neg (Nat.not_le.2 below)

theorem updateCount_of_reached (reached : s.link.failures + 1 = s.link.threshold) :
    updateCount .noResponse s = linkDown s :=
  if_pos reached.ge

/-- R112, R113, R116: no request is with the engine. -/
theorem counted_of_idle (status : Status) (idle : s.engine.held = none) :
    Counted status s (goOn (updateCount status s)) := by
  refine ⟨fun answered => ?_, ?_, ?_⟩
  · rw [updateCount_of_answered answered, goOn_of_idle (by exact idle), carryOutReset_of_idle (by exact idle)]
  · rintro rfl below
    rw [updateCount_of_below below, goOn_of_idle (by exact idle), carryOutReset_of_idle (by exact idle)]
  · rintro rfl reached
    have fallen : (linkFallen s).engine.held = none := idle
    rw [updateCount_of_reached reached, linkDown_eq, returnRequest_of_idle _ _ fallen]
    split
    · rw [goOn_of_idle (by simpa using fallen), carryOutReset_of_clear rfl, enterResetting_eq_resetting]
    · rw [goOn_of_idle fallen, carryOutReset_of_clear rfl]

/-- R112, R113, R73, R92: a request is with the engine, and so no reset is pending. -/
theorem goesOn_of_held (status : Status) (held : s.engine.held = some x) (clear : s.link.resetPending = false) :
    GoesOn status x.request s (goOn (updateCount status s)) := by
  refine ⟨fun answered => ?_, ?_, ?_⟩
  · rw [updateCount_of_answered answered, goOn_of_held (x := x) (by exact held), startEntry_eq_entryStarted]
    rfl
  · rintro rfl below
    rw [updateCount_of_below below, goOn_of_held (x := x) (by exact held), startEntry_eq_entryStarted]
    rfl
  · rintro rfl reached
    have returned := returned_returnRequest (s := linkFallen s) (x := x) false (by exact held)
    rw [updateCount_of_reached reached, linkDown_eq, if_neg (by rw [clear]; exact nofun),
      goOn_of_idle (returnRequest_held _ _), carryOutReset_of_clear (by rw [returnRequest_link]; rfl)]
    exact returned

/-- What the arbiter has left, when it has taken the request back. -/
theorem counted_returnRequest (new : Bool) (status : Status) (s : State) :
    Counted status (returnRequest new s) (goOn (updateCount status (returnRequest new s))) :=
  counted_of_idle status (returnRequest_held new s)

/-- R69–R74: what kind of boundary a scan that goes on has reached. -/
def boundaryOf (passEnd : Bool) : Boundary := if passEnd = true then .passEnd else .inside

theorem arbiterDecision_of_inside {q : Request} {rest : List Request} (held : s.engine.held = some x)
    (clear : s.link.resetPending = false) (queue : s.arbiter.queue = q :: rest) :
    arbiterDecision .inside s =
      if s.sets[x.request.set].desc.preemptible = true ∧ x.request.priority < q.priority then returnRequest false s
      else s := by
  unfold arbiterDecision
  simp only [held, clear, queue, Bool.false_eq_true, if_false]

theorem arbiterDecision_of_passEnd {q : Request} {rest : List Request} (held : s.engine.held = some x)
    (clear : s.link.resetPending = false) (queue : s.arbiter.queue = q :: rest) :
    arbiterDecision .passEnd s =
      if s.sets[x.request.set].desc.preemptible = true ∧ x.request.priority ≤ q.priority then returnRequest true s
      else s := by
  unfold arbiterDecision
  simp only [held, clear, queue, Bool.false_eq_true, if_false]

theorem arbiterDecision_of_empty (b : Boundary) (held : s.engine.held = some x) (clear : s.link.resetPending = false)
    (queue : s.arbiter.queue = []) : arbiterDecision b s = s := by
  unfold arbiterDecision
  simp only [held, clear, queue, Bool.false_eq_true, if_false]

theorem givesWay_cons {r q : Request} {rest : List Request} {above : Fin 4 → Prop} (queue : s.arbiter.queue = q :: rest) :
    GivesWay r above s ↔ s.sets[r.set].desc.preemptible = true ∧ above q.priority := by
  simp [GivesWay, queue]

theorem not_givesWay_nil {r : Request} {above : Fin 4 → Prop} (queue : s.arbiter.queue = []) :
    ¬ GivesWay r above s := by
  simp [GivesWay, queue]

/-- R70: inside a pass the arbiter takes the request back with its stamp for a head of higher priority. -/
theorem arbiterDecision_inside_cases (held : s.engine.held = some x) (clear : s.link.resetPending = false) :
    GivesWay x.request (fun p => x.request.priority < p) s ∧ arbiterDecision .inside s = returnRequest false s ∨
    ¬ GivesWay x.request (fun p => x.request.priority < p) s ∧ arbiterDecision .inside s = s := by
  cases queue : s.arbiter.queue with
  | nil => exact .inr ⟨not_givesWay_nil queue, arbiterDecision_of_empty _ held clear queue⟩
  | cons q rest =>
    rw [givesWay_cons queue, arbiterDecision_of_inside held clear queue]
    split
    next way => exact .inl ⟨way, rfl⟩
    next stays => exact .inr ⟨stays, rfl⟩

/-- R71: at a pass end it takes the request back with a new stamp for a head of equal or higher priority. -/
theorem arbiterDecision_passEnd_cases (held : s.engine.held = some x) (clear : s.link.resetPending = false) :
    GivesWay x.request (fun p => x.request.priority ≤ p) s ∧ arbiterDecision .passEnd s = returnRequest true s ∨
    ¬ GivesWay x.request (fun p => x.request.priority ≤ p) s ∧ arbiterDecision .passEnd s = s := by
  cases queue : s.arbiter.queue with
  | nil => exact .inr ⟨not_givesWay_nil queue, arbiterDecision_of_empty _ held clear queue⟩
  | cons q rest =>
    rw [givesWay_cons queue, arbiterDecision_of_passEnd held clear queue]
    split
    next way => exact .inl ⟨way, rfl⟩
    next stays => exact .inr ⟨stays, rfl⟩

/-- R69–R74, R112, R113, R92: the boundary of a scan that goes on. -/
theorem decided_finishBoundary (passEnd : Bool) (status : Status) (held : s.engine.held = some x) :
    Decided status x.request passEnd s (finishBoundary (boundaryOf passEnd) status s) := by
  unfold finishBoundary
  refine ⟨fun pending => ?_, ?_, ?_, ?_⟩
  · rw [arbiterDecision_of_pending _ held pending]
    exact ⟨_, returned_returnRequest false held, counted_returnRequest false status s⟩
  · rintro clear rfl way
    rcases arbiterDecision_inside_cases held clear with ⟨-, h⟩ | ⟨stays, -⟩
    · rw [show boundaryOf false = .inside from rfl, h]
      exact ⟨_, returned_returnRequest false held, counted_returnRequest false status s⟩
    · exact absurd way stays
  · rintro clear rfl way
    rcases arbiterDecision_passEnd_cases held clear with ⟨-, h⟩ | ⟨stays, -⟩
    · rw [show boundaryOf true = .passEnd from rfl, h]
      exact ⟨_, returned_returnRequest true held, counted_returnRequest true status s⟩
    · exact absurd way stays
  · intro clear inside atEnd
    have stays : arbiterDecision (boundaryOf passEnd) s = s := by
      cases passEnd
      · rcases arbiterDecision_inside_cases held clear with ⟨way, -⟩ | ⟨-, h⟩
        · exact absurd way (inside rfl)
        · exact h
      · rcases arbiterDecision_passEnd_cases held clear with ⟨way, -⟩ | ⟨-, h⟩
        · exact absurd way (atEnd rfl)
        · exact h
    rw [stays]
    exact goesOn_of_held status held clear

theorem finishBoundary_of_idle (b : Boundary) (status : Status) (idle : s.engine.held = none) :
    Counted status s (finishBoundary b status s) := by
  unfold finishBoundary
  rw [arbiterDecision_of_idle b idle]
  exact counted_of_idle status idle

/-! ### The ends of a scan -/

/-- The chain's fields are the descriptor's, which the end of a scan leaves. -/
theorem restartOrArm_desc (k : Fin 8) (s : State) : (restartOrArm k s).sets[k].desc = s.sets[k].desc := by
  rcases restartOrArm_cases s k with ⟨-, h⟩ | ⟨-, h⟩ <;> rw [h] <;> simp

/-- R30, R31: the completion of a scan, whatever its cursor and its pass count have come to. -/
theorem scanCompleted_completeScan (k : Fin 8) (cursor : Nat) (passes : BitVec 8) (s : State) :
    ScanCompleted k s (completeScan k (withSet k { s.sets[k] with cursor := cursor, passCount := passes } s)) := by
  refine ⟨_, restarts_restartOrArm k _, ?_⟩
  have desc : (restartOrArm k
      (idle
        (withSet k { s.sets[k] with completed := s.sets[k].completed + 1, cursor := 0, passCount := 0 }
          (post (.scanDone k (s.sets[k].completed + 1)) s)))).sets[k].desc = s.sets[k].desc := by
    rw [restartOrArm_desc]
    simp [idle, withSet]
  have ended : completeScan k (withSet k { s.sets[k] with cursor := cursor, passCount := passes } s) =
      deliverChain k
        (restartOrArm k
          (idle
            (withSet k { s.sets[k] with completed := s.sets[k].completed + 1, cursor := 0, passCount := 0 }
              (post (.scanDone k (s.sets[k].completed + 1)) s)))) := by
    simp [completeScan, State.modSet, withSet, amend, post, idle, dropHeld]
  rw [ended, deliverChain, desc]
  split
  · exact arrives_triggerArrival _ _ _
  · rfl

/-- R28–R31, R69–R74, R92, R112, R113: the advance of the held set's cursor, and what follows it. -/
theorem advancedAndFinished_outcome (status : Status) (held : s.engine.held = some x) {k : Fin 8}
    (set : x.request.set = k) :
    (s.sets[k].cursor + 1 ≠ s.sets[k].desc.count →
      Decided status x.request false (withSet k { s.sets[k] with cursor := s.sets[k].cursor + 1 } s)
        (advancedAndFinished k status s)) ∧
    (s.sets[k].cursor + 1 = s.sets[k].desc.count →
      ¬ (s.sets[k].desc.passes ≠ 0 ∧ s.sets[k].passCount + 1 = s.sets[k].desc.passes) →
      Decided status x.request true
        (withSet k { s.sets[k] with cursor := 0, passCount := s.sets[k].passCount + 1, passStart := true } s)
        (advancedAndFinished k status s)) ∧
    (s.sets[k].cursor + 1 = s.sets[k].desc.count → s.sets[k].desc.passes ≠ 0 →
      s.sets[k].passCount + 1 = s.sets[k].desc.passes →
      ∃ z, ScanCompleted k s z ∧ Counted status z (advancedAndFinished k status s)) := by
  subst set
  unfold advancedAndFinished
  rcases advanceCursor_cases s x.request.set with ⟨more, h⟩ | ⟨last, ⟨passes, lastPass, h⟩ | ⟨goes, h⟩⟩
  · refine ⟨fun _ => ?_, fun last => absurd last more, fun last => absurd last more⟩
    rw [h]
    exact decided_finishBoundary false status
      (s := withSet x.request.set { s.sets[x.request.set] with cursor := s.sets[x.request.set].cursor + 1 } s) held
  · refine ⟨fun more => absurd last more, fun _ goes => absurd ⟨passes, lastPass⟩ goes, fun _ _ _ => ?_⟩
    rw [h]
    exact ⟨_, scanCompleted_completeScan _ _ _ _, finishBoundary_of_idle _ _ (by simp [completeScan])⟩
  · refine ⟨fun more => absurd last more, fun _ _ => ?_, fun _ passes lastPass => absurd lastPass (goes passes)⟩
    rw [h]
    have advanced : ((s.modSet x.request.set fun y => { y with cursor := 0, passCount := y.passCount + 1 }).modSet
        x.request.set fun y => { y with passStart := true }) =
        withSet x.request.set
          { s.sets[x.request.set] with
            cursor := 0, passCount := s.sets[x.request.set].passCount + 1, passStart := true } s := by
      simp [State.modSet, withSet, amend]
    dsimp only
    rw [advanced]
    exact decided_finishBoundary true status (by exact held)

/-! ### Entries that fail -/

/-- R90: the report of a failure leaves of the sets all but the mark of the held one. -/
theorem failureReported_sets (x : Execution) (status : Status) (s : State) :
    (failureReported x status s).sets = amend s.sets x.request.set fun y => { y with passStart := false } := rfl

theorem failureReported_held (x : Execution) (status : Status) (s : State) :
    (failureReported x status s).engine.held = s.engine.held := by
  simp [failureReported]

/-- R38: a halt. -/
theorem haltSet_eq (k : Fin 8) (entry : Fin 128) (status : Status) (s : State) :
    haltSet k entry status s =
      idle
        (withSet k
          { (post (.setHalted k entry status) (stopRecorded k .halt s)).sets[k] with
            state := .halted, cursor := 0, passCount := 0, deferred := false }
          (post (.setHalted k entry status) (stopRecorded k .halt s))) := rfl

/-- Settles O37: the failed completion halts the set, and nothing is held when the count is updated. -/
theorem faultHaltsSet : Obligations.FaultHaltsSet := by
  rintro s x status c k b u v fails rfl fault rfl rfl
  obtain ⟨taken, failed, held, sets⟩ := exec_of_entryFails fails
  refine ⟨_, ?_, taken⟩
  rcases completeFailure_cases x failed b with ⟨-, h⟩ | ⟨carryOn, -⟩
  · rw [h, haltSet_eq]
    exact finishBoundary_of_idle .ended status rfl
  · rw [sets, fault] at carryOn
    exact absurd carryOn nofun

/-- Settles O38: the failed completion goes on as R89 does from the advance of the cursor. -/
theorem noResponseTakesLinkDown : Obligations.NoResponseTakesLinkDown := by
  rintro s x status c k b v fails rfl fault reported
  obtain ⟨taken, failed, held, sets⟩ := exec_of_entryFails fails
  have goes : completeFailure x status b = advancedAndFinished x.request.set status v := by
    rcases completeFailure_cases x failed b with ⟨halt, -⟩ | ⟨-, h⟩
    · rw [sets, fault] at halt
      exact absurd halt nofun
    · rw [h, reported]
  have same : v.sets[x.request.set] = { s.sets[x.request.set] with passStart := false } := by
    rw [reported, failureReported_sets, amend_get, if_pos rfl, sets]
  have stays : v.engine.held = some x := by rw [reported, failureReported_held, held]
  obtain ⟨inside, passEnd, completes⟩ := advancedAndFinished_outcome status stays rfl
  rw [same] at inside passEnd completes
  refine ⟨_, taken.trans (by rw [goes]), fun more => ?_, fun last on => ?_, completes⟩
  · rw [same]
    exact inside (by exact more.ne)
  · rw [same]
    exact passEnd last on

/-! ### The limit monitor -/

theorem entered_iff {old new : Zone} : zoneEntered old new ≠ none ↔ Entered old new := by
  unfold zoneEntered Entered
  split
  next same => simp [same]
  next moved =>
    have moved : new ≠ old := fun h => moved h.symm
    cases new <;> simp [moved]

/-- R125, in the words of the statements. -/
theorem moveReported_eq (k : Fin 8) (i : Fin 128) (r : Word) (old new : Zone) (s : State) :
    (match limitEvent? k i r old new with
      | none => s
      | some b => post b s) =
      moveReported k i r old new s := by
  unfold limitEvent? moveReported
  by_cases same : old = new
  · rw [if_pos same, if_pos same.symm]
  · rw [if_neg same, if_neg fun h => same h.symm]
    cases new
    · rfl
    · cases old <;> rfl
    · rfl
    · rfl

theorem requires_iff {m : OutputMode} {changed : Bool} :
    m.requires changed = true ↔ m = .always ∨ m = .zoneChange ∧ changed = true := by
  cases m <;> simp [OutputMode.requires]

/-- R87: an entry that has all its samples ends OK or CLIPPED. -/
theorem outcome_success (x : Execution) : (outcome x).success = true := by
  unfold outcome
  split <;> rfl

theorem outcome_ne_noResponse (x : Execution) : outcome x ≠ .noResponse := by
  unfold outcome
  split <;> exact nofun

/-- R121–R126: step 1 of a successful completion, with `old` the zone read and `new` the zone found. -/
theorem limitEvaluate_of_success (success : status.success = true) {r : Word} {old new : Zone}
    (before : old = s.entries[x.entry].zone) (found : new = zoneFound x r s) :
    (limitEvaluate x status r s).1 = evaluated x r old new s ∧
      ((limitEvaluate x status r s).2.recordRequired = true ↔
        x.snapshot.output = .always ∨ x.snapshot.output = .zoneChange ∧ new ≠ old) ∧
      ((limitEvaluate x status r s).2.entered ≠ none ↔ Entered old new) := by
  unfold evaluated
  rcases limitEvaluate_cases s x status r with ⟨failed, -⟩ | ⟨-, window, h⟩ | ⟨-, window, z, zone, h⟩
  · exact absurd (success.symm.trans failed) nofun
  · obtain rfl : new = old := by
      rw [found, before, zoneFound, if_neg (by rw [window]; exact nofun)]
    rw [h, if_neg (by rw [window]; exact nofun)]
    exact ⟨rfl, by simp [requires_iff], by simp [Entered]⟩
  · obtain rfl : z = new := by
      rw [found, zone, zoneFound, if_pos window]
    rw [h, if_pos window, before, ← moveReported_eq]
    refine ⟨rfl, ?_, entered_iff⟩
    rw [requires_iff, bne_iff_ne, ne_comm]

/-- R89, steps 1 and 2, in the words of the statements. -/
theorem resultReported_eq (complete : status = outcome x) {r : Word} {old new : Zone}
    (before : old = s.entries[x.entry].zone) (found : new = zoneFound x r s) :
    resultReported x status r s = recordedIfRequired x r old new (evaluated x r old new s) := by
  obtain ⟨state, required, -⟩ := limitEvaluate_of_success (complete ▸ outcome_success x) before found
  unfold resultReported recordedIfRequired
  rw [state]
  by_cases needed : x.snapshot.output = .always ∨ x.snapshot.output = .zoneChange ∧ new ≠ old
  · rw [if_pos (required.2 needed), if_pos needed, handResult, complete]
  · rw [if_neg fun h => needed (required.1 h), if_neg needed]

theorem resultReported_held (x : Execution) (status : Status) (r : Word) (s : State) :
    (resultReported x status r s).engine.held = s.engine.held :=
  congrArg Engine.held (resultReported_link x status r s).2

/-- R33: what a completion's record leaves of a set. -/
theorem resultReported_set (x : Execution) (status : Status) (r : Word) (s : State) (k : Fin 8) :
    ∃ mark, (resultReported x status r s).sets[k] = { s.sets[k] with passStart := mark } := by
  by_cases required : (limitEvaluate x status r s).2.recordRequired = true
  · rw [show resultReported x status r s = _ from if_pos required, handResult, handSetRecord_sets, amend_get,
      limitEvaluate_sets]
    split
    · exact ⟨false, rfl⟩
    · exact ⟨s.sets[k].passStart, rfl⟩
  · rw [show resultReported x status r s = _ from if_neg required, limitEvaluate_sets]
    exact ⟨s.sets[k].passStart, rfl⟩

/-- R24: what an arrival at any set leaves of a RUNNING one. -/
theorem triggerArrival_of_running {k : Fin 8} (running : s.sets[k].state = .running) (j : Fin 8) (o : Origin) :
    ∃ deferred overruns,
      (triggerArrival j o s).sets[k] = { s.sets[k] with deferred := deferred, overruns := overruns } := by
  rw [triggerArrival_eq]
  dsimp only
  rw [put_get]
  split
  next same =>
    subst same
    unfold arrived
    rw [running]
    dsimp only
    split
    · exact ⟨true, s.sets[j].overruns, rfl⟩
    · exact ⟨s.sets[j].deferred, _, rfl⟩
  · exact ⟨s.sets[k].deferred, s.sets[k].overruns, rfl⟩

/-! ### The last sample of an entry -/

/-- R85: the last SAMPLE of an entry completes it. -/
theorem exec_lastSample {tag : BitVec 2} (awaits : Awaits s x tag) (last : LastSample x) (overRange : Bool)
    (value : Word) :
    exec (.sample tag overRange false value) s =
      .next
        (completeSuccess (folded x overRange value) (outcome (folded x overRange value))
          (reduced (folded x overRange value)) (converted (folded x overRange value) s)) := by
  rw [exec_sample_of_awaits awaits]
  rcases takeSample_cases x overRange false value (answered s) with ⟨fault, -⟩ | ⟨-, more, -⟩ | ⟨-, -, h⟩
  · exact absurd fault nofun
  · exact absurd more (Nat.not_lt.2 (le_of_eq last.symm))
  · rw [h]
    rfl

/-- R89, steps 1 to 3, of an entry that STOP_OWN does not end: `v` is reached by steps 1 and 2 and `w` by step 3, which
leaves the RUNNING set at its cursor and in its pass. -/
theorem exec_lastSample_of_goesOn {tag : BitVec 2} {overRange : Bool} {value r : Word} {old new : Zone} {v : State}
    (awaits : Awaits s x tag) (last : LastSample x) (running : s.sets[x.request.set].state = .running)
    (result : r = reduced (folded x overRange value)) (before : old = s.entries[x.entry].zone)
    (found : new = zoneFound x r s) (goes : Entered old new → x.snapshot.action ≠ .stopOwn)
    (reported : v =
      recordedIfRequired (folded x overRange value) r old new
        (evaluated x r old new (converted (folded x overRange value) s))) :
    ∃ w,
      (Entered old new ∧ x.snapshot.action = .trigger → Arrives x.snapshot.target .limit v w) ∧
      (¬ (Entered old new ∧ x.snapshot.action = .trigger) → w = v) ∧
      w.engine.held = some (folded x overRange value) ∧
      (∃ deferred overruns mark, w.sets[x.request.set] =
        { s.sets[x.request.set] with deferred := deferred, overruns := overruns, passStart := mark }) ∧
      exec (.sample tag overRange false value) s =
        .next (advancedAndFinished x.request.set (outcome (folded x overRange value)) w) := by
  have held := resultReported_held (folded x overRange value) (outcome (folded x overRange value)) r
    (converted (folded x overRange value) s)
  obtain ⟨mark, set⟩ := resultReported_set (folded x overRange value) (outcome (folded x overRange value)) r
    (converted (folded x overRange value) s) x.request.set
  have same := resultReported_eq (s := converted (folded x overRange value) s) (x := folded x overRange value)
    (r := r) rfl before found
  have entered := (limitEvaluate_of_success (s := converted (folded x overRange value) s)
    (x := folded x overRange value) (outcome_success (folded x overRange value)) before found).2.2
  have reports : v = resultReported (folded x overRange value) (outcome (folded x overRange value)) r
      (converted (folded x overRange value) s) := reported.trans same.symm
  rw [← reports] at held set
  rw [exec_lastSample awaits last, ← result]
  rcases completeSuccess_cases (folded x overRange value) (outcome (folded x overRange value)) r
    (converted (folded x overRange value) s) with ⟨none, h⟩ | ⟨some, trigger, h⟩ | ⟨some, stopOwn, -⟩
  · refine ⟨v, fun both => ?_, fun _ => rfl, held, ⟨_, _, mark, set⟩, by rw [h, ← reports]; rfl⟩
    rcases none with none | notify
    · exact absurd none (entered.2 both.1)
    · exact absurd (notify.symm.trans both.2) nofun
  · obtain ⟨deferred, overruns, after⟩ := triggerArrival_of_running (s := v) (k := x.request.set)
      (by rw [set]; exact running) x.snapshot.target .limit
    refine ⟨triggerArrival x.snapshot.target .limit v, fun _ => arrives_triggerArrival _ _ _,
      fun neither => absurd ⟨entered.1 some, trigger⟩ neither, (by rw [triggerArrival_engine, held]; rfl),
      ⟨deferred, overruns, mark, by rw [after, set]; rfl⟩, by rw [h, ← reports]; rfl⟩
  · exact absurd stopOwn (goes (entered.1 some))

/-- Settles O34, by the two boundaries of a scan that goes on. -/
theorem lastSampleStartsNextEntry : Obligations.LastSampleStartsNextEntry := by
  rintro s x tag overRange value k r old new v awaits last rfl running result before found goes reported
  obtain ⟨w, arrives, stays, held, ⟨deferred, overruns, mark, set⟩, taken⟩ :=
    exec_lastSample_of_goesOn awaits last running result before found goes reported
  obtain ⟨inside, passEnd, -⟩ :=
    advancedAndFinished_outcome (outcome (folded x overRange value)) held (k := x.request.set) rfl
  rw [set] at inside passEnd
  refine ⟨w, arrives, stays, fun more => ⟨_, ?_, taken⟩, fun atEnd on => ⟨_, ?_, taken⟩⟩
  · rw [set]
    exact inside (by exact more.ne)
  · rw [set]
    exact passEnd atEnd on

/-- Settles O35, by the advance that ends the scan. -/
theorem lastSampleCompletesScan : Obligations.LastSampleCompletesScan := by
  rintro s x tag overRange value k r old new v awaits last rfl running atEnd passes lastPass result before found goes
    reported
  obtain ⟨w, arrives, stays, held, ⟨deferred, overruns, mark, set⟩, taken⟩ :=
    exec_lastSample_of_goesOn awaits last running result before found goes reported
  obtain ⟨-, -, completes⟩ :=
    advancedAndFinished_outcome (outcome (folded x overRange value)) held (k := x.request.set) rfl
  rw [set] at completes
  obtain ⟨z, completed, counted⟩ := completes atEnd passes lastPass
  exact ⟨w, z, arrives, stays, completed, by rw [taken, counted.answered (outcome_ne_noResponse _)]⟩

/-! ### STOP_OWN -/

/-- R39: a limit stop. -/
theorem restarts_limitStop (k : Fin 8) (s : State) :
    Restarts k
      (idle
        (withSet k { (stopRecorded k .limit s).sets[k] with cursor := 0, passCount := 0 }
          (post (.scanStopped k) (stopRecorded k .limit s))))
      (limitStop k s) :=
  restarts_restartOrArm k _

theorem completeSuccess_of_stopOwn {r : Word} (entered : (limitEvaluate x status r s).2.entered ≠ none)
    (action : x.snapshot.action = .stopOwn) :
    completeSuccess x status r s =
      finishBoundary .ended status (limitStop x.request.set (resultReported x status r s)) := by
  rcases completeSuccess_cases x status r s with ⟨none | notify, -⟩ | ⟨-, trigger, -⟩ | ⟨-, -, h⟩
  · exact absurd none entered
  · exact absurd (notify.symm.trans action) nofun
  · exact absurd (trigger.symm.trans action) nofun
  · exact h

/-- R125: the report of a move to ABOVE or BELOW. -/
theorem moveReported_of_entered {old new : Zone} (entered : Entered old new) (k : Fin 8) (i : Fin 128) (r : Word)
    (s : State) :
    moveReported k i r old new s = post (if new = .above then .limitAbove k i r else .limitBelow k i r) s := by
  obtain ⟨moved, rfl | rfl⟩ := entered
  · rw [moveReported, if_neg moved]
    rfl
  · rw [moveReported, if_neg moved]
    rfl

/-- R126: the record of a value whose zone has moved. -/
theorem recordedIfRequired_of_moved {old new : Zone} (moved : new ≠ old) (r : Word) (s : State) :
    x.snapshot.output = .silent ∧ recordedIfRequired x r old new s = s ∨
    x.snapshot.output ≠ .silent ∧
      recordedIfRequired x r old new s = handSetRecord x.request.set .result (outcome x) x.entry r s := by
  unfold recordedIfRequired
  cases output : x.snapshot.output with
  | silent => exact .inl ⟨rfl, if_neg (by simp)⟩
  | always => exact .inr ⟨nofun, if_pos (.inl rfl)⟩
  | zoneChange => exact .inr ⟨nofun, if_pos (.inr ⟨rfl, moved⟩)⟩

/-- Settles O36: the crossing is reported and recorded before the limit stop. -/
theorem crossingStopsOwnScan : Obligations.CrossingStopsOwnScan := by
  intro s x tag overRange value k new u v w awaits last set window action found moved direction posted recorded ended
  subst set
  have entered : Entered s.entries[x.entry].zone new := ⟨moved, direction⟩
  have zone : new = zoneFound x (reduced (folded x overRange value)) s := by
    rw [zoneFound, if_pos window, found]
  have crossing := (limitEvaluate_of_success (s := converted (folded x overRange value) s)
    (x := folded x overRange value) (outcome_success (folded x overRange value)) rfl zone).2.2.2 entered
  have moves : evaluated (folded x overRange value) (reduced (folded x overRange value)) s.entries[x.entry].zone new
      (converted (folded x overRange value) s) = u := by
    rw [evaluated, if_pos (by exact window), moveReported_of_entered entered, posted]
    rfl
  have reports : resultReported (folded x overRange value) (outcome (folded x overRange value))
      (reduced (folded x overRange value)) (converted (folded x overRange value) s) = v := by
    rw [resultReported_eq (s := converted (folded x overRange value) s) (x := folded x overRange value) rfl rfl zone]
    refine (congrArg _ moves).trans ?_
    rcases recordedIfRequired_of_moved (x := folded x overRange value) moved (reduced (folded x overRange value)) u with
      ⟨silent, h⟩ | ⟨notSilent, h⟩
    · rcases recorded with ⟨-, rfl⟩ | ⟨notSilent, -⟩
      · exact h
      · exact absurd silent notSilent
    · rcases recorded with ⟨silent, -⟩ | ⟨-, rfl⟩
      · exact absurd silent notSilent
      · exact h
  have restarts := restarts_limitStop x.request.set v
  rw [← ended] at restarts
  refine ⟨_, restarts, ?_⟩
  have counted := finishBoundary_of_idle .ended (outcome (folded x overRange value))
    (s := limitStop x.request.set v) (by simp [limitStop])
  rw [exec_lastSample awaits last, completeSuccess_of_stopOwn crossing (by exact action), reports]
  exact congrArg Host.Outcome.next (counted.answered (outcome_ne_noResponse _))

end

end Sys2Proof.Proofs
end

