-- ==== Sys2Proof/Proofs/Registers.lean ====
section
/-! PROOFS. The registers of the window: what each reads as (R187–R189), the interrupt causes (R167–R169), and the host's
accesses (R172). -/

namespace Sys2Proof.Proofs

open Sys2Proof.Machine Sys2Proof.Statements

section

variable {s : State}

/-! ### The register at each place of a family -/

theorem register_param (s : State) (n : Fin 6) : s.register (0x03 + BitVec.ofNat 6 n.val) = s.host.params[n] := by
  fin_cases n <;> rfl

theorem register_setstat (s : State) (k : Fin 8) : s.register (0x10 + BitVec.ofNat 6 k.val) = s.sets[k].status := by
  fin_cases k <;> rfl

theorem register_strmstat (s : State) (k : Fin 4) :
    s.register (0x18 + BitVec.ofNat 6 k.val) = s.streams.streams[k].status := by
  fin_cases k <;> rfl

theorem register_strmdata (s : State) (k : Fin 4) :
    s.register (0x1C + BitVec.ofNat 6 k.val) = s.streams.dataWord k := by
  fin_cases k <;> rfl

theorem register_timrem (s : State) (t : Fin 4) :
    s.register (0x25 + BitVec.ofNat 6 t.val) = s.triggers.timers[t].remaining := by
  fin_cases t <;> rfl

/-- R172: offsets 2Ch to 3Fh. -/
theorem register_unassigned {offset : BitVec 6} (high : 0x2C ≤ offset.toNat) : s.register offset = 0 := by
  unfold State.register
  split
  case h_45 => rfl
  all_goals
    next place => omega

/-! ### Packed registers as numbers -/

theorem lowHalf_toNat (t : Time) : (lowHalf t).toNat = t.toNat % 65536 := by
  simp [lowHalf]

theorem highHalf_toNat (t : Time) : (highHalf t).toNat = t.toNat / 65536 := by
  have := t.isLt
  simp only [highHalf, BitVec.extractLsb'_toNat, Nat.shiftRight_eq_div_pow]
  omega

theorem port_status_toNat (p : Port) :
    p.status.toNat = p.command.val * 256 + p.result.code.toNat * 16 + p.state.code.toNat := by
  have := p.command.isLt
  simp only [Port.status, toNat_append_eq_add, BitVec.toNat_ofNat]
  omega

theorem link_status_toNat {l : Link} (count : l.failures ≤ 15) :
    l.status.toNat =
      l.protocolError.toNat * 512 + l.straySeen.toNat * 256 + l.failures * 16 + l.resetPending.toNat * 4 +
        l.state.code.toNat := by
  simp only [Link.status, toNat_append_eq_add, bit_toNat, BitVec.toNat_ofNat]
  omega

theorem scanSet_status_toNat (x : ScanSet) :
    x.status.toNat = x.passCount.toNat * 256 + x.deferred.toNat * 8 + x.state.code.toNat := by
  simp only [ScanSet.status, toNat_append_eq_add, bit_toNat, BitVec.toNat_ofNat]
  omega

theorem stream_status_toNat {x : Stream} (count : x.full.length ≤ 128) :
    x.status.toNat =
      (x.loss != 0).toNat * 4096 + x.readPast.toNat * 2048 + x.host.isSome.toNat * 1024 +
        x.filling.isSome.toNat * 512 + x.full.length * 2 + x.enabled.toNat := by
  simp only [Stream.status, toNat_append_eq_add, bit_toNat, BitVec.toNat_ofNat]
  omega

theorem eventQueue_status_toNat {e : EventQueue} (count : e.records.length ≤ 32) :
    e.status.toNat = min e.lost.toNat 1023 * 64 + e.records.length := by
  simp only [EventQueue.status, toNat_append_eq_add, BitVec.toNat_ofNat]
  omega

theorem requestKind_bit_toNat (kind : RequestKind) : kind.bit.toNat * 1024 = if kind = .new then 0 else 1024 := by
  cases kind <;> simp [RequestKind.bit]

theorem arbiter_status_toNat {a : Arbiter} {r : Request} {rest : List Request} (queue : a.queue = r :: rest)
    (count : rest.length ≤ 7) :
    a.status.toNat =
      (if r.kind = .new then 0 else 1024) + r.priority.val * 256 + r.set.val * 16 + (rest.length + 1) := by
  have priority := r.priority.isLt
  have set := r.set.isLt
  rw [← requestKind_bit_toNat]
  simp only [Arbiter.status, queue, toNat_append_eq_add, bit_toNat, BitVec.toNat_ofNat, BitVec.toNat_ofFin]
  omega

/-- R79: the number of a state of the engine that holds a request. -/
theorem engine_code_of_held {e : Engine} {x : Execution} (held : e.held = some x) :
    e.code.toNat =
      match x.phase with
      | .selecting => 1
      | .settling _ => 2
      | .converting => 3
      | .draining _ => 4 := by
  unfold Engine.code
  rw [held]
  cases phase : x.phase <;> simp only [phase] <;> rfl

theorem engstat_toNat {x : Execution} (held : s.engine.held = some x) (cursor : s.sets[x.request.set].cursor ≤ 31) :
    s.engstat.toNat =
      s.sets[x.request.set].cursor * 256 + x.request.set.val * 16 +
        (match x.phase with | .selecting => 1 | .settling _ => 2 | .converting => 3 | .draining _ => 4) := by
  have set := x.request.set.isLt
  refine Eq.trans ?_ (congrArg _ (engine_code_of_held held))
  simp only [State.engstat, held, toNat_append_eq_add, BitVec.toNat_ofNat, BitVec.toNat_ofFin]
  omega

theorem timstate_toNat (u : TriggerUnit) :
    u.timstate.toNat =
      u.timers[3].state.code.toNat * 64 + u.timers[2].state.code.toNat * 16 + u.timers[1].state.code.toNat * 4 +
        u.timers[0].state.code.toNat := by
  simp only [TriggerUnit.timstate, toNat_append_eq_add, BitVec.toNat_ofNat]
  omega

theorem extstat_toNat (u : TriggerUnit) :
    u.extstat.toNat =
      u.lines[1].edge.code.toNat * 64 + u.lines[0].edge.code.toNat * 16 + u.lines[1].high.toNat * 2 +
        u.lines[0].high.toNat := by
  simp only [TriggerUnit.extstat, toNat_append_eq_add, bit_toNat, BitVec.toNat_ofNat]
  omega

/-! ### The head of the Event Queue -/

/-- R159: the fields of an event, in the words of the statements. -/
theorem shown_fields (b : EventBody) :
    (b.stream?.getD 0).val = (shown b).stream ∧ (b.entry?.getD 0).val = (shown b).entry ∧
      (b.set?.getD 0).val = (shown b).set ∧ b.kind = (shown b).kind ∧ (shown b).kind ≤ 14 := by
  cases b <;> simp [EventBody.stream?, EventBody.entry?, EventBody.set?, EventBody.kind, shown]

theorem statusNumber_eq (st : Status) : st.code.toNat = statusNumber st := by
  cases st <;> rfl

theorem originNumber_eq (o : Origin) : o.code = originNumber o := by
  cases o <;> rfl

/-- R159: the detail of an event. -/
theorem detail_toNat {b : EventBody} (fits : (shown b).detail ≤ 65535) : b.detail.toNat = (shown b).detail := by
  have word : ∀ {n}, n ≤ 65535 → (wordOf n).toNat = n := fun le => by
    simp only [wordOf, BitVec.toNat_ofNat]
    omega
  have status : ∀ st : Status, (st.code.setWidth 16).toNat = statusNumber st := fun st => by
    cases st <;> rfl
  cases b
  case setHalted k i st => exact status st
  case entryFailed k i st => exact status st
  case triggerOverrun k o => exact (word (by rw [originNumber_eq]; exact fits)).trans (originNumber_eq o)
  case linkDown t => exact word fits
  all_goals rfl

section

variable {e : EventQueue} {r : EventRecord} {rest : List EventRecord} (records : e.records = r :: rest)
include records

theorem head0_toNat :
    e.head0.toNat =
      (shown r.body).stream * 16384 + (shown r.body).entry * 128 + (shown r.body).set * 16 + (shown r.body).kind := by
  obtain ⟨stream, entry, set, kind, low⟩ := shown_fields r.body
  have entryLt := (r.body.entry?.getD 0).isLt
  have setLt := (r.body.set?.getD 0).isLt
  rw [← stream, ← entry, ← set, ← kind] at *
  simp only [EventQueue.head0, records, toNat_append_eq_add, BitVec.toNat_ofNat, BitVec.toNat_ofFin]
  omega

theorem head1_toNat (fits : (shown r.body).detail ≤ 65535) : e.head1.toNat = (shown r.body).detail := by
  rw [EventQueue.head1, records]
  exact detail_toNat fits

theorem head2_toNat : e.head2.toNat = r.time.toNat % 65536 := by
  rw [EventQueue.head2, records]
  exact lowHalf_toNat r.time

theorem head3_toNat : e.head3.toNat = r.time.toNat / 65536 := by
  rw [EventQueue.head3, records]
  exact highHalf_toNat r.time

end

theorem heads_of_empty {e : EventQueue} (none : e.records = []) :
    e.head0 = 0 ∧ e.head1 = 0 ∧ e.head2 = 0 ∧ e.head3 = 0 := by
  simp [EventQueue.head0, EventQueue.head1, EventQueue.head2, EventQueue.head3, none]

/-! ### The interrupt causes -/

/-- One bit joined below a word. -/
theorem getLsbD_append_bit {n : Nat} (x : BitVec n) (b : Bool) (i : Nat) :
    (x ++ bit b).getLsbD i = if i = 0 then b else x.getLsbD (i - 1) := by
  rw [BitVec.getLsbD_append]
  cases i with
  | zero => simp [bit]
  | succ i => simp

/-- R167: the causes that are present, by their bits. -/
theorem intcause_getLsbD (s : State) (i : Nat) :
    s.intcause.getLsbD i = match i with
      | 0 => s.eventPending
      | 1 => s.pageReadyCause
      | 2 => s.host.commandDone
      | _ + 3 => false := by
  simp only [State.intcause, getLsbD_append_bit, BitVec.getLsbD_zero]
  match i with
  | 0 | 1 | 2 | _ + 3 => simp

theorem intcause_lt (s : State) : s.intcause.toNat < 8 := by
  have done := (bit s.host.commandDone).isLt
  have page := (bit s.pageReadyCause).isLt
  have event := (bit s.eventPending).isLt
  simp only [State.intcause, toNat_append_eq_add, BitVec.toNat_ofNat]
  omega

theorem word_and_ne_zero_iff {a b : Word} : a &&& b ≠ 0 ↔ ∃ i, a.getLsbD i = true ∧ b.getLsbD i = true := by
  constructor
  · intro some
    by_contra none
    refine some (BitVec.eq_of_getLsbD_eq fun i _ => ?_)
    have notBoth : ¬ (a.getLsbD i = true ∧ b.getLsbD i = true) := fun both => none ⟨i, both⟩
    simpa [BitVec.getLsbD_and] using notBoth
  · rintro ⟨i, here, there⟩ none
    have := congrArg (fun w : Word => w.getLsbD i) none
    rw [BitVec.getLsbD_and, here, there] at this
    exact absurd this (by simp)

/-- R169: INT, by the three causes. -/
theorem int_iff (released : s.resetAsserted = false) :
    s.int = true ↔
      s.host.commandDone = true ∧ s.host.intenable.getLsbD 2 = true ∨
        s.pageReadyCause = true ∧ s.host.intenable.getLsbD 1 = true ∨
          s.eventPending = true ∧ s.host.intenable.getLsbD 0 = true := by
  rw [State.int, released, Bool.not_false, Bool.true_and, bne_iff_ne, word_and_ne_zero_iff]
  constructor
  · rintro ⟨i, cause, enable⟩
    rw [intcause_getLsbD] at cause
    match i, cause, enable with
    | 0, cause, enable => exact .inr (.inr ⟨cause, enable⟩)
    | 1, cause, enable => exact .inr (.inl ⟨cause, enable⟩)
    | 2, cause, enable => exact .inl ⟨cause, enable⟩
    | _ + 3, cause, _ => exact absurd cause nofun
  · rintro (⟨cause, enable⟩ | ⟨cause, enable⟩ | ⟨cause, enable⟩)
    · exact ⟨2, (intcause_getLsbD s 2).trans cause, enable⟩
    · exact ⟨1, (intcause_getLsbD s 1).trans cause, enable⟩
    · exact ⟨0, (intcause_getLsbD s 0).trans cause, enable⟩

theorem pageReadyCause_iff :
    s.pageReadyCause = true ↔
      ∃ k : Fin 4, s.streams.streams[k].enabled = true ∧
        s.streams.streams[k].config.threshold ≤ s.streams.streams[k].full.length := by
  simp [State.pageReadyCause, Stream.pageReady, Vector.any_eq_true, Fin.exists_iff]

theorem eventPending_iff : s.eventPending = true ↔ s.events.records ≠ [] := by
  simp [State.eventPending]

/-- Settles O46, register by register. -/
theorem statusRegistersAndInt : Obligations.StatusRegistersAndInt := by
  intro s released
  have read : ∀ offset, s.read offset = s.register offset := fun offset => state_read_of_released offset released
  simp only [read, register_setstat, register_strmstat, register_timrem]
  refine ⟨port_status_toNat _, link_status_toNat, fun k => scanSet_status_toNat _, fun k => stream_status_toNat,
    eventQueue_status_toNat, fun r rest => arbiter_status_toNat, fun empty => ?_, fun idle => ?_,
    fun x => engstat_toNat, heads_of_empty, fun e rest records fits => ?_, timstate_toNat _, extstat_toNat _,
    fun t => trivial, rfl, rfl, fun done pages events hdone hpages hevents => ?_⟩
  · change s.arbiter.status = 0
    rw [Arbiter.status, empty]
  · change s.engstat = 0
    rw [State.engstat, idle]
  · exact ⟨head0_toNat records, head1_toNat records fits, head2_toNat records, head3_toNat records⟩
  · rw [hdone, hpages, hevents, ← pageReadyCause_iff, ← eventPending_iff, int_iff released]
    have cause : ∀ i, (s.register 0x09).getLsbD i = s.intcause.getLsbD i := fun i => rfl
    rw [cause, cause, cause, intcause_getLsbD, intcause_getLsbD, intcause_getLsbD]
    exact ⟨.rfl, .rfl, .rfl, intcause_lt s, .rfl⟩

end

end Sys2Proof.Proofs
end

