-- ==== Sys2Proof/Proofs/Accesses.lean ====
section
/-! PROOFS. The host's accesses to the registers, and what the two resets leave. -/

namespace Sys2Proof.Proofs

open Sys2Proof.Machine Sys2Proof.Statements

/-! ### Accesses -/

section

variable {s : State}

theorem word_and_low_three (value : Word) : (value &&& 0x0007).toNat = value.toNat % 8 :=
  (BitVec.toNat_and ..).trans (Nat.and_two_pow_sub_one_eq_mod value.toNat 3)

/-- R160: bits 13 to 1 of a word. -/
theorem word_and_mask (value : Word) : (value &&& 0x3FFE).toNat = value.toNat % 16384 / 2 * 2 := by
  have bits : (0x3FFE#16 : Word).toNat = (2 ^ 13 - 1) * 2 ^ 1 := rfl
  rw [BitVec.toNat_and]
  refine Nat.eq_of_testBit_eq fun i => ?_
  rw [show (0x3FFE : Word).toNat = (2 ^ 13 - 1) * 2 ^ 1 from bits, show 16384 = 2 ^ 14 from rfl, Nat.testBit_and,
    Nat.testBit_mul_two_pow, Nat.testBit_two_pow_sub_one]
  cases i with
  | zero =>
    rw [Nat.testBit_zero, Nat.testBit_zero, Nat.mul_mod_left]
    simp
  | succ i =>
    rw [show ∀ n, n / 2 * 2 = n / 2 * 2 ^ 1 from fun _ => rfl, Nat.testBit_mul_two_pow, Nat.testBit_div_two,
      Nat.testBit_mod_two_pow]
    simp [Nat.succ_lt_succ_iff, Bool.and_comm]

/-- R172: the offsets whose writes are ignored. -/
theorem writeActs_of_other {offset : BitVec 6}
    (other : offset.toNat = 0x00 ∨ offset.toNat = 0x02 ∨
      0x0B ≤ offset.toNat ∧ offset.toNat ≠ 0x0D ∧ offset.toNat ≠ 0x2B) : writeActs offset = false := by
  have cmd : (0x01 : BitVec 6).toNat = 0x01 := rfl
  have linkstat : (0x0D : BitVec 6).toNat = 0x0D := rfl
  have evmask : (0x2B : BitVec 6).toNat = 0x2B := rfl
  simp only [writeActs, Bool.or_eq_false_iff, Bool.and_eq_false_iff, beq_eq_false_iff_ne, decide_eq_false_iff_not,
    ne_eq, ← BitVec.toNat_inj]
  omega

/-- Settles O47, access by access. -/
theorem registerAccesses : Obligations.RegisterAccesses := by
  intro s value released
  have read : ∀ offset, s.read offset = s.register offset := fun offset => state_read_of_released offset released
  refine ⟨fun n => next_whenReleased released, ⟨_, word_and_low_three value, next_whenReleased released⟩,
    ⟨_, word_and_mask value, next_whenReleased released⟩, fun clears => ?_, fun keeps => ?_, ?_,
    ⟨lowHalf s.triggers.time, highHalf s.triggers.time, lowHalf_toNat _, highHalf_toNat _, read _, read _, ?_⟩,
    fun n => ?_, read _, fun offset high => ?_, fun k => ⟨_, rfl, ?_⟩, fun offset other => ?_⟩
  · refine (next_whenReleased released).trans ?_
    rw [clears, Bool.not_true, Bool.and_false]
  · refine (next_whenReleased released).trans ?_
    rw [keeps, Bool.not_false, Bool.and_true]
  · refine (next_whenReleased released).trans ?_
    cases value.getLsbD 8 <;> cases value.getLsbD 9 <;> simp
  · exact congrArg Host.Outcome.next (if_neg (by rw [released]; exact nofun))
  · rw [read, register_param]
  · rw [read, register_unassigned high]
  · rw [read, register_strmdata, if_neg (by rw [released]; exact nofun)]
    rfl
  · exact exec_ignoredRegisterWrite (writeActs_of_other other) value s

/-! ### SOFT_RESET -/

theorem softResult_eq (state : PortState) :
    state.softResult = if state = .inProgress then .abandoned else .ok := by
  cases state <;> rfl

/-- Settles O48, block by block. -/
theorem softResetOutcome : Obligations.SoftResetOutcome := by
  intro s released
  refine ⟨softReset s, next_whenReleased released, fun i => ?_, fun k => ?_, fun j => ?_, rfl, rfl, rfl, rfl, rfl, rfl,
    fun k => ?_, rfl, ?_, rfl, released⟩
  · simp only [softReset, Fin.getElem_fin, mapAll_getElem]
  · simp only [softReset, Fin.getElem_fin, mapAll_getElem]
  · simp only [softReset, Fin.getElem_fin, mapAll_getElem, Timer.softReset]
  · simp only [softReset, StreamManager.softReset, Fin.getElem_fin, mapAll_getElem, Stream.fresh]
  · simp only [softReset, softResult_eq]

/-! ### DEVICE_RESET and RESET_RELEASE -/

/-- R183, R55: the part after RESET has been asserted and released with the lines at the levels given. -/
def afterReset (pending : List Instr) (ext0 ext1 : Bool) : State :=
  { State.reset with
    pending := pending
    triggers :=
      { TriggerUnit.default with
        lines := #v[{ edge := .rising, high := ext0 }, { edge := .rising, high := ext1 }] } }

theorem exec_resetRelease_after_deviceReset (s : State) (ext0 ext1 : Bool) :
    exec (.resetRelease ext0 ext1) { State.reset with pending := s.pending, resetAsserted := true } =
      .next (afterReset s.pending ext0 ext1) := rfl

theorem resetWord_unassigned {ext0 ext1 : Bool} {offset : BitVec 6} (high : 0x2C ≤ offset.toNat) :
    resetWord ext0 ext1 offset = 0 := by
  unfold resetWord
  rw [if_neg (by omega), if_neg (by omega), if_neg (by omega), if_neg (by omega)]

section

variable (pending : List Instr) (ext0 ext1 : Bool)

theorem afterReset_cmdstat : (afterReset pending ext0 ext1).host.port.status = 0 := by
  simp [afterReset, State.reset, HostInterface.default, Port.status, Result.code, PortState.code]

theorem afterReset_intcause : (afterReset pending ext0 ext1).intcause = 0 := by
  have pages : (afterReset pending ext0 ext1).pageReadyCause = false := rfl
  have events : (afterReset pending ext0 ext1).eventPending = false := rfl
  have done : (afterReset pending ext0 ext1).host.commandDone = false := rfl
  simp [State.intcause, pages, events, done, bit]

theorem afterReset_linkstat : (afterReset pending ext0 ext1).link.status = 0 := by
  simp [afterReset, State.reset, Link.default, Link.status, bit, LinkState.code]

theorem fresh_status (d : Descriptor) : (ScanSet.fresh d).status = 0 := by
  simp [ScanSet.fresh, ScanSet.status, bit, SetState.code]

theorem fresh_stream_status (c : StreamConfig) : (Stream.fresh c false).status = 0 := by
  simp [Stream.fresh, Stream.status, bit]

theorem afterReset_setstat (k : Nat) (h : k < 8) : (afterReset pending ext0 ext1).sets[k].status = 0 := by
  simp only [afterReset, State.reset, Vector.getElem_replicate, fresh_status]

theorem afterReset_strmstat (k : Nat) (h : k < 4) :
    (afterReset pending ext0 ext1).streams.streams[k].status = 0 := by
  simp only [afterReset, State.reset, StreamManager.default, Vector.getElem_replicate, fresh_stream_status]

theorem afterReset_evstat : (afterReset pending ext0 ext1).events.status = 0 := by
  simp [afterReset, State.reset, EventQueue.default, EventQueue.status]

theorem afterReset_timstate : (afterReset pending ext0 ext1).triggers.timstate = 0 := by
  simp [afterReset, TriggerUnit.default, Timer.default, TriggerUnit.timstate, TimerState.code]

theorem afterReset_extstat :
    (afterReset pending ext0 ext1).triggers.extstat =
      (if ext0 = true then 1 else 0) + (if ext1 = true then 2 else 0) := by
  cases ext0 <;> cases ext1 <;> simp [afterReset, TriggerUnit.extstat, EdgeConfig.code, bit]

/-- R172: the register map after device reset. -/
theorem register_afterReset (offset : BitVec 6) :
    (afterReset pending ext0 ext1).register offset = resetWord ext0 ext1 offset := by
  by_cases high : 0x2C ≤ offset.toNat
  · rw [register_unassigned high, resetWord_unassigned high]
  · unfold State.register resetWord
    simp only [afterReset_cmdstat, afterReset_intcause, afterReset_linkstat, afterReset_setstat, afterReset_strmstat,
      afterReset_evstat, afterReset_timstate, afterReset_extstat]
    generalize offset.toNat = n at high ⊢
    interval_cases n <;> rfl

end

/-- Settles O4: the state after the release is written out, and its registers are read from it. -/
theorem deviceResetLeavesMap : Obligations.DeviceResetLeavesMap := by
  intro s ext0 ext1
  refine ⟨{ State.reset with pending := s.pending, resetAsserted := true }, afterReset s.pending ext0 ext1, rfl, rfl,
    exec_resetRelease_after_deviceReset s ext0 ext1, rfl, fun offset => ⟨state_read_of_asserted rfl offset, ?_⟩,
    int_of_asserted rfl, ?_, fun i => ?_, fun k => ?_, rfl, rfl, rfl, rfl, rfl, rfl, rfl, rfl⟩
  · rw [state_read_of_released offset rfl, register_afterReset]
  · simp [State.int, afterReset_intcause]
  · simp [afterReset, State.reset]
  · simp [afterReset, State.reset]

end

end Sys2Proof.Proofs
end

