-- ==== Sys2Proof/Proofs/Pages.lean ====
section
/-! PROOFS. STREAM_FLUSH and the flush expiry, PAGE_OPEN, the data port and PAGE_RELEASE. -/

namespace Sys2Proof.Proofs

open Sys2Proof.Machine Sys2Proof.Statements

section

variable {s : State} {k : Fin 4}

theorem modStream_eq_withStream (s : State) (k : Fin 4) (f : Stream → Stream) :
    s.modStream k f = withStream k (f s.streams.streams[k]) s := rfl

theorem withStream_self (k : Fin 4) (s : State) : withStream k s.streams.streams[k] s = s := by
  rw [withStream, put_member]

/-! ### The close of a filling page -/

theorem stream_close_of_some {x : Stream} {f : FillingPage} (some : x.filling = some f) :
    x.close true = flushed x f := by
  simp only [Stream.close, some, flushed]

theorem streamFlushReply_badIndex (outOfRange : 4 ≤ s.host.params[0].toNat) :
    streamFlushReply s = .refuse .badIndex := by
  simp only [streamFlushReply, index_of_outOfRange outOfRange]

/-- R150: with no filling page nothing is closed. -/
theorem streamFlushReply_of_none (named : Named s k) (none : s.streams.streams[k].filling = none) :
    streamFlushReply s = .accept (returning (put s.host.params 0 0) s) := by
  simp only [streamFlushReply, index_of_named named, modStream_eq_withStream, close_of_none none,
    withStream_self, none]
  rfl

theorem streamFlushReply_of_some {f : FillingPage} (named : Named s k)
    (some : s.streams.streams[k].filling = some f) :
    streamFlushReply s =
      .accept (returning (put s.host.params 0 1) (withStream k (flushed s.streams.streams[k] f) s)) := by
  simp only [streamFlushReply, index_of_named named, modStream_eq_withStream, stream_close_of_some some, some]
  rfl

theorem exec_flushExpiry (released : s.resetAsserted = false) (k : Fin 4) :
    exec (.flushExpiry k) s =
      .next
        (if s.streams.streams[k].flushDue s.triggers.time = true then
          withStream k (s.streams.streams[k].close true) s
        else s) :=
  next_whenReleased released

theorem not_flushDue_of_none {x : Stream} (none : x.filling = none) (now : Time) : ¬ x.flushDue now = true := by
  simp [Stream.flushDue, none]

theorem flushDue_iff {x : Stream} {f : FillingPage} (some : x.filling = some f) (now : Time) :
    x.flushDue now = true ↔
      x.config.flush ≠ 0 ∧ 1000 * x.config.flush.toNat ≤ (now - f.openTime).toNat := by
  simp only [Stream.flushDue, some, Bool.and_eq_true, bne_iff_ne, ne_eq, decide_eq_true_eq]

/-- Settles O42, by whether there is a filling page. -/
theorem flushClosesFillingPage : Obligations.FlushClosesFillingPage := by
  intro s released
  refine ⟨fun taking outOfRange => exec_refused rfl taking (streamFlushReply_badIndex outOfRange), ?_⟩
  rintro k x rfl
  rw [exec_flushExpiry released]
  refine ⟨fun none => ⟨?_, fun taking named => exec_accepted rfl taking (streamFlushReply_of_none named none)⟩,
    fun f some => ⟨fun taking named => exec_accepted rfl taking (streamFlushReply_of_some named some),
      fun interval passed => ?_, fun notDue => ?_⟩⟩
  · rw [if_neg (not_flushDue_of_none none _)]
  · rw [if_pos ((flushDue_iff some _).2 ⟨interval, passed⟩), stream_close_of_some some]
  · rw [if_neg]
    rw [flushDue_iff some]
    rintro ⟨interval, passed⟩
    rcases notDue with zero | early
    · exact interval zero
    · omega

/-! ### PAGE_OPEN and PAGE_RELEASE -/

theorem pageOpenReply_badIndex (outOfRange : 4 ≤ s.host.params[0].toNat) : pageOpenReply s = .refuse .badIndex := by
  simp only [pageOpenReply, index_of_outOfRange outOfRange]

theorem pageReleaseReply_badIndex (outOfRange : 4 ≤ s.host.params[0].toNat) :
    pageReleaseReply s = .refuse .badIndex := by
  simp only [pageReleaseReply, index_of_outOfRange outOfRange]

theorem pageOpenReply_badState (named : Named s k) (disabled : s.streams.streams[k].enabled = false) :
    pageOpenReply s = .refuse .badState := by
  simp only [pageOpenReply, index_of_named named, disabled, Bool.not_false, if_true]

theorem pageOpenReply_inUse (named : Named s k) (enabled : s.streams.streams[k].enabled = true)
    (host : s.streams.streams[k].host ≠ none) : pageOpenReply s = .refuse .inUse := by
  obtain ⟨c, host⟩ := Option.ne_none_iff_exists'.1 host
  simp only [pageOpenReply, index_of_named named, enabled, host, Bool.not_true, Option.isSome_some,
    Bool.false_eq_true, if_false, if_true]

/-- R152: an enabled stream without a host page. -/
theorem pageOpenReply_of_free (named : Named s k) (enabled : s.streams.streams[k].enabled = true)
    (free : s.streams.streams[k].host = none) :
    pageOpenReply s =
      match s.streams.streams[k].full with
      | [] => .refuse .noPage
      | c :: rest =>
        .accept
          (returning (c.pack s.host.params)
            (withStream k
              { s.streams.streams[k] with full := rest, host := some c, readPointer := 0, readPast := false } s)) := by
  conv_lhs =>
    simp only [pageOpenReply, index_of_named named, enabled, free, Bool.not_true, Option.isSome_none,
      Bool.false_eq_true, if_false]
  rfl

/-- R152, R186: what PAGE_OPEN returns. -/
theorem closedPage_pack (c : ClosedPage) (p : Vector Word 6) :
    (c.pack p)[0].toNat = c.page.val ∧ (c.pack p)[1] = c.seq ∧ (c.pack p)[2] = BitVec.ofNat 16 c.words ∧
      (c.pack p)[3] = BitVec.ofNat 16 c.records ∧ (c.pack p)[4].toNat = c.flushed.toNat ∧ (c.pack p)[5] = p[5] := by
  have page := c.page.isLt
  have first : (c.pack p)[0] = wordOf c.page.val := by simp [ClosedPage.pack, put_getElem]
  have last : (c.pack p)[4] = if c.flushed then 1 else 0 := by simp [ClosedPage.pack, put_getElem]
  refine ⟨?_, by simp [ClosedPage.pack, put_getElem], by simp [ClosedPage.pack, put_getElem, wordOf],
    by simp [ClosedPage.pack, put_getElem, wordOf], ?_, by simp [ClosedPage.pack, put_getElem]⟩
  · rw [first, wordOf, BitVec.toNat_ofNat]
    omega
  · rw [last]
    cases c.flushed <;> rfl

theorem pageReleaseReply_noPage (named : Named s k) (free : s.streams.streams[k].host = none) :
    pageReleaseReply s = .refuse .noPage := by
  simp only [pageReleaseReply, index_of_named named, free]

theorem pageReleaseReply_of_host {c : ClosedPage} (named : Named s k)
    (host : s.streams.streams[k].host = some c) :
    pageReleaseReply s =
      .accept
        (withStream k { s.streams.streams[k] with host := none, readPointer := 0 }
          { s with streams := { s.streams with pool := s.streams.pool ++ [c.page] } }) := by
  simp only [pageReleaseReply, index_of_named named, host]
  rfl

/-! ### The data port -/

theorem exec_strmdataRead_of_released (released : s.resetAsserted = false) (k : Fin 4) :
    exec (.strmdataRead k) s =
      .next
        { withStream k s.streams.streams[k].dataRead s with
          host := { s.host with data := s.streams.dataWord k } } :=
  congrArg Host.Outcome.next (if_neg (ne_true_of_eq_false released))

/-- R153: a read that finds a word. -/
theorem dataRead_of_below {c : ClosedPage} (host : s.streams.streams[k].host = some c)
    (below : s.streams.streams[k].readPointer < c.words) :
    s.streams.dataWord k = s.streams.memory.read (64 * c.page.val + s.streams.streams[k].readPointer) ∧
      s.streams.streams[k].dataRead =
        { s.streams.streams[k] with readPointer := s.streams.streams[k].readPointer + 1 } := by
  constructor
  · simp only [StreamManager.dataWord, host, if_pos below, pageBase, Config.pageWords]
  · simp only [Stream.dataRead, Stream.hasWord, host, decide_eq_true below, if_true]

/-- R153: a read past the words of the host page, or without one. -/
theorem dataRead_of_past (past : ∀ c, s.streams.streams[k].host = some c → c.words ≤ s.streams.streams[k].readPointer) :
    s.streams.dataWord k = 0 ∧ s.streams.streams[k].dataRead = { s.streams.streams[k] with readPast := true } := by
  have noWord : ¬ s.streams.streams[k].hasWord = true := by
    unfold Stream.hasWord
    cases host : s.streams.streams[k].host with
    | none => exact Bool.false_ne_true
    | some c => exact fun below => absurd (of_decide_eq_true below) (Nat.not_lt.2 (past c host))
  refine ⟨?_, if_neg noWord⟩
  unfold StreamManager.dataWord
  cases host : s.streams.streams[k].host with
  | none => rfl
  | some c => exact if_neg (Nat.not_lt.2 (past c host))

/-- Settles O43, by the checks of each command and by the read pointer. -/
theorem hostPageOpenReadRelease : Obligations.HostPageOpenReadRelease := by
  intro s released
  refine ⟨fun taking outOfRange => ⟨exec_refused rfl taking (pageOpenReply_badIndex outOfRange),
    exec_refused rfl taking (pageReleaseReply_badIndex outOfRange)⟩, ?_⟩
  rintro k x rfl
  have port : s.read (0x1C + BitVec.ofNat 6 k.val) = s.streams.dataWord k := by
    rw [state_read_of_released _ released, register_strmdata]
  rw [port, exec_strmdataRead_of_released released]
  refine ⟨fun taking named => ⟨fun disabled => ?_, fun enabled host => ?_, fun enabled free none => ?_,
    fun c rest enabled free full => ?_, fun free => ?_, fun c host => ?_⟩, fun c host below => ?_, fun past => ?_⟩
  · exact exec_refused rfl taking (pageOpenReply_badState named disabled)
  · exact exec_refused rfl taking (pageOpenReply_inUse named enabled host)
  · exact exec_refused rfl taking ((pageOpenReply_of_free named enabled free).trans (by rw [none]))
  · exact ⟨c.pack s.host.params,
      exec_accepted rfl taking ((pageOpenReply_of_free named enabled free).trans (by rw [full])),
      closedPage_pack c s.host.params⟩
  · exact exec_refused rfl taking (pageReleaseReply_noPage named free)
  · exact exec_accepted rfl taking (pageReleaseReply_of_host named host)
  · obtain ⟨word, read⟩ := dataRead_of_below host below
    exact ⟨_, rfl, word, by rw [word, read]⟩
  · obtain ⟨word, read⟩ := dataRead_of_past past
    exact ⟨word, by rw [word, read]⟩

end

end Sys2Proof.Proofs
end

