-- ==== Sys2Proof/Proofs/HandOff.lean ====
section
/-! PROOFS. A record handed to a stream: its words, where they are written, and the page they are written on. -/

namespace Sys2Proof.Proofs

open Sys2Proof.Machine Sys2Proof.Statements

/-! ### The record and the set that hands it over -/

theorem recordKind_code_toNat (kind : RecordKind) :
    kind.code.toNat = match kind with | .result => 0 | .loss => 1 | .stop => 2 := by
  cases kind <;> rfl

/-- R190: the header word as a number. -/
theorem header_toNat (r : Record) (ts : Bool) :
    (r.header ts).toNat =
      (match r.kind with | .result => 0 | .loss => 1 | .stop => 2) * 16384 + ts.toNat * 8192 +
        statusNumber r.status * 2048 + r.set.val * 256 + r.mark.toNat * 128 + r.entry.val := by
  rw [← recordKind_code_toNat, ← statusNumber_eq]
  simp only [Record.header, toNat_append_eq_add, bit_toNat, BitVec.toNat_ofFin]
  omega

/-- R162: postings taken in order change the Event Queue alone. -/
theorem foldl_post_eq (bs : List EventBody) (s : State) :
    bs.foldl (fun u b => post b u) s = { s with events := s.events.postAll s.triggers.time bs } := by
  induction bs generalizing s with
  | nil => rfl
  | cons b rest ih =>
    rw [List.foldl_cons, ih]
    rfl

/-- R33: a set's record. -/
theorem handSetRecord_of_handOff {s : State} {k : Fin 8} {kind : RecordKind} {status : Status} {entry : Fin 128}
    {value : Word} {n : StreamManager} {events : List EventBody}
    (handed : s.streams.handOff s.sets[k].desc.stream
      { kind := kind, status := status, set := k, entry := entry, mark := s.sets[k].passStart, value := value }
      s.triggers.time = (n, events)) :
    handSetRecord k kind status entry value s =
      withSet k { s.sets[k] with passStart := false }
        { events.foldl (fun u b => post b u) s with streams := n } := by
  rw [handSetRecord, handRecord, handed, foldl_post_eq]
  rfl

theorem words_eq_wordsOf (r : Record) (ts : Bool) (now : Time) : r.words ts now = wordsOf r ts now := by
  cases ts <;> rfl

theorem wordsOf_length (r : Record) (ts : Bool) (now : Time) : (wordsOf r ts now).length = recordLength ts := by
  rw [← words_eq_wordsOf, words_length]

/-! ### A record on the filling page -/

section

variable {m : StreamManager} {k : Fin 4} {f : FillingPage}

/-- R145: the counts of a stream after a record of `len` words. -/
theorem stream_count_eq (x : Stream) (f : FillingPage) (len : Nat) :
    x.count f len =
      if f.words + len = 64 then
        { x with
          filling := none
          full := x.full ++
            [{ page := f.page, seq := f.seq, words := 64, records := f.records + 1, flushed := false }]
          written := x.written + 1 }
      else
        { x with
          filling := some { f with words := f.words + len, records := f.records + 1 }
          written := x.written + 1 } := by
  unfold Stream.count
  by_cases closes : f.words + len = 64
  · rw [if_pos closes, if_pos (by exact closes), ← closes]
    rfl
  · rw [if_neg closes, if_neg (by exact closes)]

/-- R145: a record appended to the filling page. -/
theorem appended_append (canonical : m.memory.wf = true) (filling : m.streams[k].filling = some f) (r : Record)
    (now : Time) : Appended m k f r now (m.append k r now) := by
  have base : pageBase f.page = 64 * f.page.val := rfl
  have len := wordsOf_length r m.streams[k].config.timestamps now
  rw [append_of_filling filling, words_eq_wordsOf, base]
  exact
    { pool := rfl
      written := fun i h => Memory.writeList_read_inside _ _ _ i h canonical
      others := fun a outside => Memory.writeList_read_outside _ _ _ outside
      apart := fun j other => by rw [put_get, if_neg other.symm]
      counted := by rw [put_get, if_pos rfl, len, stream_count_eq] }

/-- R146, R147: a record stored on a filling page that is new. -/
theorem stored_store (canonical : m.memory.wf = true) (filling : m.streams[k].filling = some f) (empty : f.words = 0)
    (r : Record) (now : Time) : Stored m k f r now (m.store k r now) := by
  unfold Stored StreamManager.store
  split
  · exact appended_append canonical filling r now
  · have first := appended_append canonical filling (lossRecord m.streams[k].loss) now
    have wf : (m.append k (lossRecord m.streams[k].loss) now).memory.wf = true :=
      StreamManager.append_wf k _ now canonical
    refine ⟨_, first, ?_⟩
    have room : ¬ f.words + (wordsOf (lossRecord m.streams[k].loss) m.streams[k].config.timestamps now).length = 64 := by
      rw [wordsOf_length, empty]
      rcases recordLength_cases m.streams[k].config.timestamps with len | len <;> omega
    have counted := first.counted
    rw [if_neg room] at counted
    generalize m.append k (lossRecord m.streams[k].loss) now = n at wf counted ⊢
    refine ⟨_, by rw [counted], appended_append (m := n.amend k fun y => { y with loss := 0 }) (by exact wf) ?_ r now⟩
    change (put n.streams k { n.streams[k] with loss := 0 })[k].filling = _
    rw [put_get, if_pos rfl, counted]

/-! ### The hand-off, by what the stream holds -/

variable {x : Stream} {r : Record} {now : Time}

theorem pages_length_of_none (none : x.filling = none) :
    x.pages.length = x.full.length + x.host.toList.length := by
  cases host : x.host <;> simp [Stream.pages, none, host]

/-- R145: a filling page, and nothing lost. -/
theorem handOff_of_filling (filling : m.streams[k].filling = some f) (written : m.streams[k].loss = 0) :
    m.handOff k r now = (m.append k r now, []) := by
  unfold StreamManager.handOff StreamManager.store
  rw [filling, if_pos written]

/-- R147: a filling page that has been found. -/
theorem handOff_of_obtain {n : StreamManager} {events : List EventBody} (none : m.streams[k].filling = none)
    (found : m.obtain k now = some (n, events)) : m.handOff k r now = (n.store k r now, events) := by
  unfold StreamManager.handOff
  rw [none, found]

theorem handOff_of_not_obtain (none : m.streams[k].filling = none) (found : m.obtain k now = Option.none) :
    m.handOff k r now = m.lose k := by
  unfold StreamManager.handOff
  rw [none, found]

/-- R142: the pool's head, within the quota. -/
theorem obtain_of_pool {page : Fin 128} {rest : List (Fin 128)} (pool : m.pool = page :: rest)
    (within : m.streams[k].pages.length < m.streams[k].config.quota) :
    m.obtain k now =
      some ({ m with pool := rest, streams := put m.streams k (filledBy m.streams[k] page now) }, []) := by
  unfold StreamManager.obtain
  rw [pool]
  exact if_pos within

/-- R143: no page of the pool is free to the stream. -/
theorem obtain_of_no_pool (exhausted : m.pool = [] ∨ m.streams[k].config.quota ≤ m.streams[k].pages.length) :
    m.obtain k now = m.reclaim k now := by
  unfold StreamManager.obtain
  split
  · rfl
  next page rest pool =>
    rcases exhausted with empty | full
    · rw [pool] at empty
      exact absurd empty nofun
    · exact if_neg (Nat.not_lt.2 full)

theorem reclaim_of_none (none : m.streams[k].config.policy = .dropNew ∨ m.streams[k].full = []) :
    m.reclaim k now = Option.none := by
  unfold StreamManager.reclaim
  rcases none with policy | full
  · rw [policy]
  · rw [full]
    cases m.streams[k].config.policy <;> rfl

theorem reclaim_of_full {c : ClosedPage} {rest : List ClosedPage}
    (policy : m.streams[k].config.policy = .reclaimOldest) (full : m.streams[k].full = c :: rest) :
    m.reclaim k now =
      some
        ({ m with
            streams :=
              put m.streams k
                (filledBy
                  { m.streams[k] with
                    full := rest, loss := BitVec.ofNat 16 (min (m.streams[k].loss.toNat + c.records) 65535) }
                  c.page now) },
          [.pageReclaimed k c.seq]) := by
  unfold StreamManager.reclaim
  simp only [policy, full]
  rfl

/-- R146, R147: the record on a page that has just become the filling page. -/
theorem stored_of_filled {n : StreamManager} {page : Fin 128} {y : Stream} (canonical : n.memory.wf = true)
    (stream : n.streams[k] = filledBy y page now) (seq : y.nextSeq = x.nextSeq)
    (opened : f = { page := page, seq := x.nextSeq, words := 0, records := 0, openTime := now }) :
    Stored n k f r now (n.store k r now) := by
  subst opened
  refine stored_store canonical ?_ rfl r now
  rw [stream, filledBy, seq]

end

/-- Settles O44, by what the stream holds. -/
theorem recordHandedToStream : Obligations.RecordHandedToStream := by
  refine ⟨header_toNat, fun s k kind status entry value n events handed => handSetRecord_of_handOff handed, ?_⟩
  rintro m n k r now x events canonical rfl handed
  refine ⟨fun f filling written _ => ?_, fun page rest f none pool within opened => ?_, fun none exhausted => ?_⟩
  · rw [handOff_of_filling filling written] at handed
    obtain ⟨rfl, rfl⟩ := Prod.mk.inj handed
    exact ⟨appended_append canonical filling r now, rfl⟩
  · rw [handOff_of_obtain none (obtain_of_pool pool (by rwa [pages_length_of_none none]))] at handed
    obtain ⟨rfl, rfl⟩ := Prod.mk.inj handed
    exact ⟨stored_of_filled (by exact canonical) ((put_get _ _ _ _).trans (if_pos rfl)) rfl opened, rfl⟩
  · rw [← pages_length_of_none none] at exhausted
    have found := obtain_of_no_pool (now := now) exhausted
    refine ⟨fun noneFull => ?_, fun c rest f policy full opened => ?_⟩
    · rw [handOff_of_not_obtain none (found.trans (reclaim_of_none noneFull))] at handed
      obtain ⟨rfl, rfl⟩ := Prod.mk.inj handed
      exact ⟨rfl, rfl⟩
    · rw [handOff_of_obtain none (found.trans (reclaim_of_full policy full))] at handed
      obtain ⟨rfl, rfl⟩ := Prod.mk.inj handed
      exact ⟨stored_of_filled (by exact canonical) ((put_get _ _ _ _).trans (if_pos rfl)) rfl opened, rfl⟩

end Sys2Proof.Proofs
end

