-- ==== Sys2Proof/Proofs/WindowWords.lean ====
section
/-! PROOFS. The command that a host write, a host read and a frame spell, and the line form of a frame (R172, R191). -/

namespace Sys2Proof.Proofs

open Sys2Proof.Machine Sys2Proof.Statements

/-! ### Host writes and reads -/

/-- Section 10.4: the directory, by code. -/
theorem commandOfCode_eq (value : Word) :
    commandOfCode value =
      if value.toNat = 0 then .unknownCommand value else directory.getD (value.toNat - 1) (.unknownCommand value) := by
  by_cases high : 25 ≤ value.toNat
  · rw [if_neg (by omega), List.getD_eq_default _ _ (by change 24 ≤ _; omega)]
    unfold commandOfCode
    split
    case h_25 => rfl
    all_goals omega
  · unfold commandOfCode
    generalize value.toNat = n at high ⊢
    interval_cases n <;> rfl

theorem commandOfWrite_param {offset : BitVec 6} {n : Fin 6} (place : offset.toNat = 0x03 + n.val) (value : Word) :
    commandOfWrite offset value = .paramWrite n value := by
  unfold commandOfWrite
  rw [place]
  fin_cases n <;> rfl

/-- R172: the offsets whose writes are ignored. -/
theorem commandOfWrite_ignored {offset : BitVec 6}
    (other : offset.toNat = 0x00 ∨ offset.toNat = 0x02 ∨ offset.toNat = 0x0B ∨ offset.toNat = 0x0C ∨
      0x0E ≤ offset.toNat ∧ offset.toNat ≠ 0x2B) (value : Word) :
    commandOfWrite offset value = .ignoredRegisterWrite offset value := by
  unfold commandOfWrite
  split
  case h_12 => rfl
  all_goals omega

theorem commandOfRead_data {offset : BitVec 6} {k : Fin 4} (place : offset.toNat = 0x1C + k.val) :
    commandOfRead offset = some (.strmdataRead k) := by
  unfold commandOfRead
  rw [place]
  fin_cases k <;> rfl

theorem commandOfRead_none {offset : BitVec 6} (notTime : offset.toNat ≠ 0x0B)
    (notData : offset.toNat < 0x1C ∨ 0x1F < offset.toNat) : commandOfRead offset = none := by
  unfold commandOfRead
  split
  case h_6 => rfl
  all_goals omega

/-! ### Frames -/

/-- R191: the four fields of a frame. -/
theorem frame_fields {f : Frame} {code : BitVec 4} {tag flags : BitVec 2} {payload : Word}
    (laid : f.toNat = code.toNat * 2 ^ 20 + tag.toNat * 2 ^ 18 + flags.toNat * 2 ^ 16 + payload.toNat) :
    f.extractLsb' 20 4 = code ∧ f.extractLsb' 18 2 = tag ∧ f.extractLsb' 16 2 = flags ∧
      f.extractLsb' 0 16 = payload := by
  have hcode := code.isLt
  have htag := tag.isLt
  have hflags := flags.isLt
  have hpayload := payload.isLt
  simp only [← BitVec.toNat_inj, BitVec.extractLsb'_toNat, Nat.shiftRight_eq_div_pow]
  refine ⟨?_, ?_, ?_, ?_⟩ <;> omega

/-- R102: the two flags of a SAMPLE. -/
theorem sample_flags {flags : BitVec 2} {overRange fault : Bool}
    (laid : flags.toNat = overRange.toNat * 2 + fault.toNat) :
    flags.getLsbD 1 = overRange ∧ flags.getLsbD 0 = fault := by
  simp only [BitVec.getLsbD, Nat.testBit_eq_decide_div_mod_eq, laid]
  cases overRange <;> cases fault <;> exact ⟨rfl, rfl⟩

/-- R191: the command of a frame, by its type code. -/
theorem commandOfFrame_cases {f : Frame} {code : BitVec 4} {tag flags : BitVec 2} {payload : Word}
    (laid : f.toNat = code.toNat * 2 ^ 20 + tag.toNat * 2 ^ 18 + flags.toNat * 2 ^ 16 + payload.toNat) :
    code = 0x9 ∧ commandOfFrame f = .selectAck tag flags payload ∨
    code = 0xA ∧ commandOfFrame f = .sample tag (flags.getLsbD 1) (flags.getLsbD 0) payload ∨
    code = 0xB ∧ commandOfFrame f = .resetAck tag flags payload ∨
    (code ≠ 0x9 ∧ code ≠ 0xA ∧ code ≠ 0xB) ∧ commandOfFrame f = .otherTypeFrame code tag flags payload := by
  obtain ⟨hcode, htag, hflags, hpayload⟩ := frame_fields laid
  unfold commandOfFrame
  rw [hcode, htag, hflags, hpayload]
  dsimp only
  split
  next place => exact .inl ⟨BitVec.eq_of_toNat_eq place, rfl⟩
  next place => exact .inr (.inl ⟨BitVec.eq_of_toNat_eq place, rfl⟩)
  next place => exact .inr (.inr (.inl ⟨BitVec.eq_of_toNat_eq place, rfl⟩))
  next notSelect notSample notReset =>
    refine .inr (.inr (.inr ⟨⟨?_, ?_, ?_⟩, rfl⟩))
    · rintro rfl; exact notSelect rfl
    · rintro rfl; exact notSample rfl
    · rintro rfl; exact notReset rfl

/-- R191: the frames of the part's messages as numbers. -/
theorem message_frame_toNat (tag : BitVec 2) (sel : Selection) :
    ((Message.select sel).frame tag).toNat =
      1 * 2 ^ 20 + tag.toNat * 2 ^ 18 + sel.gain.toNat * 256 + sel.channel.toNat ∧
    (Message.convert.frame tag).toNat = 2 * 2 ^ 20 + tag.toNat * 2 ^ 18 ∧
    (Message.resetFe.frame tag).toNat = 3 * 2 ^ 20 + tag.toNat * 2 ^ 18 := by
  simp only [Message.frame, toNat_append_eq_add, BitVec.toNat_ofNat]
  refine ⟨?_, ?_, ?_⟩ <;> omega

/-! ### The line form -/

/-- R191: the bits of a frame, 23 down to 0. -/
def frameBits (f : Frame) : List Bool := (List.range 24).map fun i => f.getLsbD (23 - i)

theorem lineBits_eq (f : Frame) : lineBits f = false :: frameBits f := rfl

theorem frameBits_length (f : Frame) : (frameBits f).length = 24 := by simp [frameBits]

theorem frameBits_getElem? (f : Frame) (n : Fin 24) : (frameBits f)[n.val]? = some (f.toNat.testBit (23 - n.val)) := by
  simp [frameBits, BitVec.getLsbD]

/-- Bits received one after another, the first of them highest. -/
theorem foldl_shiftConcat_getLsbD (bits : List Bool) (acc : Frame) (i : Nat) (low : i < 24) :
    (bits.foldl BitVec.shiftConcat acc).getLsbD i =
      if h : i < bits.length then bits[bits.length - 1 - i] else acc.getLsbD (i - bits.length) := by
  induction bits using List.reverseRecOn generalizing i with
  | nil => simp
  | append_singleton bits b ih =>
    rw [List.foldl_append, List.foldl_cons, List.foldl_nil, BitVec.getLsbD_shiftConcat]
    cases i with
    | zero => simp
    | succ i =>
      have := ih i (by omega)
      simp only [List.length_append, List.length_singleton, Nat.succ_lt_succ_iff, Nat.add_sub_add_right, low,
        decide_true, Bool.true_and, Nat.succ_ne_zero, if_false, Nat.add_sub_cancel]
      rw [this]
      split
      next inside =>
        rw [List.getElem_append_left (by omega)]
        congr 1
        omega
      · rfl

/-- R191: the bits of a frame, received in order, are the frame. -/
theorem foldl_frameBits (f : Frame) : (frameBits f).foldl BitVec.shiftConcat 0 = f := by
  refine BitVec.eq_of_getLsbD_eq fun i low => ?_
  rw [foldl_shiftConcat_getLsbD _ _ _ low, dif_pos (by rw [frameBits_length]; exact low)]
  simp only [frameBits, List.length_map, List.length_range, List.getElem_map, List.getElem_range]
  congr 1
  omega

/-- R191: the rest of a frame is taken with its last bit. -/
theorem commandsOfLine_taking (bits : List Bool) (some : bits ≠ []) (acc : Frame) (rest : List Bool) :
    commandsOfLine (.taking bits.length acc) (bits ++ rest) =
      commandOfFrame (bits.foldl BitVec.shiftConcat acc) :: commandsOfLine .idle rest := by
  induction bits generalizing acc with
  | nil => exact absurd rfl some
  | cons b bits ih =>
    cases bits with
    | nil => rfl
    | cons c bits => exact ih (by simp) (acc.shiftConcat b)

theorem commandsOfLine_replicate (idle : Nat) (rest : List Bool) :
    commandsOfLine .idle (List.replicate idle true ++ rest) = commandsOfLine .idle rest := by
  induction idle with
  | zero => rfl
  | succ idle ih => exact ih

/-- R191: a receiver reads the line form of a frame as that frame. -/
theorem commandsOfLine_lineBits (f : Frame) (rest : List Bool) :
    commandsOfLine .idle (lineBits f ++ rest) = commandOfFrame f :: commandsOfLine .idle rest := by
  have some : frameBits f ≠ [] := List.ne_nil_of_length_pos (by rw [frameBits_length]; omega)
  have taken := commandsOfLine_taking (frameBits f) some 0 rest
  rw [frameBits_length, foldl_frameBits] at taken
  rw [lineBits_eq, List.cons_append, commandsOfLine_start, taken]

/-- Settles O3, by the offset, the type code and the bits of the line. -/
theorem wordsSpellCommands : Obligations.WordsSpellCommands := by
  refine ⟨fun offset value => ⟨fun place => ?_, fun n place => commandOfWrite_param place value, fun place => ?_,
    fun place => ?_, fun place => ?_, fun place => ?_, fun other => commandOfWrite_ignored other value⟩,
    fun offset => ⟨fun place => ?_, fun k => commandOfRead_data, commandOfRead_none⟩,
    fun f code tag flags payload laid => ?_,
    message_frame_toNat, fun f => ⟨lineBits_length f, rfl, fun n => ?_, fun idle rest => ?_⟩⟩
  · simp only [commandOfWrite, place, commandOfCode_eq]
  · simp only [commandOfWrite, place]
  · simp only [commandOfWrite, place]
  · simp only [commandOfWrite, place]
  · simp only [commandOfWrite, place]
  · simp only [commandOfRead, place]
  · rcases commandOfFrame_cases laid with ⟨rfl, h⟩ | ⟨rfl, h⟩ | ⟨rfl, h⟩ | ⟨⟨notSelect, notSample, notReset⟩, h⟩
    · exact ⟨fun _ => h, nofun, nofun, fun other => absurd rfl other⟩
    · refine ⟨nofun, fun overRange fault _ bits => ?_, nofun, fun _ other => absurd rfl other⟩
      obtain ⟨high, low⟩ := sample_flags bits
      rw [h, high, low]
    · exact ⟨nofun, nofun, fun _ => h, fun _ _ other => absurd rfl other⟩
    · exact ⟨fun now => absurd now notSelect, fun _ _ now => absurd now notSample, fun now => absurd now notReset,
        fun _ _ _ => h⟩
  · rw [lineBits_eq, Nat.add_comm, List.getElem?_cons_succ, frameBits_getElem?]
  · rw [commandsOfLine_replicate, commandsOfLine_lineBits]

end Sys2Proof.Proofs
end
